-- ==== Sys2Proof/Word.lean ====
section
/-! DEFINITION. The word types of the Exmer 9 and their plainest arithmetic.

Bits are numbered from 0, the least significant (R1). A g register, a pointer and a system register
are 64 bits wide, a lane word of data 32 bits, memory is addressed by bytes (R2). -/

namespace Sys2Proof

/-- One byte of memory. -/
abbrev Byte := BitVec 8
/-- One lane of a row, and one scalar code word (32 bits). -/
abbrev Lane := BitVec 32
/-- A g register, a system register, a tagged pointer (64 bits). -/
abbrev Word := BitVec 64
/-- A set of lanes of one warp: bit `l` stands for lane `l`. -/
abbrev Mask := BitVec 64

/-- All 64 lanes. -/
def allLanes : Mask := 0xFFFFFFFFFFFFFFFF#64

/-- The field `[hi:lo]` of a number read as bits (R1). -/
def bits (w hi lo : Nat) : Nat := w / 2 ^ lo % 2 ^ (hi - lo + 1)

/-- The bit `[n]` of a number. -/
def bit (w n : Nat) : Bool := w / 2 ^ n % 2 == 1

/-- A truth value as the number 0 or 1. -/
def b2n (b : Bool) : Nat := if b then 1 else 0

end Sys2Proof
end

