-- ==== Sys2Proof/Config.lean ====
section
/-! DEFINITION. What one implementation fixes, and the free values.

A constant here has no body: no proof can see what it is, so a claim about the model holds whatever it is. -/

namespace Sys2Proof

/-- Free choices (R5). Where the manual lists several outcomes and one instruction of the model makes the
choice, it takes `Config.freeNat` of the counter `State.fresh` and advances the counter.
DESIGN CHOICE, log 1. -/
opaque Config.freeNat : Nat → Nat

/-- The SHA-384 digest of the provisioning key, in fuses (R342, R343). PRESUMED, log 7. -/
opaque Config.fusedHash : List Byte

/-- The private identity key (R342, R344). PRESUMED, log 7. -/
opaque Config.identityKey : Nat

/-- The nonces of signatures. PRESUMED, log 7. -/
opaque Config.signNonce : List Byte → Nat

/-- The DER certificate chain of the identity key (R344). PRESUMED, log 7. -/
opaque Config.certChain : List Byte

/-- The module serial number (R342, R344). PRESUMED, log 7. -/
opaque Config.serial : Word

/-- The stepping of IDENT[15:8] (R339). PRESUMED, log 7. -/
opaque Config.stepping : Byte

/-- The byte format of a firmware image, which the manual leaves open (R343): version, body, digest, key, signature. PRESUMED, log 7. -/
opaque Config.parseImage : List Byte → Nat × List Byte × List Byte × List Byte × List Byte

/-- The byte format of an authorisation, which the manual leaves open (R342): key, signature. PRESUMED, log 7. -/
opaque Config.parseAuth : List Byte → List Byte × List Byte

/-- How far the range of a current monitor reaches above 36 A, in mA, less one (R391). PRESUMED, log 74. -/
opaque Config.currentSpan : Nat

/-- The hash of a line address by which the home slice of the line is chosen (R11). PRESUMED, log 4. -/
opaque Config.lineHash : Nat → Nat

/-- The hash of a line address that indexes the contention counters of its home slice (R192). PRESUMED, log 4. -/
opaque Config.counterHash : Nat → Nat

/-- The 128-byte lines of near memory, 320 GiB (R10). -/
def Config.nearLines : Nat := 320 * 2 ^ 23
/-- The 128-byte lines of far memory, 1,024 GiB (R10). -/
def Config.farLines : Nat := 1024 * 2 ^ 23
/-- The lines of the 52-bit physical space that lie in neither tier (R2, R10). -/
def Config.spareLines : Nat := 2 ^ 45 - Config.nearLines - Config.farLines

/-- Near memory lies below far memory. PRESUMED, log 4. -/
opaque Config.nearFirst : Bool
/-- The lines below the lower tier and those between the tiers, without their limits. PRESUMED, log 4. -/
opaque Config.freeGaps : Nat × Nat

/-- The lines below the lower tier. PRESUMED, log 4. -/
def Config.gapBelow : Nat := Config.freeGaps.1 % (Config.spareLines + 1)
/-- The lines between the tiers. PRESUMED, log 4. -/
def Config.gapBetween : Nat := Config.freeGaps.2 % (Config.spareLines - Config.gapBelow + 1)

/-- The first line of near memory: the tiers do not meet, and both lie in the physical space (R10). PRESUMED, log 4. -/
def Config.nearBase : Nat := Config.gapBelow + if Config.nearFirst then 0 else Config.farLines + Config.gapBetween
/-- The first line of far memory. PRESUMED, log 4. -/
def Config.farBase : Nat := Config.gapBelow + if Config.nearFirst then Config.nearLines + Config.gapBetween else 0

/-- A line of near memory (R10). -/
def Config.isNear (line : Nat) : Bool := Config.nearBase ≤ line && line < Config.nearBase + Config.nearLines
/-- A line of far memory (R10). -/
def Config.isFar (line : Nat) : Bool := Config.farBase ≤ line && line < Config.farBase + Config.farLines

/-- How many lines of a tier follow each other on one controller or channel, as a power of two and without its limit. PRESUMED, log 4. -/
opaque Config.freeRun : Nat
/-- In which order runs of lines go round the controllers or channels. PRESUMED, log 4. -/
opaque Config.turn : Nat → Nat

/-- The controller or channel of the line with a number in its tier, one of 32 with equal shares (R10). PRESUMED, log 4. -/
def Config.spread (n : Nat) : Nat :=
  let run := n / 2 ^ (Config.freeRun % 24)
  (run + Config.turn (run / 32)) % 32

/-- The domain of the near-memory controller or far-memory channel that holds a line (R10, R366, Table 16.1); a line of neither tier has
none. PRESUMED, log 4. -/
def Config.lineMemory (line : Nat) : Option Nat :=
  if Config.isNear line then some (1056 + Config.spread (line - Config.nearBase))
  else if Config.isFar line then some (1088 + Config.spread (line - Config.farBase))
  else none

/-- The bytes of a dirty line that a reset or a scrub of its slice has lost, by the counter and the address (R368, R371). DESIGN CHOICE, log 72. -/
opaque Config.lostByte : Nat → Nat → Byte

/-- The number of ranks of a gang (R233), which the fabric manager gives, one less and without its limit. DESIGN CHOICE, log 15. -/
opaque Config.freeGangSize : BitVec 16 → Nat

/-- The number of ranks of a gang: at least one, and at most 2,048 (R233). DESIGN CHOICE, log 15. -/
def Config.gangSize (gang : BitVec 16) : Nat := 1 + Config.freeGangSize gang % 2048

/-- The sizes of the pod's torus, one less and without their limits. DESIGN CHOICE, log 15. -/
opaque Config.freeRings : Nat × Nat × Nat

/-- The modules of a ring of the pod in x, y and z (R236): at most 8, 16 and 16 (R13). DESIGN CHOICE, log 15. -/
def Config.ringSize : Nat × Nat × Nat :=
  (1 + Config.freeRings.1 % 8, 1 + Config.freeRings.2.1 % 16, 1 + Config.freeRings.2.2 % 16)

/-- The places of the ranks of a gang, without their limits. DESIGN CHOICE, log 15. -/
opaque Config.freeCoords : BitVec 16 → Nat → Nat × Nat × Nat

/-- The pod coordinates of a rank of a gang (R233), which the fabric manager gives: a place of the torus. DESIGN CHOICE, log 15. -/
def Config.coords (gang : BitVec 16) (rank : Nat) : Nat × Nat × Nat :=
  let c := Config.freeCoords gang rank
  let n := Config.ringSize
  (c.1 % n.1, c.2.1 % n.2.1, c.2.2 % n.2.2)

/-- A lane word with no active lane takes the alias-write fault where its destination has an alias: R316 says that it does, R110 and R201 that it
takes no such fault. DESIGN CHOICE, log 86. -/
opaque Config.aliasInactive : Bool

end Sys2Proof
end

