-- ==== Sys2Proof/Syntax.lean ====
section
/-! DEFINITION. The syntax of the machine: one constructor of `Instr` for each row of the opcode table. The first
93 are scalar words (R44 to R54), the next 72 lane words (R55 to R65), the rest events of the machine (file 95),
which have no encoding and arise from outside a program or from its engines. -/

namespace Sys2Proof

/-! ## Fields of scalar words -/

/-- Conditions of SCMP and SCMPI (Table 3.2); value 7 is reserved and has no constructor. -/
inductive Cond where
  | eq | ne | lt | ge | ltu | geu | tst
  deriving DecidableEq, Repr

/-- Scopes (Table 3.2); values 5 to 7 are reserved. -/
inductive Scope where
  | warp | team | device | gang | system
  deriving DecidableEq, Repr

/-- Orders (Table 3.2). -/
inductive Order where
  | relaxed | acquire | release | acqRel
  deriving DecidableEq, Repr

/-- Operations of QLOG (R119). -/
inductive QOp where
  | and | or | xor | andn | not
  deriving DecidableEq, Repr

/-- Operations of SATOM (Table 3.6). -/
inductive SatomOp where
  | add | and | or | xor | smin | smax | swap
  deriving DecidableEq, Repr

/-- Kinds of FENCE (Table 3.6). -/
inductive FenceKind where
  | acquire | release | full
  deriving DecidableEq, Repr

/-- Key types of TOPK (R306). -/
inductive KeyType where
  | s32 | u32 | f32
  deriving DecidableEq, Repr

/-- The fields that every engine command shares (Table 3.8): issue predicate, descriptor base, completion barrier
register, scope, acquire and release bits. -/
structure EngOps where
  q : Fin 8
  a : Fin 64
  b : Fin 64
  s : Scope
  acq : Bool
  rel : Bool
  deriving DecidableEq, Repr

/-! ## Fields of lane words -/

/-- Operand types (Table 3.12). -/
inductive Ty where
  | s32 | u32 | s64 | u64 | f32 | f64 | h2 | b2 | e4 | e5 | t8 | t6 | s8x4 | u8x4
  deriving DecidableEq, Repr

/-- A 10-bit source field (Table 3.11). -/
inductive Src where
  | vec (n : Fin 512)
  | latch (n : Fin 4)
  | greg (n : Fin 64)
  | imm (v : BitVec 7)
  | zero | lane | warp | team | imm24 | fimm | ones
  deriving DecidableEq, Repr

/-- Rounding fields (R61). -/
inductive Rnd where
  | rne | rtz | rdn | rup | dyn
  deriving DecidableEq, Repr

/-- Widths of lane memory accesses (R62), in the order of their codes. -/
inductive Width where
  | w8 | w16 | w32 | w64 | w128
  deriving DecidableEq, Repr

/-- The fields common to every lane word (Table 3.10): guard, chain bit and destination. -/
structure LaneHead where
  gneg : Bool
  guard : Fin 8
  chain : Bool
  nowb : Bool
  latch : Fin 4
  name : Fin 512
  deriving DecidableEq, Repr

/-- The arithmetic aux layout (R61). -/
structure Mods where
  rnd : Rnd
  negA : Bool
  negB : Bool
  negC : Bool
  absA : Bool
  absB : Bool
  sat : Bool
  deriving DecidableEq, Repr

/-- A lane word with the arithmetic layout. -/
structure ArithOps where
  h : LaneHead
  a : Src
  b : Src
  c : Src
  ty : Ty
  m : Mods
  imm : BitVec 24
  deriving DecidableEq, Repr

/-- A lane word with the memory layout (R62). `uni` is the address mode bit: a uniform base and a lane offset. -/
structure MemOps where
  h : LaneHead
  a : Src
  b : Src
  c : Src
  ty : Ty
  scope : Scope
  order : Order
  width : Width
  hint : Fin 4
  uni : Bool
  imm : BitVec 24
  deriving DecidableEq, Repr

/-- A lane word with the control layout (R63). -/
structure CtlOps where
  h : LaneHead
  pred : Fin 8
  pneg : Bool
  imm : BitVec 24
  deriving DecidableEq, Repr

/-! ## Operands of events -/

/-- The two host ports (R14, R339). -/
inductive Port where
  | a | b
  deriving DecidableEq, Repr

/-- Who reads SEMTAKE: one port, or both ports in the same clock (R341). -/
inductive Takers where
  | one (p : Port)
  | both
  deriving DecidableEq, Repr

/-- A launch queue (Table 11.3): a device queue of a die and a priority, or a host ring of a port. -/
inductive QueueId where
  | dev (die : Fin 4) (prio : Fin 4)
  | host (p : Port) (q : Fin 64)
  deriving DecidableEq, Repr

/-- The name of an agent: warp `w` of team `t`, or drop `d` of team `t`. Team and drop numbers are the model's own
identifiers and are never used again. -/
inductive AgentId where
  | warp (t w : Nat)
  | drop (t d : Nat)
  deriving DecidableEq, Repr

/-- A hop operation of a packet (Table 10.2). -/
inductive HopOp where
  | fwd | addS64 | addS32 | addF32 | addB2 | maxS64 | maxS32 | maxF32 | dlv | dlvf | bar
  deriving DecidableEq, Repr

/-- What a packet carries to the place where its final hop acts. -/
inductive PacketKind where
  | put | notice | collective
  deriving DecidableEq, Repr

/-- A packet (R234, R235): the fields of its hat and its payload. Route byte `none` is the byte 0xFF, local. `kind`, `cmd`, `total`, the number
of payload offsets of its command, and `down`, which says that it is on the down pass of its collective (R239), are the model's own: the hat has
no field for them. (DESIGN CHOICE, log 97) -/
structure Packet where
  kind : PacketKind
  route : List (Option (Fin 18))
  ops : List HopOp
  overflow : Bool
  encrypted : Bool
  gang : BitVec 16
  srcRank : BitVec 16
  coll : BitVec 16
  slot : Fin 8
  offset : Nat
  payload : List Byte
  cmd : Nat
  total : Nat := 1
  down : Bool := false
  deriving DecidableEq, Repr

/-- The TLBs (R186): a core's, which its engines' micro-TLBs share in this model, a cluster's and a die's. (DESIGN CHOICE, log 70) -/
inductive TlbLevel where
  | core (n : Nat)
  | cluster (n : Nat)
  | die (n : Nat)
  deriving DecidableEq, Repr

/-- Where an uncorrectable error is consumed (Table 16.2). -/
inductive ErrorPlace where
  /-- a clean L1 or L2 line at a physical line address; the sectors for which the second fetch fails as well -/
  | cleanLine (line : Nat) (lost : List (Fin 4))
  /-- an entry tagged 0x0000 -/
  | freeEntry (domain : Nat)
  /-- a row of a team -/
  | row (team rank row : Nat)
  /-- a scratchpad word of a team -/
  | scratch (team rank off : Nat)
  /-- an accumulator word of a team -/
  | accum (team rank off : Nat)
  /-- a slot or queue entry of a team or an agent that wears a context's tag, in a domain -/
  | tagged (ctx : BitVec 16) (domain : Nat)
  /-- an entry of a device launch queue, by 4·die + priority and place -/
  | launchEntry (queue place : Nat)
  /-- a launch that the distributor has taken from a queue -/
  | head (q : QueueId)
  /-- the walk of an address that a TLB holds -/
  | walk (level : TlbLevel) (ctx : BitVec 16) (host : Bool) (va : Nat)
  /-- a pending write of the host write path, by place -/
  | hostWrite (place : Nat)
  /-- a dirty line at a physical line address, with the affected sectors -/
  | sharedLine (line : Nat) (sectors : List (Fin 4))
  /-- a device-tagged entry of a domain -/
  | device (domain : Nat)
  /-- device-tagged state of the distributor, the fabric unit, the host command unit or the power controller -/
  | noDomain
  /-- a physical sector that arrives poisoned from memory -/
  | sector (sector : Nat)
  /-- a host sector of a port that arrives poisoned -/
  | hostSector (p : Port) (sector : Nat)
  deriving DecidableEq, Repr

/-- How a peer module answers the packets of one fabric command (R245): all performed, or some bytes lost with a
first error code. -/
structure FabricAnswer where
  err : Byte
  deriving DecidableEq, Repr

/-- What the governor measures over the last microsecond (R387): the draw of everything else in mW, the busy
fractions of links and clusters in parts of 1,000,000, and which consumers were throttled throughout. -/
structure GovInput where
  draw : Nat
  linkBusy : List Nat
  clusterBusy : List Nat
  linkThrottled : List Bool
  clusterThrottled : List Bool
  deriving DecidableEq, Repr

/-- Where TEAM_RESTORE places a team: cluster number, the first row number of the search on each core, and whether the teams of its grid are
restored together, as those of a grid that was saved whole (R41). -/
structure RestorePlace where
  cluster : Nat
  rowBase : Nat
  whole : Bool := false
  deriving DecidableEq, Repr

/-- Operand of a drop start: a landed burst of an HREAD command, or a landing of a team's slot. -/
inductive DropSource where
  | burst (cmd : Nat) (n : Nat)
  | landing (team : Nat) (slot : Fin 8)
  deriving DecidableEq, Repr

/-- The instructions and events of the Exmer 9, one constructor for each row of the opcode table. -/
inductive Instr where
  -- op 0x00, format S-R (Table 3.5)
  | sadd (d a b : Fin 64)
  | ssub (d a b : Fin 64)
  | smul (d a b : Fin 64)
  | smulh (d a b : Fin 64)
  | smulhu (d a b : Fin 64)
  | sdiv (d a b : Fin 64)
  | sdivu (d a b : Fin 64)
  | srem (d a b : Fin 64)
  | sremu (d a b : Fin 64)
  | sand (d a b : Fin 64)
  | sor (d a b : Fin 64)
  | sxor (d a b : Fin 64)
  | sandn (d a b : Fin 64)
  | sshl (d a b : Fin 64)
  | sshr (d a b : Fin 64)
  | ssar (d a b : Fin 64)
  | smin (d a b : Fin 64)
  | smax (d a b : Fin 64)
  | sminu (d a b : Fin 64)
  | smaxu (d a b : Fin 64)
  | spopc (d a : Fin 64)
  | sclz (d a : Fin 64)
  | sctz (d a : Fin 64)
  -- immediate forms (Table 6.2), SLUI, SLPC
  | saddi (d a : Fin 64) (i : BitVec 14)
  | sandi (d a : Fin 64) (i : BitVec 14)
  | sori (d a : Fin 64) (i : BitVec 14)
  | sxori (d a : Fin 64) (i : BitVec 14)
  | sshli (d a n : Fin 64)
  | sshri (d a n : Fin 64)
  | ssari (d a n : Fin 64)
  | slui (d : Fin 64) (i : BitVec 20)
  | slpc (d : Fin 64) (i : BitVec 20)
  -- compares, select, predicates
  | scmp (q : Fin 8) (c : Cond) (a b : Fin 64)
  | scmpi (q : Fin 8) (c : Cond) (a : Fin 64) (i : BitVec 14)
  | ssel (d a b : Fin 64) (p : Fin 8)
  | qlog (d a b : Fin 8) (f : QOp)
  -- control
  | br (q : Fin 8) (n : Bool) (o : BitVec 22)
  | call (o : BitVec 22)
  | jr (d a : Fin 64)
  | lrun (q : Fin 8) (n : Bool) (o : BitVec 22)
  | lsync
  -- scalar memory
  | sld64 (d a : Fin 64) (i : BitVec 14)
  | sld32 (d a : Fin 64) (i : BitVec 14)
  | sst64 (d a : Fin 64) (i : BitVec 14)
  | sst32 (d a : Fin 64) (i : BitVec 14)
  | satom (d a b : Fin 64) (s : Scope) (o : Order) (f : SatomOp)
  | scas (d a b : Fin 64) (s : Scope) (o : Order)
  | fence (s : Scope) (k : FenceKind)
  -- map edits and transfers (Table 3.7)
  | mswap (a b : Fin 512)
  | mrot (a : Fin 512) (k : Fin 32)
  | mfree (a : Fin 512) (k : Fin 32)
  | malias (a b : Fin 512)
  | mmove (a b : Fin 512)
  | mtag (a : Fin 512) (t : BitVec 4) (k : Fin 32)
  | mgive (a : Fin 512) (k : Fin 32)
  | mtake (b : Fin 512) (k : Fin 32)
  | mplace (a b : Fin 512) (k : Fin 32)
  | mqry (d : Fin 64) (n : Fin 512)
  -- barrier operations (Table 12.2)
  | binit (a b : Fin 64) (s : Scope)
  | barr (a b : Fin 64) (s : Scope)
  | bexp (a b : Fin 64) (s : Scope)
  | bwait (a b : Fin 64) (s : Scope)
  | btest (q : Fin 8) (a b : Fin 64) (s : Scope)
  | bclr (a : Fin 64) (s : Scope)
  | bphase (a b : Fin 64) (s : Scope)
  -- engine commands
  | cpy (e : EngOps) (t : Fin 16) (n : Fin 4)
  | hread (e : EngOps)
  | hland (e : EngOps)
  | hend
  | mmac (e : EngOps)
  | azero (e : EngOps)
  | ard (e : EngOps)
  | awr (e : EngOps)
  | topk (e : EngOps) (k : KeyType) (col bot : Bool)
  | fput (e : EngOps)
  | fputh (e : EngOps)
  | fcoll (e : EngOps)
  | fcont (e : EngOps)
  -- launch, tasks, publication, power, system
  | launch (q : Fin 8) (a b : Fin 64)
  | tdef (a b : Fin 64)
  | tsub (b : Fin 64)
  | tget (q : Fin 8) (a : Fin 64)
  | publ (a : Fin 64)
  | plvl (d a : Fin 64)
  | region
  | phint (a : Fin 64) (bitmap : BitVec 64)
  | srd (d : Fin 64) (s : BitVec 12)
  | swr (d : Fin 64) (s : BitVec 12)
  | nop
  | trap (b : Fin 64)
  | halt
  | eret
  | brk
  -- lane integer
  | iadd (w : ArithOps)
  | isub (w : ArithOps)
  | imul (w : ArithOps)
  | imulh (w : ArithOps)
  | imad (w : ArithOps)
  | imadw (w : ArithOps)
  | idp4 (w : ArithOps)
  | iabs (w : ArithOps)
  | iand (w : ArithOps)
  | ior (w : ArithOps)
  | ixor (w : ArithOps)
  | iandn (w : ArithOps)
  | ishl (w : ArithOps)
  | ishr (w : ArithOps)
  | isar (w : ArithOps)
  | ilop3 (w : ArithOps)
  | imin (w : ArithOps)
  | imax (w : ArithOps)
  | popc (w : ArithOps)
  | clz (w : ArithOps)
  | brev (w : ArithOps)
  | bfe (w : ArithOps)
  | bfi (w : ArithOps)
  | isetp (w : ArithOps)
  | sel (w : ArithOps)
  | mov (w : ArithOps)
  | plane (w : ArithOps)
  -- lane float
  | fadd (w : ArithOps)
  | fsub (w : ArithOps)
  | fmul (w : ArithOps)
  | ffma (w : ArithOps)
  | fmin (w : ArithOps)
  | fmax (w : ArithOps)
  | fsetp (w : ArithOps)
  | fclass (w : ArithOps)
  | fdiv (w : ArithOps)
  | fsqrt (w : ArithOps)
  | frcp (w : ArithOps)
  | frsq (w : ArithOps)
  | fexp2 (w : ArithOps)
  | flog2 (w : ArithOps)
  | fsin (w : ArithOps)
  | fcos (w : ArithOps)
  | ftanh (w : ArithOps)
  | fscale (w : ArithOps)
  -- conversions
  | cvt (w : ArithOps)
  | qnt (w : ArithOps)
  | dqnt (w : ArithOps)
  | cvtq (w : ArithOps)
  | cvtf (w : ArithOps)
  | pack (w : ArithOps)
  | unpk (w : ArithOps)
  -- cross-lane
  | shfl (w : ArithOps)
  | ballot (w : ArithOps)
  | vote (w : ArithOps)
  | lred (w : ArithOps)
  | lscan (w : ArithOps)
  -- lane memory
  | vld (w : MemOps)
  | vst (w : MemOps)
  | vldn (w : MemOps)
  | vstn (w : MemOps)
  | atom (w : MemOps)
  | acas (w : MemOps)
  | red (w : MemOps)
  | vpref (w : MemOps)
  -- lane control
  | brd (w : CtlOps)
  | jmark (w : CtlOps)
  | join (w : CtlOps)
  | lend (w : CtlOps)
  | ljmp (w : CtlOps)
  | lnop (w : CtlOps)
  | ltrap (w : CtlOps)
  -- host registers and commands
  | qtailWrite (p : Port) (q : Fin 64) (v : Word)
  | qbaseWrite (p : Port) (q : Fin 64) (v : Word)
  | porterrWrite (p : Port) (v : Word)
  | semtake (n : Fin 32) (by_ : Takers)
  | semrel (n : Fin 32) (p : Port)
  | hostRegWrite (p : Port) (off : Nat) (v : Word)
  | ctxcreate (p : Port)
  | ctxdestroy (p : Port)
  | ctxdestroyComplete (p : Port)
  | inval (p : Port)
  | invalComplete (p : Port)
  | faultreply (p : Port)
  | domreset (p : Port)
  | lcchange (p : Port)
  | fwupdate (p : Port)
  | attest (p : Port)
  | hostCmdUnknown (p : Port) (code : Byte)
  | portLinkDown (p : Port)
  | smbusPowerLimit (v : BitVec 16)
  | moduleReset
  | wipeDone
  -- launch and placement
  | launchEntryTake (q : QueueId)
  | launchHeadAge (q : QueueId)
  | gridPlace (rowBase : Nat)
  | frameTeamStart (grid slot rowBase : Nat)
  | rowZeroed (team rank row : Nat)
  | preemptRequest (q : QueueId)
  | preemptForce (team : Nat)
  | teamSave (team : Nat)
  | teamRestore (saved : Nat) (at_ : RestorePlace)
  | faultDeliver (ag : AgentId)
  -- engines
  | matrixComplete (core : Nat)
  | cpyBurst (cmd n : Nat)
  | cpyComplete (cmd : Nat)
  | hreadBurstLand (cmd n : Nat)
  | dropStart (src : DropSource)
  | lastBurst (cmd : Nat)
  | finalDropStart (cmd : Nat)
  | topkComplete (cmd : Nat)
  -- fabric
  | fabricPacketArrive (pk : Packet) (link : Option (Fin 18))
  | fabricComplete (cmd : Nat) (ans : FabricAnswer)
  | landing (team : Nat) (slot : Fin 8)
  | flitRetry (link : Fin 18)
  | gangRegister (gang : BitVec 16) (rank : Nat)
  | gangWatchdog (gang : BitVec 16)
  -- errors
  | ueConsumed (at_ : ErrorPlace)
  | domainReadmit (domain : Nat)
  | patrolScrub (at_ : Option ErrorPlace) (domain : Nat)
  | correctableThreshold (domain : Nat)
  | timingRepeat (cluster : Fin 96)
  | replayThreshold (cluster : Fin 96)
  | predictorDecay
  -- power and heat
  | governorStep (g : GovInput)
  | capLower (cluster : Fin 96)
  | capRaise (cluster : Fin 96)
  | passHoldExpire (cluster : Fin 96)
  | passDouble (cluster : Fin 96)
  | passHalve (cluster : Fin 96)
  | levelChangeDone (cluster : Fin 96)
  | sensorSample (raw : List Int)
  | damageUpdate
  | thermalCapLift (region : Fin 64)
  | tripRelease
  | linkRetrainDone (link : Fin 18)
  | portLinkUp (p : Port) (lanes rate : Nat) (atomicOp : Bool)
  deriving DecidableEq, Repr

/-- The events: the constructors that no code word encodes (file 95). -/
def Instr.isEvent : Instr → Bool
  | .qtailWrite .. | .qbaseWrite .. | .porterrWrite .. | .semtake .. | .semrel .. | .hostRegWrite .. | .ctxcreate ..
  | .ctxdestroy .. | .ctxdestroyComplete .. | .inval .. | .invalComplete .. | .faultreply .. | .domreset ..
  | .lcchange .. | .fwupdate .. | .attest .. | .hostCmdUnknown .. | .portLinkDown .. | .smbusPowerLimit ..
  | .moduleReset | .wipeDone | .launchEntryTake .. | .launchHeadAge .. | .gridPlace .. | .frameTeamStart ..
  | .rowZeroed .. | .preemptRequest .. | .preemptForce .. | .teamSave .. | .teamRestore .. | .faultDeliver ..
  | .matrixComplete .. | .cpyBurst .. | .cpyComplete .. | .hreadBurstLand .. | .dropStart .. | .lastBurst ..
  | .finalDropStart .. | .topkComplete .. | .fabricPacketArrive .. | .fabricComplete .. | .landing .. | .flitRetry ..
  | .gangRegister .. | .gangWatchdog .. | .ueConsumed .. | .domainReadmit .. | .patrolScrub ..
  | .correctableThreshold .. | .timingRepeat .. | .replayThreshold .. | .predictorDecay | .governorStep ..
  | .capLower .. | .capRaise .. | .passHoldExpire .. | .passDouble .. | .passHalve .. | .levelChangeDone ..
  | .sensorSample .. | .damageUpdate | .thermalCapLift .. | .tripRelease | .linkRetrainDone .. | .portLinkUp .. => true
  | _ => false

end Sys2Proof
end

