-- ==== Sys2Proof/WellFormed.lean ====
section
/-! DEFINITION. Which instruction terms are well formed: the limits of Tables 3.4, 3.7, 3.8, 3.14, 3.15, 3.17, 6.4, 6.5
and 8.6 that depend on the word alone. A word whose term is not well formed takes the illegal-instruction fault
0x01 (R42). -/

namespace Sys2Proof

/-! ## Types -/

/-- 64-bit types, held in a name pair (Table 3.12). -/
def Ty.wide : Ty → Bool
  | .s64 | .u64 | .f64 => true
  | _ => false

/-- The four plain integer types. -/
def tyInt4 : List Ty := [.s32, .u32, .s64, .u64]
/-- The integer types with the packed ones (Table 6.4). -/
def tyInt6 : List Ty := [.s32, .u32, .s64, .u64, .s8x4, .u8x4]
/-- The types of FADD and its like (Table 6.5). -/
def tyFloat4 : List Ty := [.f32, .f64, .h2, .b2]
/-- The types of reductions (R145). -/
def tyRed : List Ty := [.s32, .u32, .s64, .u64, .f32, .f64]
/-- The narrow float types of QNT and DQNT. -/
def tyNarrow : List Ty := [.e4, .e5, .t8, .t6]
/-- The packed types of PACK and UNPK (R141). -/
def tyPacked : List Ty := [.h2, .b2, .e4, .e5, .t8, .t6, .s8x4, .u8x4]
/-- Every type (Table 3.12). -/
def tyAll : List Ty := [.s32, .u32, .s64, .u64, .f32, .f64, .h2, .b2, .e4, .e5, .t8, .t6, .s8x4, .u8x4]

/-- Elements in one lane word of a type (R96, R136). -/
def Ty.count : Ty → Nat
  | .s32 | .u32 | .s64 | .u64 | .f32 | .f64 => 1
  | .h2 | .b2 => 2
  | .e4 | .e5 | .t8 | .s8x4 | .u8x4 => 4
  | .t6 => 5

/-- The code of a type in bits [40:36] (Table 3.12). -/
def Ty.code : Ty → Nat
  | .s32 => 0 | .u32 => 1 | .s64 => 2 | .u64 => 3 | .f32 => 4 | .f64 => 5 | .h2 => 6 | .b2 => 7
  | .e4 => 12 | .e5 => 13 | .t8 => 14 | .t6 => 15 | .s8x4 => 16 | .u8x4 => 17

/-- The type of a code; every other value is reserved (R60). -/
def Ty.ofCode : Nat → Option Ty
  | 0 => some .s32 | 1 => some .u32 | 2 => some .s64 | 3 => some .u64 | 4 => some .f32 | 5 => some .f64
  | 6 => some .h2 | 7 => some .b2 | 12 => some .e4 | 13 => some .e5 | 14 => some .t8 | 15 => some .t6
  | 16 => some .s8x4 | 17 => some .u8x4
  | _ => none

/-! ## System registers -/

/-- The system registers that Table 3.15 allocates. -/
def sregAllocated (n : BitVec 12) : Bool :=
  n ∈ [0x000#12, 0x001#12, 0x002#12, 0x003#12, 0x004#12, 0x005#12, 0x006#12, 0x007#12, 0x010#12, 0x011#12,
    0x020#12, 0x021#12, 0x030#12, 0x031#12, 0x032#12, 0x040#12, 0x041#12, 0x042#12]

/-! ## Lane words: sources and destination -/

/-- A source that carries its value in imm24 (R56). -/
def Src.usesImm24 : Src → Bool
  | .imm24 | .fimm => true
  | _ => false

/-- An unused source field is zero, which is the pattern of v0 (R56). -/
def Src.unused (s : Src) : Bool := s == .vec 0

/-- A vector-name source of a 64-bit operand is even (R60). -/
def Src.evenIf (wide : Bool) : Src → Bool
  | .vec n => !wide || n.val % 2 == 0
  | _ => true

/-- A source of address mode 1, and of VLDN and VSTN: a g register or a special (R62). -/
def Src.uniform : Src → Bool
  | .vec _ | .latch _ | .imm _ => false
  | _ => true

/-- Kinds of destination (R58, Table 3.17). -/
inductive Dest where
  | name | pair | greg | pred | none
  deriving DecidableEq, Repr

/-- What R35, R58 and R60 ask of the destination fields. -/
def destWf (d : Dest) (h : LaneHead) : Bool :=
  match d with
  | .name => !h.nowb || h.name == 0
  | .pair => if h.nowb then h.name == 0 else h.name.val % 2 == 0
  | .greg => !h.nowb && h.latch == 0 && h.name.val < 64
  | .pred => !h.nowb && h.latch == 0 && h.name.val < 8
  | .none => !h.nowb && h.latch == 0 && h.name == 0

/-- The encoding limits of one arithmetic lane word: types, sources with their widths, destination, accepted
modifiers, and the small fields of imm24 (`none`: imm24 carries only special 4 or 5). -/
structure ArithSpec where
  tys : List Ty
  a : Option Bool
  b : Option Bool
  c : Option Bool
  dest : Dest
  rnd : Bool := false
  sat : Bool := false
  negA : Bool := false
  negB : Bool := false
  negC : Bool := false
  absA : Bool := false
  absB : Bool := false
  imm : Option Bool := none

/-- A used source is even where its operand is 64-bit, an unused one is zero. -/
def srcWf (use : Option Bool) (s : Src) : Bool :=
  match use with
  | some wide => s.evenIf wide
  | none => s.unused

/-- imm24 is reserved where no field lies in it and no source selects special 4 or 5; with fields, no source may
select them (R56). -/
def immWf (small : Option Bool) (srcs : List Src) (imm : BitVec 24) : Bool :=
  match small with
  | some ok => ok && srcs.all (fun s => !s.usesImm24)
  | none => srcs.any Src.usesImm24 || imm == 0

/-- The word meets its specification (R42, R56, R58, R60, R61). -/
def arithWf (sp : ArithSpec) (w : ArithOps) : Bool :=
  sp.tys.contains w.ty
  && srcWf sp.a w.a && srcWf sp.b w.b && srcWf sp.c w.c
  && destWf sp.dest w.h
  && (sp.rnd || w.m.rnd == .rne) && (sp.sat || !w.m.sat)
  && (sp.negA || !w.m.negA) && (sp.negB || !w.m.negB) && (sp.negC || !w.m.negC)
  && (sp.absA || !w.m.absA) && (sp.absB || !w.m.absB)
  && immWf sp.imm [w.a, w.b, w.c] w.imm

/-- The destination of a result of a type. -/
def destOf (t : Ty) : Dest := if t.wide then .pair else .name

/-! ### Specifications of the arithmetic lane words (Tables 6.4, 6.5 and the entries of file 06) -/

/-- Two sources of the word's type, one result of it. -/
def spec2 (w : ArithOps) (tys : List Ty) : ArithSpec :=
  { tys := tys, a := some w.ty.wide, b := some w.ty.wide, c := none, dest := destOf w.ty }
/-- Three sources of the word's type. -/
def spec3 (w : ArithOps) (tys : List Ty) : ArithSpec :=
  { spec2 w tys with c := some w.ty.wide }
/-- One source of the word's type. -/
def spec1 (w : ArithOps) (tys : List Ty) : ArithSpec :=
  { spec2 w tys with b := none }

/-- FADD, FSUB, FMUL (Table 6.5). -/
def specF2 (w : ArithOps) : ArithSpec :=
  { spec2 w tyFloat4 with rnd := true, sat := true, negA := true, negB := true, absA := true, absB := true }
/-- FMIN, FMAX (Table 6.5). -/
def specFMinMax (w : ArithOps) : ArithSpec :=
  { spec2 w tyFloat4 with negA := true, negB := true, absA := true, absB := true }
/-- The functions of Table 6.6. -/
def specTrans (w : ArithOps) : ArithSpec := { spec1 w [.f32] with negA := true, absA := true }

/-- Position and length of BFE and BFI (R125). -/
def bfWf (w : ArithOps) : Bool :=
  let pos := bits w.imm.toNat 5 0
  let len := bits w.imm.toNat 12 6
  len != 0 && pos + len ≤ (if w.ty.wide then 64 else 32) && bits w.imm.toNat 23 13 == 0

/-- The operation field of LRED and LSCAN (R145): at most 5, and only ADD, MIN, MAX on floats. -/
def redOpWf (w : ArithOps) : Bool :=
  let op := bits w.imm.toNat 2 0
  op ≤ 5 && (!([Ty.f32, Ty.f64].contains w.ty) || op ≤ 2)

/-- The rounding field of LRED and LSCAN is accepted for float ADD only (R145). -/
def redRnd (w : ArithOps) : Bool := [Ty.f32, Ty.f64].contains w.ty && bits w.imm.toNat 2 0 == 0

/-- CVT (R136): the source type lies in imm24[4:0]. -/
def specCvt (w : ArithOps) : ArithSpec :=
  let s := Ty.ofCode (bits w.imm.toNat 4 0)
  { tys := tyAll, a := some ((s.map Ty.wide).getD false), b := none, c := none, dest := destOf w.ty, rnd := true,
    sat := true, negA := true, absA := true, imm := some (s.isSome && bits w.imm.toNat 23 5 == 0) }

/-- QNT (R137): the scale name in imm24[8:0] differs from vd unless only the latch is written. -/
def specQnt (w : ArithOps) : ArithSpec :=
  { tys := tyNarrow, a := some false, b := none, c := none, dest := .name, rnd := true,
    imm := some (bits w.imm.toNat 23 9 == 0 && (w.h.nowb || bits w.imm.toNat 8 0 != w.h.name.val)) }

/-- DQNT (R138): B is a vector name. -/
def dqntWf (w : ArithOps) : Bool :=
  arithWf { tys := tyNarrow, a := some false, b := some false, c := none, dest := .name, rnd := true } w
  && (match w.b with | .vec _ => true | _ => false)

/-! ### Memory lane words (Table 8.6) -/

/-- Types that hold 32 bits per lane. -/
def Ty.is32 (t : Ty) : Bool := !t.wide

/-- Type and width pairs of VLD and VST (R200). -/
def ldstWidthWf (t : Ty) : Width → Bool
  | .w8 | .w16 => t == .s32 || t == .u32
  | .w32 => t.is32
  | .w64 => t.wide
  | .w128 => t == .u32

/-- The address operands of R62: mode 0 takes an even vector name and no B, mode 1 a uniform base and any B. -/
def addrWf (w : MemOps) : Bool :=
  if w.uni then w.a.uniform
  else (match w.a with | .vec n => n.val % 2 == 0 | _ => false) && w.b.unused

/-- Source C of a store (R202): a pair at width 3, a multiple of 4 or a uniform value at width 4. -/
def storeSrcWf (w : MemOps) : Bool :=
  match w.width, w.c with
  | .w128, .vec n => n.val % 4 == 0
  | .w128, .latch _ => false
  | .w64, .vec n => n.val % 2 == 0
  | _, _ => true

/-- The destination of a load (R35, R62): four names from a multiple of 4 without a latch, a pair, or a name. -/
def loadDestWf (w : MemOps) : Bool :=
  match w.width with
  | .w128 => !w.h.nowb && w.h.latch == 0 && w.h.name.val % 4 == 0
  | .w64 => destWf .pair w.h
  | _ => destWf .name w.h

/-- imm24 of VLD, VST, VPREF and ACAS carries only the value of special 4 or 5 (R56). -/
def memImmWf (w : MemOps) : Bool := immWf none [w.a, w.b, w.c] w.imm

/-- imm24 of ATOM and RED is the operation (R204). -/
def atomImmWf (w : MemOps) (maxOp : Nat) : Bool :=
  immWf (some (w.imm.toNat ≤ maxOp)) [w.a, w.b, w.c] w.imm

/-- Type and width of the lane atomics (R200). -/
def atomTyWf (w : MemOps) : Bool :=
  match w.width with
  | .w32 => w.ty == .s32 || w.ty == .u32
  | .w64 => w.ty == .s64 || w.ty == .u64
  | _ => false

/-- VLD (R200, R202). -/
def vldWf (w : MemOps) : Bool :=
  ldstWidthWf w.ty w.width && (w.order == .relaxed || w.order == .acquire) && addrWf w && w.c.unused && loadDestWf w
  && memImmWf w
/-- VST (R200, R202). -/
def vstWf (w : MemOps) : Bool :=
  ldstWidthWf w.ty w.width && (w.order == .relaxed || w.order == .release) && addrWf w && storeSrcWf w
  && destWf .none w.h && memImmWf w
/-- What VLDN and VSTN share (R65, R203): mode 0, width 0, order 0, a uniform pointer, no B. -/
def rowsWf (w : MemOps) : Bool :=
  !w.uni && w.width == .w8 && w.order == .relaxed && w.a.uniform && w.b.unused
  && immWf (some (bits w.imm.toNat 23 6 == 0)) [w.a, w.c] w.imm
/-- VLDN (R203). -/
def vldnWf (w : MemOps) : Bool :=
  rowsWf w && w.ty.is32 && w.c.unused && !w.h.nowb && w.h.latch == 0 && w.h.name.val + bits w.imm.toNat 5 0 ≤ 511
/-- VSTN (R203). -/
def vstnWf (w : MemOps) : Bool :=
  rowsWf w && w.ty == .s32 && destWf .none w.h
  && (match w.c with | .vec n => n.val + bits w.imm.toNat 5 0 ≤ 511 | _ => false)
/-- ATOM (R200, R204). -/
def atomWf (w : MemOps) : Bool :=
  atomTyWf w && addrWf w && w.c.evenIf w.ty.wide && destWf (destOf w.ty) w.h && atomImmWf w 6
/-- ACAS (R200, R204). -/
def acasWf (w : MemOps) : Bool :=
  atomTyWf w && addrWf w && w.c.evenIf w.ty.wide && destWf (destOf w.ty) w.h && memImmWf w
/-- RED (R200, R204): F32 and B2 accept ADD only, and there is no SWAP. -/
def redWf (w : MemOps) : Bool :=
  (atomTyWf w || (w.width == .w32 && (w.ty == .f32 || w.ty == .b2) && w.imm == 0))
  && (w.order == .relaxed || w.order == .release) && addrWf w && w.c.evenIf w.ty.wide && destWf .none w.h
  && atomImmWf w 5
/-- VPREF (R200, R205). -/
def vprefWf (w : MemOps) : Bool :=
  w.ty == .s32 && w.width == .w8 && w.order == .relaxed && w.scope == .warp && addrWf w && w.c.unused
  && destWf .none w.h && memImmWf w

/-! ### Control lane words (R272, R357) -/

/-- Every control word but LTRAP: guard 7, no chain, no destination. -/
def ctlHeadWf (h : LaneHead) : Bool := h.guard == 7 && !h.gneg && !h.chain && destWf .none h
/-- A control word that names no predicate. -/
def noPred (w : CtlOps) : Bool := w.pred == 0 && !w.pneg

/-! ## All instructions -/

/-- The term is one that the encoding allows (R42). -/
def Instr.wf : Instr → Bool
  | .sadd .. | .ssub .. | .smul .. | .smulh .. | .smulhu .. | .sdiv .. | .sdivu .. | .srem .. | .sremu ..
  | .sand .. | .sor .. | .sxor .. | .sandn .. | .sshl .. | .sshr .. | .ssar .. | .smin .. | .smax .. | .sminu ..
  | .smaxu .. | .spopc .. | .sclz .. | .sctz .. | .saddi .. | .sandi .. | .sori .. | .sxori .. | .sshli ..
  | .sshri .. | .ssari .. | .slui .. | .slpc .. | .scmp .. | .scmpi .. | .ssel .. => true
  | .qlog _ _ b f => f != .not || b == 0
  | .br .. | .call .. | .jr .. | .lrun .. | .lsync | .sld64 .. | .sld32 .. | .sst64 .. | .sst32 .. | .satom ..
  | .scas .. | .fence .. | .mswap .. => true
  | .mrot a k => 2 ≤ k.val && a.val + k.val - 1 ≤ 511
  | .mfree a k => 1 ≤ k.val && a.val + k.val - 1 ≤ 511
  | .malias .. | .mmove .. => true
  | .mtag a t k => 1 ≤ k.val && a.val + k.val - 1 ≤ 511 && t.toNat ≤ 0xB
  | .mgive .. | .mtake .. | .mplace .. | .mqry .. | .binit .. | .barr .. | .bexp .. | .bwait .. | .btest ..
  | .bclr .. | .bphase .. => true
  | .cpy e t n => n != 0 && t.val ≤ 12 && (n != 1 || t == 0) && e.a.val + 4 ≤ 63
  | .hread e => e.b != 0 && e.a.val + 3 ≤ 63
  | .hland e => e.b != 0 && (e.s == .team || e.s == .device) && !e.acq && !e.rel && e.a.val + 2 ≤ 63
  | .hend => true
  | .mmac e => e.a.val + 2 ≤ 63
  | .azero e => !e.acq
  | .ard e => !e.rel && e.a.val + 1 ≤ 63
  | .awr e => e.a.val + 1 ≤ 63
  | .topk e _ _ _ => e.a.val + 2 ≤ 63
  | .fput e => e.a.val + 3 ≤ 63
  | .fputh e => e.b != 0 && e.a.val + 3 ≤ 63
  | .fcoll e => e.b != 0 && e.a.val + 3 ≤ 63
  | .fcont e => e.a.val + 2 ≤ 63
  | .launch .. => true
  | .tdef a _ => a.val ≤ 62
  | .tsub .. => true
  | .tget _ a => a.val ≤ 62
  | .publ .. | .plvl .. | .region | .phint .. => true
  | .srd _ s | .swr _ s => sregAllocated s
  | .nop | .trap .. | .halt | .eret | .brk => true
  | .iadd w | .isub w | .imul w => arithWf { spec2 w tyInt6 with sat := true } w
  | .imulh w => arithWf (spec2 w tyInt4) w
  | .imad w => arithWf { spec3 w tyInt4 with sat := true } w
  | .imadw w =>
    arithWf { tys := [.s32, .u32], a := some false, b := some false, c := some true, dest := .pair, sat := true } w
  | .idp4 w =>
    arithWf { tys := [.s8x4, .u8x4], a := some false, b := some false, c := some false, dest := .name, sat := true } w
  | .iabs w => arithWf { spec1 w [.s32, .s64, .s8x4] with sat := true } w
  | .iand w | .ior w | .ixor w | .iandn w | .ishl w | .ishr w | .isar w => arithWf (spec2 w tyInt4) w
  | .ilop3 w => arithWf { spec3 w tyInt4 with imm := some (bits w.imm.toNat 23 8 == 0) } w
  | .imin w | .imax w => arithWf (spec2 w tyInt6) w
  | .popc w | .clz w | .brev w => arithWf (spec1 w tyInt4) w
  | .bfe w => arithWf { spec1 w tyInt4 with imm := some (bfWf w) } w
  | .bfi w => arithWf { spec2 w tyInt4 with imm := some (bfWf w) } w
  | .isetp w => arithWf { spec2 w tyInt4 with dest := .pred, imm := some (w.imm.toNat ≤ 5) } w
  | .sel w => arithWf { spec2 w tyAll with imm := some (bits w.imm.toNat 23 4 == 0) } w
  | .mov w => arithWf (spec1 w tyAll) w
  | .plane w => arithWf { spec1 w [.s32, .u32] with a := none, imm := some (bits w.imm.toNat 23 3 == 0) } w
  | .fadd w | .fsub w | .fmul w => arithWf (specF2 w) w
  | .ffma w => arithWf { specF2 w with c := some w.ty.wide, negC := true } w
  | .fmin w | .fmax w => arithWf (specFMinMax w) w
  | .fsetp w =>
    arithWf { specFMinMax w with tys := [.f32, .f64], dest := .pred, imm := some (w.imm.toNat ≤ 7) } w
  | .fclass w => arithWf (spec1 w tyFloat4) w
  | .fdiv w => arithWf { specF2 w with tys := [.f32, .f64] } w
  | .fsqrt w => arithWf { spec1 w [.f32, .f64] with rnd := true, negA := true, absA := true } w
  | .frcp w | .frsq w | .fexp2 w | .flog2 w | .fsin w | .fcos w | .ftanh w => arithWf (specTrans w) w
  | .fscale w => arithWf { spec2 w [.f32, .f64] with rnd := true, sat := true, negA := true, absA := true } w
  | .cvt w => arithWf (specCvt w) w
  | .qnt w => arithWf (specQnt w) w
  | .dqnt w => dqntWf w
  | .cvtq w =>
    arithWf { spec1 w [.f32, .f64] with
      dest := .pair, rnd := true, sat := true, negA := true, absA := true,
      imm := some (bits w.imm.toNat 23 6 == 0) } w
  | .cvtf w =>
    arithWf { spec1 w [.f32, .f64] with a := some true, rnd := true, imm := some (bits w.imm.toNat 23 6 == 0) } w
  | .pack w | .unpk w => arithWf { spec2 w tyPacked with imm := some (w.imm.toNat < w.ty.count) } w
  | .shfl w => arithWf { spec2 w tyAll with imm := some (bits w.imm.toNat 23 2 == 0) } w
  | .ballot w =>
    arithWf { spec1 w [.s32] with a := none, dest := .greg, imm := some (bits w.imm.toNat 23 3 == 0) } w
  | .vote w =>
    arithWf { spec1 w [.s32] with
      a := none, dest := .pred, imm := some (bits w.imm.toNat 23 5 == 0 && bits w.imm.toNat 4 3 ≤ 2) } w
  | .lred w =>
    arithWf { spec1 w tyRed with
      dest := .greg, rnd := redRnd w, imm := some (redOpWf w && bits w.imm.toNat 23 3 == 0) } w
  | .lscan w =>
    arithWf { spec1 w tyRed with rnd := redRnd w, imm := some (redOpWf w && bits w.imm.toNat 23 4 == 0) } w
  | .vld w => vldWf w
  | .vst w => vstWf w
  | .vldn w => vldnWf w
  | .vstn w => vstnWf w
  | .atom w => atomWf w
  | .acas w => acasWf w
  | .red w => redWf w
  | .vpref w => vprefWf w
  | .brd w => ctlHeadWf w.h
  | .jmark w | .ljmp w => ctlHeadWf w.h && noPred w
  | .join w | .lend w | .lnop w => ctlHeadWf w.h && noPred w && w.imm == 0
  | .ltrap w => !w.h.chain && destWf .none w.h && noPred w && bits w.imm.toNat 23 8 == 0
  | .qtailWrite .. | .qbaseWrite .. | .porterrWrite .. | .semtake .. | .semrel .. => true
  | .hostRegWrite _ off _ => off % 8 == 0
  | .ctxcreate .. | .ctxdestroy .. | .ctxdestroyComplete .. | .inval .. | .invalComplete .. | .faultreply ..
  | .domreset .. | .lcchange .. | .fwupdate .. | .attest .. => true
  | .hostCmdUnknown _ c => c ∉ [0x01#8, 0x02#8, 0x03#8, 0x04#8, 0x10#8, 0x11#8, 0x12#8, 0x13#8]
  | .portLinkDown .. | .smbusPowerLimit .. | .moduleReset | .wipeDone | .launchEntryTake .. | .launchHeadAge ..
  | .gridPlace .. | .frameTeamStart .. | .rowZeroed .. | .preemptRequest .. | .preemptForce .. | .teamSave ..
  | .teamRestore .. | .faultDeliver .. | .matrixComplete .. | .cpyBurst .. | .cpyComplete .. | .hreadBurstLand ..
  | .dropStart .. | .lastBurst .. | .finalDropStart .. | .topkComplete .. | .fabricPacketArrive ..
  | .fabricComplete .. | .landing .. | .flitRetry .. | .gangRegister .. | .gangWatchdog .. | .ueConsumed ..
  | .domainReadmit .. | .patrolScrub .. | .correctableThreshold .. | .timingRepeat .. | .replayThreshold ..
  | .predictorDecay => true
  | .governorStep g =>
    g.linkBusy.length == 18 && g.clusterBusy.length == 96 && g.linkThrottled.length == 18
    && g.clusterThrottled.length == 96
  | .capLower .. | .capRaise .. | .passHoldExpire .. | .passDouble .. | .passHalve .. | .levelChangeDone .. => true
  | .sensorSample raw => raw.length == 256
  | .damageUpdate | .thermalCapLift .. | .tripRelease | .linkRetrainDone .. | .portLinkUp .. => true

end Sys2Proof
end

