-- ==== Sys2Proof/Decode.lean ====
section
/-! DEFINITION. The decoder, total on any bytes, which names what it refuses (R42, R43), and the encoder, written from
the same tables of file 03. -/

namespace Sys2Proof

/-- Why bytes are no instruction. In the machine each of the first three is the illegal-instruction fault 0x01 (R42). -/
inductive DecodeError where
  /-- an opcode, function, type, special or field value that file 03 does not allocate -/
  | unallocated
  /-- a reserved field that is not zero -/
  | reserved
  /-- a register, name, modifier or operand outside the limits of the instruction's entry -/
  | limits
  /-- fewer bytes than the word has -/
  | short
  deriving DecidableEq, Repr

/-- The g register whose number starts at bit `lo`. -/
def fieldG (w lo : Nat) : Fin 64 := Fin.ofNat 64 (w / 2 ^ lo)
/-- The predicate or other 3-bit register number that starts at bit `lo`. -/
def fieldQ (w lo : Nat) : Fin 8 := Fin.ofNat 8 (w / 2 ^ lo)
/-- The vector name that starts at bit `lo`. -/
def fieldV (w lo : Nat) : Fin 512 := Fin.ofNat 512 (w / 2 ^ lo)
/-- The 5-bit field that starts at bit `lo`. -/
def fieldK (w lo : Nat) : Fin 32 := Fin.ofNat 32 (w / 2 ^ lo)

/-- A reserved field must be zero (R42). -/
def reserved (f : Nat) (i : Except DecodeError Instr) : Except DecodeError Instr :=
  if f = 0 then i else .error .reserved

/-- A field value that is not allocated. -/
def allocated {α : Type} (o : Option α) (f : α → Except DecodeError Instr) : Except DecodeError Instr :=
  match o with
  | some x => f x
  | none => .error .unallocated

/-- Table 3.2, conditions. -/
def Cond.ofCode : Nat → Option Cond
  | 0 => some .eq | 1 => some .ne | 2 => some .lt | 3 => some .ge | 4 => some .ltu | 5 => some .geu | 6 => some .tst
  | _ => none
/-- Table 3.2, scopes. -/
def Scope.ofCode : Nat → Option Scope
  | 0 => some .warp | 1 => some .team | 2 => some .device | 3 => some .gang | 4 => some .system
  | _ => none
/-- Table 3.2, orders. -/
def Order.ofCode : Nat → Option Order
  | 0 => some .relaxed | 1 => some .acquire | 2 => some .release | 3 => some .acqRel
  | _ => none
/-- QLOG's fn3 (R119). -/
def QOp.ofCode : Nat → Option QOp
  | 0 => some .and | 1 => some .or | 2 => some .xor | 3 => some .andn | 4 => some .not
  | _ => none
/-- Table 3.6, operations of SATOM. -/
def SatomOp.ofCode : Nat → Option SatomOp
  | 0 => some .add | 1 => some .and | 2 => some .or | 3 => some .xor | 4 => some .smin | 5 => some .smax | 6 => some .swap
  | _ => none
/-- Table 3.6, kinds of FENCE. -/
def FenceKind.ofCode : Nat → Option FenceKind
  | 1 => some .acquire | 2 => some .release | 3 => some .full
  | _ => none
/-- Key types of TOPK (Table 3.14). -/
def KeyType.ofCode : Nat → Option KeyType
  | 0 => some .s32 | 1 => some .u32 | 2 => some .f32
  | _ => none
/-- Rounding field (R61). -/
def Rnd.ofCode : Nat → Option Rnd
  | 0 => some .rne | 1 => some .rtz | 2 => some .rdn | 3 => some .rup | 7 => some .dyn
  | _ => none
/-- Width field (R62). -/
def Width.ofCode : Nat → Option Width
  | 0 => some .w8 | 1 => some .w16 | 2 => some .w32 | 3 => some .w64 | 4 => some .w128
  | _ => none

/-! ## Scalar words -/

/-- The functions of op 0x00 (Table 3.5). -/
def decodeAlu (w : Nat) : Except DecodeError Instr :=
  let d := fieldG w 20
  let a := fieldG w 14
  let b := fieldG w 8
  match bits w 7 0 with
  | 0x00 => .ok (.sadd d a b)
  | 0x01 => .ok (.ssub d a b)
  | 0x02 => .ok (.smul d a b)
  | 0x03 => .ok (.smulh d a b)
  | 0x04 => .ok (.smulhu d a b)
  | 0x05 => .ok (.sdiv d a b)
  | 0x06 => .ok (.sdivu d a b)
  | 0x07 => .ok (.srem d a b)
  | 0x08 => .ok (.sremu d a b)
  | 0x10 => .ok (.sand d a b)
  | 0x11 => .ok (.sor d a b)
  | 0x12 => .ok (.sxor d a b)
  | 0x13 => .ok (.sandn d a b)
  | 0x18 => .ok (.sshl d a b)
  | 0x19 => .ok (.sshr d a b)
  | 0x1A => .ok (.ssar d a b)
  | 0x20 => .ok (.smin d a b)
  | 0x21 => .ok (.smax d a b)
  | 0x22 => .ok (.sminu d a b)
  | 0x23 => .ok (.smaxu d a b)
  | 0x28 => reserved (bits w 13 8) (.ok (.spopc d a))
  | 0x29 => reserved (bits w 13 8) (.ok (.sclz d a))
  | 0x2A => reserved (bits w 13 8) (.ok (.sctz d a))
  | _ => .error .unallocated

/-- Map edits and transfers (Table 3.7). -/
def decodeEdit (w : Nat) : Except DecodeError Instr :=
  let va := fieldV w 14
  let vb := fieldV w 5
  let k := fieldK w 0
  match bits w 25 23 with
  | 0 => reserved (bits w 4 0) (.ok (.mswap va vb))
  | 1 => reserved (bits w 13 5) (.ok (.mrot va k))
  | 2 => reserved (bits w 13 5) (.ok (.mfree va k))
  | 3 => reserved (bits w 4 0) (.ok (.malias va vb))
  | 4 => reserved (bits w 4 0) (.ok (.mmove va vb))
  | 5 => reserved (bits w 13 9) (.ok (.mtag va (BitVec.ofNat 4 (bits w 8 5)) k))
  | _ => .error .unallocated

/-- Map transfers (Table 3.7). -/
def decodeTransfer (w : Nat) : Except DecodeError Instr :=
  let va := fieldV w 14
  let vb := fieldV w 5
  let k := fieldK w 0
  match bits w 25 23 with
  | 0 => reserved (bits w 13 5) (.ok (.mgive va k))
  | 1 => reserved (bits w 22 14) (.ok (.mtake vb k))
  | 2 => .ok (.mplace va vb k)
  | _ => .error .unallocated

/-- The shared fields of an engine command (Table 3.8). -/
def decodeEng (w : Nat) (f : EngOps → Except DecodeError Instr) : Except DecodeError Instr :=
  allocated (Scope.ofCode (bits w 10 8)) fun s =>
    f { q := fieldQ w 23, a := fieldG w 17, b := fieldG w 11, s := s, acq := bit w 7, rel := bit w 6 }

/-- Barrier operations (Table 3.8): acq and rel are reserved. -/
def decodeBarrier (w : Nat) : Except DecodeError Instr :=
  let a := fieldG w 17
  let b := fieldG w 11
  reserved (bits w 7 6) <| allocated (Scope.ofCode (bits w 10 8)) fun s =>
    match bits w 5 0 with
    | 0 => reserved (bits w 25 23) (.ok (.binit a b s))
    | 1 => reserved (bits w 25 23) (.ok (.barr a b s))
    | 2 => reserved (bits w 25 23) (.ok (.bexp a b s))
    | 3 => reserved (bits w 25 23) (.ok (.bwait a b s))
    | 4 => .ok (.btest (fieldQ w 23) a b s)
    | 5 => reserved (bits w 25 23) (reserved (bits w 16 11) (.ok (.bclr a s)))
    | 6 => reserved (bits w 25 23) (.ok (.bphase a b s))
    | _ => .error .unallocated

/-- Op 0x35 (R52). -/
def decodeAcc (w : Nat) : Except DecodeError Instr :=
  decodeEng w fun e =>
    match bits w 5 0 with
    | 0 => .ok (.azero e)
    | 1 => .ok (.ard e)
    | 2 => .ok (.awr e)
    | _ => .error .unallocated

/-- Op 0x37 (R52). -/
def decodeFabric (w : Nat) : Except DecodeError Instr :=
  decodeEng w fun e =>
    match bits w 5 0 with
    | 0 => .ok (.fput e)
    | 1 => .ok (.fputh e)
    | 2 => .ok (.fcoll e)
    | 3 => .ok (.fcont e)
    | _ => .error .unallocated

/-- An S-E word of one scope, without acq and rel (Table 3.8: LAUNCH, TDEF, TSUB, TGET, PUBL). -/
def fixedScope (w scope : Nat) (i : Except DecodeError Instr) : Except DecodeError Instr :=
  reserved (bits w 7 6) (if bits w 10 8 = scope then i else .error .unallocated)

/-- Op 0x39 (Table 3.8). -/
def decodeTask (w : Nat) : Except DecodeError Instr :=
  let a := fieldG w 17
  let b := fieldG w 11
  match bits w 5 0 with
  | 0 => reserved (bits w 25 23) (.ok (.tdef a b))
  | 1 => reserved (bits w 25 23) (reserved (bits w 22 17) (.ok (.tsub b)))
  | 2 => reserved (bits w 16 11) (.ok (.tget (fieldQ w 23) a))
  | _ => .error .unallocated

/-- Op 0x3F (R52, Table 3.4). -/
def decodeSystem (w : Nat) : Except DecodeError Instr :=
  match bits w 7 0 with
  | 0 => reserved (bits w 25 8) (.ok .nop)
  | 1 => reserved (bits w 25 14) (.ok (.trap (fieldG w 8)))
  | 2 => reserved (bits w 25 8) (.ok .halt)
  | 3 => reserved (bits w 25 8) (.ok .eret)
  | 4 => reserved (bits w 25 8) (.ok .brk)
  | _ => .error .unallocated

/-- The opcode map (Table 3.4), before the limits that `Instr.wf` states. `bitmap` is what the two words after a PHINT
word hold (R53). -/
def decodeScalarRaw (w bitmap : Nat) : Except DecodeError Instr :=
  let d := fieldG w 20
  let a := fieldG w 14
  let b := fieldG w 8
  let i14 := BitVec.ofNat 14 w
  let i20 := BitVec.ofNat 20 w
  let o := BitVec.ofNat 22 w
  let q := fieldQ w 23
  match bits w 31 26 with
  | 0x00 => decodeAlu w
  | 0x01 => .ok (.saddi d a i14)
  | 0x02 => .ok (.sandi d a i14)
  | 0x03 => .ok (.sori d a i14)
  | 0x04 => .ok (.sxori d a i14)
  | 0x05 => reserved (bits w 13 6) (.ok (.sshli d a (fieldG w 0)))
  | 0x06 => reserved (bits w 13 6) (.ok (.sshri d a (fieldG w 0)))
  | 0x07 => reserved (bits w 13 6) (.ok (.ssari d a (fieldG w 0)))
  | 0x08 => .ok (.slui d i20)
  | 0x09 => .ok (.slpc d i20)
  | 0x0A => reserved (bits w 7 0) (allocated (Cond.ofCode (bits w 22 20)) fun c => .ok (.scmp q c a b))
  | 0x0B => allocated (Cond.ofCode (bits w 22 20)) fun c => .ok (.scmpi q c a i14)
  | 0x0C => reserved (bits w 7 3) (.ok (.ssel d a b (fieldQ w 0)))
  | 0x0D =>
    reserved (bits w 13 0) (allocated (QOp.ofCode (bits w 16 14)) fun f => .ok (.qlog q (fieldQ w 20) (fieldQ w 17) f))
  | 0x10 => .ok (.br q (bit w 22) o)
  | 0x11 => if bits w 25 22 = 14 then .ok (.call o) else .error .limits
  | 0x12 => reserved (bits w 13 0) (.ok (.jr d a))
  | 0x13 => .ok (.lrun q (bit w 22) o)
  | 0x14 => reserved (bits w 25 0) (.ok .lsync)
  | 0x18 => .ok (.sld64 d a i14)
  | 0x19 => .ok (.sld32 d a i14)
  | 0x1A => .ok (.sst64 d a i14)
  | 0x1B => .ok (.sst32 d a i14)
  | 0x1C =>
    allocated (Scope.ofCode (bits w 7 5)) fun s => allocated (Order.ofCode (bits w 4 3)) fun r =>
      allocated (SatomOp.ofCode (bits w 2 0)) fun f => .ok (.satom d a b s r f)
  | 0x1D =>
    reserved (bits w 2 0) <| allocated (Scope.ofCode (bits w 7 5)) fun s =>
      allocated (Order.ofCode (bits w 4 3)) fun r => .ok (.scas d a b s r)
  | 0x1E =>
    reserved (bits w 25 8) <| reserved (bits w 2 0) <| allocated (Scope.ofCode (bits w 7 5)) fun s =>
      allocated (FenceKind.ofCode (bits w 4 3)) fun k => .ok (.fence s k)
  | 0x20 => decodeEdit w
  | 0x21 => decodeTransfer w
  | 0x22 => reserved (bits w 19 17) (reserved (bits w 7 0) (.ok (.mqry d (fieldV w 8))))
  | 0x28 => decodeBarrier w
  | 0x30 => decodeEng w fun e => .ok (.cpy e (Fin.ofNat 16 (w / 2 ^ 2)) (Fin.ofNat 4 w))
  | 0x31 => reserved (bits w 5 0) (decodeEng w fun e => .ok (.hread e))
  | 0x32 => reserved (bits w 5 0) (decodeEng w fun e => .ok (.hland e))
  | 0x33 => reserved (bits w 25 0) (.ok .hend)
  | 0x34 => reserved (bits w 5 0) (decodeEng w fun e => .ok (.mmac e))
  | 0x35 => decodeAcc w
  | 0x36 =>
    reserved (bits w 5 4) <| decodeEng w fun e =>
      allocated (KeyType.ofCode (bits w 3 2)) fun k => .ok (.topk e k (bit w 1) (bit w 0))
  | 0x37 => decodeFabric w
  | 0x38 => reserved (bits w 5 0) (fixedScope w 2 (.ok (.launch q (fieldG w 17) (fieldG w 11))))
  | 0x39 => fixedScope w 1 (decodeTask w)
  | 0x3A =>
    reserved (bits w 25 23) (reserved (bits w 16 11) (reserved (bits w 5 0) (fixedScope w 4 (.ok (.publ (fieldG w 17))))))
  | 0x3B => reserved (bits w 13 0) (.ok (.plvl d a))
  | 0x3C => reserved (bits w 25 0) (.ok .region)
  | 0x3D => reserved (bits w 25 20) (reserved (bits w 13 0) (.ok (.phint a (BitVec.ofNat 64 bitmap))))
  | 0x3E =>
    match bits w 7 0 with
    | 0 => .ok (.srd d (BitVec.ofNat 12 (w / 2 ^ 8)))
    | 1 => .ok (.swr d (BitVec.ofNat 12 (w / 2 ^ 8)))
    | _ => .error .unallocated
  | 0x3F => decodeSystem w
  | _ => .error .unallocated

/-- A term outside the limits of its entry is no instruction (R42). -/
def limit (i : Except DecodeError Instr) : Except DecodeError Instr :=
  match i with
  | .ok i => if i.wf then .ok i else .error .limits
  | .error e => .error e

/-- The instruction of a scalar word; `bitmap` is what the next two words hold (R53). -/
def decodeScalar (w bitmap : Nat) : Except DecodeError Instr := limit (decodeScalarRaw w bitmap)

/-- Whether a scalar word is a PHINT word, which the two bitmap words follow (R53). -/
def isPhintWord (w : Nat) : Bool := bits w 31 26 == 0x3D

/-! ## Lane words -/

/-- A 10-bit source field (Table 3.11). -/
def Src.ofCode (f : Nat) : Option Src :=
  if f < 512 then some (.vec (Fin.ofNat 512 f))
  else
    match bits f 8 7 with
    | 0 => if bits f 6 2 = 0 then some (.latch (Fin.ofNat 4 f)) else none
    | 1 => if bit f 6 then none else some (.greg (Fin.ofNat 64 f))
    | 2 => some (.imm (BitVec.ofNat 7 f))
    | _ =>
      match bits f 6 0 with
      | 0 => some .zero
      | 1 => some .lane
      | 2 => some .warp
      | 3 => some .team
      | 4 => some .imm24
      | 5 => some .fimm
      | 6 => some .ones
      | _ => none

/-- The common fields (Table 3.10). -/
def decodeHead (w : Nat) : LaneHead :=
  { gneg := bit w 87, guard := fieldQ w 84, chain := bit w 83, nowb := bit w 82, latch := Fin.ofNat 4 (w / 2 ^ 80),
    name := fieldV w 71 }

/-- The arithmetic aux layout (R61). -/
def decodeMods (w : Nat) : Option Mods :=
  match Rnd.ofCode (bits w 35 33) with
  | some r =>
    some { rnd := r, negA := bit w 32, negB := bit w 31, negC := bit w 30, absA := bit w 29, absB := bit w 28,
           sat := bit w 27 }
  | none => none

/-- The three sources and the type of a lane word. -/
def decodeSources (w : Nat) (f : Src → Src → Src → Ty → Except DecodeError Instr) : Except DecodeError Instr :=
  allocated (Src.ofCode (bits w 70 61)) fun a => allocated (Src.ofCode (bits w 60 51)) fun b =>
    allocated (Src.ofCode (bits w 50 41)) fun c => allocated (Ty.ofCode (bits w 40 36)) fun t => f a b c t

/-- A lane word of the arithmetic layout (R61). -/
def decodeArith (w : Nat) (f : ArithOps → Instr) : Except DecodeError Instr :=
  reserved (bits w 26 24) <| decodeSources w fun a b c t => allocated (decodeMods w) fun m =>
    .ok (f { h := decodeHead w, a := a, b := b, c := c, ty := t, m := m, imm := BitVec.ofNat 24 w })

/-- A lane word of the memory layout (R62). -/
def decodeMem (w : Nat) (f : MemOps → Instr) : Except DecodeError Instr :=
  reserved (bits w 24 24) <| decodeSources w fun a b c t => allocated (Scope.ofCode (bits w 35 33)) fun s =>
    allocated (Order.ofCode (bits w 32 31)) fun o => allocated (Width.ofCode (bits w 30 28)) fun x =>
      .ok (f { h := decodeHead w, a := a, b := b, c := c, ty := t, scope := s, order := o, width := x,
               hint := Fin.ofNat 4 (w / 2 ^ 26), uni := bit w 25, imm := BitVec.ofNat 24 w })

/-- A lane word of the control layout (R63): no sources and type 0. -/
def decodeCtl (w : Nat) (f : CtlOps → Instr) : Except DecodeError Instr :=
  reserved (bits w 70 36) <| reserved (bits w 31 24) <|
    .ok (f { h := decodeHead w, pred := fieldQ w 33, pneg := bit w 32, imm := BitVec.ofNat 24 w })

/-- The lane opcode map (Table 3.17), before the limits that `Instr.wf` states. -/
def decodeLaneRaw (w : Nat) : Except DecodeError Instr :=
  match bits w 95 88 with
  | 0x00 => decodeArith w .iadd
  | 0x01 => decodeArith w .isub
  | 0x02 => decodeArith w .imul
  | 0x03 => decodeArith w .imulh
  | 0x04 => decodeArith w .imad
  | 0x05 => decodeArith w .imadw
  | 0x06 => decodeArith w .idp4
  | 0x07 => decodeArith w .iabs
  | 0x08 => decodeArith w .iand
  | 0x09 => decodeArith w .ior
  | 0x0A => decodeArith w .ixor
  | 0x0B => decodeArith w .iandn
  | 0x0C => decodeArith w .ishl
  | 0x0D => decodeArith w .ishr
  | 0x0E => decodeArith w .isar
  | 0x0F => decodeArith w .ilop3
  | 0x10 => decodeArith w .imin
  | 0x11 => decodeArith w .imax
  | 0x12 => decodeArith w .popc
  | 0x13 => decodeArith w .clz
  | 0x14 => decodeArith w .brev
  | 0x15 => decodeArith w .bfe
  | 0x16 => decodeArith w .bfi
  | 0x18 => decodeArith w .isetp
  | 0x19 => decodeArith w .sel
  | 0x1A => decodeArith w .mov
  | 0x1B => decodeArith w .plane
  | 0x20 => decodeArith w .fadd
  | 0x21 => decodeArith w .fsub
  | 0x22 => decodeArith w .fmul
  | 0x23 => decodeArith w .ffma
  | 0x24 => decodeArith w .fmin
  | 0x25 => decodeArith w .fmax
  | 0x26 => decodeArith w .fsetp
  | 0x27 => decodeArith w .fclass
  | 0x28 => decodeArith w .frcp
  | 0x29 => decodeArith w .frsq
  | 0x2A => decodeArith w .fsqrt
  | 0x2B => decodeArith w .fdiv
  | 0x2C => decodeArith w .fexp2
  | 0x2D => decodeArith w .flog2
  | 0x2E => decodeArith w .fsin
  | 0x2F => decodeArith w .fcos
  | 0x30 => decodeArith w .ftanh
  | 0x31 => decodeArith w .fscale
  | 0x40 => decodeArith w .cvt
  | 0x41 => decodeArith w .qnt
  | 0x42 => decodeArith w .dqnt
  | 0x43 => decodeArith w .cvtq
  | 0x44 => decodeArith w .cvtf
  | 0x45 => decodeArith w .pack
  | 0x46 => decodeArith w .unpk
  | 0x50 => decodeArith w .shfl
  | 0x51 => decodeArith w .ballot
  | 0x52 => decodeArith w .vote
  | 0x53 => decodeArith w .lred
  | 0x54 => decodeArith w .lscan
  | 0x60 => decodeMem w .vld
  | 0x61 => decodeMem w .vst
  | 0x62 => decodeMem w .vldn
  | 0x63 => decodeMem w .vstn
  | 0x64 => decodeMem w .atom
  | 0x65 => decodeMem w .acas
  | 0x66 => decodeMem w .red
  | 0x67 => decodeMem w .vpref
  | 0x80 => decodeCtl w .brd
  | 0x81 => decodeCtl w .jmark
  | 0x82 => decodeCtl w .join
  | 0x83 => decodeCtl w .lend
  | 0x84 => decodeCtl w .ljmp
  | 0x85 => decodeCtl w .lnop
  | 0x86 => decodeCtl w .ltrap
  | _ => .error .unallocated

/-- The instruction of a lane word. -/
def decodeLane (w : Nat) : Except DecodeError Instr := limit (decodeLaneRaw w)

/-! ## Bytes -/

/-- A number from bytes, the least significant first (R2). -/
def ofBytes : List Byte → Nat
  | [] => 0
  | b :: bs => b.toNat + 256 * ofBytes bs

/-- The low `n` bytes of a number, the least significant first (R2). -/
def toBytes : Nat → Nat → List Byte
  | 0, _ => []
  | n + 1, x => BitVec.ofNat 8 x :: toBytes n (x / 256)

/-- Decodes the scalar word at the head of a byte string; the bytes after it come with the answer. A PHINT takes twelve
bytes. -/
def decodeScalarBytes (bs : List Byte) : Except DecodeError (Instr × List Byte) :=
  if bs.length < 4 then .error .short
  else
    let w := ofBytes (bs.take 4)
    let n := if isPhintWord w then 12 else 4
    if bs.length < n then .error .short
    else (decodeScalar w (ofBytes ((bs.take 12).drop 4))).map fun i => (i, bs.drop n)

/-- Decodes the lane word at the head of a byte string. -/
def decodeLaneBytes (bs : List Byte) : Except DecodeError (Instr × List Byte) :=
  if bs.length < 12 then .error .short
  else (decodeLane (ofBytes (bs.take 12))).map fun i => (i, bs.drop 12)

/-- The instruction that the decoder reads from a word of `nbits` bits: a scalar word up to 32 bits (a PHINT word then has a bitmap of
zeros), a lane word or a PHINT of 96 bits. -/
def decodeTableWord (nbits w : Nat) : Option Instr :=
  if nbits ≤ 32 then
    match decodeScalarBytes (toBytes 12 w) with
    | .ok (i, _) => some i
    | .error _ => none
  else
    match decodeLaneBytes (toBytes 12 w) with
    | .ok (i, _) => some i
    | .error _ =>
      match decodeScalarBytes (toBytes 12 w) with
      | .ok (i, _) => if isPhintWord (w % 2 ^ 32) then some i else none
      | .error _ => none

/-! ## The encoder -/

/-- Table 3.2. -/
def Cond.code : Cond → Nat
  | .eq => 0 | .ne => 1 | .lt => 2 | .ge => 3 | .ltu => 4 | .geu => 5 | .tst => 6
/-- Table 3.2. -/
def Scope.code : Scope → Nat
  | .warp => 0 | .team => 1 | .device => 2 | .gang => 3 | .system => 4
/-- Table 3.2. -/
def Order.code : Order → Nat
  | .relaxed => 0 | .acquire => 1 | .release => 2 | .acqRel => 3
/-- R119. -/
def QOp.code : QOp → Nat
  | .and => 0 | .or => 1 | .xor => 2 | .andn => 3 | .not => 4
/-- Table 3.6. -/
def SatomOp.code : SatomOp → Nat
  | .add => 0 | .and => 1 | .or => 2 | .xor => 3 | .smin => 4 | .smax => 5 | .swap => 6
/-- Table 3.6. -/
def FenceKind.code : FenceKind → Nat
  | .acquire => 1 | .release => 2 | .full => 3
/-- Table 3.14. -/
def KeyType.code : KeyType → Nat
  | .s32 => 0 | .u32 => 1 | .f32 => 2
/-- R61. -/
def Rnd.code : Rnd → Nat
  | .rne => 0 | .rtz => 1 | .rdn => 2 | .rup => 3 | .dyn => 7
/-- R62. -/
def Width.code : Width → Nat
  | .w8 => 0 | .w16 => 1 | .w32 => 2 | .w64 => 3 | .w128 => 4
/-- Table 3.11. -/
def Src.code : Src → Nat
  | .vec n => n.val
  | .latch n => 512 + n.val
  | .greg n => 640 + n.val
  | .imm v => 768 + v.toNat
  | .zero => 896 | .lane => 897 | .warp => 898 | .team => 899 | .imm24 => 900 | .fimm => 901 | .ones => 902

/-- An S-R word. -/
def encSR (op d a b fn : Nat) : Nat := op * 2 ^ 26 + d * 2 ^ 20 + a * 2 ^ 14 + b * 2 ^ 8 + fn
/-- An S-I word. -/
def encSI (op d a i : Nat) : Nat := op * 2 ^ 26 + d * 2 ^ 20 + a * 2 ^ 14 + i
/-- An S-M word. -/
def encSM (op sub va vb k : Nat) : Nat := op * 2 ^ 26 + sub * 2 ^ 23 + va * 2 ^ 14 + vb * 2 ^ 5 + k
/-- An S-E word without acq and rel. -/
def encSE (op q a b s fn : Nat) : Nat := op * 2 ^ 26 + q * 2 ^ 23 + a * 2 ^ 17 + b * 2 ^ 11 + s * 2 ^ 8 + fn
/-- The word of an engine command. -/
def encEng (op : Nat) (e : EngOps) (fn : Nat) : Nat :=
  encSE op e.q.val e.a.val e.b.val e.s.code (b2n e.acq * 2 ^ 7 + b2n e.rel * 2 ^ 6 + fn)
/-- An S-B word. -/
def encSB (op q : Nat) (n : Bool) (o : BitVec 22) : Nat := op * 2 ^ 26 + q * 2 ^ 23 + b2n n * 2 ^ 22 + o.toNat

/-- The fields [95:71] of a lane word. -/
def encHead (op : Nat) (h : LaneHead) : Nat :=
  op * 2 ^ 88 + b2n h.gneg * 2 ^ 87 + h.guard.val * 2 ^ 84 + b2n h.chain * 2 ^ 83 + b2n h.nowb * 2 ^ 82
  + h.latch.val * 2 ^ 80 + h.name.val * 2 ^ 71
/-- The fields [70:36] of a lane word. -/
def encSources (a b c : Src) (t : Ty) : Nat := a.code * 2 ^ 61 + b.code * 2 ^ 51 + c.code * 2 ^ 41 + t.code * 2 ^ 36
/-- A lane word of the arithmetic layout. -/
def encArith (op : Nat) (w : ArithOps) : Nat :=
  encHead op w.h + encSources w.a w.b w.c w.ty + w.m.rnd.code * 2 ^ 33 + b2n w.m.negA * 2 ^ 32 + b2n w.m.negB * 2 ^ 31
  + b2n w.m.negC * 2 ^ 30 + b2n w.m.absA * 2 ^ 29 + b2n w.m.absB * 2 ^ 28 + b2n w.m.sat * 2 ^ 27 + w.imm.toNat
/-- A lane word of the memory layout. -/
def encMem (op : Nat) (w : MemOps) : Nat :=
  encHead op w.h + encSources w.a w.b w.c w.ty + w.scope.code * 2 ^ 33 + w.order.code * 2 ^ 31 + w.width.code * 2 ^ 28
  + w.hint.val * 2 ^ 26 + b2n w.uni * 2 ^ 25 + w.imm.toNat
/-- A lane word of the control layout. -/
def encCtl (op : Nat) (w : CtlOps) : Nat :=
  encHead op w.h + w.pred.val * 2 ^ 33 + b2n w.pneg * 2 ^ 32 + w.imm.toNat

/-- The code bytes of a length as one number: a scalar word of 32 bits, a PHINT or a lane word of 96. -/
inductive Code where
  /-- a scalar word -/
  | scalar (w : Nat)
  /-- a PHINT word and its bitmap -/
  | hint (w bitmap : Nat)
  /-- a lane word -/
  | lane (w : Nat)
  deriving DecidableEq, Repr

/-- The words of an instruction (Tables 3.1 to 3.17); an event has none. -/
def encode : Instr → Option Code
  | .sadd d a b => some (.scalar (encSR 0x00 d.val a.val b.val 0x00))
  | .ssub d a b => some (.scalar (encSR 0x00 d.val a.val b.val 0x01))
  | .smul d a b => some (.scalar (encSR 0x00 d.val a.val b.val 0x02))
  | .smulh d a b => some (.scalar (encSR 0x00 d.val a.val b.val 0x03))
  | .smulhu d a b => some (.scalar (encSR 0x00 d.val a.val b.val 0x04))
  | .sdiv d a b => some (.scalar (encSR 0x00 d.val a.val b.val 0x05))
  | .sdivu d a b => some (.scalar (encSR 0x00 d.val a.val b.val 0x06))
  | .srem d a b => some (.scalar (encSR 0x00 d.val a.val b.val 0x07))
  | .sremu d a b => some (.scalar (encSR 0x00 d.val a.val b.val 0x08))
  | .sand d a b => some (.scalar (encSR 0x00 d.val a.val b.val 0x10))
  | .sor d a b => some (.scalar (encSR 0x00 d.val a.val b.val 0x11))
  | .sxor d a b => some (.scalar (encSR 0x00 d.val a.val b.val 0x12))
  | .sandn d a b => some (.scalar (encSR 0x00 d.val a.val b.val 0x13))
  | .sshl d a b => some (.scalar (encSR 0x00 d.val a.val b.val 0x18))
  | .sshr d a b => some (.scalar (encSR 0x00 d.val a.val b.val 0x19))
  | .ssar d a b => some (.scalar (encSR 0x00 d.val a.val b.val 0x1A))
  | .smin d a b => some (.scalar (encSR 0x00 d.val a.val b.val 0x20))
  | .smax d a b => some (.scalar (encSR 0x00 d.val a.val b.val 0x21))
  | .sminu d a b => some (.scalar (encSR 0x00 d.val a.val b.val 0x22))
  | .smaxu d a b => some (.scalar (encSR 0x00 d.val a.val b.val 0x23))
  | .spopc d a => some (.scalar (encSR 0x00 d.val a.val 0 0x28))
  | .sclz d a => some (.scalar (encSR 0x00 d.val a.val 0 0x29))
  | .sctz d a => some (.scalar (encSR 0x00 d.val a.val 0 0x2A))
  | .saddi d a i => some (.scalar (encSI 0x01 d.val a.val i.toNat))
  | .sandi d a i => some (.scalar (encSI 0x02 d.val a.val i.toNat))
  | .sori d a i => some (.scalar (encSI 0x03 d.val a.val i.toNat))
  | .sxori d a i => some (.scalar (encSI 0x04 d.val a.val i.toNat))
  | .sshli d a n => some (.scalar (encSI 0x05 d.val a.val n.val))
  | .sshri d a n => some (.scalar (encSI 0x06 d.val a.val n.val))
  | .ssari d a n => some (.scalar (encSI 0x07 d.val a.val n.val))
  | .slui d i => some (.scalar (0x08 * 2 ^ 26 + d.val * 2 ^ 20 + i.toNat))
  | .slpc d i => some (.scalar (0x09 * 2 ^ 26 + d.val * 2 ^ 20 + i.toNat))
  | .scmp q c a b => some (.scalar (0x0A * 2 ^ 26 + q.val * 2 ^ 23 + c.code * 2 ^ 20 + a.val * 2 ^ 14 + b.val * 2 ^ 8))
  | .scmpi q c a i => some (.scalar (0x0B * 2 ^ 26 + q.val * 2 ^ 23 + c.code * 2 ^ 20 + a.val * 2 ^ 14 + i.toNat))
  | .ssel d a b p => some (.scalar (encSR 0x0C d.val a.val b.val p.val))
  | .qlog d a b f => some (.scalar (0x0D * 2 ^ 26 + d.val * 2 ^ 23 + a.val * 2 ^ 20 + b.val * 2 ^ 17 + f.code * 2 ^ 14))
  | .br q n o => some (.scalar (encSB 0x10 q.val n o))
  | .call o => some (.scalar (encSB 0x11 7 false o))
  | .jr d a => some (.scalar (encSR 0x12 d.val a.val 0 0))
  | .lrun q n o => some (.scalar (encSB 0x13 q.val n o))
  | .lsync => some (.scalar (0x14 * 2 ^ 26))
  | .sld64 d a i => some (.scalar (encSI 0x18 d.val a.val i.toNat))
  | .sld32 d a i => some (.scalar (encSI 0x19 d.val a.val i.toNat))
  | .sst64 d a i => some (.scalar (encSI 0x1A d.val a.val i.toNat))
  | .sst32 d a i => some (.scalar (encSI 0x1B d.val a.val i.toNat))
  | .satom d a b s o f => some (.scalar (encSR 0x1C d.val a.val b.val (s.code * 2 ^ 5 + o.code * 2 ^ 3 + f.code)))
  | .scas d a b s o => some (.scalar (encSR 0x1D d.val a.val b.val (s.code * 2 ^ 5 + o.code * 2 ^ 3)))
  | .fence s k => some (.scalar (encSR 0x1E 0 0 0 (s.code * 2 ^ 5 + k.code * 2 ^ 3)))
  | .mswap a b => some (.scalar (encSM 0x20 0 a.val b.val 0))
  | .mrot a k => some (.scalar (encSM 0x20 1 a.val 0 k.val))
  | .mfree a k => some (.scalar (encSM 0x20 2 a.val 0 k.val))
  | .malias a b => some (.scalar (encSM 0x20 3 a.val b.val 0))
  | .mmove a b => some (.scalar (encSM 0x20 4 a.val b.val 0))
  | .mtag a t k => some (.scalar (encSM 0x20 5 a.val t.toNat k.val))
  | .mgive a k => some (.scalar (encSM 0x21 0 a.val 0 k.val))
  | .mtake b k => some (.scalar (encSM 0x21 1 0 b.val k.val))
  | .mplace a b k => some (.scalar (encSM 0x21 2 a.val b.val k.val))
  | .mqry d n => some (.scalar (0x22 * 2 ^ 26 + d.val * 2 ^ 20 + n.val * 2 ^ 8))
  | .binit a b s => some (.scalar (encSE 0x28 0 a.val b.val s.code 0))
  | .barr a b s => some (.scalar (encSE 0x28 0 a.val b.val s.code 1))
  | .bexp a b s => some (.scalar (encSE 0x28 0 a.val b.val s.code 2))
  | .bwait a b s => some (.scalar (encSE 0x28 0 a.val b.val s.code 3))
  | .btest q a b s => some (.scalar (encSE 0x28 q.val a.val b.val s.code 4))
  | .bclr a s => some (.scalar (encSE 0x28 0 a.val 0 s.code 5))
  | .bphase a b s => some (.scalar (encSE 0x28 0 a.val b.val s.code 6))
  | .cpy e t n => some (.scalar (encEng 0x30 e (t.val * 2 ^ 2 + n.val)))
  | .hread e => some (.scalar (encEng 0x31 e 0))
  | .hland e => some (.scalar (encEng 0x32 e 0))
  | .hend => some (.scalar (0x33 * 2 ^ 26))
  | .mmac e => some (.scalar (encEng 0x34 e 0))
  | .azero e => some (.scalar (encEng 0x35 e 0))
  | .ard e => some (.scalar (encEng 0x35 e 1))
  | .awr e => some (.scalar (encEng 0x35 e 2))
  | .topk e k col bot => some (.scalar (encEng 0x36 e (k.code * 2 ^ 2 + b2n col * 2 + b2n bot)))
  | .fput e => some (.scalar (encEng 0x37 e 0))
  | .fputh e => some (.scalar (encEng 0x37 e 1))
  | .fcoll e => some (.scalar (encEng 0x37 e 2))
  | .fcont e => some (.scalar (encEng 0x37 e 3))
  | .launch q a b => some (.scalar (encSE 0x38 q.val a.val b.val 2 0))
  | .tdef a b => some (.scalar (encSE 0x39 0 a.val b.val 1 0))
  | .tsub b => some (.scalar (encSE 0x39 0 0 b.val 1 1))
  | .tget q a => some (.scalar (encSE 0x39 q.val a.val 0 1 2))
  | .publ a => some (.scalar (encSE 0x3A 0 a.val 0 4 0))
  | .plvl d a => some (.scalar (encSR 0x3B d.val a.val 0 0))
  | .region => some (.scalar (0x3C * 2 ^ 26))
  | .phint a bm => some (.hint (encSR 0x3D 0 a.val 0 0) bm.toNat)
  | .srd d s => some (.scalar (0x3E * 2 ^ 26 + d.val * 2 ^ 20 + s.toNat * 2 ^ 8))
  | .swr d s => some (.scalar (0x3E * 2 ^ 26 + d.val * 2 ^ 20 + s.toNat * 2 ^ 8 + 1))
  | .nop => some (.scalar (encSR 0x3F 0 0 0 0))
  | .trap b => some (.scalar (encSR 0x3F 0 0 b.val 1))
  | .halt => some (.scalar (encSR 0x3F 0 0 0 2))
  | .eret => some (.scalar (encSR 0x3F 0 0 0 3))
  | .brk => some (.scalar (encSR 0x3F 0 0 0 4))
  | .iadd w => some (.lane (encArith 0x00 w))
  | .isub w => some (.lane (encArith 0x01 w))
  | .imul w => some (.lane (encArith 0x02 w))
  | .imulh w => some (.lane (encArith 0x03 w))
  | .imad w => some (.lane (encArith 0x04 w))
  | .imadw w => some (.lane (encArith 0x05 w))
  | .idp4 w => some (.lane (encArith 0x06 w))
  | .iabs w => some (.lane (encArith 0x07 w))
  | .iand w => some (.lane (encArith 0x08 w))
  | .ior w => some (.lane (encArith 0x09 w))
  | .ixor w => some (.lane (encArith 0x0A w))
  | .iandn w => some (.lane (encArith 0x0B w))
  | .ishl w => some (.lane (encArith 0x0C w))
  | .ishr w => some (.lane (encArith 0x0D w))
  | .isar w => some (.lane (encArith 0x0E w))
  | .ilop3 w => some (.lane (encArith 0x0F w))
  | .imin w => some (.lane (encArith 0x10 w))
  | .imax w => some (.lane (encArith 0x11 w))
  | .popc w => some (.lane (encArith 0x12 w))
  | .clz w => some (.lane (encArith 0x13 w))
  | .brev w => some (.lane (encArith 0x14 w))
  | .bfe w => some (.lane (encArith 0x15 w))
  | .bfi w => some (.lane (encArith 0x16 w))
  | .isetp w => some (.lane (encArith 0x18 w))
  | .sel w => some (.lane (encArith 0x19 w))
  | .mov w => some (.lane (encArith 0x1A w))
  | .plane w => some (.lane (encArith 0x1B w))
  | .fadd w => some (.lane (encArith 0x20 w))
  | .fsub w => some (.lane (encArith 0x21 w))
  | .fmul w => some (.lane (encArith 0x22 w))
  | .ffma w => some (.lane (encArith 0x23 w))
  | .fmin w => some (.lane (encArith 0x24 w))
  | .fmax w => some (.lane (encArith 0x25 w))
  | .fsetp w => some (.lane (encArith 0x26 w))
  | .fclass w => some (.lane (encArith 0x27 w))
  | .frcp w => some (.lane (encArith 0x28 w))
  | .frsq w => some (.lane (encArith 0x29 w))
  | .fsqrt w => some (.lane (encArith 0x2A w))
  | .fdiv w => some (.lane (encArith 0x2B w))
  | .fexp2 w => some (.lane (encArith 0x2C w))
  | .flog2 w => some (.lane (encArith 0x2D w))
  | .fsin w => some (.lane (encArith 0x2E w))
  | .fcos w => some (.lane (encArith 0x2F w))
  | .ftanh w => some (.lane (encArith 0x30 w))
  | .fscale w => some (.lane (encArith 0x31 w))
  | .cvt w => some (.lane (encArith 0x40 w))
  | .qnt w => some (.lane (encArith 0x41 w))
  | .dqnt w => some (.lane (encArith 0x42 w))
  | .cvtq w => some (.lane (encArith 0x43 w))
  | .cvtf w => some (.lane (encArith 0x44 w))
  | .pack w => some (.lane (encArith 0x45 w))
  | .unpk w => some (.lane (encArith 0x46 w))
  | .shfl w => some (.lane (encArith 0x50 w))
  | .ballot w => some (.lane (encArith 0x51 w))
  | .vote w => some (.lane (encArith 0x52 w))
  | .lred w => some (.lane (encArith 0x53 w))
  | .lscan w => some (.lane (encArith 0x54 w))
  | .vld w => some (.lane (encMem 0x60 w))
  | .vst w => some (.lane (encMem 0x61 w))
  | .vldn w => some (.lane (encMem 0x62 w))
  | .vstn w => some (.lane (encMem 0x63 w))
  | .atom w => some (.lane (encMem 0x64 w))
  | .acas w => some (.lane (encMem 0x65 w))
  | .red w => some (.lane (encMem 0x66 w))
  | .vpref w => some (.lane (encMem 0x67 w))
  | .brd w => some (.lane (encCtl 0x80 w))
  | .jmark w => some (.lane (encCtl 0x81 w))
  | .join w => some (.lane (encCtl 0x82 w))
  | .lend w => some (.lane (encCtl 0x83 w))
  | .ljmp w => some (.lane (encCtl 0x84 w))
  | .lnop w => some (.lane (encCtl 0x85 w))
  | .ltrap w => some (.lane (encCtl 0x86 w))
  | .qtailWrite .. | .qbaseWrite .. | .porterrWrite .. | .semtake .. | .semrel .. | .hostRegWrite ..
  | .ctxcreate .. | .ctxdestroy .. | .ctxdestroyComplete .. | .inval .. | .invalComplete .. | .faultreply ..
  | .domreset .. | .lcchange .. | .fwupdate .. | .attest .. | .hostCmdUnknown .. | .portLinkDown ..
  | .smbusPowerLimit .. | .moduleReset | .wipeDone | .launchEntryTake .. | .launchHeadAge .. | .gridPlace ..
  | .frameTeamStart .. | .rowZeroed .. | .preemptRequest .. | .preemptForce .. | .teamSave .. | .teamRestore ..
  | .faultDeliver .. | .matrixComplete .. | .cpyBurst .. | .cpyComplete .. | .hreadBurstLand .. | .dropStart ..
  | .lastBurst .. | .finalDropStart .. | .topkComplete .. | .fabricPacketArrive .. | .fabricComplete ..
  | .landing .. | .flitRetry .. | .gangRegister .. | .gangWatchdog .. | .ueConsumed .. | .domainReadmit ..
  | .patrolScrub .. | .correctableThreshold .. | .timingRepeat .. | .replayThreshold .. | .predictorDecay
  | .governorStep .. | .capLower .. | .capRaise .. | .passHoldExpire .. | .passDouble .. | .passHalve ..
  | .levelChangeDone .. | .sensorSample .. | .damageUpdate | .thermalCapLift .. | .tripRelease
  | .linkRetrainDone .. | .portLinkUp .. => none

/-- The decoder on a code. -/
def decode : Code → Except DecodeError Instr
  | .scalar w => decodeScalar w 0
  | .hint w bm => decodeScalar w bm
  | .lane w => decodeLane w

/-- The bytes of a code as memory holds them (R2, R53). -/
def Code.bytes : Code → List Byte
  | .scalar w => toBytes 4 w
  | .hint w bm => toBytes 4 w ++ toBytes 8 bm
  | .lane w => toBytes 12 w

end Sys2Proof
end

