-- ==== Sys2Proof/Machine/State.lean ====
section
/-! DEFINITION. What the module holds between two steps, as plain data, and its reset value. INVENTORY.md lists every
piece with the rule that names it. -/

namespace Sys2Proof.Machine

/-- A finite map from numbers: keys strictly rising, and no entry equal to what an absent key reads as. -/
abbrev Sparse (α : Type) := List (Nat × α)

/-- Bytes by address (R1, R2): addresses strictly rising, and no entry equal to 0, which an unlisted address reads
as (R338 wipes every memory to zero; host memory: DESIGN CHOICE, log 3). -/
abbrev Memory := List Host.Cell

/-! ## Warps and drops -/

/-- The roles of Table 2.2. -/
inductive Role where
  | gen | cpy | mtx | com
  deriving DecidableEq, Repr

/-- One valid entry of a register map (R312). HOLD is read from the row. -/
structure MapEntry where
  row : Nat
  tag : BitVec 4
  deriving DecidableEq, Repr

/-- Why a fragment does not run (R273). -/
inductive FragWait where
  | no | atJoin | atLend
  deriving DecidableEq, Repr

/-- A store that holds bytes. -/
inductive Place where
  | phys
  | host (p : Port)
  | scratch (rank : Nat)
  | accum (rank : Nat)
  deriving DecidableEq, Repr

/-- Consecutive bytes of one access in one place. -/
structure Piece where
  place : Place
  addr : Nat
  len : Nat
  /-- the pointer of its first byte -/
  ptr : Word
  /-- the page is shared: lines written through it wear the tag 0xFFFE (R330) -/
  shr : Bool
  deriving DecidableEq, Repr

/-- A lane word of which some lanes have made their accesses already (R217): the word, where each lane's bytes lie, which one check has found
for all lanes (R187), and what the lanes that are through have read. -/
structure EarlyWord where
  instr : Instr
  plan : List (Nat × List Piece)
  done : List (Nat × Nat)
  deriving DecidableEq, Repr

/-- An entry of the split table (R271). -/
structure Frag where
  mask : Mask
  lpc : Word
  wait : FragWait
  /-- the access of its next word has begun (R217) -/
  early : Option EarlyWord := none
  deriving DecidableEq, Repr

/-- An entry of the rejoin stack (R271). -/
structure Rejoin where
  addr : Word
  mask : Mask
  deriving DecidableEq, Repr

/-- A region of an agent (R347, R350): its serial number, its counter value, its entry address, whether it has become
non-re-executable, and the registers as they stood at its entry. -/
structure Region where
  rid : Nat
  ctr : Word
  entry : Word
  nr : Bool
  snapG : Sparse Word
  snapTrap : Sparse Word
  snapQ : BitVec 8
  snapMode : BitVec 3
  deriving DecidableEq, Repr

/-- What a lane-queue entry does (R30, Table 2.4). -/
inductive QKind where
  /-- the lane block at an address -/
  | block (addr : Word)
  /-- a scalar instruction of Table 2.4 -/
  | instr (i : Instr)
  deriving DecidableEq, Repr

/-- An entry of the lane queue: what it does, the address of its scalar word, its region, the dynamic rounding mode
fixed at LRUN (R105), and the registers that R32 makes the scalar stream wait on. -/
structure QEntry where
  kind : QKind
  addr : Word
  rid : Nat
  mode : BitVec 3
  gRead : BitVec 64
  gWrite : BitVec 64
  qWrite : BitVec 8
  deriving DecidableEq, Repr

/-- Where a warp stopped for a save (R359, Table 15.7). -/
inductive StopState where
  /-- at a PHINT, with its list pointer, none where the instruction names g0, and its bitmap -/
  | atHint (list : Option Word) (bitmap : BitVec 64)
  /-- at a region entry, 50 µs after the request -/
  | forced
  deriving DecidableEq, Repr

/-- Whether an agent issues (R265). -/
inductive Status where
  | running
  /-- blocked in BWAIT on a barrier, for a phase, at a scope (R279) -/
  | waiting (ptr : Word) (phase : BitVec 16) (sc : Scope)
  /-- waiting in LSYNC (R34) -/
  | lsync
  /-- parked on an absent page: the address of the fault, an address in the page, and whether a lane instruction met it (R188) -/
  | parked (addr page : Word) (lane : Bool)
  /-- stopped for a save (R359) -/
  | stopped (how : StopState)
  | halted
  deriving DecidableEq, Repr

/-- A fault not yet delivered (R352). -/
structure Pending where
  rid : Nat
  code : Byte
  addr : Word
  /-- an address in the page that failed, of which the host driver is told -/
  page : Word
  lane : Bool
  /-- the host driver is told when it is delivered (R331) -/
  tell : Bool
  deriving DecidableEq, Repr

/-- What started a drop: a command or a landing slot, and whether it is a command's final drop (R301). -/
inductive Origin where
  | burst (cmd : Nat)
  | finalOf (cmd : Nat)
  | landing (slot : Fin 8)
  deriving DecidableEq, Repr

/-- A load whose place among the accesses of its agent is still open (R209, R217): its instruction, its lane (0 for a scalar load), the lanes of
its fragment, its region, and where its bytes lie. It may be performed again until something in its agent is ordered after it. -/
structure OpenLoad where
  instr : Instr
  lane : Nat
  pieces : List Piece
  mask : Mask := allLanes
  rid : Nat := 0
  /-- a FENCE.REL has followed it, which orders it before every later store and atomic of its agent (R198) -/
  fenced : Bool := false
  deriving DecidableEq, Repr

/-- Bytes that an agent has read ahead of a load that is still to come (R209): the lane of that load, 0 for a scalar one, the lanes for which it
stands, and one unit of bytes that is read whole. `regs` and `names` are the registers and names whose values may depend on what the agent has read
since: a load whose address comes from one of them is ordered after those reads. -/
structure AheadRead where
  lane : Nat
  mask : Mask
  piece : Piece
  data : List Byte
  regs : BitVec 64 := 0
  names : List Nat := []
  deriving DecidableEq, Repr

/-- A warp or a drop. -/
structure Agent where
  id : AgentId
  rank : Nat
  slot : Nat
  role : Role
  origin : Option Origin
  spc : Word
  g : Sparse Word
  trapG : Sparse Word
  q : BitVec 8
  trapMode : Bool
  fpmode : BitVec 3
  fpflags : BitVec 6
  fault : Word
  faultaddr : Word
  nextRid : Nat
  reg : Region
  olds : List Region
  queue : List QEntry
  lphase : BitVec 16
  running : Bool
  /-- the g and trap registers at the running block's place, which its lane words read (R29) -/
  blockG : Sparse Word
  blockTrap : Sparse Word
  cur : Frag
  others : List Frag
  stack : List Rejoin
  latches : Sparse (List Word)
  chain : Nat
  vmap : Sparse MapEntry
  p : Sparse Mask
  status : Status
  pend : Option Pending
  issued : Nat
  lastIssue : Nat
  /-- the scalar stream stands at a region entry, and has issued nothing since -/
  atEntry : Bool
  /-- names that MPLACE has placed here and that no instruction has touched (R220) -/
  placed : List Nat
  /-- loads whose order is still open (R209) -/
  loads : List OpenLoad
  /-- what it has read ahead of loads to come (R209) -/
  ahead : List AheadRead := []
  /-- the scope of a BWAIT that has ended, whose acquire comes before whatever it does next (R219) -/
  owes : Option Scope := none
  deriving DecidableEq, Repr

/-! ## Teams, grids and launches -/

/-- A row of a team's pool that some name or slot maps, or a command holds: 64 lanes, the reference count, the holds of
commands that read it and of commands that write it (R312, R318). -/
structure Row where
  data : List Lane
  refs : Nat
  readHolds : Nat
  writeHolds : Nat
  deriving DecidableEq, Repr

/-- What a team owns on one core (R9, R21, R313). -/
structure Rank where
  core : Nat
  scratch : Memory
  accum : Memory
  /-- free rows, zeroed -/
  pool : List Nat
  /-- free rows being zeroed (R315) -/
  zeroing : List Nat
  /-- every other row, by number -/
  live : Sparse Row
  deriving DecidableEq, Repr

/-- The states of a task slot (R261); EMPTY is the absent slot. -/
inductive TaskState where
  | waiting | ready | running | done
  deriving DecidableEq, Repr

/-- A task slot that is not EMPTY (R261, R264). -/
structure TaskSlot where
  state : TaskState
  counter : Nat
  word : Word
  arg : Word
  /-- when it became READY -/
  stamp : Nat
  deriving DecidableEq, Repr

/-- A full handoff slot (R321). -/
structure Handoff where
  row : Nat
  tag : BitVec 4
  rank : Nat
  deriving DecidableEq, Repr

/-- A landing of up to 256 bytes that waits for its drop (R304). -/
structure LandBurst where
  offset : Nat
  srcRank : BitVec 16
  overflow : Bool
  encrypted : Bool
  coll : BitVec 16
  data : List Byte
  /-- its bytes have been added to the barrier (R304) -/
  counted : Bool
  deriving DecidableEq, Repr

/-- A bound landing slot (R304). `rows` are the reserved rows that no drop uses now. -/
structure Landing where
  bar : Word
  barRank : Nat
  entry : Nat
  window : Nat
  perSet : BitVec 32
  rank : Nat
  rows : List Nat
  running : Nat
  waiting : List LandBurst
  deriving DecidableEq, Repr

/-- A frame slot of a placement map (Table 11.1). -/
structure FrameSlot where
  dx : Nat
  dy : Nat
  mask : Nat
  deriving DecidableEq, Repr

/-- The fields of a launch packet (Table 11.1); `reserved` says that some zero field is not zero. -/
structure LaunchPacket where
  version : Nat
  coop : Bool
  fixed : Bool
  prio : Nat
  gang : Bool
  enc : Bool
  ox : Nat
  oy : Nat
  wm1 : Nat
  hm1 : Nat
  frame : Nat
  teams : Nat
  wdog : Nat
  gangid : BitVec 16
  warps : Nat
  cores : Nat
  handlers : Nat
  rows : Nat
  local16 : Nat
  accum256 : Nat
  grank : Nat
  sbase : Word
  lbase : Word
  egen : Nat
  ecpy : Nat
  emtx : Nat
  ecom : Nat
  etrap : Nat
  trapv : Bool
  hdone : Word
  roles : List Role
  slots : List FrameSlot
  reserved : Bool
  deriving DecidableEq, Repr

/-- A resident team (R21, R25). -/
structure Team where
  id : Nat
  grid : Nat
  index : Nat
  frameSlot : Nat
  ctx : BitVec 16
  depth : Nat
  ptr : Word
  pkt : LaunchPacket
  cluster : Nat
  ranks : List Rank
  tasks : Sparse TaskSlot
  handoff : Sparse Handoff
  landings : Sparse Landing
  vote : Option Nat
  /-- when a save was requested (R359) -/
  saveReq : Option Nat
  /-- its warps stop at their next region entry (R359) -/
  forced : Bool
  /-- the absent page of the save area that suspends the save, once the driver has been told (R362) -/
  saveTold : Option Word
  /-- its age, for the order of R259 -/
  started : Nat
  nextDrop : Nat
  deriving DecidableEq, Repr

/-- The completion barrier of a device launch (R258): the parent's team, the leader's rank, the pointer. -/
structure ParentBarrier where
  team : Nat
  rank : Nat
  ptr : Word
  deriving DecidableEq, Repr

/-- A save slot that a save of several teams has reserved for a team which it has yet to write, with the generation of that save (R363, R365). -/
structure SaveTicket where
  team : Nat
  slot : Nat
  generation : Nat
  deriving DecidableEq, Repr

/-- A grid that has been placed and has not retired (R248 to R256). -/
structure Grid where
  id : Nat
  ctx : BitVec 16
  depth : Nat
  ptr : Word
  pkt : LaunchPacket
  ox : Nat
  oy : Nat
  parent : Option Nat
  bar : Option ParentBarrier
  port : Option Port
  /-- the next team index of each frame slot -/
  nextTeam : List Nat
  ended : Nat
  code : Byte
  /-- what a save of several teams that is under way has reserved for those that are still to be written (R363, R365) -/
  tickets : List SaveTicket := []
  deriving DecidableEq, Repr

/-- An entry of a device launch queue (R251, R258). -/
structure QueueItem where
  ptr : Word
  ctx : BitVec 16
  depth : Nat
  parent : Nat
  bar : Option ParentBarrier
  deriving DecidableEq, Repr

/-- A head that the distributor has taken from its queue and found legal (R250, R252). -/
structure Head where
  queue : QueueId
  item : QueueItem
  pkt : LaunchPacket
  since : Nat
  aged : Bool
  deriving DecidableEq, Repr

/-! ## Engine commands -/

/-- Which engine command it is. -/
inductive CmdKind where
  | cpy | hread | mmac | azero | ard | awr | topk | fput | fputh | fcoll | fcont
  deriving DecidableEq, Repr

/-- Bytes that an engine has read ahead of the rest of a burst, a packet or a matrix command (R227). -/
structure EarlyUnit where
  burst : Nat
  place : Place
  addr : Nat
  data : List Byte
  deriving DecidableEq, Repr

/-- A burst that has landed in a reserved row and waits for its drop (R295). -/
structure Landed where
  burst : Nat
  row : Nat
  deriving DecidableEq, Repr

/-- The final drop of an HREAD (R301). -/
inductive FinalDrop where
  | none | due | runs | ended
  deriving DecidableEq, Repr

/-- An accepted engine command. For a matrix command `rows` are the rows bound at issue (R159): A, B and scales in
that order, or the named rows, and `tags` the formats of A and B. For an HREAD `rows` are its reserved rows that are in
no use. -/
structure Cmd where
  id : Nat
  kind : CmdKind
  instr : Instr
  agent : AgentId
  team : Nat
  rank : Nat
  core : Nat
  desc : List Word
  bar : Option Word
  scope : Scope
  acq : Bool
  rel : Bool
  err : Byte
  /-- it requests nothing more: it has met an error, or its link or its window is lost (R290, R300) -/
  stopped : Bool
  /-- the addresses in absent pages on which it is suspended (R290) -/
  suspended : List Word
  /-- the addresses of pages that the driver has declared invalid for it (R290) -/
  refused : List Word
  /-- the first burst not yet requested -/
  cursor : Nat
  /-- the bursts requested and not yet delivered -/
  pending : List Nat
  /-- its completion arrival has been made -/
  arrived : Bool
  rows : List Nat
  tags : List (BitVec 4)
  landed : List Landed
  running : Nat
  window : Nat
  reserved : Nat
  delivered : Nat
  /-- the bursts of an HREAD that have been delivered, as drops -/
  started : Nat
  final : FinalDrop
  /-- the bytes that a copy onto its own source has overwritten, by pointer (R289) -/
  old : Sparse Byte
  /-- the keys of a TOPK that have been read already, by place in the key rows (R227) -/
  keys : Sparse Nat
  /-- what it has read ahead, each unit once (R227) -/
  early : List EarlyUnit := []
  /-- how many packets of the down pass have reached an FCOLL's own module (R239, R242) -/
  leaves : Nat := 0
  deriving DecidableEq, Repr

/-! ## Memory beside the bytes -/

/-- A store on its way to the host (R193, R194). -/
structure HostWrite where
  ctx : BitVec 16
  port : Port
  addr : Nat
  data : List Byte
  deriving DecidableEq, Repr

/-- The leaf that a walk ends at (R330, R331): address of the byte, size of the page, permissions. -/
structure Leaf where
  base : Nat
  size : Nat
  x : Bool
  w : Bool
  r : Bool
  shr : Bool
  port : Port
  deriving DecidableEq, Repr

/-- A cached walk (R332): the TLB that holds it, the context, which table, the first virtual address of its page, and its leaf. -/
structure TlbEntry where
  level : TlbLevel
  ctx : BitVec 16
  host : Bool
  va : Nat
  leaf : Leaf
  deriving DecidableEq, Repr

/-- How an L1 holds a line (R181, R192): a copy that the home slice does not know of, one that it tracks, or one that it has granted to the
core as its owner. -/
inductive L1Kind where
  | untracked | shared | owned
  deriving DecidableEq, Repr

/-- A 128-byte line in a core's L1, with the context whose access filled it (R334). Loads at scope .W may be served from the bytes
of an untracked copy (R181); a tracked line always reads as memory, and lists no bytes. -/
structure L1Line where
  ctx : BitVec 16
  core : Nat
  line : Nat
  data : List Byte
  /-- it goes first when room is needed (R183) -/
  first : Bool
  kind : L1Kind := .untracked
  /-- the tag that an owned line wears while it is dirty (R334) -/
  dirty : Option (BitVec 16) := none
  deriving DecidableEq, Repr

/-- The tag that an L1 line wears (Table 14.3). -/
def L1Line.tag (l : L1Line) : BitVec 16 := l.dirty.getD l.ctx

/-- How long an L2 line stays (R183). -/
inductive Keep where
  | normal | first | retained
  deriving DecidableEq, Repr

/-- A line in its home slice (R11, R334): the context whose access filled it, and while it is dirty the tag that it wears. The bytes
stand in `State.mem`. -/
structure L2Line where
  filler : BitVec 16
  dirty : Option (BitVec 16)
  keep : Keep
  deriving DecidableEq, Repr

/-- The tag that a line wears (Table 14.3): a dirty line its writer's, or 0xFFFE, a clean line that of the access that filled it. -/
def L2Line.tag (l : L2Line) : BitVec 16 := l.dirty.getD l.filler

/-- Whose a store is that not every agent sees yet: an agent's, made in the lanes of a mask, a command's, or another module's. -/
inductive LateOwner where
  | agent (id : AgentId) (mask : Mask)
  | cmd (id : Nat)
  | peer
  deriving DecidableEq, Repr

/-- An atomic that has been issued and is still to be performed (R209): its instruction, its lane, its region, where its bytes lie, the context and
the core rank of its maker, whether it was issued in trap mode, and the operands as they were at issue. `fenced` says that a FENCE.REL has followed
it. -/
structure LateOp where
  instr : Instr
  lane : Nat
  rid : Nat
  piece : Piece
  ctx : BitVec 16
  rank : Nat
  trap : Bool
  value : Nat
  compare : Nat
  fenced : Bool := false
  deriving DecidableEq, Repr

/-- A store that its agent has made and that no other agent sees yet (R209, R229): whose it is, on which core, the team of that agent, whose
memory `place` names, and its grid, and the bytes, which become visible together (R184, R230). `released` is the widest scope at which its agent has
released it since (R210). With `op` it is an atomic, which reads and writes its bytes when it becomes visible; `data` then stands for their number. -/
structure LateStore where
  owner : LateOwner
  core : Nat
  team : Nat
  grid : Nat
  place : Place
  addr : Nat
  data : List Byte
  released : Option Scope
  op : Option LateOp := none
  deriving DecidableEq, Repr

/-! ## Contexts and the host interface -/

/-- The device's record of a save slot that is in use (R362, R363). -/
structure SaveSlot where
  busy : Bool
  generation : Nat
  deriving DecidableEq, Repr

/-- A live context (R328). -/
structure Ctx where
  perf : Bool
  groot : Nat
  hroot : Nat
  expBase : Nat
  expSize : Nat
  slots : Sparse SaveSlot
  destroying : Bool
  deriving DecidableEq, Repr

/-- The registers and the link of one host port (R14, R195, R339). -/
structure PortRegs where
  cmd : List Word
  busy : Bool
  /-- the command in progress and its operands -/
  code : Byte
  held : List Word
  /-- the command that waits for one of the other port (R340) -/
  waits : Option Instr
  /-- when that command reached the unit -/
  reached : Nat := 0
  result : Byte
  err : Word
  qbase : Sparse Word
  qtail : Sparse Byte
  qhead : Sparse Byte
  up : Bool
  lanes : Nat
  /-- in tenths of GT/s -/
  rate : Nat
  atomicOp : Bool
  /-- how often MSI-X vector 0 has been raised on the port (R377) -/
  raised : Nat
  deriving DecidableEq, Repr

/-- A hardware semaphore (R341): its owner, and the port that lost the last tie. -/
structure Semaphore where
  owner : Option Port
  lost : Port
  deriving DecidableEq, Repr

/-- The life-cycle states (Table 14.6). -/
inductive LifeState where
  | manufacture | provisioned | deployed | decommissioned
  deriving DecidableEq, Repr

/-- A firmware image (R343): its version, its body, and the digest, the key and the signature that it carries. -/
structure Firmware where
  version : Nat
  body : List Byte
  digest : List Byte
  key : List Byte
  signature : List Byte
  deriving DecidableEq, Repr

/-- A notice record (Table 16.5). -/
structure Notice where
  seq : Nat
  kind : Byte
  code : Byte
  ctx : BitVec 16
  domain : BitVec 32
  vaddr : Word
  paddr : Word
  time : Nat
  flags : Byte
  ranks : List (BitVec 16)
  deriving DecidableEq, Repr

/-- Entries of a context in a host launch ring that CTXDESTROY has discarded before the device read them (R336): they lie among the next
`left` entries of the ring. -/
structure Purge where
  port : Port
  queue : Nat
  ctx : BitVec 16
  left : Nat
  deriving DecidableEq, Repr

/-- The two host ports and the units beside them. -/
structure HostIf where
  portA : PortRegs
  portB : PortRegs
  sems : Sparse Semaphore
  life : LifeState
  wiping : Bool
  /-- the identity key exists (Table 14.6) -/
  identity : Bool
  staged : Option Firmware
  firmware : Firmware
  floor : Nat
  notices : List Notice
  lastSeq : Nat
  purges : List Purge
  deriving DecidableEq, Repr

/-! ## The fabric -/

/-- A link (R13, R234, R245): whether it is down, and the flit that it sends, by its packet and number, with how often it has
failed. -/
structure Link where
  down : Bool
  flit : Option (Packet × Nat)
  failures : Nat
  deriving DecidableEq, Repr

/-- A gang that this module knows of (R247). -/
structure Gang where
  gang : BitVec 16
  ctx : BitVec 16
  rank : Nat
  enc : Bool
  /-- when the watchdog expires, in ns -/
  deadline : Nat
  registered : List Nat
  retired : Bool
  deriving DecidableEq, Repr

/-- What one payload offset of a collective has gathered (R239). -/
structure CollPart where
  offset : Nat
  packets : List Packet
  deriving DecidableEq, Repr

/-- An open entry of the collective table (R239). `cmd` is the FCONT that opened it, none for a transit entry. `offsets` is the number
of payload offsets of the FCONT, `combined` the number of the collective's that have gone up, `seen` those that have passed a transit entry on
their way up, `down` the number that have gone down, `ups` the links over which the results have gone up. -/
structure CollEntry where
  coll : BitVec 16
  gang : BitVec 16
  cmd : Option Nat
  team : Nat
  fanin : Nat
  slot : Fin 8
  parts : List CollPart
  links : List (Option (Fin 18))
  offsets : Nat
  combined : Nat
  seen : List Nat
  down : Nat
  ups : List (Option (Fin 18)) := []
  deriving DecidableEq, Repr

/-- An arrival on a barrier of a saved team, which waits for the restore (R232). -/
structure HeldArrival where
  rank : Nat
  off : Nat
  count : Nat
  bytes : Nat
  err : Byte
  deriving DecidableEq, Repr

/-- A team whose image has been written (R362 to R365): what the device itself keeps of it. The command slots give what Table 15.9 does not
record (issuer, rank, core); the send queue entries, collective entries and landing buffers are the FABRIC record, whose layout the spec leaves
open. -/
structure SavedTeam where
  id : Nat
  grid : Nat
  index : Nat
  frameSlot : Nat
  ctx : BitVec 16
  slot : Nat
  generation : Nat
  started : Nat
  nextDrop : Nat
  cmds : List Cmd
  entries : List CollEntry
  landings : Sparse Landing
  held : List HeldArrival
  /-- the absent page of the save area that suspends the restore, once the driver has been told -/
  told : Option Word
  deriving DecidableEq, Repr

/-- The fabric unit (R233 to R247). -/
structure Fabric where
  links : Sparse Link
  gangs : List Gang
  /-- ranks that have registered for gangs of which this module has launched no grid yet (R247) -/
  early : List (BitVec 16 × Nat)
  table : List CollEntry
  /-- packets that wait for a collective entry -/
  combine : List (Packet × Option (Fin 18))
  /-- packets that have left the module, newest first, with the link they left over -/
  out : List (Packet × Option (Fin 18))
  deriving DecidableEq, Repr

/-! ## Power, heat and errors -/

/-- A cluster's converter, clock and current (R380 to R387, R374). Frequencies are in units of 100 MHz. -/
structure Cluster where
  level : Nat
  /-- the level that a change under way leads to -/
  target : Option Nat
  freq : Nat
  passes : Nat
  cap : Nat
  /-- steps of 100 MHz that R374 holds the frequency below its level's highest entry -/
  held : Nat
  /-- until when the pass count is held at 2 or more (R387) -/
  passHold : Nat
  /-- since when the grant has stayed below half the need -/
  lowSince : Option Nat
  /-- since when the need at the next level has been granted -/
  highSince : Option Nat
  /-- when cycles were repeated, newest first, as far as one millisecond before the last (R374) -/
  repeats : List Nat
  /-- the last accepted reading of the current monitor, in mA, and since when it has been above 36 A and below 28.8 A (R385) -/
  current : Nat
  overSince : Option Nat
  underSince : Option Nat
  /-- tenths of a clock counted up to a time -/
  clkAt : Nat
  clkFrom : Nat
  deriving DecidableEq, Repr

/-- A condition of Table 17.2: whether its action is in force, and since when the condition has been clear (R390). -/
structure HeatHold where
  on : Bool
  clear : Option Nat
  deriving DecidableEq, Repr

/-- A thermal region (R389, R390) with its conditions D > 750, D > 1,000 and T > 110 °C. -/
structure HeatRegion where
  damage : Rat
  temp : Int
  tempMax : Int
  worn : HeatHold
  spent : HeatHold
  hot : HeatHold
  deriving DecidableEq, Repr

/-- A thermal sensor (R391): its last raw readings, newest first, its last accepted reading, and whether it is suspect and since when it
follows. -/
structure Sensor where
  readings : List Int
  accepted : Int
  suspect : Bool
  follows : Option Nat
  deriving DecidableEq, Repr

/-- The power controller (R386 to R391). -/
structure Power where
  limit : Nat
  clusters : Sparse Cluster
  /-- tokens granted to consumers 0 to 17 (links) and 18 to 113 (clusters) -/
  grants : Sparse Nat
  regions : Sparse HeatRegion
  sensors : Sparse Sensor
  tripped : Bool
  deriving DecidableEq, Repr

/-! ## Inputs -/

/-- What acts next: one stream of an agent, an event, the passing of time, a host, a cache, an order that R209 leaves open, or an error. -/
inductive Input where
  /-- the scalar stream of an agent issues -/
  | scalar (ag : AgentId)
  /-- the lane stream of an agent issues; `frag` chooses among the fragments that may run (R274) -/
  | lane (ag : AgentId) (frag : Nat)
  /-- an event of file 95 -/
  | event (i : Instr)
  /-- time passes -/
  | tick (ns : Nat)
  /-- a host stores to the module's memory -/
  | hostStore (addr : Nat) (data : List Byte)
  /-- a host stores to its own memory behind a port -/
  | hostOwn (p : Port) (addr : Nat) (data : List Byte)
  /-- a host sector arrives, or stops arriving, poisoned (R372) -/
  | hostPoison (p : Port) (sector : Nat) (on : Bool)
  /-- a store of the host write path reaches host memory (R194) -/
  | hostDrain
  /-- a TLB keeps the walk of a page (R332) -/
  | tlbFill (level : TlbLevel) (ctx : BitVec 16) (host : Bool) (va : Nat)
  /-- a TLB drops the walk of a page -/
  | tlbEvict (level : TlbLevel) (ctx : BitVec 16) (host : Bool) (va : Nat)
  /-- a core's L1 drops a line -/
  | l1Evict (core line : Nat)
  /-- a dirty line is written back -/
  | writeBack (line : Nat)
  /-- L2 drops a line; a dirty one is written back -/
  | l2Evict (line : Nat)
  /-- as `scalar`; the stores whose bit of `pick` is set are seen by other agents only later (R209) -/
  | scalarLate (ag : AgentId) (pick : Nat)
  /-- as `lane`, with the same -/
  | laneLate (ag : AgentId) (frag pick : Nat)
  /-- as `event`, with the same -/
  | eventLate (i : Instr) (pick : Nat)
  /-- a store that waits becomes visible (R216) -/
  | land (k : Nat)
  /-- an agent's open load is performed again, in the units that `pick` names (R209) -/
  | reload (ag : AgentId) (k pick : Nat)
  /-- a link begins to send a flit of a packet (R234) -/
  | flitOn (link : Fin 18) (pk : Packet) (flit : Nat)
  /-- a TOPK reads one of its keys (R227) -/
  | keyRead (cmd k : Nat)
  /-- an engine reads one 4-byte unit of what an event of its will read (R227) -/
  | engineRead (e : Instr) (k : Nat)
  /-- one lane of the next word of a lane stream makes its access ahead of the others (R217) -/
  | laneEarly (ag : AgentId) (frag lane : Nat)
  /-- an input falls into the clock of what the step before it did, where it comes after that in the order of R263 -/
  | sameClock (i : Input)
  /-- an agent reads a unit of bytes at a pointer ahead of a load to come, of the scalar stream or of a lane (R209) -/
  | readAhead (ag : AgentId) (lane : Option Nat) (ptr : Word) (n : Nat)
  /-- an uncorrectable error strikes an entry (R367) -/
  | strike (e : ErrorPlace)
  /-- an ordinary read of a domain is corrected (R376) -/
  | corrected (domain : Nat)
  /-- a cluster's current monitor reads, in mA (R385, R391) -/
  | current (cluster : Fin 96) (mA : Int)
  /-- both ports write CMDGO in one clock; `even` says whether its count is even (R340) -/
  | bothGo (even : Bool) (a b : Instr)
  /-- the command of a port that waits for the other port's goes on (R340) -/
  | portGo (p : Port)
  deriving DecidableEq, Repr

/-! ## The machine -/

/-- The machine stops with a fault of the model. -/
inductive Fault where
  /-- raised by `step` when an input names an agent that does not exist; no hardware does this, so it is safe -/
  | noSuchAgent
  /-- raised by `step` when an input carries an instruction that is no event; no hardware does this, so it is safe -/
  | notAnEvent
  deriving DecidableEq, Repr

/-- An instruction has no meaning. -/
inductive Refusal where
  /-- raised by an arm of `exec` whose instruction has no meaning yet; it stops where the hardware goes on: safe -/
  | notModelled (mnemonic : String)
  deriving DecidableEq, Repr

/-- The module. `ag` is the agent that acts and `tm` its team; the other agents and teams stand in `agents` and
`teams`. -/
structure State where
  inputs : List Input
  ag : Agent
  agents : List Agent
  tm : Team
  teams : List Team
  grids : List Grid
  saved : List SavedTeam
  cmds : List Cmd
  /-- device launch queues, by 4·die + priority (R251) -/
  devq : Sparse (List QueueItem)
  heads : List Head
  mem : Memory
  /-- poisoned sectors of physical memory, rising -/
  poison : List Nat
  hostA : Memory
  hostB : Memory
  /-- poisoned host sectors: 2·sector for port A, 2·sector + 1 for port B, rising -/
  hostPoison : List Nat
  hostPath : List HostWrite
  tlb : List TlbEntry
  /-- the lines of the L1s, the newest of a core first -/
  l1 : List L1Line
  /-- the lines of the L2 slices, by line address (R11, R334) -/
  l2 : Sparse L2Line
  /-- stores that only their own agents see, oldest first (R209) -/
  late : List LateStore
  /-- contention predictors, by line hash (R192) -/
  predictor : Sparse Nat
  ctxs : Sparse Ctx
  host : HostIf
  fab : Fabric
  pow : Power
  /-- fenced domains (R371) -/
  fenced : List Nat
  /-- when errors were corrected, by domain, newest first, as far as one second before the last (R376) -/
  corrected : Sparse (List Nat)
  /-- entries with an uncorrectable error that nothing has consumed yet (R367) -/
  latent : List ErrorPlace
  /-- nanoseconds since module reset -/
  now : Nat
  /-- the counter of the free values -/
  fresh : Nat
  nextId : Nat
  /-- counts steps, for ages -/
  stamp : Nat
  /-- the instruction runs from the head of the lane queue -/
  atQueue : Bool
  deriving DecidableEq, Repr

/-- A region that no agent has entered. -/
def Region.start (entry : Word) : Region :=
  { rid := 0, ctr := 0, entry := entry, nr := false, snapG := [], snapTrap := [], snapQ := 0, snapMode := 0 }

/-- The one fragment of a block's start (R29). -/
def Frag.whole (lpc : Word) : Frag := { mask := allLanes, lpc := lpc, wait := .no }

/-- An agent at its start (R27, R28, R103, R346, R347). -/
def Agent.start (id : AgentId) (rank slot : Nat) (role : Role) (spc : Word) : Agent :=
  { id := id, rank := rank, slot := slot, role := role, origin := none, spc := spc, g := [], trapG := [], q := 0,
    trapMode := false, fpmode := 0, fpflags := 0, fault := 0, faultaddr := 0, nextRid := 1, reg := Region.start spc,
    olds := [], queue := [], lphase := 0, running := false, blockG := [], blockTrap := [], cur := Frag.whole 0, others := [], stack := [],
    latches := [], chain := 0, vmap := [], p := [], status := .running, pend := none, issued := 0, lastIssue := 0,
    atEntry := true, placed := [], loads := [] }

/-- The agent that stands in `ag` while no agent acts: halted, of team 0, which is no team. -/
def Agent.nobody : Agent := { Agent.start (.warp 0 0) 0 0 .gen 0 with status := .halted }

/-- An all-zero launch packet. -/
def LaunchPacket.zero : LaunchPacket :=
  { version := 0, coop := false, fixed := false, prio := 0, gang := false, enc := false, ox := 0, oy := 0, wm1 := 0,
    hm1 := 0, frame := 0, teams := 0, wdog := 0, gangid := 0, warps := 0, cores := 0, handlers := 0, rows := 0,
    local16 := 0, accum256 := 0, grank := 0, sbase := 0, lbase := 0, egen := 0, ecpy := 0, emtx := 0, ecom := 0,
    etrap := 0, trapv := false, hdone := 0, roles := [], slots := [], reserved := false }

/-- The team that stands in `tm` while no agent acts. -/
def Team.nobody : Team :=
  { id := 0, grid := 0, index := 0, frameSlot := 0, ctx := 0, depth := 0, ptr := 0, pkt := LaunchPacket.zero,
    cluster := 0, ranks := [], tasks := [], handoff := [], landings := [], vote := none, saveReq := none,
    forced := false, saveTold := none, started := 0, nextDrop := 0 }

/-- A port's registers at reset (Table 14.4); its link is down (DESIGN CHOICE, log 5). -/
def PortRegs.reset : PortRegs :=
  { cmd := [0, 0, 0, 0, 0], busy := false, code := 0, held := [], waits := none, result := 0, err := 0, qbase := [], qtail := [],
    qhead := [], up := false, lanes := 0, rate := 0, atomicOp := false, raised := 0 }

/-- The host interface at reset: wiping (R338), every semaphore free (R341), no notice (R377). The life-cycle state is
DEPLOYED (DESIGN CHOICE, log 6); the identity key exists, the firmware is version 0 with an empty body and the rollback
floor is 0 (PRESUMED, log 7). -/
def HostIf.reset : HostIf :=
  { portA := PortRegs.reset, portB := PortRegs.reset, sems := [], life := .deployed, wiping := true, identity := true,
    staged := none, firmware := { version := 0, body := [], digest := [], key := [], signature := [] }, floor := 0, notices := [], lastSeq := 0, purges := [] }

/-- A cluster at reset (R380, R385): no team, so L0 at 0.8 GHz, one pass, cap L2. (DESIGN CHOICE, log 17) -/
def Cluster.reset : Cluster :=
  { level := 0, target := none, freq := 8, passes := 1, cap := 2, held := 0, passHold := 0, lowSince := none,
    highSince := none, repeats := [], current := 0, overSince := none, underSince := none, clkAt := 0, clkFrom := 0 }

/-- A condition that has never held. -/
def HeatHold.reset : HeatHold := { on := false, clear := none }

/-- A thermal region at reset (R389): D is 0. Its temperature before the first sample is 0 °C (DESIGN CHOICE, log
10). (DESIGN CHOICE, log 17) -/
def HeatRegion.reset : HeatRegion :=
  { damage := 0, temp := 0, tempMax := 0, worn := HeatHold.reset, spent := HeatHold.reset, hot := HeatHold.reset }

/-- A sensor at reset: nothing read yet, and nothing accepted but 0 °C. (DESIGN CHOICE, log 10) -/
def Sensor.reset : Sensor := { readings := [], accepted := 0, suspect := false, follows := none }

/-- A semaphore at reset: free; the loser of the last tie wins, and port A wins first (R341). -/
def Semaphore.reset : Semaphore := { owner := none, lost := .a }

/-- A link at reset: up, sending no flit (DESIGN CHOICE, log 8). -/
def Link.reset : Link := { down := false, flit := none, failures := 0 }

/-- The fabric unit at reset: links up, nothing held. -/
def Fabric.reset : Fabric := { links := [], gangs := [], early := [], table := [], combine := [], out := [] }

/-- The power controller at reset: limit 6,400 (R386); every grant absent, which reads as the consumer's need (DESIGN
CHOICE, log 9). -/
def Power.reset : Power := { limit := 6400, clusters := [], grants := [], regions := [], sensors := [], tripped := false }

/-- The module right after reset: no context, grid or agent, memory all zero and still being wiped (R338). -/
def State.reset : State :=
  { inputs := [], ag := Agent.nobody, agents := [], tm := Team.nobody, teams := [], grids := [], saved := [],
    cmds := [], devq := [], heads := [], mem := [], poison := [], hostA := [], hostB := [], hostPoison := [],
    hostPath := [], tlb := [], l1 := [], l2 := [], late := [], predictor := [], ctxs := [], host := HostIf.reset, fab := Fabric.reset,
    pow := Power.reset, fenced := [], corrected := [], latent := [], now := 0, fresh := 0, nextId := 1, stamp := 0,
    atQueue := false }

end Sys2Proof.Machine
end

