-- ==== Sys2Proof/Machine/Sparse.lean ====
section
/-! DEFINITION. Finite maps and byte memories as sorted lists, and their canonical form. -/

namespace Sys2Proof.Machine

/-- The entry of a key. -/
def Sparse.find? {α : Type} : Sparse α → Nat → Option α
  | [], _ => none
  | (k', v) :: m, k => if k = k' then some v else Sparse.find? m k

/-- The value of a key, `d` where the map has no entry. -/
def Sparse.getD {α : Type} (m : Sparse α) (k : Nat) (d : α) : α := (Sparse.find? m k).getD d

/-- Adds or replaces an entry, in order. -/
def Sparse.insert {α : Type} : Sparse α → Nat → α → Sparse α
  | [], k, v => [(k, v)]
  | (k', v') :: m, k, v =>
    if k < k' then (k, v) :: (k', v') :: m
    else if k = k' then (k, v) :: m
    else (k', v') :: Sparse.insert m k v

/-- Removes an entry. -/
def Sparse.erase {α : Type} (m : Sparse α) (k : Nat) : Sparse α := List.filter (fun e => e.1 != k) m

/-- Sets the value of a key in a map in which `d` is not listed. -/
def Sparse.set {α : Type} [DecidableEq α] (m : Sparse α) (k : Nat) (v d : α) : Sparse α :=
  if v = d then Sparse.erase m k else Sparse.insert m k v

/-- Sets or removes an entry. -/
def Sparse.put {α : Type} (m : Sparse α) (k : Nat) : Option α → Sparse α
  | some v => Sparse.insert m k v
  | none => Sparse.erase m k

/-- Keys strictly rising. -/
def Sparse.rising {α : Type} : Sparse α → Bool
  | [] => true
  | [_] => true
  | (k, _) :: (k', v) :: m => k < k' && Sparse.rising ((k', v) :: m)

/-- The canonical form of a memory: addresses strictly rising, no entry equal to what an unlisted address reads as. -/
def Memory.wf (m : Memory) : Bool := Sparse.rising m && List.all m (fun c => c.2 != 0)

/-- What an unlisted address reads as (R26, R338; host memory: log 3). -/
def Memory.unlisted : Byte := 0

/-- The byte at an address. -/
def Memory.read (m : Memory) (a : Nat) : Byte := Sparse.getD m a Memory.unlisted

/-- Writes one byte. -/
def Memory.write (m : Memory) (a : Nat) (b : Byte) : Memory := Sparse.set m a b Memory.unlisted

/-- The `n` bytes from an address on. -/
def Memory.readN (m : Memory) (a : Nat) : Nat → List Byte
  | 0 => []
  | n + 1 => m.read a :: Memory.readN m (a + 1) n

/-- Writes consecutive bytes. -/
def Memory.writeN (m : Memory) (a : Nat) : List Byte → Memory
  | [] => m
  | b :: bs => Memory.writeN (m.write a b) (a + 1) bs

/-- A little-endian number of `n` bytes (R2). -/
def Memory.readNat (m : Memory) (a n : Nat) : Nat := ofBytes (m.readN a n)

/-- Writes a little-endian number of `n` bytes (R2). -/
def Memory.writeNat (m : Memory) (a n x : Nat) : Memory := m.writeN a (toBytes n x)

/-! Sorted sets of numbers, as lists. -/

/-- Adds a number to a rising list. -/
def addSorted (k : Nat) : List Nat → List Nat
  | [] => [k]
  | x :: xs => if k < x then k :: x :: xs else if k = x then x :: xs else x :: addSorted k xs

/-- The numbers from `a` up to, but without, `b`. -/
def upTo (a b : Nat) : List Nat := (List.range (b - a)).map (· + a)

end Sys2Proof.Machine
end

