-- ==== Sys2Proof/Machine/Agents.lean ====
section
/-! DEFINITION. Registers of an agent, and finding agents, teams, cores and commands in the state. -/

namespace Sys2Proof.Machine

/-! ## Registers -/

/-- A g register as the agent names it: g0 reads zero (R27), and in trap mode g56 to g63 name the trap registers
(R353). -/
def Agent.getG (a : Agent) (n : Fin 64) : Word :=
  if n.val = 0 then 0
  else if a.trapMode && 56 ≤ n.val then a.trapG.getD n.val 0
  else a.g.getD n.val 0

/-- Writes a g register; a write to g0 is discarded (R27). -/
def Agent.setG (a : Agent) (n : Fin 64) (v : Word) : Agent :=
  if n.val = 0 then a
  else if a.trapMode && 56 ≤ n.val then { a with trapG := a.trapG.set n.val v 0 }
  else { a with g := a.g.set n.val v 0 }

/-- A q predicate; q7 reads true (R27). -/
def Agent.getQ (a : Agent) (n : Fin 8) : Bool := n.val == 7 || a.q.getLsbD n.val

/-- Writes a q predicate; a write to q7 is discarded (R27). -/
def Agent.setQ (a : Agent) (n : Fin 8) (v : Bool) : Agent :=
  if n.val = 7 then a
  else { a with q := if v then a.q ||| (1#8 <<< n.val) else a.q &&& ~~~(1#8 <<< n.val) }

/-- A lane predicate; p7 reads true in every lane (R28). -/
def Agent.getP (a : Agent) (n : Fin 8) : Mask := if n.val = 7 then allLanes else a.p.getD n.val 0

/-- Writes a lane predicate in the lanes of a mask; a write to p7 is discarded (R28, R58). -/
def Agent.setP (a : Agent) (n : Fin 8) (lanes v : Mask) : Agent :=
  if n.val = 7 then a
  else { a with p := a.p.set n.val (a.getP n &&& ~~~lanes ||| (v &&& lanes)) 0 }

/-- The register whose number is `n` beyond a base that the encoding keeps below 64 (R66). -/
def Agent.getGAt (a : Agent) (b : Fin 64) (n : Nat) : Word := a.getG (Fin.ofNat 64 (b.val + n))

/-- A drop. -/
def Agent.isDrop (a : Agent) : Bool :=
  match a.id with
  | .drop .. => true
  | .warp .. => false

/-- The team number of an agent name. -/
def teamOf : AgentId → Nat
  | .warp t _ => t
  | .drop t _ => t

/-- The warp index; 0xFFFF in a drop (R22). -/
def Agent.warpIndex (a : Agent) : Nat :=
  match a.id with
  | .warp _ w => w
  | .drop .. => 0xFFFF

/-! ## Teams and cores -/

/-- The coordinates of a cluster (R7). -/
def clusterX (c : Nat) : Nat := c % 12
/-- The coordinates of a cluster (R7). -/
def clusterY (c : Nat) : Nat := c / 12
/-- The die of a cluster (R7). -/
def dieOf (c : Nat) : Nat := 2 * (clusterY c / 4) + clusterX c / 6

/-- What a team owns on a core, where it has none. -/
def Rank.empty (core : Nat) : Rank := { core := core, scratch := [], accum := [], pool := [], zeroing := [], live := [] }

/-- The team's part on the core of a rank. -/
def Team.rank (t : Team) (r : Nat) : Rank := t.ranks.getD r (Rank.empty 0)

/-- A list with a new part at a number; the parts before it that are missing are empty. -/
def setPart : List Rank → Nat → Rank → List Rank
  | [], 0, x => [x]
  | [], n + 1, x => Rank.empty 0 :: setPart [] n x
  | _ :: l, 0, x => x :: l
  | y :: l, n + 1, x => y :: setPart l n x

/-- Replaces the team's part on the core of a rank. -/
def Team.setRank (t : Team) (r : Nat) (x : Rank) : Team := { t with ranks := setPart t.ranks r x }

/-- Scratchpad bytes that the team holds on each core (Table 11.1). -/
def Team.localSize (t : Team) : Nat := 16 * t.pkt.local16
/-- Accumulator bytes that the team holds on each core (Table 11.1). -/
def Team.accumSize (t : Team) : Nat := 256 * t.pkt.accum256

/-- A resident team by number; team 0 is no team. -/
def State.getTeam (s : State) (id : Nat) : Option Team :=
  if id = 0 then none
  else if s.tm.id = id then some s.tm
  else s.teams.find? (·.id == id)

/-- Replaces a resident team. -/
def State.setTeam (s : State) (t : Team) : State :=
  if s.tm.id = t.id then { s with tm := t }
  else { s with teams := s.teams.map fun x => if x.id = t.id then t else x }

/-- Changes a resident team. -/
def State.modTeam (s : State) (id : Nat) (f : Team → Team) : State :=
  match s.getTeam id with
  | some t => s.setTeam (f t)
  | none => s

/-- Every resident team. -/
def State.allTeams (s : State) : List Team := if s.tm.id = 0 then s.teams else s.tm :: s.teams

/-! ## Agents -/

/-- The focused agent is an agent of a team. -/
def State.hasAgent (s : State) : Bool := teamOf s.ag.id != 0

/-- Every agent. -/
def State.allAgents (s : State) : List Agent := if s.hasAgent then s.ag :: s.agents else s.agents

/-- An agent by name. -/
def State.getAgent (s : State) (id : AgentId) : Option Agent :=
  if teamOf id = 0 then none
  else if s.ag.id = id then some s.ag
  else s.agents.find? (·.id == id)

/-- Replaces an agent. -/
def State.setAgent (s : State) (a : Agent) : State :=
  if s.ag.id = a.id then { s with ag := a }
  else { s with agents := s.agents.map fun x => if x.id = a.id then a else x }

/-- Adds an agent. -/
def State.addAgent (s : State) (a : Agent) : State := { s with agents := s.agents ++ [a] }

/-- Adds a team. -/
def State.addTeam (s : State) (t : Team) : State := { s with teams := s.teams ++ [t] }

/-- Removes the agents of which a test holds. -/
def State.dropAgents (s : State) (f : Agent → Bool) : State :=
  { s with
    ag := if f s.ag then Agent.nobody else s.ag
    agents := s.agents.filter fun a => !f a }

/-- Removes a team. -/
def State.dropTeam (s : State) (id : Nat) : State :=
  { s with
    tm := if s.tm.id = id then Team.nobody else s.tm
    teams := s.teams.filter fun t => t.id != id }

/-- Changes the focused agent. -/
def State.modAg (s : State) (f : Agent → Agent) : State := { s with ag := f s.ag }

/-- Makes an agent the one that acts, and its team the team that acts. -/
def State.focus (s : State) (id : AgentId) : Option State :=
  if teamOf id = 0 then none
  else if s.ag.id = id then some s
  else
    match s.getAgent id with
    | none => none
    | some a =>
      let rest := s.agents.filter fun x => x.id != id
      let agents := if s.hasAgent then s.ag :: rest else rest
      match s.getTeam (teamOf id) with
      | none => none
      | some t =>
        let teams := s.teams.filter fun x => x.id != t.id
        if s.tm.id = t.id then some { s with ag := a, agents := agents }
        else
          some { s with ag := a, agents := agents, tm := t, teams := if s.tm.id = 0 then teams else s.tm :: teams }

/-! ## Commands and grids -/

/-- A command by number. -/
def State.getCmd (s : State) (id : Nat) : Option Cmd := s.cmds.find? (·.id == id)

/-- Replaces a command. -/
def State.setCmd (s : State) (c : Cmd) : State :=
  { s with cmds := s.cmds.map fun x => if x.id = c.id then c else x }

/-- Removes a command. -/
def State.dropCmd (s : State) (id : Nat) : State := { s with cmds := s.cmds.filter fun c => c.id != id }

/-- A grid by number. -/
def State.getGrid (s : State) (id : Nat) : Option Grid := s.grids.find? (·.id == id)

/-- Replaces a grid. -/
def State.setGrid (s : State) (g : Grid) : State :=
  { s with grids := s.grids.map fun x => if x.id = g.id then g else x }

/-- Who makes an access: its team, context, core rank and core. -/
structure Who where
  team : Nat
  ctx : BitVec 16
  rank : Nat
  core : Nat
  deriving DecidableEq, Repr

/-- The focused agent as the maker of an access. -/
def State.who (s : State) : Who :=
  { team := s.tm.id, ctx := s.tm.ctx, rank := s.ag.rank, core := (s.tm.rank s.ag.rank).core }

/-- A command as the maker of its accesses (R206). -/
def State.whoCmd (s : State) (c : Cmd) : Who :=
  match s.getTeam c.team with
  | some t => { team := t.id, ctx := t.ctx, rank := c.rank, core := c.core }
  | none => { team := 0, ctx := 0, rank := c.rank, core := c.core }

/-- The part of the focused team on the focused agent's core. -/
def State.myRank (s : State) : Rank := s.tm.rank s.ag.rank

/-- Changes the part of the focused team on the focused agent's core. -/
def State.modMyRank (s : State) (f : Rank → Rank) : State :=
  { s with tm := s.tm.setRank s.ag.rank (f s.myRank) }

/-- Changes the part of a team on a rank. -/
def State.modRank (s : State) (team r : Nat) (f : Rank → Rank) : State :=
  s.modTeam team fun t => t.setRank r (f (t.rank r))

/-- A fresh number of the model. -/
def State.takeId (s : State) : Nat × State := (s.nextId, { s with nextId := s.nextId + 1 })

end Sys2Proof.Machine
end

