-- ==== Sys2Proof/Machine/Access.lean ====
section
/-! DEFINITION. Tagged pointers, the spaces and team windows, the page walk, and how bytes are read and written
(files 08 and 14). -/

namespace Sys2Proof.Machine

/-! ## Pointers (R174) -/

/-- The space code of a pointer. -/
def ptrSpace (p : Word) : Nat := bits p.toNat 63 61
/-- The core rank of a pointer. -/
def ptrRank (p : Word) : Nat := bits p.toNat 60 58
/-- The offset of a pointer. -/
def ptrOffset (p : Word) : Nat := bits p.toNat 57 0

/-- A pointer from its fields. -/
def mkPtr (space rank offset : Nat) : Word := BitVec.ofNat 64 (space * 2 ^ 61 + rank * 2 ^ 58 + offset)

/-- `add_ptr` (R176): the sum, and whether it stayed in its space and rank. -/
def addPtr (p d : Word) : Word × Bool :=
  let q := p + d
  (q, bits q.toNat 63 58 == bits p.toNat 63 58)

/-- A global pointer: space 0, RANK 0, bit 57 clear (R174, R250). -/
def isGlobal (p : Word) : Bool := p.toNat < 2 ^ 57

/-- One past the last offset of a space (R176). -/
def spaceEnd : Nat → Nat
  | 0 => 2 ^ 57
  | 5 => 2 ^ 46
  | _ => 2 ^ 58

/-- The offset that R176 measures: the whole field, but the window offset in peer space. -/
def spaceOffset (p : Word) : Nat := if ptrSpace p = 5 then ptrOffset p % 2 ^ 46 else ptrOffset p

/-- A failed check: the fault code and what sr.faultaddr receives. -/
structure Fail where
  code : Byte
  addr : Word
  /-- an address in the page that failed, of which the host driver is told (R188, R331) -/
  page : Word := addr
  deriving DecidableEq, Repr

/-- The space checks of R175 and R176 for `n` bytes. -/
def spaceOk (spaces : List Nat) (p : Word) (n : Nat) : Bool :=
  let sp := ptrSpace p
  sp < 6 && spaces.contains sp && (sp == 2 || sp == 3 || ptrRank p == 0)
  && spaceOffset p + (n - 1) < spaceEnd sp

/-- The rank whose core a local, remote-local or accumulator pointer names (R174). -/
def ptrCoreRank (w : Who) (p : Word) : Nat := if ptrSpace p = 1 then w.rank else ptrRank p

/-- The window checks of R175 for `n` bytes. -/
def windowOk (t : Team) (w : Who) (p : Word) (n : Nat) : Bool :=
  let sp := ptrSpace p
  if sp = 1 || sp = 2 then
    ptrCoreRank w p < t.pkt.cores && t.localSize != 0 && ptrOffset p + n ≤ t.localSize
  else if sp = 3 then ptrRank p < t.pkt.cores && t.accumSize != 0 && ptrOffset p + n ≤ t.accumSize
  else true

/-! ## The walk (R329 to R331) -/

/-- The level of a walk: lowest index bit, index bits, bytes that an entry maps, alignment of the table below. -/
structure Level where
  shift : Nat
  width : Nat
  page : Nat
  below : Nat
  deriving DecidableEq, Repr

/-- Table 14.1. -/
def levels : List Level :=
  [{ shift := 44, width := 13, page := 0, below := 0x20000 },
   { shift := 30, width := 14, page := 2 ^ 30, below := 0x1000 },
   { shift := 21, width := 9, page := 2 ^ 21, below := 0x100 },
   { shift := 16, width := 5, page := 2 ^ 16, below := 1 }]

/-- What a table entry answers (Table 14.2, R331). -/
inductive WalkStep where
  | absent
  | malformed
  | leaf (l : Leaf)
  | table (t : Nat)
  deriving DecidableEq, Repr

/-- Reads one entry of a table. -/
def walkEntry (e : Nat) (host : Bool) (l : Level) : WalkStep :=
  let addr := bits e 51 8 * 256
  if !bit e 0 then .absent
  else if bits e 61 52 != 0 || bits e 7 5 != 0 || (host && bit e 63) || (!host && bit e 62) then .malformed
  else if bit e 1 then
    if l.page = 0 || addr % l.page != 0 then .malformed
    else
      .leaf { base := addr, size := l.page, x := bit e 4, w := bit e 3, r := bit e 2, shr := bit e 63,
              port := if bit e 62 then .b else .a }
  else if bit e 63 || bit e 62 || bits e 4 2 != 0 || addr % l.below != 0 then .malformed
  else .table addr

/-- The walk from a table at `t` down the levels: a leaf, or 0x11 or 0x12. -/
def walk (mem : Memory) (host : Bool) (va : Nat) : List Level → Nat → Except Byte Leaf
  | [], _ => .error 0x12
  | l :: ls, t =>
    match walkEntry (mem.readNat (t + 8 * (va / 2 ^ l.shift % 2 ^ l.width)) 8) host l with
    | .absent => .error 0x11
    | .malformed => .error 0x12
    | .leaf x => .ok x
    | .table t' => walk mem host va ls t'

/-- The walk of a context's global or host table. (DESIGN CHOICE, log 81) -/
def State.walkCtx (s : State) (ctx : BitVec 16) (host : Bool) (va : Nat) : Except Byte Leaf :=
  match s.ctxs.find? ctx.toNat with
  | none => .error 0x12
  | some c => walk s.mem host va levels (if host then c.hroot else c.groot)

/-- The TLBs in which a core's translations look, in order (R186). -/
def tlbsOf (core : Nat) : List TlbLevel := [.core core, .cluster (core / 8), .die (dieOf (core / 8))]

/-- The cached walk that covers an address, in the first TLB that has one. -/
def State.cachedWalk (s : State) (core : Nat) (ctx : BitVec 16) (host : Bool) (va : Nat) : Option Leaf :=
  (tlbsOf core).findSome? fun t =>
    (s.tlb.find? fun e => e.level == t && e.ctx == ctx && e.host == host && e.va ≤ va && va < e.va + e.leaf.size).map (·.leaf)

/-- One translation of a 57-bit address (R186, R331, R332): where a cached walk differs from the table, either is used; `k` numbers the free
choices of the step. -/
def State.translate (s : State) (core : Nat) (ctx : BitVec 16) (host : Bool) (va k : Nat) : Except Byte Leaf :=
  match s.cachedWalk core ctx host (va % 2 ^ 57) with
  | none => s.walkCtx ctx host (va % 2 ^ 57)
  | some l => if Config.freeNat (s.fresh + k) % 2 = 0 then .ok l else s.walkCtx ctx host (va % 2 ^ 57)

/-- What an access does (the access table of R331). -/
inductive Acc where
  | load | store | atomic | fetch
  /-- the counter of a PUBL -/
  | publish
  deriving DecidableEq, Repr

/-- The leaf allows the access (R331). -/
def Acc.allowed : Acc → Leaf → Bool
  | .load, l => l.r
  | .store, l => l.w
  | .atomic, l | .publish, l => l.r && l.w
  | .fetch, l => l.x

/-- The access reads. -/
def Acc.reads : Acc → Bool
  | .load | .atomic => true
  | .store | .fetch | .publish => false

/-! ## Pieces: where the bytes of an access lie -/

/-- The bytes from an offset to the end of its page; no page is smaller than 64 KiB. -/
def pageRest (size off : Nat) : Nat :=
  let page := max 65536 size
  page - off % page

/-- Translates the pages of `n` bytes from an offset on, each once (R186); `fuel` bounds their number and `k` numbers the choices. -/
def State.pagePieces (s : State) (w : Who) (acc : Acc) (space : Nat) : Nat → Nat → Nat → Nat → List (Except Fail Piece)
  | 0, _, _, _ => []
  | fuel + 1, off, n, k =>
    if n = 0 then []
    else
      let q := mkPtr space 0 off
      match s.translate w.core w.ctx (space == 4) off k with
      | .error c =>
        let len := min n (pageRest 0 off)
        .error { code := c, addr := q } :: State.pagePieces s w acc space fuel (off + len) (n - len) (k + 1)
      | .ok l =>
        let len := min n (pageRest l.size off)
        let piece : Piece :=
          { place := if space = 4 then .host l.port else .phys, addr := l.base + off % l.size, len := len, ptr := q,
            shr := space != 4 && l.shr }
        (if acc.allowed l then .ok piece else .error { code := 0x12, addr := q })
          :: State.pagePieces s w acc space fuel (off + len) (n - len) (k + 1)

/-- The pieces of `n` bytes at a checked pointer, or the failures of its pages. -/
def State.pieces (s : State) (w : Who) (acc : Acc) (p : Word) (n k : Nat) : List (Except Fail Piece) :=
  match ptrSpace p with
  | 1 | 2 => [.ok { place := .scratch (ptrCoreRank w p), addr := ptrOffset p, len := n, ptr := p, shr := false }]
  | 3 => [.ok { place := .accum (ptrRank p), addr := ptrOffset p, len := n, ptr := p, shr := false }]
  | _ => s.pagePieces w acc (ptrSpace p) (n / 65536 + 2) (ptrOffset p) n (64 * k)

/-- The pieces that did not fail. -/
def goodPieces : List (Except Fail Piece) → List Piece
  | [] => []
  | .ok p :: r => p :: goodPieces r
  | .error _ :: r => goodPieces r

/-- The failures among pieces. -/
def badPieces : List (Except Fail Piece) → List Fail
  | [] => []
  | .ok _ :: r => badPieces r
  | .error f :: r => f :: badPieces r

/-! ## Poison (R372) -/

/-- The first poisoned sector among those of `n` bytes at `a`, as the offset of its first byte of the access. -/
def poisonAt (sectors : List Nat) (a n : Nat) : Option Nat :=
  (upTo (a / 32) ((a + n + 31) / 32)).find? (sectors.contains ·) |>.map fun x => max (x * 32) a - a

/-- The first poisoned byte of a piece. -/
def State.piecePoison (s : State) (p : Piece) : Option Word :=
  match p.place with
  | .phys => (poisonAt s.poison p.addr p.len).map fun o => p.ptr + BitVec.ofNat 64 o
  | .host port =>
    (poisonAt ((s.hostPoison.filter fun x => x % 2 == (if port = .a then 0 else 1)).map (· / 2)) p.addr p.len).map
      fun o => p.ptr + BitVec.ofNat 64 o
  | .scratch _ | .accum _ => none

/-! ## Fenced domains (R371) -/

/-- The domain of a line's home slice (R11, Table 16.1). -/
def sliceDomain (line : Nat) : Nat := 864 + Config.lineHash line % 192

/-- A line's home slice, memory controller or channel is fenced. -/
def State.lineFenced (s : State) (line : Nat) : Bool :=
  s.fenced.contains (sliceDomain line) || (Config.lineMemory line).any s.fenced.contains

/-- A piece lies in a line whose home slice, memory controller or channel is fenced (Table 16.3): its access waits. -/
def State.homeFenced (s : State) (p : Piece) : Bool :=
  match p.place with
  | .phys => !s.fenced.isEmpty && (upTo (p.addr / 128) ((p.addr + p.len + 127) / 128)).any s.lineFenced
  | .host _ | .scratch _ | .accum _ => false

/-- The lines of the table entries that a walk reads (R331). -/
def walkLines (mem : Memory) (host : Bool) (va : Nat) : List Level → Nat → List Nat
  | [], _ => []
  | l :: ls, t =>
    let a := t + 8 * (va / 2 ^ l.shift % 2 ^ l.width)
    a / 128 ::
      match walkEntry (mem.readNat a 8) host l with
      | .table t' => walkLines mem host va ls t'
      | .absent | .malformed | .leaf _ => []

/-- The walk of a pointer, where no TLB has it, reads a table entry in a fenced domain: it waits, as any access to such a line does (R332, R371). -/
def State.walkFenced (s : State) (w : Who) (p : Word) : Bool :=
  let host := ptrSpace p == 4
  let va := ptrOffset p % 2 ^ 57
  !s.fenced.isEmpty && (ptrSpace p == 0 || host) && (s.cachedWalk w.core w.ctx host va).isNone
  && (match s.ctxs.find? w.ctx.toNat with
      | some c => (walkLines s.mem host va levels (if host then c.hroot else c.groot)).any s.lineFenced
      | none => false)

/-- The pointers of the 64 KiB pages of `n` bytes. -/
def pagePtrs (p : Word) (n : Nat) : List Word :=
  (upTo (ptrOffset p / 65536) ((ptrOffset p + n + 65535) / 65536)).map fun i => mkPtr (ptrSpace p) 0 (65536 * i)

/-- The device's own access to `n` bytes of a context's global space needs a fenced domain, for its walk or for its bytes: it waits (R371). -/
def State.deviceFenced (s : State) (w : Who) (acc : Acc) (p : Word) (n : Nat) : Bool :=
  !s.fenced.isEmpty && ((pagePtrs p n).any (s.walkFenced w) || (goodPieces (s.pieces w acc p n 0)).any s.homeFenced)

/-! ## The five phases (R187) -/

/-- One access of a lane: its number, its pointer as formed, and whether `add_ptr` kept its space. -/
structure LaneAcc where
  lane : Nat
  ptr : Word
  ok : Bool
  deriving DecidableEq, Repr

/-- What R187 asks of the accesses of one instruction: open spaces, bytes, alignment, kind. -/
structure AccSpec where
  spaces : List Nat
  size : Nat
  align : Nat
  acc : Acc
  deriving DecidableEq, Repr

/-- The failures of one access in its fourth phase. -/
def State.translateFails (s : State) (w : Who) (sp : AccSpec) (a : LaneAcc) : List Fail :=
  badPieces (s.pieces w sp.acc a.ptr sp.size a.lane)

/-- The five phases, for accesses in ascending lane order: the fault of the first phase that any of them fails, with
the address of the lowest lane that failed with the fault delivered (R187). -/
def State.checkAccesses (s : State) (t : Team) (w : Who) (sp : AccSpec) (as : List LaneAcc) : Option Fail :=
  match as.find? fun a => !(a.ok && spaceOk sp.spaces a.ptr sp.size) with
  | some a => some { code := 0x10, addr := a.ptr }
  | none =>
    match as.find? fun a => !windowOk t w a.ptr sp.size with
    | some a => some { code := 0x14, addr := a.ptr }
    | none =>
      match as.find? fun a => ptrOffset a.ptr % sp.align != 0 with
      | some a => some { code := 0x13, addr := a.ptr }
      | none =>
        let fails := as.flatMap (s.translateFails w sp)
        match fails.find? fun f => f.code == 0x12 with
        | some f => some f
        | none =>
          match fails with
          | f :: _ => some f
          | [] =>
            if sp.acc.reads then
              (as.findSome? fun a =>
                (goodPieces (s.pieces w sp.acc a.ptr sp.size a.lane)).findSome? s.piecePoison).map
                  fun q => { code := 0x21, addr := q }
            else none

/-- Some access needs a fenced domain, for its walk or for its bytes. -/
def State.accessFenced (s : State) (w : Who) (sp : AccSpec) (as : List LaneAcc) : Bool :=
  !s.fenced.isEmpty
  && as.any fun a =>
    (pagePtrs a.ptr sp.size).any (s.walkFenced w) || (goodPieces (s.pieces w sp.acc a.ptr sp.size a.lane)).any s.homeFenced

/-- A failed check that had to wait for memory: a page, or poison. -/
def Fail.late (f : Fail) : Bool := f.code == 0x11 || f.code == 0x12 || f.code == 0x21

/-- What an access does: it takes the fault of its checks, waits for a fenced domain, or goes on (R187, R371). -/
inductive Verdict where
  | fail (f : Fail)
  | wait
  | go
  deriving DecidableEq, Repr

/-- The verdict on the accesses of an instruction. -/
def State.judge (s : State) (t : Team) (w : Who) (sp : AccSpec) (as : List LaneAcc) : Verdict :=
  match s.checkAccesses t w sp as with
  | some f => if f.late && s.accessFenced w sp as then .wait else .fail f
  | none => if s.accessFenced w sp as then .wait else .go

/-! ## Reading and writing -/

/-- Every store of the host write path reaches host memory (R194). -/
def State.drainHost (s : State) : State :=
  s.hostPath.foldl
    (fun s x =>
      match x.port with
      | .a => { s with hostA := s.hostA.writeN x.addr x.data }
      | .b => { s with hostB := s.hostB.writeN x.addr x.data })
    { s with hostPath := [] }

/-- A read of host space first lets the host write path drain: a device read sees the device's earlier writes (R194). A store does not: what the
path holds may arrive after it. (DESIGN CHOICE, log 83) -/
def State.beforeAccess (s : State) (p : Word) : State := if ptrSpace p = 4 then s.drainHost else s

/-- The memory behind a port. -/
def State.hostMem (s : State) : Port → Memory
  | .a => s.hostA
  | .b => s.hostB

/-- Stores to the memory behind a port. -/
def State.setHostMem (s : State) (p : Port) (m : Memory) : State :=
  match p with
  | .a => { s with hostA := m }
  | .b => { s with hostB := m }

/-- Bytes at `a`, each from the line among some that holds it. -/
def overlay (ls : List L1Line) (a : Nat) (bs : List Byte) : List Byte :=
  bs.zipIdx.map fun (b, i) =>
    match ls.find? fun l => l.line == (a + i) / 128 with
    | some l => l.data.getD ((a + i) % 128) b
    | none => b

/-- Physical bytes as a load at a scope sees them: at .W a load is served from the core's untracked L1 lines, as long as they stay (R181).
(DESIGN CHOICE, log 77) -/
def State.readPhys (s : State) (core : Nat) (warpScope : Bool) (a n : Nat) : List Byte :=
  if warpScope then overlay (s.l1.filter fun l => l.core == core) a (s.mem.readN a n) else s.mem.readN a n

/-- The bytes of a piece. -/
def State.readPiece (s : State) (w : Who) (warpScope : Bool) (p : Piece) : List Byte :=
  match p.place with
  | .phys => s.readPhys w.core warpScope p.addr p.len
  | .host port => (s.hostMem port).readN p.addr p.len
  | .scratch r => ((s.getTeam w.team).map fun t => (t.rank r).scratch.readN p.addr p.len).getD []
  | .accum r => ((s.getTeam w.team).map fun t => (t.rank r).accum.readN p.addr p.len).getD []

/-! ## Lines in the caches (R9, R11, R181, R183, R334) -/

/-- The lines that physical pieces touch. -/
def linesOf (ps : List Piece) : List Nat :=
  (ps.flatMap fun p => if p.place = .phys then upTo (p.addr / 128) ((p.addr + p.len + 127) / 128) else []).eraseDups

/-- What a hint asks of L2 (R183). -/
def keepOf (hint : Fin 4) : Keep := if hint = 1 then .first else if hint = 2 then .retained else .normal

/-- The line of a full slice that makes room: one that goes first, else a normal one, else a retained one (R183); a line with an error that waits
to be consumed does not go (R367). -/
def victimOf (bad : List Nat) (m : Sparse L2Line) (slice : Nat) : Option Nat :=
  let pick (k : Keep) : Option Nat :=
    (List.find? (fun x => sliceDomain x.1 == slice && x.2.keep == k && !bad.contains x.1) m).map (·.1)
  (pick .first).orElse fun _ => (pick .normal).orElse fun _ => pick .retained

/-- Makes room for a line in its slice of 2 MiB, which holds 16,384 lines (R11); a dirty line that goes is written back. None where no line of a full
slice may go. (DESIGN CHOICE, log 94) -/
def roomFor (bad : List Nat) (m : Sparse L2Line) (line : Nat) : Option (Sparse L2Line) :=
  if m.length < 16384 || (List.filter (fun x => sliceDomain x.1 == sliceDomain line) m).length < 16384 then some m
  else (victimOf bad m (sliceDomain line)).map m.erase

/-- The lines that L2 cannot drop now: those in which an error waits to be consumed, and the dirty ones whose memory is fenced (R367, R371). -/
def State.badLines (s : State) : List Nat :=
  (s.latent.filterMap fun e => match e with
    | .cleanLine l _ | .sharedLine l _ => some l
    | .sector x => some (x / 4)
    | _ => none)
  ++ if s.fenced.isEmpty then [] else (List.filter (fun (x : Nat × L2Line) => x.2.dirty.isSome && s.lineFenced x.1) s.l2).map (·.1)

/-- An access of a context fills a line into L2, where it is not there yet; the line wears the context's tag (R183, R334). Where no line of its slice
may go, the access passes L2 by. (DESIGN CHOICE, log 94) -/
def State.fillL2 (s : State) (ctx : BitVec 16) (keep : Keep) (line : Nat) : State :=
  match s.l2.find? line, roomFor s.badLines s.l2 line with
  | some _, _ | none, none => s
  | none, some m => { s with l2 := m.insert line { filler := ctx, dirty := none, keep := keep } }

/-- The line of a full L1 that makes room: the oldest that goes first, else the oldest (R183). -/
def victimL1 (ls : List L1Line) : Option L1Line := ((ls.filter (·.first)).getLast?).orElse fun _ => ls.getLast?

/-- A core's L1 takes a line; it holds at most 1,024 lines of every kind together (R9). (DESIGN CHOICE, log 94) -/
def fillL1 (ls : List L1Line) (l : L1Line) : List L1Line :=
  let mine := ls.filter fun x => x.core == l.core
  if mine.length < 1024 then l :: ls
  else
    match victimL1 mine with
    | some v => l :: ls.erase v
    | none => l :: ls

/-- The line is an untracked copy. -/
def L1Line.untracked (l : L1Line) : Bool := l.kind == .untracked

/-- The line stands in the L1 of a core. -/
def L1Line.isAt (l : L1Line) (core line : Nat) : Bool := l.core == core && l.line == line

/-- A line of another core's L1 when the home slice grants a shared line to a core: an owner keeps it as a shared one (R181, R192). -/
def L1Line.shareWith (l : L1Line) (core line : Nat) : L1Line :=
  if l.line = line ∧ l.core ≠ core ∧ l.kind = .owned then { l with kind := .shared, dirty := none } else l

/-- A core's L1 takes a line that the home slice tracks, unless the hint forbids it or it holds the line already (R181, R183). -/
def State.shareLine (s : State) (w : Who) (hint : Fin 4) (line : Nat) : State :=
  if hint = 3 || s.l1.any fun l => l.isAt w.core line then s
  else
    { s with
      l1 := fillL1 (s.l1.map fun l => l.shareWith w.core line)
        { ctx := w.ctx, core := w.core, line := line, data := [], first := hint == 1, kind := .shared } }

/-- An access of a core at a wide scope meets a line: L2 holds it, and the core's untracked copy goes (R181, R183, R214). -/
def State.meetLine (s : State) (w : Who) (hint : Fin 4) (line : Nat) : State :=
  let s := s.fillL2 w.ctx (keepOf hint) line
  { s with l1 := s.l1.filter fun l => !(l.untracked && l.isAt w.core line) }

/-- A load of a core touches a line: L2 holds it; at .W the core's L1 takes an untracked copy unless the hint forbids it, and a load at a wider
scope replaces the untracked copy by a tracked line, which always reads as memory (R181, R183, R214). -/
def State.seenLine (s : State) (w : Who) (warpScope : Bool) (hint : Fin 4) (line : Nat) : State :=
  if warpScope then
    let s := s.fillL2 w.ctx (keepOf hint) line
    if hint = 3 || s.l1.any fun l => l.isAt w.core line then s
    else
      { s with
        l1 := fillL1 s.l1 { ctx := w.ctx, core := w.core, line := line, data := s.mem.readN (line * 128) 128, first := hint == 1 } }
  else (s.meetLine w hint line).shareLine w hint line

/-- The caches after a load of pieces. -/
def State.seen (s : State) (w : Who) (warpScope : Bool) (hint : Fin 4) (ps : List Piece) : State :=
  (linesOf ps).foldl (fun s l => s.seenLine w warpScope hint l) s

/-- The sectors that `n` bytes at `a` cover whole lose their poison; others keep it (R372). -/
def clearPoison (sectors : List Nat) (a n : Nat) : List Nat :=
  sectors.filter fun x => !(a ≤ x * 32 && x * 32 + 32 ≤ a + n)

/-- An untracked line after a store of its core: the copy is written as well (R181, R185). -/
def L1Line.patch (l : L1Line) (core a : Nat) (bs : List Byte) : L1Line :=
  if l.untracked ∧ l.core = core ∧ l.line * 128 < a + bs.length ∧ a < l.line * 128 + 128 then
    { l with
      data := l.data.zipIdx.map fun (b, i) =>
        let x := l.line * 128 + i
        if a ≤ x ∧ x < a + bs.length then bs.getD (x - a) b else b }
  else l

/-- A tracked line of another L1, some byte of which is written, is invalidated (R181). -/
def L1Line.lost (l : L1Line) (core a n : Nat) : Bool :=
  !l.untracked && l.core != core && l.line * 128 < a + n && a < l.line * 128 + 128

/-- Stores to physical memory: the home slice takes the bytes, the storing core's untracked copies are written too, and every tracked line of
another L1 is invalidated (R181, R185, R192). (DESIGN CHOICE, log 77) -/
def State.writePhys (s : State) (core a : Nat) (bs : List Byte) : State :=
  { s with
    mem := s.mem.writeN a bs
    poison := clearPoison s.poison a bs.length
    l1 := (s.l1.filter fun l => !l.lost core a bs.length).map fun l => l.patch core a bs }

/-- The tag of a written line, by the tag that it wore while it was dirty before (R334): the writer's context, or 0xFFFE through a shared page or over
another context's dirty line. -/
def dirtyTag (ctx : BitVec 16) (shr : Bool) : Option (BitVec 16) → BitVec 16
  | some t => if t = ctx ∧ !shr then ctx else 0xFFFE
  | none => if shr then 0xFFFE else ctx

/-- A line that the L1 of a core owns becomes dirty there. -/
def L1Line.dirtied (l : L1Line) (core line : Nat) (tag : Option (BitVec 16) → BitVec 16) : L1Line :=
  if l.kind = .owned ∧ l.isAt core line then { l with dirty := some (tag l.dirty) } else l

/-- A written line is dirty, in L2 and in the L1 of a core that owns it (R334). -/
def State.tagLine (s : State) (core : Nat) (ctx : BitVec 16) (shr : Bool) (line : Nat) : State :=
  let s := s.fillL2 ctx .normal line
  match s.l2.find? line with
  | none => { s with l1 := s.l1.map (·.dirtied core line (dirtyTag ctx shr)) }
  | some l =>
    let tag := dirtyTag ctx shr l.dirty
    { s with l2 := s.l2.insert line { l with dirty := some tag }, l1 := s.l1.map (·.dirtied core line fun _ => tag) }

/-- The lines that a store of a core covers become dirty. -/
def State.markDirty (s : State) (core : Nat) (ctx : BitVec 16) (shr : Bool) (a n : Nat) : State :=
  (upTo (a / 128) ((a + n + 127) / 128)).foldl (fun s l => s.tagLine core ctx shr l) s

/-- Stores the bytes of a piece. -/
def State.writePiece (s : State) (w : Who) (p : Piece) (bs : List Byte) : State :=
  match p.place with
  | .phys => (s.writePhys w.core p.addr bs).markDirty w.core w.ctx p.shr p.addr bs.length
  | .host port => { s with hostPath := s.hostPath ++ [{ ctx := w.ctx, port := port, addr := p.addr, data := bs }] }
  | .scratch r => s.modRank w.team r fun x => { x with scratch := x.scratch.writeN p.addr bs }
  | .accum r => s.modRank w.team r fun x => { x with accum := x.accum.writeN p.addr bs }

/-- Reads `n` bytes at a pointer that has passed its checks. -/
def State.load (s : State) (w : Who) (warpScope : Bool) (p : Word) (n k : Nat) : List Byte :=
  (goodPieces (s.pieces w .load p n k)).flatMap (s.readPiece w warpScope)

/-- Writes the pieces of an access in turn. -/
def State.writePieces (s : State) (w : Who) : List Piece → List Byte → State
  | [], _ => s
  | p :: ps, bs => State.writePieces (s.writePiece w p (bs.take p.len)) w ps (bs.drop p.len)

/-- Writes bytes at a pointer that has passed its checks. -/
def State.store (s : State) (w : Who) (p : Word) (bs : List Byte) (k : Nat) : State :=
  s.writePieces w (goodPieces (s.pieces w .store p bs.length k)) bs

/-- Reads and writes one location of an atomic that has passed its checks (R189, R190); `f` may write nothing. -/
def State.atomicAt (s : State) (w : Who) (hint : Fin 4) (ps : List Piece) (f : List Byte → Option (List Byte)) : List Byte × State :=
  let old := ps.flatMap (s.readPiece w false)
  let s := (linesOf ps).foldl (fun s l => s.meetLine w hint l) s
  match f old with
  | some new => (old, s.writePieces w ps new)
  | none => (old, s)

/-- The untracked lines of some cores' L1s are discarded. -/
def State.dropUntracked (s : State) (cores : List Nat) : State :=
  { s with l1 := s.l1.filter fun l => !(l.untracked && cores.contains l.core) }

/-- An acquire at team scope or wider discards the core's untracked L1 lines (R216). (DEDUCED, log 65) -/
def State.acquire (s : State) (core : Nat) (sc : Scope) : State := if sc = .warp then s else s.dropUntracked [core]

/-! ## Fetching code (R43, R269) -/

/-- A code word lies in a fenced domain: its fetch waits (R371). -/
def State.fetchFenced (s : State) (w : Who) (a : Word) (n : Nat) : Bool :=
  !s.fenced.isEmpty && spaceOk [0] a n
  && ((pagePtrs a n).any (s.walkFenced w) || (goodPieces (s.pieces w .fetch a n 0)).any s.homeFenced)

/-- The bytes of a code word, or the fault of its fetch. (DEDUCED, log 38) -/
def State.fetch (s : State) (w : Who) (a : Word) (n : Nat) : Except Fail (List Byte) :=
  if !spaceOk [0] a n then .error { code := 0x10, addr := a }
  else
    let ps := s.pieces w .fetch a n 0
    match (badPieces ps).find? fun f => f.code == 0x12 with
    | some f => .error { code := 0x12, addr := a, page := f.page }
    | none =>
      match badPieces ps with
      | f :: _ => .error { code := f.code, addr := a, page := f.page }
      | [] => .ok ((goodPieces ps).flatMap (s.readPiece w false))

end Sys2Proof.Machine
end

