-- ==== Sys2Proof/Machine/Flags.lean ====
section
/-! DEFINITION. The floating-point flags of Table 5.7 and the rounding mode in force (R100, R103, R105). -/

namespace Sys2Proof.Machine

/-- A set of floating-point flags, with the bits of sr.fpflags (Table 5.7). -/
abbrev Flags := BitVec 6

/-- No flag. -/
def Flags.none : Flags := 0
/-- INV: an invalid operation. -/
def Flags.inv : Flags := 1
/-- DZ: an exact infinite result from finite operands. -/
def Flags.dz : Flags := 2
/-- OFL: an overflow without saturation. -/
def Flags.ofl : Flags := 4
/-- UFL: a tiny and inexact result. -/
def Flags.ufl : Flags := 8
/-- INX: the delivered result differs from the exact one. -/
def Flags.inx : Flags := 16
/-- SAT: a result was clamped. -/
def Flags.sat : Flags := 32

/-- A flag that is raised under a condition. -/
def Flags.when (c : Bool) (f : Flags) : Flags := if c then f else 0

/-- The mode that a rounding field selects, the dynamic one through sr.fpmode (R100). -/
def roundMode (r : Rnd) (fpmode : BitVec 3) : Rnd :=
  match r with
  | .dyn =>
    match fpmode.toNat with
    | 0 => .rne
    | 1 => .rtz
    | 2 => .rdn
    | _ => .rup
  | r => r

end Sys2Proof.Machine
end

