-- ==== Sys2Proof/Machine/Float.lean ====
section
/-! DEFINITION. Number formats, exact values, rounding and floating-point arithmetic (R90 to R102, R128 to R135). -/

namespace Sys2Proof.Machine

/-! ## Exact values -/

/-- A magnitude `m · 2^e`, or, with `sticky`, some value strictly between `m · 2^e` and `(m + 1) · 2^e`. -/
structure Mag where
  m : Nat
  e : Int
  sticky : Bool
  deriving DecidableEq, Repr

/-- A value of a floating-point operation before it is delivered; `sig` marks a signalling NaN. -/
inductive FVal where
  | nan (sig : Bool)
  | inf (neg : Bool)
  | num (neg : Bool) (x : Mag)
  deriving DecidableEq, Repr

/-- An exact magnitude. -/
def Mag.exact (m : Nat) (e : Int) : Mag := { m := m, e := e, sticky := false }

/-- An integer as a value. -/
def FVal.ofInt (i : Int) : FVal := .num (i < 0) (Mag.exact i.natAbs 0)

/-- The exponent of the leading bit of a non-zero magnitude. -/
def Mag.top (x : Mag) : Int := x.e + x.m.log2

/-- What is left of a magnitude below a grid of step `2^q`. -/
inductive Rem where
  | exact | below | half | above
  deriving DecidableEq, Repr

/-- A magnitude on the grid of step `2^q`: the multiple at or below it, and what is left (a sticky magnitude lies on a grid at least
two bits finer than any it is split on). -/
def Mag.split (x : Mag) (q : Int) : Nat × Rem :=
  if q ≤ x.e then (x.m * 2 ^ (x.e - q).toNat, if x.sticky then .below else .exact)
  else
    let sh := (q - x.e).toNat
    let r := x.m % 2 ^ sh
    let h := 2 ^ (sh - 1)
    (x.m / 2 ^ sh,
     if r = 0 && !x.sticky then .exact
     else if r < h then .below
     else if r = h && !x.sticky then .half
     else .above)

/-- Whether a mode takes the value of larger magnitude (Table 5.4). -/
def roundsUp (r : Rnd) (neg : Bool) (rem : Rem) (odd : Bool) : Bool :=
  match r, rem with
  | _, .exact => false
  | .rne, .below => false
  | .rne, .half => odd
  | .rne, .above => true
  | .rdn, _ => neg
  | .rup, _ => !neg
  | .rtz, _ => false
  | .dyn, _ => false

/-- Rounds a magnitude to a multiple of `2^q`: the multiple, and whether it differs. -/
def Mag.round (x : Mag) (q : Int) (r : Rnd) (neg : Bool) : Nat × Bool :=
  let (k, rem) := x.split q
  (if roundsUp r neg rem (k % 2 == 1) then k + 1 else k, rem != .exact)

/-! ## Formats (Table 5.1) -/

/-- A format: IEEE layout with exponent and fraction bits, E4M3, or tapered with `n` magnitude bits and `es` exponent bits. -/
inductive Fmt where
  | ieee (eb fb : Nat)
  | e4m3
  | taper (n es : Nat)
  deriving DecidableEq, Repr

/-- binary32. -/
def Fmt.f32 : Fmt := .ieee 8 23
/-- binary64. -/
def Fmt.f64 : Fmt := .ieee 11 52
/-- binary16. -/
def Fmt.h2 : Fmt := .ieee 5 10
/-- bfloat16. -/
def Fmt.b2 : Fmt := .ieee 8 7
/-- E5M2. -/
def Fmt.e5m2 : Fmt := .ieee 5 2

/-- The format of a floating-point type. -/
def tyFmt : Ty → Option Fmt
  | .f32 => some Fmt.f32
  | .f64 => some Fmt.f64
  | .h2 => some Fmt.h2
  | .b2 => some Fmt.b2
  | .e4 => some .e4m3
  | .e5 => some Fmt.e5m2
  | .t8 => some (.taper 7 1)
  | .t6 => some (.taper 5 0)
  | .s32 | .u32 | .s64 | .u64 | .s8x4 | .u8x4 => none

/-- Exponent bits of the layout. -/
def Fmt.eb : Fmt → Nat
  | .ieee eb _ => eb
  | .e4m3 => 4
  | .taper _ es => es
/-- Fraction bits of the layout. -/
def Fmt.fb : Fmt → Nat
  | .ieee _ fb => fb
  | .e4m3 => 3
  | .taper .. => 0
/-- The place of the sign bit. -/
def Fmt.signBit : Fmt → Nat
  | .ieee eb fb => eb + fb
  | .e4m3 => 7
  | .taper n _ => n
/-- The exponent of the smallest normal number. -/
def Fmt.emin (f : Fmt) : Int := 2 - 2 ^ (f.eb - 1)
/-- The step of the subnormals. -/
def Fmt.qmin (f : Fmt) : Int := f.emin - f.fb
/-- The positive pattern of the largest finite value. -/
def Fmt.largest : Fmt → Nat
  | .ieee eb fb => (2 ^ eb - 1) * 2 ^ fb - 1
  | .e4m3 => 0x7E
  | .taper n _ => 2 ^ n - 1
/-- The canonical NaN (Table 5.2). -/
def Fmt.nan : Fmt → Nat
  | .ieee eb fb => (2 ^ eb - 1) * 2 ^ fb + 2 ^ (fb - 1)
  | .e4m3 => 0x7F
  | .taper n _ => 2 ^ n
/-- A positive pattern with a sign. -/
def Fmt.signed (f : Fmt) (neg : Bool) (p : Nat) : Nat := if neg then p + 2 ^ f.signBit else p
/-- The pattern of an infinite value: infinity, the NaN of the sign in E4M3 (R92), NaR (R95). -/
def Fmt.infinity (f : Fmt) (neg : Bool) : Nat :=
  match f with
  | .ieee eb fb => f.signed neg ((2 ^ eb - 1) * 2 ^ fb)
  | .e4m3 => f.signed neg 0x7F
  | .taper .. => f.nan
/-- The pattern of a zero; T8 and T6 have one zero (R94). -/
def Fmt.zero (f : Fmt) (neg : Bool) : Nat :=
  match f with
  | .taper .. => 0
  | _ => f.signed neg 0

/-! ### Tapered patterns (R94) -/

/-- The length of the run of bits equal to `b` from bit `i - 1` of `m` downwards. -/
def runLength (m : Nat) (b : Bool) : Nat → Nat
  | 0 => 0
  | i + 1 => if bit m i == b then runLength m b i + 1 else 0

/-- `decode_t` for non-zero magnitude bits: the value's magnitude. -/
def taperMag (n es m : Nat) : Mag :=
  let b := bit m (n - 1)
  let k := runLength m b n
  let r : Int := if b then (k : Int) - 1 else -(k : Int)
  let rest := n - k - 1
  let eb := min es rest
  let fb := rest - eb
  let e := m / 2 ^ fb % 2 ^ eb * 2 ^ (es - eb)
  Mag.exact (2 ^ fb + m % 2 ^ fb) (r * 2 ^ es + e - fb)

/-- The value of a positive tapered pattern in steps of 2^-16, of which every value is a multiple. -/
def taperStep (n es p : Nat) : Nat := if p = 0 then 0 else ((taperMag n es p).split (-16)).1

/-! ### Decoding -/

/-- The value of a pattern. Every NaN of E4M3, E5M2, T8 and T6 is quiet (R93, R94). -/
def Fmt.decode (f : Fmt) (w : Nat) : FVal :=
  let neg := bit w f.signBit
  match f with
  | .ieee eb fb =>
    let ex := w / 2 ^ fb % 2 ^ eb
    let fr := w % 2 ^ fb
    if ex = 2 ^ eb - 1 then if fr = 0 then .inf neg else .nan (fb != 2 && !bit fr (fb - 1))
    else if ex = 0 then .num neg (Mag.exact fr f.qmin)
    else .num neg (Mag.exact (2 ^ fb + fr) (f.qmin + (ex - 1)))
  | .e4m3 =>
    let ex := w / 8 % 16
    let fr := w % 8
    if ex = 15 ∧ fr = 7 then .nan false
    else if ex = 0 then .num neg (Mag.exact fr f.qmin)
    else .num neg (Mag.exact (8 + fr) (f.qmin + (ex - 1)))
  | .taper n es =>
    let m := w % 2 ^ n
    if m = 0 then if neg then .nan false else .num false (Mag.exact 0 0) else .num neg (taperMag n es m)

/-! ### Rounding (R100 to R102) -/

/-- A finite result that overflows: ±largest under saturation, else as Table 5.5 sets out. -/
def Fmt.overflow (f : Fmt) (r : Rnd) (sat neg : Bool) : Nat × Flags :=
  let toInf := match f, r with
    | .taper .., _ => false
    | _, .rne | _, .dyn => true
    | _, .rtz => false
    | _, .rdn => neg
    | _, .rup => !neg
  if sat then (f.signed neg f.largest, Flags.sat ||| Flags.inx)
  else (if toInf then f.infinity neg else f.signed neg f.largest, Flags.ofl ||| Flags.inx)

/-- A non-zero magnitude whose rounding at unbounded exponent range lies below the smallest normal number (R91). -/
def Fmt.tiny (f : Fmt) (r : Rnd) (neg : Bool) (x : Mag) : Bool :=
  x.top < f.emin
  && !(x.top = f.emin - 1 && (x.round (x.top - f.fb) r neg).1 == 2 ^ (f.fb + 1))

/-- Rounds a non-zero magnitude into an IEEE or OCP format. -/
def Fmt.roundBinary (f : Fmt) (r : Rnd) (sat neg : Bool) (x : Mag) : Nat × Flags :=
  let q := max (x.top - f.fb) f.qmin
  let (k, inexact) := x.round q r neg
  let p := (q - f.qmin).toNat * 2 ^ f.fb + k
  if f.largest < p then f.overflow r sat neg
  else
    (f.signed neg p, Flags.when inexact Flags.inx ||| Flags.when (inexact && f.tiny r neg x) Flags.ufl)

/-- The largest tapered pattern whose value is at most `k` steps of 2^-17. -/
def taperBelow (n es k : Nat) : Nat :=
  ((List.range (2 ^ n)).filter fun p => 2 * taperStep n es p ≤ k).length - 1

/-- Rounds a non-zero magnitude into T8 or T6 (R95, R101). -/
def Fmt.roundTaper (f : Fmt) (n es : Nat) (r : Rnd) (sat neg : Bool) (x : Mag) : Nat × Flags :=
  let (k, rem) := x.split (-17)
  let p := taperBelow n es k
  let v := taperStep n es p
  if rem = .exact ∧ k = 2 * v then (f.signed neg p, Flags.none)
  else if p = f.largest then f.overflow r sat neg
  else
    let mid := v + taperStep n es (p + 1)
    let rem' := if k < mid then Rem.below else if k = mid ∧ rem = .exact then Rem.half else Rem.above
    let p' := if roundsUp r neg rem' (p % 2 == 1) then p + 1 else p
    (if p' = 0 then 0 else f.signed neg p', Flags.inx ||| Flags.when (p == 0) Flags.ufl)

/-- Delivers a value into a format (R128): its pattern and the flags of the rounding. An infinite value is delivered as it is;
the conversions into formats without infinity add their own flag. -/
def Fmt.deliver (f : Fmt) (r : Rnd) (sat : Bool) (v : FVal) : Nat × Flags :=
  match v with
  | .nan _ => (f.nan, Flags.none)
  | .inf neg => (f.infinity neg, Flags.none)
  | .num neg x =>
    if x.m = 0 then (f.zero neg, Flags.none)
    else
      match f with
      | .taper n es => f.roundTaper n es r sat neg x
      | _ => f.roundBinary r sat neg x

/-- Delivers a value that came with flags. -/
def Fmt.deliverF (f : Fmt) (r : Rnd) (sat : Bool) (v : FVal × Flags) : Nat × Flags :=
  let (p, fl) := f.deliver r sat v.1
  (p, v.2 ||| fl)

/-- The integer that a value rounds to. -/
def roundInt (r : Rnd) (neg : Bool) (x : Mag) : Int × Bool :=
  let (k, inexact) := x.round 0 r neg
  (if neg then -(k : Int) else k, inexact)

/-- A conversion to an integer or fixed-point target with the given extremes (R102). -/
def FVal.toRange (r : Rnd) (sat : Bool) (lo hi : Int) (v : FVal) : Int × Flags :=
  match v with
  | .nan _ => (0, Flags.inv)
  | .inf neg => (if neg then lo else hi, Flags.inv)
  | .num neg x =>
    let (i, inexact) := roundInt r neg x
    if i < lo then (lo, if sat then Flags.sat ||| Flags.inx else Flags.inv)
    else if hi < i then (hi, if sat then Flags.sat ||| Flags.inx else Flags.inv)
    else (i, Flags.when inexact Flags.inx)

/-! ## Operations -/

/-- A NaN. -/
def FVal.isNan : FVal → Bool
  | .nan _ => true
  | _ => false
/-- A signalling NaN. -/
def FVal.signals : FVal → Bool
  | .nan sig => sig
  | _ => false

/-- Absolute value and then negation of a value (R61). -/
def FVal.modify (abs neg : Bool) : FVal → FVal
  | .nan sig => .nan sig
  | .inf n => .inf ((n && !abs) != neg)
  | .num n x => .num ((n && !abs) != neg) x

/-- Absolute value and then negation of a pattern. -/
def Fmt.modify (f : Fmt) (abs neg : Bool) (w : Nat) : Nat :=
  let n := bit w f.signBit
  f.signed ((n && !abs) != neg) (w % 2 ^ f.signBit)

/-- A signed number at an exponent at or below its own. -/
def Mag.at (x : Mag) (neg : Bool) (e : Int) : Int :=
  let n : Int := x.m * 2 ^ (x.e - e).toNat
  if neg then -n else n

/-- The value of a signed number at an exponent; a zero has the given sign. -/
def FVal.ofScaled (i e : Int) (zeroNeg : Bool) : FVal :=
  .num (if i = 0 then zeroNeg else i < 0) (Mag.exact i.natAbs e)

/-- The exact sum (R101, R129). -/
def FVal.add (r : Rnd) (a b : FVal) : FVal × Flags :=
  match a, b with
  | .nan s, y => (.nan false, Flags.when (s || y.signals) Flags.inv)
  | _, .nan s => (.nan false, Flags.when s Flags.inv)
  | .inf m, .inf n => if m = n then (.inf m, Flags.none) else (.nan false, Flags.inv)
  | .inf m, .num .. => (.inf m, Flags.none)
  | .num .., .inf n => (.inf n, Flags.none)
  | .num m x, .num n y =>
    let e := min x.e y.e
    (FVal.ofScaled (x.at m e + y.at n e) e (if m = n then m else r == .rdn), Flags.none)

/-- The exact product (R129). -/
def FVal.mul (a b : FVal) : FVal × Flags :=
  match a, b with
  | .nan s, y => (.nan false, Flags.when (s || y.signals) Flags.inv)
  | _, .nan s => (.nan false, Flags.when s Flags.inv)
  | .inf m, .inf n => (.inf (m != n), Flags.none)
  | .inf m, .num n y => if y.m = 0 then (.nan false, Flags.inv) else (.inf (m != n), Flags.none)
  | .num m x, .inf n => if x.m = 0 then (.nan false, Flags.inv) else (.inf (m != n), Flags.none)
  | .num m x, .num n y => (.num (m != n) (Mag.exact (x.m * y.m) (x.e + y.e)), Flags.none)

/-- The exact `a·b + c` (R129). -/
def FVal.fma (r : Rnd) (a b c : FVal) : FVal × Flags :=
  let (p, f) := FVal.mul a b
  let (x, g) := FVal.add r p c
  (x, f ||| g)

/-- A quotient of non-zero magnitudes to 128 bits or more below its leading bit. -/
def Mag.div (x y : Mag) : Mag :=
  let n := x.m * 2 ^ (128 + y.m.log2)
  { m := n / y.m, e := x.e - y.e - (128 + y.m.log2), sticky := n % y.m != 0 }

/-- The quotient (R133). -/
def FVal.div (a b : FVal) : FVal × Flags :=
  match a, b with
  | .nan s, y => (.nan false, Flags.when (s || y.signals) Flags.inv)
  | _, .nan s => (.nan false, Flags.when s Flags.inv)
  | .inf _, .inf _ => (.nan false, Flags.inv)
  | .inf m, .num n _ => (.inf (m != n), Flags.none)
  | .num m _, .inf n => (.num (m != n) (Mag.exact 0 0), Flags.none)
  | .num m x, .num n y =>
    if y.m = 0 then if x.m = 0 then (.nan false, Flags.inv) else (.inf (m != n), Flags.dz)
    else if x.m = 0 then (.num (m != n) (Mag.exact 0 0), Flags.none)
    else (.num (m != n) (x.div y), Flags.none)

/-- The integer square root, from bit `i - 1` downwards. -/
def isqrtFrom (n : Nat) : Nat → Nat → Nat
  | 0, r => r
  | i + 1, r =>
    let c := r + 2 ^ i
    isqrtFrom n i (if c * c ≤ n then c else r)

/-- The integer square root. -/
def isqrt (n : Nat) : Nat := isqrtFrom n (n.log2 / 2 + 1) 0

/-- A square root of a non-zero magnitude to 63 bits or more. -/
def Mag.sqrt (x : Mag) : Mag :=
  let odd := x.e % 2 = 1
  let n := (if odd then 2 * x.m else x.m) * 2 ^ 128
  let e := (if odd then x.e - 1 else x.e) - 128
  let r := isqrt n
  { m := r, e := e / 2, sticky := r * r != n }

/-- The square root (R133). -/
def FVal.sqrt (a : FVal) : FVal × Flags :=
  match a with
  | .nan s => (.nan false, Flags.when s Flags.inv)
  | .inf neg => if neg then (.nan false, Flags.inv) else (.inf false, Flags.none)
  | .num neg x =>
    if x.m = 0 then (.num neg (Mag.exact 0 0), Flags.none)
    else if neg then (.nan false, Flags.inv)
    else (.num false x.sqrt, Flags.none)

/-- `a·2^b` (R135). Beyond ±5000 the exponent changes no delivered value. -/
def FVal.scale (a : FVal) (b : Int) : FVal × Flags :=
  match a with
  | .nan s => (.nan false, Flags.when s Flags.inv)
  | .inf neg => (.inf neg, Flags.none)
  | .num neg x => (.num neg { x with e := x.e + max (-5000) (min b 5000) }, Flags.none)

/-- An order of values that are no NaN, as a number that is negative, zero or positive; zeros are equal. -/
def FVal.compare (a b : FVal) : Int :=
  match a, b with
  | .num m x, .num n y =>
    let e := min x.e y.e
    x.at m e - y.at n e
  | .inf m, .inf n => if m = n then 0 else if m then -1 else 1
  | .inf m, _ => if m then -1 else 1
  | _, .inf n => if n then 1 else -1
  | _, _ => 0

/-- The sign of a value. -/
def FVal.neg : FVal → Bool
  | .nan _ => false
  | .inf n => n
  | .num n _ => n

/-- `minimumNumber` or `maximumNumber` of two patterns (R130). -/
def Fmt.minMax (f : Fmt) (isMax : Bool) (a b : Nat) : Nat × Flags :=
  let x := f.decode a
  let y := f.decode b
  let fl := Flags.when (x.signals || y.signals) Flags.inv
  if x.isNan && y.isNan then (f.nan, fl)
  else if x.isNan then (b, fl)
  else if y.isNan then (a, fl)
  else
    let c := x.compare y
    let less := c < 0 || (c == 0 && x.neg && !y.neg)
    (if less != isMax then a else b, fl)

/-- The conditions of Table 3.13 on floating-point values, with the flags of R131. -/
def FVal.cond (k : Nat) (a b : FVal) : Bool × Flags :=
  let nan := a.isNan || b.isNan
  let c := a.compare b
  let ordered := 2 ≤ k && k ≤ 5
  let v := match k with
    | 0 => !nan && c == 0
    | 1 => nan || c != 0
    | 2 => !nan && decide (c < 0)
    | 3 => !nan && decide (c ≤ 0)
    | 4 => !nan && decide (0 < c)
    | 5 => !nan && decide (0 ≤ c)
    | 6 => !nan
    | _ => nan
  (v, Flags.when (if ordered then nan else a.signals || b.signals) Flags.inv)

/-- The class mask of a pattern (R132). -/
def Fmt.classMask (f : Fmt) (w : Nat) : Nat :=
  match f.decode w with
  | .inf true => 2 ^ 0
  | .inf false => 2 ^ 7
  | .nan true => 2 ^ 8
  | .nan false => 2 ^ 9
  | .num neg x =>
    if x.m = 0 then if neg then 2 ^ 3 else 2 ^ 4
    else if x.top < f.emin then if neg then 2 ^ 2 else 2 ^ 5
    else if neg then 2 ^ 1 else 2 ^ 6

end Sys2Proof.Machine
end

