-- ==== Sys2Proof/Machine/Atoms.lean ====
section
/-! DEFINITION. Types and elements of lane values, what an atomic writes, and where global atomics run (R96, R192, R197, R204). -/

namespace Sys2Proof.Machine

/-! ## Types -/

/-- Bits of an element of a type. -/
def elemBits : Ty → Nat
  | .s32 | .u32 | .f32 => 32
  | .s64 | .u64 | .f64 => 64
  | .h2 | .b2 => 16
  | .e4 | .e5 | .t8 | .s8x4 | .u8x4 => 8
  | .t6 => 6

/-- A signed integer type. -/
def tySigned : Ty → Bool
  | .s32 | .s64 | .s8x4 => true
  | _ => false

/-- Names that an operand of a type spans. -/
def tyNames (t : Ty) : Nat := if t.wide then 2 else 1

/-- Bits of a lane value of a type: 64 for a pair, else 32. -/
def tyBits (t : Ty) : Nat := if t.wide then 64 else 32

/-- The tag that a result of a type sets (Table 3.12). -/
def tyTag : Ty → BitVec 4
  | .s32 => 0xA
  | .u32 | .s64 | .u64 | .f64 => 0
  | .f32 => 1
  | .h2 => 2
  | .b2 => 3
  | .e4 => 4
  | .e5 => 5
  | .t8 => 6
  | .t6 => 7
  | .s8x4 => 8
  | .u8x4 => 9

/-- The elements of a lane value (R96). -/
def elems (t : Ty) (x : Nat) : List Nat := (List.range t.count).map fun i => x / 2 ^ (i * elemBits t) % 2 ^ elemBits t

/-- A lane value from elements of `b` bits. -/
def ofElems (b : Nat) : List Nat → Nat
  | [] => 0
  | x :: xs => x + 2 ^ b * ofElems b xs

/-- A number read with a sign. -/
def toSigned (b x : Nat) : Int := if x < 2 ^ (b - 1) then x else (x : Int) - 2 ^ b

/-- An element read with the signedness of its type. -/
def intElem (t : Ty) (x : Nat) : Int := if tySigned t then toSigned (elemBits t) x else x

/-- An integer modulo `2^b`. -/
def wrapInt (b : Nat) (x : Int) : Nat := (x % 2 ^ b).toNat

/-- Applies a function to every element of a lane value; flags are joined. -/
def mapElems (t : Ty) (f : Nat → Nat → Nat → Nat × Flags) (a b c : Nat) : Nat × Flags :=
  let rs := ((elems t a).zip ((elems t b).zip (elems t c))).map fun x => f x.1 x.2.1 x.2.2
  (ofElems (elemBits t) (rs.map (·.1)), rs.foldl (fun g r => g ||| r.2) Flags.none)

/-! ## What an atomic writes (R197, R204) -/

/-- `f(o, c, T)` of R204. -/
def atomOp (op : Nat) (t : Ty) (o c : Nat) : Nat :=
  match tyFmt t with
  | some f => (mapElems t (fun a b _ => f.deliverF .rne false ((f.decode a).add .rne (f.decode b))) o c 0).1
  | none =>
    let a := intElem t o
    let b := intElem t c
    match op with
    | 0 => wrapInt (elemBits t) (a + b)
    | 1 => o &&& c
    | 2 => o ||| c
    | 3 => o ^^^ c
    | 4 => if b < a then c else o
    | 5 => if a < b then c else o
    | _ => c

/-- The new value of SATOM (R197). -/
def SatomOp.apply (f : SatomOp) (o b : Word) : Word :=
  match f with
  | .add => o + b
  | .and => o &&& b
  | .or => o ||| b
  | .xor => o ^^^ b
  | .smin => if b.slt o then b else o
  | .smax => if o.slt b then b else o
  | .swap => b

/-! ## Where global atomics run (R192) -/

/-- The counter of a line among the 4,096 of its home slice (R192). -/
def counterOf (line : Nat) : Nat := Config.lineHash line % 192 * 4096 + Config.counterHash line % 4096

/-- Another L1 holds a line in a way that the home slice knows of (R192). -/
def L1Line.heldBy (l : L1Line) (core line : Nat) : Bool := !l.untracked && l.line == line && l.core != core

/-- Another L1 owns a line (R192). -/
def L1Line.ownedBy (l : L1Line) (core line : Nat) : Bool := l.kind == .owned && l.line == line && l.core != core

/-- The counter of a line after an atomic of a core: a recall of ownership from another L1 raises it, and a line that no other L1 holds lowers
it (R192). -/
def nextCounter (ls : List L1Line) (core line c : Nat) : Nat :=
  if ls.any fun l => l.ownedBy core line then min (c + 1) 3 else if ls.any fun l => l.heldBy core line then c else c - 1

/-- The L1s after an atomic to a line: a request that is granted ownership takes it from every other L1, and its own L1 holds the line unless the hint
forbids it, with the tag of a tracked line that it has held already; one that runs at the home slice recalls the ownership of others (R183, R192).
(DESIGN CHOICE, log 82) -/
def grantLines (ls : List L1Line) (w : Who) (hint : Fin 4) (line c : Nat) : List L1Line :=
  if c < 2 then
    let rest := ls.filter fun l => !l.heldBy w.core line && !l.isAt w.core line
    if hint = 3 then rest
    else
      match ls.find? fun l => !l.untracked && l.isAt w.core line with
      | some l => fillL1 rest { l with first := hint == 1, kind := .owned }
      | none => fillL1 rest { ctx := w.ctx, core := w.core, line := line, data := [], first := hint == 1, kind := .owned }
  else ls.filter fun l => !l.ownedBy w.core line

/-- The contention predictor takes an atomic to a global line (R192); a request whose counter was below 2 is granted ownership. -/
def State.predict (s : State) (w : Who) (hint : Fin 4) (line : Nat) : State :=
  let h := counterOf line
  let c := s.predictor.getD h 0
  { s with predictor := s.predictor.set h (nextCounter s.l1 w.core line c) 0, l1 := grantLines s.l1 w hint line c }

/-- The predictor step of an atomic at its pieces: global space only. -/
def State.predictAt (s : State) (w : Who) (hint : Fin 4) (ps : List Piece) : State :=
  match ps with
  | x :: _ => if x.place = .phys then s.predict w hint (x.addr / 128) else s
  | [] => s

end Sys2Proof.Machine
end

