-- ==== Sys2Proof/Machine/Late.lean ====
section
/-! DEFINITION. Stores that an agent has made and that not every agent sees yet, and how they become visible (R209, R214, R216, R229). -/

namespace Sys2Proof.Machine

/-! ## What a load or an atomic has returned -/

/-- A register that an open load or a late atomic has written takes another value, also where a later region or the running block has kept it (R29,
R350). -/
def Agent.setLoaded (a : Agent) (rid : Nat) (d : Fin 64) (v : Word) : Agent :=
  let put (g trap : Sparse Word) : Sparse Word × Sparse Word :=
    let b := { a with g := g, trapG := trap }.setG d v
    (b.g, b.trapG)
  let patch (r : Region) : Region :=
    if rid < r.rid then { r with snapG := (put r.snapG r.snapTrap).1, snapTrap := (put r.snapG r.snapTrap).2 } else r
  { a.setG d v with
    blockG := (put a.blockG a.blockTrap).1, blockTrap := (put a.blockG a.blockTrap).2, reg := patch a.reg, olds := a.olds.map patch }

/-- Writes one lane of a latch that is bound. -/
def Agent.setLatch (a : Agent) (n lane v : Nat) : Agent :=
  match a.latches.find? n with
  | none => a
  | some xs => { a with latches := a.latches.insert n (xs.set lane (BitVec.ofNat 64 v)) }

/-- Writes one lane of a live row. -/
def Rank.setLane (r : Rank) (row lane v : Nat) : Rank :=
  match r.live.find? row with
  | none => r
  | some x => { r with live := r.live.insert row { x with data := x.data.set lane (BitVec.ofNat 32 v) } }

/-- Writes one lane of a mapped name of an agent. -/
def State.setLaneOf (s : State) (a : Agent) (n lane v : Nat) : State :=
  match a.vmap.find? n with
  | none => s
  | some e => s.modRank (teamOf a.id) a.rank fun r => r.setLane e.row lane v

/-! ## Atomics that are performed late (R209) -/

/-- What an atomic writes over an old value; none where its compare fails (R197, R204). -/
def LateOp.new (op : LateOp) (old : Nat) : Option Nat :=
  match op.instr with
  | .satom _ _ _ _ _ f => some (SatomOp.apply f (BitVec.ofNat 64 old) (BitVec.ofNat 64 op.value)).toNat
  | .atom w | .red w => some (atomOp w.imm.toNat w.ty old op.value)
  | _ => if old = op.compare then some op.value else none

/-- The hint of an atomic. -/
def LateOp.hint (op : LateOp) : Fin 4 :=
  match op.instr with
  | .atom w | .acas w | .red w => w.hint
  | _ => 0

/-- A late atomic gives its agent the old value. -/
def State.opResult (s : State) (id : AgentId) (op : LateOp) (old : Nat) : State :=
  match s.getAgent id with
  | none => s
  | some a =>
    match op.instr with
    | .satom d .. | .scas d .. =>
      s.setAgent { ({ a with trapMode := op.trap }.setLoaded op.rid d (BitVec.ofNat 64 old)) with trapMode := a.trapMode }
    | .atom w | .acas w =>
      let s := s.setAgent (a.setLatch w.h.latch.val op.lane old)
      if w.h.nowb then s
      else (List.range (tyNames w.ty)).foldl (fun s i => s.setLaneOf a (w.h.name.val + i) op.lane (old / 2 ^ (32 * i))) s
    | _ => s

/-- A late atomic is performed (R190, R192). -/
def State.landOp (s : State) (x : LateStore) (op : LateOp) : State :=
  let w : Who := { team := x.team, ctx := op.ctx, rank := op.rank, core := x.core }
  let (old, s) := (s.predictAt w op.hint [op.piece]).atomicAt w op.hint [op.piece] fun bs => (op.new (ofBytes bs)).map (toBytes op.piece.len)
  match x.owner with
  | .agent id _ => s.opResult id op (ofBytes old)
  | .cmd _ | .peer => s

/-! ## Becoming visible -/

/-- A store becomes visible to every agent, and an atomic is performed; the memory of a team that is gone takes nothing. -/
def State.landStore (s : State) (x : LateStore) : State :=
  match x.op, x.place with
  | some op, _ => s.landOp x op
  | none, .phys => s.writePhys x.core x.addr x.data
  | none, .host p => s.setHostMem p ((s.hostMem p).writeN x.addr x.data)
  | none, .scratch r => s.modRank x.team r fun y => { y with scratch := y.scratch.writeN x.addr x.data }
  | none, .accum r => s.modRank x.team r fun y => { y with accum := y.accum.writeN x.addr x.data }

/-- The agent of an owner, in some lane of a mask. -/
def LateOwner.isAgent (o : LateOwner) (id : AgentId) (m : Mask) : Bool :=
  match o with
  | .agent i k => i == id && k &&& m != 0
  | .cmd _ | .peer => false

/-- Two owners are one agent, and not two fragments of it (R218). -/
def LateOwner.same : LateOwner → LateOwner → Bool
  | .agent i k, .agent j m => i == j && k &&& m != 0
  | .cmd i, .cmd j => i == j
  | _, _ => false

/-- A store and a piece share a byte. -/
def LateStore.meets (x : LateStore) (team : Nat) (p : Piece) : Bool :=
  x.place == p.place && (x.place == .phys || x.team == team) && x.addr < p.addr + p.len && p.addr < x.addr + x.data.length

/-- A store that is ordered before a later one of its agent, since they share a byte (R209). -/
def LateStore.before (x y : LateStore) : Bool :=
  x.owner.same y.owner && x.meets y.team { place := y.place, addr := y.addr, len := y.data.length, ptr := 0, shr := false }

/-- The stores that become visible where a test picks some: those, and what is ordered before them; and the stores that still wait. -/
def splitLate (f : LateStore → Bool) : List LateStore → List LateStore × List LateStore
  | [] => ([], [])
  | x :: xs =>
    let (now, wait) := splitLate f xs
    if f x || now.any x.before then (x :: now, wait) else (now, x :: wait)

/-- The stores that a test picks become visible, oldest first. -/
def State.landWhere (s : State) (f : LateStore → Bool) : State :=
  (splitLate f s.late).1.foldl State.landStore { s with late := (splitLate f s.late).2 }

/-- Two stores of one command lie in one aligned word, which is seen whole (R230). -/
def LateStore.tied (x y : LateStore) : Bool :=
  (match x.owner with
    | .cmd _ => x.owner == y.owner
    | .agent .. | .peer => false)
  && x.place == y.place && x.addr / 4 == y.addr / 4

/-- The lines of a store in physical memory. -/
def LateStore.lines (x : LateStore) : List Nat :=
  match x.place with
  | .phys => upTo (x.addr / 128) ((x.addr + x.data.length + 127) / 128)
  | .host _ | .scratch _ | .accum _ => []

/-- A store that waits becomes visible, with those that are seen with it, unless one that is ordered before it still waits, or its domain is fenced
(R209, R216, R371). -/
def State.landOne (s : State) (k : Nat) : State :=
  match s.late[k]? with
  | none => s
  | some x =>
    if (s.late.take k).any (·.before x) || (!s.fenced.isEmpty && x.lines.any s.lineFenced) then s else s.landWhere fun y => y == x || x.tied y

/-- The atomics of an agent that are still to be performed are performed, where a test picks them. -/
def State.landOps (s : State) (id : AgentId) (f : LateStore → LateOp → Bool) : State :=
  s.landWhere fun x => x.owner.isAgent id allLanes && x.op.any (f x)

/-- Every store that waits and touches a line that a test picks becomes visible. -/
def State.landLines (s : State) (f : Nat → Bool) : State := s.landWhere fun x => x.lines.any f

/-- Every access of a grid is visible: what its agents and commands have stored becomes so (R212, R256). -/
def State.landGrid (s : State) (grid : Nat) : State := s.landWhere fun x => x.grid == grid && grid != 0

end Sys2Proof.Machine
end

