-- ==== Sys2Proof/Machine/Barrier.lean ====
section
/-! DEFINITION. Barrier objects, arrivals, completion and waits (R276 to R280). -/

namespace Sys2Proof.Machine

/-- A barrier object (Table 12.1). -/
structure Bar where
  expected : Nat
  arrived : Nat
  target : Nat
  landed : Nat
  phase : Nat
  err : Byte
  flags : Byte
  deriving DecidableEq, Repr

/-- The fields of the 16 bytes of an object. -/
def Bar.ofNat (x : Nat) : Bar :=
  { expected := bits x 15 0, arrived := bits x 31 16, target := bits x 63 32, landed := bits x 95 64,
    phase := bits x 111 96, err := BitVec.ofNat 8 (x / 2 ^ 112), flags := BitVec.ofNat 8 (x / 2 ^ 120) }

/-- The 16 bytes of an object as a number. -/
def Bar.toNat (b : Bar) : Nat :=
  b.expected + b.arrived * 2 ^ 16 + b.target * 2 ^ 32 + b.landed * 2 ^ 64 + b.phase * 2 ^ 96 + b.err.toNat * 2 ^ 112
  + b.flags.toNat * 2 ^ 120

/-- INIT. -/
def Bar.init (b : Bar) : Bool := b.flags.getLsbD 0
/-- LAND. -/
def Bar.land (b : Bar) : Bool := b.flags.getLsbD 1

/-- The first error stands (R278). -/
def Bar.post (b : Bar) (err : Byte) : Bar := if err ≠ 0 ∧ b.err = 0 then { b with err := err } else b

/-- `complete` (R278); `perSet` is the target of the bound landing slot. -/
def Bar.complete (b : Bar) (perSet : Nat) : Bar :=
  if b.arrived = b.expected ∧ b.target ≤ b.landed then
    { (if b.target < b.landed then b.post 0x1C else b) with
      phase := (b.phase + 1) % 65536, arrived := 0, landed := 0, target := if b.land then perSet else 0 }
  else b

/-- `arrive` (R278). -/
def Bar.arrive (b : Bar) (n bytes : Nat) (err : Byte) (perSet : Nat) : Bar :=
  if b.init then
    let b := b.post err
    let b := { b with landed := (b.landed + bytes) % 2 ^ 32 }
    let b :=
      if b.expected < b.arrived + n then { b.post 0x1C with arrived := b.expected }
      else { b with arrived := b.arrived + n }
    b.complete perSet
  else b

/-- BINIT (R282). -/
def Bar.start (b : Bar) (count perSet : Nat) : Bar :=
  { b with
    expected := count, arrived := 0, landed := 0, err := 0
    target := if count ≠ 0 ∧ b.land then perSet else 0
    flags := if count ≠ 0 then b.flags ||| 1 else b.flags &&& 0xFE }

/-- BEXP (R282). -/
def Bar.expect (b : Bar) (bytes perSet : Nat) : Bar :=
  { b with target := (b.target + bytes) % 2 ^ 32 }.complete perSet

/-- A wait for a phase is satisfied (R279). -/
def phaseDone (now awaited : Nat) : Bool :=
  let d := (now + 65536 - awaited % 65536) % 65536
  1 ≤ d && d ≤ 32767

/-! ## Objects in scratchpads -/

/-- Where a barrier object lies: a team, a rank, a local offset. -/
structure BarLoc where
  team : Nat
  rank : Nat
  off : Nat
  deriving DecidableEq, Repr

/-- The place that a barrier pointer names. -/
def barLoc (w : Who) (p : Word) : BarLoc := { team := w.team, rank := ptrCoreRank w p, off := ptrOffset p }

/-- Reads an object. -/
def Team.bar (t : Team) (l : BarLoc) : Bar := Bar.ofNat ((t.rank l.rank).scratch.readNat l.off 16)

/-- The checks of R277; `init` asks for step 4. -/
def checkBarrier (t : Team) (w : Who) (p : Word) (init : Bool) : Option Fail :=
  if !spaceOk [1, 2] p 16 then some { code := 0x10, addr := p }
  else if !windowOk t w p 16 then some { code := 0x14, addr := p }
  else if ptrOffset p % 16 ≠ 0 then some { code := 0x13, addr := p }
  else if init && !(t.bar (barLoc w p)).init then some { code := 0x18, addr := p }
  else none

/-- The landing slots of a team that are bound to an object. (DESIGN CHOICE, log 116) -/
def Team.perSet (t : Team) (l : BarLoc) : Nat :=
  match List.find? (fun x => x.2.barRank == l.rank && ptrOffset x.2.bar == l.off) t.landings with
  | some x => x.2.perSet.toNat
  | none => 0

/-- The agent waits on the object for a phase that is now over. -/
def Agent.satisfied (a : Agent) (l : BarLoc) (phase : Nat) : Bool :=
  match a.status with
  | .waiting p awaited _ =>
    teamOf a.id == l.team && (if ptrSpace p = 1 then a.rank else ptrRank p) == l.rank && ptrOffset p == l.off
    && phaseDone phase awaited.toNat
  | _ => false

/-- A blocked wait ends: the agent goes on after its BWAIT (R279), and owes the acquire of its scope (R219). -/
def Agent.wake (a : Agent) (sc : Scope) : Agent :=
  { a with status := .running, spc := a.spc + 4, issued := a.issued + 1, atEntry := false, owes := if sc = .warp then none else some sc }

/-- The scope of the wait that an agent is blocked in; running agents wait at none. -/
def Agent.waitScope (a : Agent) : Scope :=
  match a.status with
  | .waiting _ _ sc => sc
  | _ => .warp

/-- Every satisfied wait on an object ends, each with its acquire (R278, R280); a warp that has stopped in its wait for a save stays stopped
(R359). -/
def State.wakeWaits (s : State) (t : Team) (l : BarLoc) (phase : Nat) : State :=
  let wakes (a : Agent) : Bool := a.satisfied l phase && !(t.saveReq.isSome && a.queue.isEmpty)
  let cores := ((s.allAgents.filter fun a => wakes a && a.waitScope != .warp)).map fun a => (t.rank a.rank).core
  { s.dropUntracked cores with
    ag := if wakes s.ag then s.ag.wake s.ag.waitScope else s.ag
    agents := s.agents.map fun a => if wakes a then a.wake a.waitScope else a }

/-- One barrier operation on an object (R191, R276): the object is changed whole, and the waits that it satisfies end.
-/
def State.barOp (s : State) (l : BarLoc) (f : Bar → Nat → Bar) : State :=
  match s.getTeam l.team with
  | none => s
  | some t =>
    let b := f (t.bar l) (t.perSet l)
    let r := t.rank l.rank
    let s := s.setTeam (t.setRank l.rank { r with scratch := r.scratch.writeNat l.off 16 b.toNat })
    s.wakeWaits t l b.phase

/-- `arrive(b, n, bytes, err)` on the object at a place; an arrival for a saved team waits for its restore (R232). -/
def State.arrive (s : State) (l : BarLoc) (n bytes : Nat) (err : Byte) : State :=
  if (s.getTeam l.team).isSome then s.barOp l fun b perSet => b.arrive n bytes err perSet
  else
    let x : HeldArrival := { rank := l.rank, off := l.off, count := n, bytes := bytes, err := err }
    { s with saved := s.saved.map fun t => if t.id = l.team then { t with held := t.held ++ [x] } else t }

/-- The completion arrival of a command that names a barrier (R291). -/
def State.arriveCmd (s : State) (c : Cmd) (bytes : Nat) (err : Byte) : State :=
  match c.bar with
  | some p => s.arrive (barLoc (s.whoCmd c) p) 1 bytes err
  | none => s

end Sys2Proof.Machine
end

