-- ==== Sys2Proof/Machine/PowerOps.lean ====
section
/-! DEFINITION. Levels, clocks and notices: what other parts of the machine ask of the power controller and of the
notice ring (files 16 and 17). -/

namespace Sys2Proof.Machine

/-! ## Notices (R377) -/

/-- A notice record raises MSI-X vector 0 of a port (R377). -/
def PortRegs.raise (r : PortRegs) : PortRegs := { r with raised := r.raised + 1 }

/-- Posts a notice record; each raises MSI-X vector 0 on both ports (R377). -/
def State.notice (s : State) (kind code : Byte) (ctx : BitVec 16) (domain : BitVec 32) (vaddr paddr : Word)
    (flags : Byte) (ranks : List (BitVec 16)) : State :=
  let seq := s.host.lastSeq + 1
  let n : Notice :=
    { seq := seq, kind := kind, code := code, ctx := ctx, domain := domain, vaddr := vaddr, paddr := paddr,
      time := s.now, flags := flags, ranks := ranks.take 11 }
  { s with
    host := { s.host with
      lastSeq := seq, notices := (s.host.notices ++ [n]).drop (s.host.notices.length - 1023), portA := s.host.portA.raise,
      portB := s.host.portB.raise } }

/-- The 64 bytes of a notice record (Table 16.5). -/
def Notice.bytes (n : Notice) : List Byte :=
  toBytes 8 n.seq ++ [n.kind, n.code] ++ toBytes 2 n.ctx.toNat ++ toBytes 4 n.domain.toNat ++ toBytes 8 n.vaddr.toNat
  ++ toBytes 8 n.paddr.toNat ++ toBytes 8 n.time ++ [n.flags, BitVec.ofNat 8 n.ranks.length]
  ++ (List.range 11).flatMap fun i => toBytes 2 (n.ranks.getD i 0).toNat

/-- The record at place `k` of the ring, zeros where none has been written: record s lies at place s mod 1,024 (R377). -/
def HostIf.ringRecord (h : HostIf) (k : Nat) : List Byte :=
  match h.notices.find? fun n => n.seq % 1024 == k with
  | some n => n.bytes
  | none => List.replicate 64 0

/-- An aligned 8-byte read of memory BAR 2, which is the same on both ports: the notice ring from offset 0 on, and at 0x1_0000 the sequence
number of the last record (R377). Other offsets read as zero. (DESIGN CHOICE, log 71) -/
def HostIf.readBar2 (h : HostIf) (off : Nat) : Word :=
  if off < 65536 then BitVec.ofNat 64 (ofBytes (((h.ringRecord (off / 64)).drop (off % 64 / 8 * 8)).take 8))
  else if off = 0x10000 then BitVec.ofNat 64 h.lastSeq
  else 0

/-- Times of a kind, newest first: one more, without those that lie more than a span back. Once there are more than `limit`, they stay until
they have been reported (R374, R376). -/
def addTime (ts : List Nat) (now span limit : Nat) : List Nat :=
  if limit < ts.length then ts else now :: ts.filter fun t => now ≤ t + span

/-- The domain field of a notice about no domain. -/
def noDomain : BitVec 32 := 0xFFFFFFFF

/-- A notice about an address of a context. -/
def State.addrNotice (s : State) (kind code : Byte) (ctx : BitVec 16) (va : Word) : State :=
  s.notice kind code ctx noDomain va 0 0 []

/-! ## Clusters (R380 to R384) -/

/-- The thermal region of a cluster (R389): 16 to a die. -/
def regionOf (c : Nat) : Nat := 16 * dieOf c + 4 * (clusterY c % 4) + 4 * (clusterX c % 6) / 6

/-- The state of a cluster. -/
def State.cluster (s : State) (c : Nat) : Cluster := s.pow.clusters.getD c Cluster.reset

/-- Replaces the state of a cluster. -/
def State.setCluster (s : State) (c : Nat) (x : Cluster) : State :=
  { s with pow := { s.pow with clusters := s.pow.clusters.set c x Cluster.reset } }

/-- The state of a thermal region. -/
def State.heat (s : State) (r : Nat) : HeatRegion := s.pow.regions.getD r HeatRegion.reset

/-- The level cap of a region (Table 17.2): the strictest of those in force. -/
def HeatRegion.cap (x : HeatRegion) : Nat := if x.hot.on || x.spent.on then 0 else if x.worn.on then 1 else 2
/-- The least pass count of a region (Table 17.2). -/
def HeatRegion.passes (x : HeatRegion) : Nat := if x.hot.on then 4 else 1

/-- The clock count of a cluster (R68), in tenths. -/
def Cluster.clock10 (x : Cluster) (now : Nat) : Nat := x.clkAt + (now - x.clkFrom) * x.freq

/-- A change of frequency, from now on. -/
def Cluster.setFreq (x : Cluster) (now freq : Nat) : Cluster :=
  { x with clkAt := x.clock10 now, clkFrom := now, freq := freq }

/-- The highest entry of a level (Table 17.1), in 100 MHz. -/
def levelTop : Nat → Nat
  | 0 => 15
  | 1 => 23
  | _ => 30
/-- The lowest entry of a level (Table 17.1), in 100 MHz. -/
def levelLow : Nat → Nat
  | 0 => 8
  | 1 => 16
  | _ => 24

/-- The teams that are resident on a cluster. -/
def State.teamsOn (s : State) (c : Nat) : List Team := s.allTeams.filter fun t => t.cluster == c

/-- The context holds the performance permission (R328). -/
def State.permitted (s : State) (ctx : BitVec 16) : Bool :=
  match s.ctxs.find? ctx.toNat with
  | some c => c.perf
  | none => false

/-- The cap of a cluster (R383): the governor's and the heat's. -/
def State.clusterCap (s : State) (c : Nat) : Nat := min (s.cluster c).cap (s.heat (regionOf c)).cap

/-- The level granted to a cluster (R383). -/
def State.granted (s : State) (c : Nat) : Nat :=
  let votes := (s.teamsOn c).filterMap fun t => if s.permitted t.ctx then t.vote else none
  let want := match votes with
    | [] => 1
    | v :: vs => vs.foldl max v
  min want (s.clusterCap c)

/-- The level that a cluster should run at: the lowest where no team is resident (R380). -/
def State.wanted (s : State) (c : Nat) : Nat := if (s.teamsOn c).isEmpty then 0 else s.granted c

/-- The frequency of a cluster at a level (R380, R374, R390). -/
def State.freqAt (s : State) (c level : Nat) : Nat :=
  if (s.teamsOn c).isEmpty || (s.heat (regionOf c)).hot.on then levelLow level
  else max (levelLow level) (levelTop level - (s.cluster c).held)

/-- A cluster takes up the level it should run at (R381): raising switches the ratio first, lowering drops the frequency first;
a request made during a change waits for it. -/
def State.regrant (s : State) (c : Nat) : State :=
  let x := s.cluster c
  match x.target with
  | some _ => s
  | none =>
    let w := s.wanted c
    if w = x.level then s.setCluster c (x.setFreq s.now (s.freqAt c w))
    else if x.level < w then s.setCluster c { x with level := w, target := some w }
    else s.setCluster c { x.setFreq s.now (s.freqAt c w) with target := some w }

/-- The pass count in force: the largest that any rule asks for (R385, R387, R390). -/
def State.passes (s : State) (c : Nat) : Nat :=
  let x := s.cluster c
  max (max x.passes (if s.now < x.passHold then 2 else 1)) (s.heat (regionOf c)).passes

end Sys2Proof.Machine
end

