-- ==== Sys2Proof/Machine/Ending.lean ====
section
/-! DEFINITION. Rows that are given back, and the ends of drops, teams, grids and contexts (R254 to R256, R299, R300,
R354, R369). -/

namespace Sys2Proof.Machine

/-! ## Rows (R312 to R315) -/

/-- A lane word of zeros in every lane. -/
def zeroRow : List Lane := List.replicate 64 0

/-- A row with fresh contents and one reference. -/
def Row.fresh (data : List Lane) : Row := { data := data, refs := 1, readHolds := 0, writeHolds := 0 }

/-- A row by number. -/
def Rank.row (r : Rank) (n : Nat) : Row := r.live.getD n { data := zeroRow, refs := 0, readHolds := 0, writeHolds := 0 }

/-- A live row without references and holds is freed (R315): it returns to the pool and is zeroed. -/
def Rank.settle (r : Rank) (n : Nat) : Rank :=
  match r.live.find? n with
  | none => r
  | some x =>
    if x.refs = 0 ∧ x.readHolds = 0 ∧ x.writeHolds = 0 then
      { r with live := r.live.erase n, zeroing := r.zeroing ++ [n] }
    else r

/-- Changes a live row, and frees it when nothing refers to it any more. -/
def Rank.modRow (r : Rank) (n : Nat) (f : Row → Row) : Rank :=
  match r.live.find? n with
  | none => r
  | some x => { r with live := r.live.insert n (f x) }.settle n

/-- A row loses one reference. -/
def Rank.unref (r : Rank) (n : Nat) : Rank := r.modRow n fun x => { x with refs := x.refs - 1 }

/-- The free rows that sr.rowsfree counts (R313, R315). -/
def Rank.rowsFree (r : Rank) : Nat := r.pool.length + r.zeroing.length

/-- Takes free rows out of the pool, those being zeroed last. -/
def Rank.takeRows (r : Rank) : Nat → List Nat × Rank
  | 0 => ([], r)
  | n + 1 =>
    match r.pool, r.zeroing with
    | x :: pool, _ =>
      let (xs, r) := Rank.takeRows { r with pool := pool } n
      (x :: xs, r)
    | [], x :: zs =>
      let (xs, r) := Rank.takeRows { r with zeroing := zs } n
      (x :: xs, r)
    | [], [] => ([], r)

/-- Rows go back to the pool, to be zeroed. -/
def Rank.giveRows (r : Rank) (ns : List Nat) : Rank := { r with zeroing := r.zeroing ++ ns }

/-- Unmaps every name of a map: the rank after it, and the rows that fell free and stand in no list. -/
def unmapAll : List (Nat × MapEntry) → Rank → List Nat × Rank
  | [], r => ([], r)
  | (_, e) :: m, r =>
    match r.live.find? e.row with
    | none => unmapAll m r
    | some x =>
      if x.refs ≤ 1 ∧ x.readHolds = 0 ∧ x.writeHolds = 0 then
        let (ns, r) := unmapAll m { r with live := r.live.erase e.row }
        (e.row :: ns, r)
      else unmapAll m { r with live := r.live.insert e.row { x with refs := x.refs - 1 } }

/-! ## The host record of a launch (R254) -/

/-- The place of a host pointer that the context's host table lets the device write. -/
def State.hostPlace (s : State) (ctx : BitVec 16) (p : Word) : Option (Port × Nat) :=
  match s.walkCtx ctx true (ptrOffset p % 2 ^ 57) with
  | .ok l => if l.w then some (l.port, l.base + ptrOffset p % l.size) else none
  | .error _ => none

/-- The walk of a host pointer reads a table entry in a fenced domain: the device's write through it waits (R371). -/
def State.hostFenced (s : State) (ctx : BitVec 16) (p : Word) : Bool :=
  !s.fenced.isEmpty
  && (match s.ctxs.find? ctx.toNat with
      | some c => (walkLines s.mem true (ptrOffset p % 2 ^ 57) levels c.hroot).any s.lineFenced
      | none => false)

/-- Advances a 64-bit counter in host memory after every earlier host write (R195). -/
def State.advanceCounter (s : State) (port : Port) (a : Nat) : State :=
  let s := s.drainHost
  let m := s.hostMem port
  s.setHostMem port (m.writeNat a 8 (m.readNat a 8 + 1))

/-- Writes the completion record of a host launch, or the notice of kind 9 in its place (R254, R256). -/
def State.hostRecord (s : State) (ctx : BitVec 16) (hdone ptr : Word) (code : Byte) (ran : Bool) : State :=
  match s.hostPlace ctx hdone with
  | some (port, a) => (s.drainHost.setHostMem port ((s.drainHost.hostMem port).write (a + 8) code)).advanceCounter port a
  | none => s.notice 9 code ctx noDomain ptr 0 (if ran then 1 else 0) []

/-! ## Grids (R256) -/

/-- A launch whose parent is the grid waits in a queue. -/
def State.childQueued (s : State) (id : Nat) : Bool :=
  (List.any s.devq fun q => q.2.any fun i => i.parent == id && id != 0) || s.heads.any fun h => h.item.parent == id && id != 0

/-- Every team of the grid has ended, and every grid that it launched has retired. -/
def State.gridDone (s : State) (g : Grid) : Bool :=
  g.pkt.teams ≤ g.ended && !(s.grids.any fun c => c.parent == some g.id) && !s.childQueued g.id

/-- What a retired grid posts: an arrival on the parent's completion barrier, or the host record. -/
def State.postRetired (s : State) (g : Grid) : State :=
  match g.port with
  | none =>
    match g.bar with
    | none => s
    | some b =>
      let l : BarLoc := { team := b.team, rank := if ptrSpace b.ptr = 1 then b.rank else ptrRank b.ptr, off := ptrOffset b.ptr }
      s.arrive l 1 0 g.code
  | some _ => if g.pkt.hdone = 0 then s else s.hostRecord g.ctx g.pkt.hdone g.ptr g.code true

/-- A grid that is done waits to retire while its record needs a fenced domain (R256, R371). -/
def State.recordWaits (s : State) (g : Grid) : Bool := g.port.isSome && g.pkt.hdone != 0 && s.hostFenced g.ctx g.pkt.hdone

/-- A gang whose grid retires has retired on this module (R247). -/
def State.retireGang (s : State) (g : Grid) : State :=
  if g.pkt.gang then
    { s with fab := { s.fab with gangs := s.fab.gangs.map fun x => if x.gang = g.pkt.gangid then { x with retired := true } else x } }
  else s

/-- A grid retires when it is done, and then perhaps its parent; depth is at most 10 (R20), which bounds `fuel`. Every access of the grid comes
before what it posts (R212, R256). -/
def State.retire : Nat → State → Nat → State
  | 0, s, _ => s
  | fuel + 1, s, id =>
    match s.getGrid id with
    | none => s
    | some g =>
      if s.gridDone g && !s.recordWaits g then
        let s := { s with grids := s.grids.filter fun x => x.id != id }
        let s := ((s.landGrid id).postRetired g).retireGang g
        match g.parent with
        | some p => State.retire fuel s p
        | none => s
      else s

/-- The retirement check of a grid and its ancestors. -/
def State.checkRetire (s : State) (id : Nat) : State := s.retire 12 id

/-- The grids whose record waited for a fenced domain retire (R371). -/
def State.retireWaiting (s : State) : State := (s.grids.map (·.id)).foldl State.checkRetire s

/-! ## Teams (R255, R354) -/

/-- A grid without what its save has reserved for a team. -/
def Grid.dropTicket (g : Grid) (team : Nat) : Grid := { g with tickets := g.tickets.filter fun k => k.team != team }

/-- A save slot of a context is free; it keeps its generation (R363, R365). -/
def Ctx.freeSlot (c : Ctx) (slot : Nat) : Ctx :=
  { c with slots := c.slots.insert slot { c.slots.getD slot { busy := false, generation := 0 } with busy := false } }

/-- The save slot that a save has reserved for a team which has ended is free again (R365). -/
def State.freeTicket (s : State) (t : Team) : State :=
  match (s.getGrid t.grid).bind fun g => g.tickets.find? fun k => k.team == t.id, s.ctxs.find? t.ctx.toNat with
  | some k, some c => { s with ctxs := s.ctxs.insert t.ctx.toNat (c.freeSlot k.slot) }
  | _, _ => s

/-- A team leaves its cores: its agents, commands and resources are gone; the grid counts it, and what a save of the grid has reserved for it is
free (R363). -/
def State.removeTeam (s : State) (t : Team) : State :=
  let s := s.freeTicket t
  let s := s.dropAgents fun a => teamOf a.id == t.id
  let s := (s.dropTeam t.id)
  let s := { s with
    cmds := s.cmds.filter fun c => c.team != t.id
    fab := { s.fab with table := s.fab.table.filter fun e => e.team != t.id || e.offsets ≤ e.combined }
    grids := s.grids.map fun (g : Grid) => if g.id = t.grid then { g.dropTicket t.id with ended := g.ended + 1 } else g }
  s.regrant t.cluster

/-- A team ends when every warp has halted, every drop has ended and every command has completed (R255). -/
def State.teamDone (s : State) (t : Team) : Bool :=
  (s.allAgents.all fun a => teamOf a.id != t.id || (a.status == .halted && !a.isDrop))
  && s.cmds.all fun c => c.team != t.id

/-- The end check of a team. -/
def State.checkTeamEnd (s : State) (id : Nat) : State :=
  match s.getTeam id with
  | none => s
  | some t => if s.teamDone t then (s.removeTeam t).checkRetire t.grid else s

/-- The first fault code of a grid stands (R256). -/
def State.setGridCode (s : State) (id : Nat) (code : Byte) : State :=
  { s with grids := s.grids.map fun g => if g.id = id ∧ g.code = 0 then { g with code := code } else g }

/-- Terminates a team with a code (R354). (DEDUCED, log 64) -/
def State.terminateTeam (s : State) (id : Nat) (code : Byte) : State :=
  match s.getTeam id with
  | none => s
  | some t => ((s.setGridCode t.grid code).removeTeam t).checkRetire t.grid

/-- Every save slot of a context is free (R365, R373). -/
def Sparse.freeSlots (m : Sparse Ctx) (ctx : BitVec 16) : Sparse Ctx :=
  match m.find? ctx.toNat with
  | none => m
  | some c => m.insert ctx.toNat { c with slots := List.map (fun (x : Nat × SaveSlot) => (x.1, { x.2 with busy := false })) c.slots }

/-- The links once the flits of some gangs have left their retry buffers. -/
def dropFlits (links : Sparse Link) (gangs : List (BitVec 16)) : Sparse Link :=
  (List.map (fun (x : Nat × Link) =>
    if x.2.flit.any fun f => gangs.contains f.1.gang then (x.1, { x.2 with flit := none, failures := 0 }) else x) links).filter
      fun x => x.2 != Link.reset

/-- Step 4 of R336: traffic to a context is dropped from now on, and its send queues and buffers are discarded. -/
def State.dropTraffic (s : State) (ctx : BitVec 16) : State :=
  let gangs := (s.fab.gangs.filter fun g => g.ctx == ctx).map (·.gang)
  { s with
    fab := { s.fab with
      gangs := s.fab.gangs.map fun (g : Gang) => if g.ctx = ctx then { g with retired := true } else g
      links := dropFlits s.fab.links gangs
      table := s.fab.table.filter fun e => !gangs.contains e.gang
      combine := s.fab.combine.filter fun x => !gangs.contains x.1.gang
      out := s.fab.out.filter fun x => !(x.2.isNone && gangs.contains x.1.gang) } }

/-- Ends every grid of a context on the module with a code (R369): no further team of such a grid starts, even where a launch that it has queued
keeps it from retiring. -/
def State.terminateContext (s : State) (ctx : BitVec 16) (code : Byte) : State :=
  let ids := (s.grids.filter fun g => g.ctx == ctx).map (·.id)
  let s := ids.foldl (fun s id => s.setGridCode id code) s
  let s := (s.allTeams.filter fun t => t.ctx == ctx).foldl State.removeTeam s
  let s := s.dropTraffic ctx
  let s := { s with
    saved := s.saved.filter fun x => x.ctx != ctx
    ctxs := s.ctxs.freeSlots ctx
    grids := s.grids.map fun (g : Grid) =>
      if g.ctx = ctx then { g with ended := g.pkt.teams, nextTeam := g.nextTeam.map fun _ => g.pkt.teams } else g }
  ids.foldl State.checkRetire s

/-! ## Drops (R298 to R300) -/

/-- Rows that a drop of an HREAD frees go to its command until the reservation is whole, and then to the pool; where a row
was given away, the pool replaces it, or the window shrinks (R300). -/
def Cmd.takeBack (c : Cmd) (freed : List Nat) (r : Rank) : Cmd × Rank :=
  let per := 1 + bits (c.desc.getD 3 0).toNat 39 36
  let want := c.reserved - per * c.running - c.landed.length - c.rows.length
  let keep := freed.take want
  let r := r.giveRows (freed.drop want)
  let missing := want - keep.length
  let (more, r) := r.takeRows missing
  let short := missing - more.length
  let c := { c with rows := c.rows ++ keep ++ more, reserved := c.reserved - short, window := c.window - short }
  (c, r)

/-- The window of an HREAD has fallen to zero while bursts remain: it fails with 0x05, and the bursts that wait are
discarded (R300). -/
def Cmd.lostWindow (c : Cmd) (total : Nat) (r : Rank) : Cmd × Rank :=
  if c.window = 0 ∧ ((c.stopped = false ∧ c.cursor < total) ∨ c.pending ≠ [] ∨ c.landed ≠ []) then
    ({ c with err := if c.err = 0 then 0x05 else c.err, stopped := true, pending := [], landed := [] },
     { r with live := c.landed.foldl (fun (m : Sparse Row) (x : Landed) => Sparse.erase m (Landed.row x)) r.live }.giveRows (c.landed.map Landed.row))
  else (c, r)

/-- The bursts of an HREAD (R293, R295). -/
def hreadBursts (desc : List Word) : Nat :=
  let shape := (desc.getD 1 0).toNat
  (bits shape 31 0 + 255) / 256 * bits shape 47 32 * bits shape 63 48

/-- A drop ends, at HEND or by a fault: its names are unmapped, its slot is free, and its command or landing slot counts it
(R298, R299). -/
def State.endDrop (s : State) (a : Agent) (err : Byte) : State :=
  match s.getTeam (teamOf a.id) with
  | none => s
  | some t =>
    let (freed, r) := unmapAll a.vmap (t.rank a.rank)
    let s := s.dropAgents fun x => x.id == a.id
    match a.origin with
    | some (.landing n) =>
      match t.landings.find? n.val with
      | none => (s.setTeam (t.setRank a.rank (r.giveRows freed))).checkTeamEnd t.id
      | some l =>
        let want := l.window - l.rows.length - (l.running - 1)
        let keep := freed.take want
        let (more, r) := (r.giveRows (freed.drop want)).takeRows (want - keep.length)
        let l := { l with running := l.running - 1, rows := l.rows ++ keep ++ more }
        let s := s.setTeam { t.setRank a.rank r with landings := t.landings.insert n.val l }
        let loc : BarLoc := { team := t.id, rank := l.barRank, off := ptrOffset l.bar }
        (if err = 0 then s else s.arrive loc 0 0 err).checkTeamEnd t.id
    | some (.burst id) =>
      match s.getCmd id with
      | none => (s.setTeam (t.setRank a.rank (r.giveRows freed))).checkTeamEnd t.id
      | some c =>
        let c := { c with running := c.running - 1, err := if c.err = 0 then err else c.err }
        let (c, r) := c.takeBack freed r
        let (c, r) := c.lostWindow (hreadBursts c.desc) r
        (s.setTeam (t.setRank a.rank r)).setCmd c
    | some (.finalOf id) =>
      match s.getCmd id with
      | none => (s.setTeam (t.setRank a.rank (r.giveRows freed))).checkTeamEnd t.id
      | some c =>
        let c := { c with final := .ended, err := if c.err = 0 then err else c.err, rows := c.rows ++ freed }
        (s.setTeam (t.setRank a.rank r)).setCmd c
    | none => s.setTeam (t.setRank a.rank (r.giveRows freed))

end Sys2Proof.Machine
end

