-- ==== Sys2Proof/Machine/Ops.lean ====
section
/-! DEFINITION. The shared operations of the scalar stream: going on, regions, the lane queue and its scoreboard, taking a fault
and returning from one (R30 to R32, R347 to R356). -/

namespace Sys2Proof.Machine

/-- The outcome of a step. -/
abbrev Out := Host.Outcome State Fault Refusal

/-- What an event does, but after a module trip: the module is held in reset, and its registers, queues and units take up nothing until the trip is
released (R390). -/
def whileUp (s : State) (f : State → Out) : Out := if s.pow.tripped then .next s else f s

/-! ## Regions (R347, R350) -/

/-- The scalar stream may pass one more region entry (R350): at most four beyond the oldest region with an entry in the lane
queue. -/
def Agent.canEnter (a : Agent) : Bool :=
  match a.queue with
  | [] => true
  | e :: _ => a.reg.rid < e.rid + 4

/-- A region entry at an address; `raise` says whether the counter rises (R347). -/
def Agent.enterRegion (a : Agent) (entry : Word) (raise : Bool) : Agent :=
  { a with
    olds := if a.queue.isEmpty then [] else a.reg :: a.olds
    reg := { rid := a.nextRid, ctr := if raise then a.reg.ctr + 1 else a.reg.ctr, entry := entry, nr := false,
             snapG := a.g, snapTrap := a.trapG, snapQ := a.q, snapMode := a.fpmode }
    nextRid := a.nextRid + 1
    atEntry := true }

/-- The region of a serial number. -/
def Agent.region (a : Agent) (rid : Nat) : Region :=
  if a.reg.rid = rid then a.reg else (a.olds.find? (·.rid == rid)).getD a.reg

/-- Marks a region as not re-executable (R349). -/
def Agent.setNr (a : Agent) (rid : Nat) : Agent :=
  { a with
    reg := if a.reg.rid = rid then { a.reg with nr := true } else a.reg
    olds := a.olds.map fun r => if r.rid = rid then { r with nr := true } else r }

/-- A write of g registers and q predicates by an instruction of the lane queue: the snapshots of the later regions take it too, since they
hold the registers as they stand at their entries in program order (R350). -/
def Agent.queueWrite (a : Agent) (f : Agent → Agent) : Agent :=
  let rid := match a.queue with
    | e :: _ => e.rid
    | [] => a.reg.rid
  let patch (r : Region) : Region :=
    if rid < r.rid then
      let c := f { a with g := r.snapG, trapG := r.snapTrap, q := r.snapQ }
      { r with snapG := c.g, snapTrap := c.trapG, snapQ := c.q }
    else r
  let b := f a
  { b with reg := patch b.reg, olds := b.olds.map patch }

/-! ## Going on -/

/-- The scalar stream goes to an address. -/
def Agent.goto (a : Agent) (pc : Word) : Agent := { a with spc := pc, issued := a.issued + 1, atEntry := false }

/-- The head of the lane queue has taken effect; resolved regions are forgotten (R30, R350). -/
def Agent.pop (a : Agent) : Agent :=
  let q := a.queue.drop 1
  { a with queue := q, olds := a.olds.filter fun r => q.any fun e => e.rid ≤ r.rid }

/-- The focused agent's next scalar word. -/
def State.goNext (s : State) : State := s.modAg fun a => a.goto (a.spc + 4)

/-- An instruction that is no commit has taken effect. -/
def State.finish (s : State) : State := if s.atQueue then s.modAg Agent.pop else s.goNext

/-- A commit operation has taken effect: in the scalar stream a region entry follows it (R347, R348); one that stood in the
lane queue made its entry when it was placed there. -/
def State.commit (s : State) : State :=
  if s.atQueue then s.modAg Agent.pop else (s.goNext).modAg fun a => a.enterRegion a.spc true

/-- A pipeline wait, or a wait for another agent: nothing changes, and the instruction is tried again. -/
def wait (s : State) : Out := .next s

/-- The lane queue of the focused agent is empty. -/
def State.drained (s : State) : Bool := s.ag.queue.isEmpty

/-! ## The scoreboard (R32) -/

/-- The set of one g register; g0 is never waited for. -/
def gBit (n : Fin 64) : BitVec 64 := if n.val = 0 then 0 else 1#64 <<< n.val
/-- The set of one q predicate; q7 is never waited for. -/
def qBit (n : Fin 8) : BitVec 8 := if n.val = 7 then 0 else 1#8 <<< n.val
/-- The set of the `n` descriptor registers from a base on (R66). -/
def gRange (b : Fin 64) (n : Nat) : BitVec 64 := (List.range n).foldl (fun m i => m ||| gBit (Fin.ofNat 64 (b.val + i))) 0

/-- A scalar instruction that reads and writes the given registers must wait for a queued entry (R32). -/
def Agent.hazard (a : Agent) (gr gw : BitVec 64) (qr qw : BitVec 8) : Bool :=
  a.queue.any fun e => e.gWrite &&& (gr ||| gw) != 0 || e.gRead &&& gw != 0 || e.qWrite &&& (qr ||| qw) != 0

/-- Runs a meaning once the scoreboard allows its registers (R32). -/
def scoreboard (gr gw : BitVec 64) (qr qw : BitVec 8) (s : State) (f : State → Out) : Out :=
  if s.ag.hazard gr gw qr qw then wait s else f s

/-- The g registers that a source field reads. -/
def srcG : Src → BitVec 64
  | .greg n => gBit n
  | _ => 0

/-- The g registers that a lane word reads and writes and the q predicates that it writes (R32). -/
def laneRegs : Instr → BitVec 64 × BitVec 64 × BitVec 8
  | .ballot w | .lred w => (srcG w.a, gBit (Fin.ofNat 64 w.h.name.val), 0)
  | .vote w => (0, 0, qBit (Fin.ofNat 8 w.h.name.val))
  | .vld w | .vst w | .vldn w | .vstn w | .atom w | .acas w | .red w | .vpref w => (srcG w.a ||| srcG w.b ||| srcG w.c, 0, 0)
  | .iadd w | .isub w | .imul w | .imulh w | .imad w | .imadw w | .idp4 w | .iabs w | .iand w | .ior w | .ixor w
  | .iandn w | .ishl w | .ishr w | .isar w | .ilop3 w | .imin w | .imax w | .popc w | .clz w | .brev w | .bfe w
  | .bfi w | .isetp w | .sel w | .mov w | .plane w | .fadd w | .fsub w | .fmul w | .ffma w | .fmin w | .fmax w
  | .fsetp w | .fclass w | .fdiv w | .fsqrt w | .frcp w | .frsq w | .fexp2 w | .flog2 w | .fsin w | .fcos w
  | .ftanh w | .fscale w | .cvt w | .qnt w | .dqnt w | .cvtq w | .cvtf w | .pack w | .unpk w | .shfl w | .lscan w =>
    (srcG w.a ||| srcG w.b ||| srcG w.c, 0, 0)
  | _ => (0, 0, 0)

/-- The offset of a lane branch, in bytes (R63). -/
def laneOffset (w : CtlOps) : Word := w.imm.signExtend 64 * 12

/-- The registers of the block at `start`, read from its words in order; a block that is long, branches to before its start or cannot
be read counts as using every register, since the device may treat a block as reading until its LEND (R32). `last` is the furthest target of a
branch so far. (DEDUCED, log 61) -/
def State.blockRegs (s : State) (start : Word) : Nat → Word → Word → BitVec 64 × BitVec 64 × BitVec 8 → BitVec 64 × BitVec 64 × BitVec 8
  | 0, _, _, _ => (-1, -1, -1)
  | fuel + 1, a, last, acc =>
    match s.fetch s.who a 12 with
    | .error _ => (-1, -1, -1)
    | .ok bs =>
      match decodeLane (ofBytes bs) with
      | .error _ => (-1, -1, -1)
      | .ok (.lend _) => if last ≤ a then acc else State.blockRegs s start fuel (a + 12) last acc
      | .ok (.brd w) | .ok (.ljmp w) =>
        let t := a + laneOffset w
        if t < start then (-1, -1, -1) else State.blockRegs s start fuel (a + 12) (if last < t then t else last) acc
      | .ok i =>
        let (r, w, q) := laneRegs i
        State.blockRegs s start fuel (a + 12) last (acc.1 ||| r, acc.2.1 ||| w, acc.2.2 ||| q)

/-! ## The lane queue (R30, Table 2.4) -/

/-- Places an entry in the lane queue, or waits where it is full (R30). -/
def State.enqueue (s : State) (k : QKind) (gr gw : BitVec 64) (qw : BitVec 8) : State :=
  s.modAg fun a =>
    { a with queue := a.queue ++ [{ kind := k, addr := a.spc, rid := a.reg.rid, mode := a.fpmode, gRead := gr, gWrite := gw,
                                    qWrite := qw }] }

/-- A scalar instruction of Table 2.4: with an empty lane queue it has reached its place and takes effect; otherwise it is
placed in the queue, and a commit makes its region entry (R30, R348). -/
def queued (i : Instr) (commits : Bool) (gr gw : BitVec 64) (qw : BitVec 8) (s : State) (f : State → Out) : Out :=
  if s.atQueue || s.drained then f s
  else if 16 ≤ s.ag.queue.length || (commits && !s.ag.canEnter) then wait s
  else
    let s := s.enqueue (.instr i) gr gw qw
    if commits then .next ((s.goNext).modAg fun a => a.enterRegion a.spc true) else .next s.goNext

/-- The address of the instruction that runs: its own place in the scalar stream, wherever it takes effect. -/
def State.instrAddr (s : State) : Word :=
  match s.atQueue, s.ag.queue with
  | true, e :: _ => e.addr
  | _, _ => s.ag.spc

/-! ## Taking a fault (R352) and returning from one (R356) -/

/-- sr.fault (Table 15.2). -/
def faultWord (entry sbase : Word) (nr lane : Bool) (code : Byte) : Word :=
  BitVec.ofNat 64 ((entry - sbase).toNat % 2 ^ 48 * 2 ^ 16 + b2n nr * 2 ^ 9 + b2n lane * 2 ^ 8 + code.toNat)

/-- The address of the trap entry (Table 11.1). -/
def Team.trapEntry (t : Team) : Word := t.pkt.sbase + BitVec.ofNat 64 t.pkt.etrap

/-- Puts an agent back at the entry of a region: later entries of the lane queue, the running block and its fragments are
discarded, and the registers are those of the next region's entry where the scalar stream had passed it (R350, R352). -/
def Agent.rollBack (a : Agent) (rid : Nat) : Agent :=
  let r := a.region rid
  let a := if a.reg.rid = rid then a
    else
      let n := a.region (rid + 1)
      { a with g := n.snapG, trapG := n.snapTrap, q := n.snapQ, fpmode := n.snapMode }
  { a with
    spc := r.entry, reg := r, olds := [], nextRid := r.rid + 1, queue := [], running := false, cur := Frag.whole 0,
    others := [], stack := [], latches := [], chain := 0, status := .running, pend := none,
    atEntry := false, loads := [], ahead := [] }

/-- Enters trap mode at the trap entry; the entry is a region entry that does not raise the counter (R347, R353). -/
def Agent.enterTrap (a : Agent) (entry : Word) : Agent :=
  { a with trapMode := true, spc := entry }.enterRegion entry false

/-- Delivers a fault of the focused agent for its region (R352): it parks on 0x11 (R188), ends a drop (R298), enters the trap
entry, or terminates the team (R354). -/
def State.deliver (s : State) (p : Pending) : State :=
  let s := if p.tell then s.addrNotice 2 p.code s.tm.ctx p.page else s
  let a := s.ag.rollBack p.rid
  let nr := a.reg.nr
  let parks := p.code == 0x11 && !nr
  if a.isDrop && !parks then s.endDrop a p.code
  else
    let a := if parks && a.trapMode then a
      else { a with fault := faultWord a.reg.entry s.tm.pkt.sbase nr p.lane p.code, faultaddr := p.addr }
    if parks then { s with ag := { a with status := .parked p.addr p.page p.lane } }.addrNotice 1 0x11 s.tm.ctx p.page
    else if a.trapMode || !s.tm.pkt.trapv then { s with ag := a }.terminateTeam s.tm.id p.code
    else { s with ag := a.enterTrap s.tm.trapEntry }

/-- Takes a fault in the focused agent: the region is that of the lane-queue entry that runs, or the scalar stream's own.
A scalar fault waits until the entries of earlier regions have taken effect (R352). `tell` says that the host driver is told, as for an
absent page (R331). -/
def State.meetFault (s : State) (f : Fail) (lane tell : Bool) : State :=
  let rid := match s.atQueue || lane, s.ag.queue with
    | true, e :: _ => e.rid
    | _, _ => s.ag.reg.rid
  let p : Pending := { rid := rid, code := f.code, addr := f.addr, page := f.page, lane := lane, tell := tell }
  if s.ag.queue.any fun e => e.rid < rid then s.modAg fun a => { a with pend := some p } else s.deliver p

/-- Takes a fault of which the host driver is not told. -/
def State.takeFault (s : State) (f : Fail) (lane : Bool) : State := s.meetFault f lane false

/-- A scalar instruction takes a fault. -/
def fault (s : State) (code : Byte) (addr : Word) : Out := .next (s.takeFault { code := code, addr := addr } false)

/-- An instruction takes a fault of its memory access; the host driver is told of a 0x12 as of an absent page (R331). (DEDUCED, log 39) -/
def State.memFault (s : State) (f : Fail) (lane : Bool) : State := s.meetFault f lane (f.code == 0x12)

/-- The return from a trap handler (R356), with an empty lane queue: trap mode ends and the scalar stream goes to the region
that sr.fault names; a region that cannot be re-executed terminates the team. -/
def State.returnFromTrap (s : State) : State :=
  let f := s.ag.fault.toNat
  if bit f 9 then s.terminateTeam s.tm.id (BitVec.ofNat 8 (bits f 7 0))
  else
    let pc := s.tm.pkt.sbase + BitVec.ofNat 64 (bits f 63 16)
    s.modAg fun a =>
      let a := { a with trapMode := false }.goto pc
      { a with reg := { a.reg with entry := pc, nr := false } }

end Sys2Proof.Machine
end

