-- ==== Sys2Proof/Machine/Operands.lean ====
section
/-! DEFINITION. The operand forms of scalar instructions (R44 to R46) and the system registers (R68). -/

namespace Sys2Proof.Machine

/-- A sign-extended immediate (R46). -/
def sext14 (i : BitVec 14) : Word := i.signExtend 64
/-- A zero-extended immediate (R46). -/
def zext14 (i : BitVec 14) : Word := i.setWidth 64
/-- The byte distance of a signed word offset (R46). -/
def branchOffset (o : BitVec 22) : Word := o.signExtend 64 * 4

/-- The comparisons of Table 3.2, on all 64 bits. -/
def Cond.holds (c : Cond) (a b : Word) : Bool :=
  match c with
  | .eq => a == b
  | .ne => a != b
  | .lt => a.slt b
  | .ge => !a.slt b
  | .ltu => a.ult b
  | .geu => !a.ult b
  | .tst => a &&& b != 0

/-- The value of a system register (Table 3.15); the focused agent reads it. -/
def State.sreg (s : State) (n : BitVec 12) : Word :=
  let a := s.ag
  let t := s.tm
  let num (x : Nat) : Word := BitVec.ofNat 64 x
  match n.toNat with
  | 0x000 => num a.warpIndex
  | 0x001 => num t.index
  | 0x002 => t.ptr
  | 0x003 => num a.rank
  | 0x004 => num t.cluster
  | 0x005 => num (dieOf t.cluster)
  | 0x006 => num (if t.pkt.gang then t.pkt.grank else 0)
  | 0x007 => num t.depth
  | 0x010 => num ((s.cluster t.cluster).clock10 s.now / 10)
  | 0x011 => num s.now
  | 0x020 => a.fpmode.setWidth 64
  | 0x021 => a.fpflags.setWidth 64
  | 0x030 => a.reg.ctr
  | 0x031 => a.fault
  | 0x032 => a.faultaddr
  | 0x040 => num s.myRank.rowsFree
  | 0x041 => num (s.passes t.cluster)
  | 0x042 => num (s.cluster t.cluster).level
  | _ => 0

/-- The memory access of a scalar instruction, at a base and a displacement. -/
def scalarAcc (base d : Word) : LaneAcc :=
  { lane := 0, ptr := (addPtr base d).1, ok := (addPtr base d).2 }

/-- Runs a meaning once the lane queue is empty: for commits of the scalar stream (R348), and for its memory and barrier
instructions, which then follow every access of earlier blocks (R33, R185, R324). -/
def whenDrained (s : State) (f : State → Out) : Out := if s.drained then f s else wait s

/-- Some rank of the team's gang has not registered (R247). -/
def State.gangPending (s : State) (t : Team) : Bool :=
  t.pkt.gang
  && match s.fab.gangs.find? fun g => g.gang == t.pkt.gangid with
     | some g => (List.range (Config.gangSize g.gang)).any fun r => !g.registered.contains r
     | none => false

/-- A gang-scope synchronisation of the focused team waits until every rank of its gang has registered (R247); `sync` says that the
instruction is one. -/
def gangSync (sync : Bool) (s : State) (f : State → Out) : Out := if sync && s.gangPending s.tm then wait s else f s

/-- An order that acquires at gang scope. -/
def acquiresGang (sc : Scope) (o : Order) : Bool := sc == .gang && (o == .acquire || o == .acqRel)

end Sys2Proof.Machine
end

