-- ==== Sys2Proof/Machine/BarrierOps.lean ====
section
/-! DEFINITION. The barrier instructions (R281 to R283). -/

namespace Sys2Proof.Machine

/-- Runs a barrier instruction on the object that a register names, once its checks have passed (R277). -/
def onBarrier (a : Fin 64) (init : Bool) (s : State) (f : BarLoc → Word → State → Out) : Out :=
  whenDrained s fun s =>
    let p := s.ag.getG a
    match checkBarrier s.tm s.who p init with
    | some e => fault s e.code e.addr
    | none => f (barLoc s.who p) p s

/-- BINIT (R282). -/
def execBinit (a b : Fin 64) (_ : Scope) (s : State) : Out :=
  onBarrier a false s fun l _ s =>
    let c := bits (s.ag.getG b).toNat 15 0
    .next (s.barOp l fun x perSet => x.start c perSet).commit

/-- BARR (R282). -/
def execBarr (a b : Fin 64) (_ : Scope) (s : State) : Out :=
  onBarrier a true s fun l _ s => .next (s.arrive l 1 (bits (s.ag.getG b).toNat 31 0) 0).commit

/-- BEXP (R282). -/
def execBexp (a b : Fin 64) (_ : Scope) (s : State) : Out :=
  onBarrier a true s fun l _ s =>
    let n := bits (s.ag.getG b).toNat 31 0
    .next (s.barOp l fun x perSet => x.expect n perSet).commit

/-- BWAIT (R279, R282, R283): a wait that is not satisfied blocks the warp. -/
def execBwait (a b : Fin 64) (sc : Scope) (s : State) : Out :=
  if s.ag.isDrop then fault s 0x08 s.ag.spc
  else
    onBarrier a true s fun l p s => gangSync (sc == .gang) s fun s =>
      let phase := bits (s.ag.getG b).toNat 15 0
      let s := s.barOp l fun x _ => x
      if phaseDone (s.tm.bar l).phase phase then .next (s.acquire s.who.core sc).goNext
      else .next (s.modAg fun x => { x with status := .waiting p (BitVec.ofNat 16 phase) sc })

/-- BTEST (R282). -/
def execBtest (q : Fin 8) (a b : Fin 64) (sc : Scope) (s : State) : Out :=
  onBarrier a true s fun l _ s => gangSync (sc == .gang) s fun s =>
    let s := s.barOp l fun x _ => x
    let t := phaseDone (s.tm.bar l).phase (bits (s.ag.getG b).toNat 15 0)
    let s := if t then s.acquire s.who.core sc else s
    .next (s.modAg fun x => x.setQ q t).goNext

/-- BCLR (R282). -/
def execBclr (a : Fin 64) (_ : Scope) (s : State) : Out :=
  onBarrier a true s fun l _ s => .next (s.barOp l fun x _ => { x with err := 0 }).commit

/-- BPHASE (R282). -/
def execBphase (a b : Fin 64) (_ : Scope) (s : State) : Out :=
  onBarrier a false s fun l _ s =>
    let s := s.barOp l fun x _ => x
    .next (s.modAg fun x => x.setG b (BitVec.ofNat 64 ((s.tm.rank l.rank).scratch.readNat (l.off + 12) 4))).goNext

end Sys2Proof.Machine
end

