-- ==== Sys2Proof/Machine/Launch.lean ====
section
/-! DEFINITION. Launch packets, queues, placement and frames (R247 to R259). -/

namespace Sys2Proof.Machine

/-! ## Reading a packet (Table 11.1) -/

/-- The role of a code (Table 2.2). -/
def Role.ofCode : Nat → Role
  | 0 => .gen
  | 1 => .cpy
  | 2 => .mtx
  | _ => .com

/-- The 4-byte word `i` of some bytes. -/
def word32 (bs : List Byte) (i : Nat) : Nat := ofBytes ((bs.drop (4 * i)).take 4)
/-- The 8-byte word `i` of some bytes. -/
def word64 (bs : List Byte) (i : Nat) : Nat := ofBytes ((bs.drop (8 * i)).take 8)

/-- A frame slot from its word, and whether its zero fields are zero. -/
def frameSlot (w : Nat) : FrameSlot × Bool :=
  ({ dx := bits w 3 0, dy := bits w 6 4, mask := bits w 15 8 }, bits w 31 16 == 0 && bits w 7 7 == 0)

/-- The packet that the first 192 bytes and the placement map give. -/
def LaunchPacket.parse (bs map : List Byte) : LaunchPacket :=
  let w0 := word64 bs 0
  let w1 := word64 bs 1
  let w2 := word64 bs 2
  let w3 := word64 bs 3
  let w8 := word64 bs 8
  let warps := bits w2 7 0
  let frame := bits w0 47 32
  let roles := ofBytes ((bs.drop 80).take 48)
  let slots := (List.range (map.length / 4)).map fun j => frameSlot (word32 map j)
  { version := bits w0 7 0, coop := bit w0 8, fixed := bit w0 9, prio := bits w0 11 10, gang := bit w0 12, enc := bit w0 13,
    ox := bits w0 19 16, oy := bits w0 22 20, wm1 := bits w0 27 24, hm1 := bits w0 30 28, frame := frame,
    teams := bits w1 31 0, wdog := bits w1 47 32, gangid := BitVec.ofNat 16 (w1 / 2 ^ 48), warps := warps,
    cores := bits w2 11 8, handlers := bits w2 16 12, rows := bits w2 29 17, local16 := bits w3 15 0,
    accum256 := bits w3 31 16, grank := bits w3 43 32, sbase := BitVec.ofNat 64 (word64 bs 4),
    lbase := BitVec.ofNat 64 (word64 bs 5), egen := word32 bs 12, ecpy := word32 bs 13, emtx := word32 bs 14,
    ecom := word32 bs 15, etrap := bits w8 31 0, trapv := bit w8 32, hdone := BitVec.ofNat 64 (word64 bs 9),
    roles := (List.range warps).map fun i => Role.ofCode (bits roles (2 * i + 1) (2 * i)), slots := slots.map (·.1),
    reserved :=
      bits w0 63 48 != 0 || bit w0 31 || bit w0 23 || bits w0 15 14 != 0 || bits w2 63 30 != 0 || bits w3 63 44 != 0
      || bits w8 63 33 != 0 || roles / 2 ^ (2 * warps) != 0 || slots.any fun x => !x.2 }

/-- The entry offset of a role. -/
def LaunchPacket.entry (p : LaunchPacket) : Role → Nat
  | .gen => p.egen
  | .cpy => p.ecpy
  | .mtx => p.emtx
  | .com => p.ecom

/-- Warps of a full rank: ⌈WARPS/CORES⌉ (R249). -/
def LaunchPacket.perRank (p : LaunchPacket) : Nat := (p.warps + p.cores - 1) / (if p.cores = 0 then 1 else p.cores)
/-- The warps that a rank receives (R249). -/
def LaunchPacket.warpsOn (p : LaunchPacket) (r : Nat) : Nat := min p.perRank (p.warps - r * p.perRank)

/-- The core indices of a mask, ascending. -/
def maskCores (mask : Nat) : List Nat := (List.range 8).filter fun i => bit mask i

/-- What a team needs, or teams use, on one core (R250, R253). -/
structure Budget where
  warps : Nat
  rows : Nat
  scratch : Nat
  accum : Nat
  handlers : Nat
  deriving DecidableEq, Repr

/-- The sum of two budgets. -/
def Budget.add (a b : Budget) : Budget :=
  { warps := a.warps + b.warps, rows := a.rows + b.rows, scratch := a.scratch + b.scratch, accum := a.accum + b.accum,
    handlers := a.handlers + b.handlers }
/-- No need. -/
def Budget.zero : Budget := { warps := 0, rows := 0, scratch := 0, accum := 0, handlers := 0 }
/-- What a core has (Table 1.2). -/
def Budget.fits (a : Budget) : Bool :=
  a.warps ≤ 48 && a.rows ≤ 4096 && a.scratch ≤ 524288 && a.accum ≤ 262144 && a.handlers ≤ 16

/-- What a team of a packet needs on a rank. -/
def LaunchPacket.budget (p : LaunchPacket) (r : Nat) : Budget :=
  { warps := p.warpsOn r, rows := p.rows, scratch := 16 * p.local16, accum := 256 * p.accum256, handlers := p.handlers }

/-- What a frame slot needs of a core index of its cluster. -/
def LaunchPacket.slotNeed (p : LaunchPacket) (f : FrameSlot) (core : Nat) : Budget :=
  match (maskCores f.mask).findIdx? (· == core) with
  | some r => p.budget r
  | none => Budget.zero

/-- What the given frame slots need of a core at a cluster offset. -/
def LaunchPacket.need (p : LaunchPacket) (slots : List FrameSlot) (dx dy core : Nat) : Budget :=
  slots.foldl (fun b f => if f.dx = dx ∧ f.dy = dy then b.add (p.slotNeed f core) else b) Budget.zero

/-- The cores that frame slots name, as cluster offsets and core indices. -/
def namedCores (slots : List FrameSlot) : List (Nat × Nat × Nat) :=
  (slots.flatMap fun f => (maskCores f.mask).map fun c => (f.dx, f.dy, c)).eraseDups

/-- The entry offsets that a packet uses are multiples of 4 (Table 11.2). -/
def LaunchPacket.entriesOk (p : LaunchPacket) : Bool :=
  p.roles.all (fun r => p.entry r % 4 == 0) && (!p.trapv || p.etrap % 4 == 0)

/-- HDONE: zero, or in a host launch a host pointer that is a multiple of 16 (Table 11.2). -/
def LaunchPacket.hdoneOk (p : LaunchPacket) (host : Bool) : Bool :=
  p.hdone == 0 || (host && ptrSpace p.hdone == 4 && ptrRank p.hdone == 0 && p.hdone.toNat % 16 == 0)

/-- A legal packet (Tables 11.1 and 11.2). -/
def LaunchPacket.legal (p : LaunchPacket) (host : Bool) : Bool :=
  p.version == 1 && !p.reserved
  && 1 ≤ p.warps && p.warps ≤ 192 && 1 ≤ p.cores && p.cores ≤ 8 && p.perRank ≤ 48
  && (p.roles.filter (· == .com)).length ≤ 1
  && 384 ≤ 16 * p.local16 && p.entriesOk
  && isGlobal p.sbase && p.sbase.toNat % 4 == 0 && isGlobal p.lbase && p.lbase.toNat % 16 == 0
  && 1 ≤ p.teams && 1 ≤ p.frame && p.frame ≤ 4096 && (!p.coop || p.teams ≤ p.frame)
  && p.slots.length == p.frame
  && (p.slots.all fun f => f.dx ≤ p.wm1 && f.dy ≤ p.hm1 && (maskCores f.mask).length == p.cores)
  && ((namedCores p.slots).all fun x => (p.need p.slots x.1 x.2.1 x.2.2).fits)
  && (!p.fixed || (p.ox + p.wm1 ≤ 11 && p.oy + p.hm1 ≤ 7))
  && (p.gang || (!p.enc && p.gangid == 0 && p.wdog == 0 && p.grank == 0))
  && p.hdoneOk host
  && p.ox ≤ 11 && p.oy ≤ 7 && p.wm1 ≤ 11 && p.hm1 ≤ 7 && p.handlers ≤ 16 && p.rows ≤ 4096 && p.accum256 ≤ 1024
  && p.local16 ≤ 32768 && p.grank ≤ 2047

/-- The translation of a range of global bytes through a context's table: its failure, 0x12 before 0x11. -/
def State.rangeFault (s : State) (ctx : BitVec 16) (p : Word) (n : Nat) : Option Byte :=
  let w : Who := { team := 0, ctx := ctx, rank := 0, core := 0 }
  let fs := badPieces (s.pieces w .load p n 0)
  if fs.any fun f => f.code == 0x12 then some 0x12 else if fs.isEmpty then none else some 0x11

/-- The bytes of a range of global memory of a context. -/
def State.rangeBytes (s : State) (ctx : BitVec 16) (p : Word) (n : Nat) : List Byte :=
  s.load { team := 0, ctx := ctx, rank := 0, core := 768 } false p n 0

/-! ## LAUNCH (R258) -/

/-- Entries of the four queues of a die (Table 11.3). (DESIGN CHOICE, log 107) -/
def State.dieEntries (s : State) (die : Nat) : Nat :=
  ((List.range 4).map fun q => (s.devq.getD (4 * die + q) []).length).foldl (· + ·) 0

/-- The issue predicate is written and the commit ends (R51, R348). -/
def answer (q : Fin 8) (v : Bool) (s : State) : Out := .next (s.modAg fun a => a.queueWrite fun a => a.setQ q v).commit

/-- The barrier that LAUNCH names for its child's end. -/
def State.parentBarrier (s : State) (b : Fin 64) : Option ParentBarrier :=
  if b.val = 0 then none else some { team := s.tm.id, rank := s.ag.rank, ptr := s.ag.getG b }

/-- LAUNCH (R258). -/
def execLaunch (q : Fin 8) (a b : Fin 64) (s : State) : Out :=
  whenDrained s fun s =>
    let p := s.ag.getG a
    if s.ag.id ≠ .warp s.tm.id 0 then fault s 0x07 s.ag.spc
    else if s.tm.depth = 10 then fault s 0x1B p
    else
      match s.judge s.tm s.who { spaces := [0], size := 192, align := 64, acc := .load } [{ lane := 0, ptr := p, ok := true }] with
      | .fail e => if e.code = 0x21 then accept p s else .next (s.memFault e false)
      | .wait => wait s
      | .go => accept p s
where
  /-- the checks after those of the packet pointer -/
  accept (p : Word) (s : State) : Out :=
    match if b.val = 0 then none else checkBarrier s.tm s.who (s.ag.getG b) true with
    | some e => fault s e.code e.addr
    | none =>
      let die := dieOf s.tm.cluster
      let prio := bits (ofBytes (s.load s.who false p 8 0)) 11 10
      if 4096 ≤ s.dieEntries die then answer q false s
      else
        let k := 4 * die + prio
        let item : QueueItem :=
          { ptr := p, ctx := s.tm.ctx, depth := s.tm.depth + 1, parent := s.tm.grid, bar := s.parentBarrier b }
        answer q true { s with devq := s.devq.insert k (s.devq.getD k [] ++ [item]) }

/-! ## Taking a queue entry (R251, R254) -/

/-- A rejected launch posts its code (R254): `record` says that the packet was read and so may name a record. -/
def State.reject (s : State) (q : QueueId) (i : QueueItem) (hdone : Option Word) (code : Byte) : State :=
  match q with
  | .dev .. =>
    let s := match i.bar with
      | none => s
      | some b =>
        s.arrive { team := b.team, rank := if ptrSpace b.ptr = 1 then b.rank else ptrRank b.ptr, off := ptrOffset b.ptr } 1 0 code
    s.checkRetire i.parent
  | .host .. =>
    match hdone with
    | some h => s.hostRecord i.ctx h i.ptr code false
    | none => s.notice 9 code i.ctx noDomain i.ptr 0 0 []

/-- A launch that R247 refuses: its gang has retired. -/
def State.gangRefused (s : State) (p : LaunchPacket) : Bool :=
  p.gang && s.fab.gangs.any fun g => g.gang == p.gangid && g.retired

/-- Reading the packet of an entry waits for a fenced domain (R371). -/
def State.packetFenced (s : State) (i : QueueItem) : Bool :=
  let f := bits (word64 (s.rangeBytes i.ctx i.ptr 192) 0) 47 32
  isGlobal i.ptr && decide (i.ptr.toNat % 64 = 0)
  && s.deviceFenced { team := 0, ctx := i.ctx, rank := 0, core := 768 } .load i.ptr (if f ≤ 4096 then 192 + 4 * f else 192)

/-- The packet, read through the context's global table: or the code of check 3 (R254). (DESIGN CHOICE, log 108) -/
def State.readPacket (s : State) (i : QueueItem) : Except Byte LaunchPacket :=
  match s.rangeFault i.ctx i.ptr 192 with
  | some c => .error c
  | none =>
    let bs := s.rangeBytes i.ctx i.ptr 192
    let f := bits (word64 bs 0) 47 32
    let n := if f ≤ 4096 then 4 * f else 0
    match s.rangeFault i.ctx (i.ptr + 192) n with
    | some c => .error c
    | none => .ok (LaunchPacket.parse bs (s.rangeBytes i.ctx (i.ptr + 192) n))

/-- The record of a launch that is about to be rejected needs a fenced domain: the entry waits (R254, R371). -/
def State.rejectWaits (s : State) (i : QueueItem) : Bool :=
  !s.fenced.isEmpty && isGlobal i.ptr && decide (i.ptr.toNat % 64 = 0)
  && (match s.readPacket i with
      | .ok p => p.hdone != 0 && p.hdoneOk true && (!p.legal true || s.gangRefused p) && s.hostFenced i.ctx p.hdone
      | .error _ => false)

/-- The checks of R254; a legal packet becomes the head of its queue. (DESIGN CHOICE, log 106) -/
def State.takeItem (s : State) (q : QueueId) (i : QueueItem) : State :=
  let host := match q with | .host .. => true | .dev .. => false
  if !isGlobal i.ptr then s.reject q i none 0x10
  else if i.ptr.toNat % 64 ≠ 0 then s.reject q i none 0x13
  else
    match s.readPacket i with
    | .error c => s.reject q i none c
    | .ok p =>
      let record := if p.hdone ≠ 0 ∧ p.hdoneOk true then some p.hdone else none
      if !p.legal host then s.reject q i record 0x1A
      else if s.gangRefused p then s.reject q i record 0x22
      else { s with heads := s.heads ++ [{ queue := q, item := i, pkt := p, since := s.now, aged := false }] }

/-- The registers of a port. -/
def State.port (s : State) : Port → PortRegs
  | .a => s.host.portA
  | .b => s.host.portB
/-- Replaces the registers of a port. -/
def State.setPort (s : State) (p : Port) (x : PortRegs) : State :=
  match p with
  | .a => { s with host := { s.host with portA := x } }
  | .b => { s with host := { s.host with portB := x } }

/-- A launch may start for a context: it is live and not being destroyed (R328, R336). -/
def State.launchable (s : State) (ctx : BitVec 16) : Bool :=
  match s.ctxs.find? ctx.toNat with
  | some c => !c.destroying
  | none => false

/-- An entry of a host ring has been read: the discarded entries of its ring are one fewer away. -/
def State.countPurges (s : State) (mine : Purge → Bool) : State :=
  { s with
    host := { s.host with
      purges := (s.host.purges.map fun x => if mine x then { x with left := x.left - 1 } else x).filter fun x => x.left != 0 } }

/-- The entry at the head of a host ring (R251). -/
def State.ringItem (s : State) (p : Port) (n : Fin 64) : QueueItem :=
  let r := s.port p
  let bs := (s.hostMem p).readN ((r.qbase.getD n.val 0).toNat + 16 * (r.qhead.getD n.val 0).toNat) 16
  { ptr := BitVec.ofNat 64 (word64 bs 0), ctx := BitVec.ofNat 16 (word64 bs 1), depth := 0, parent := 0, bar := none }

/-- LAUNCH_ENTRY_TAKE (R251, R254, R328): nothing happens while the queue is empty or its head waits for a place. -/
def execLaunchEntryTake (q : QueueId) (s : State) : Out :=
  whileUp s fun s =>
  if s.heads.any fun h => h.queue == q then .next s
  else
    match q with
    | .dev die prio =>
      let k := 4 * die.val + prio.val
      match s.devq.getD k [] with
      | [] => .next s
      | i :: rest =>
        if s.packetFenced i then .next s
        else
        let s := { s with devq := s.devq.set k rest [] }
        .next (if s.launchable i.ctx then s.takeItem q i else s.checkRetire i.parent)
    | .host p n =>
      let r := s.port p
      let head := r.qhead.getD n.val 0
      if head = r.qtail.getD n.val 0 then .next s
      else
        let i := s.ringItem p n
        let r := { r with qhead := r.qhead.set n.val (head + 1) 0 }
        let mine (x : Purge) : Bool := x.port == p && x.queue == n.val
        let discarded := s.host.purges.any fun x => mine x && x.ctx == i.ctx
        let t := s.countPurges mine
        if discarded then .next (t.setPort p r)
        else if s.launchable i.ctx && (s.packetFenced i || s.rejectWaits i) then .next s
        else if s.launchable i.ctx then .next ((t.setPort p r).takeItem q i)
        else if (s.ctxs.find? i.ctx.toNat).isSome then .next (t.setPort p r)
        else .next (t.setPort p { r with err := r.err ||| 4 })

/-- A head that has waited 1 ms or more by now is of rule 1 (R252). -/
def Head.age (h : Head) (now : Nat) : Head := if h.since + 1000000 ≤ now then { h with aged := true } else h

/-- LAUNCH_HEAD_AGE (R252): a head that has waited 1 ms goes before the others. -/
def execLaunchHeadAge (q : QueueId) (s : State) : Out :=
  .next { s with heads := s.heads.map fun h => if h.queue = q then h.age s.now else h }

/-! ## Placement (R252, R253) -/

/-- What a resident team uses on a core. -/
def Team.useOn (t : Team) (core : Nat) : Budget :=
  match t.ranks.findIdx? (·.core == core) with
  | some r => t.pkt.budget r
  | none => Budget.zero

/-- The cluster of a frame slot of a grid at its origin. -/
def slotCluster (ox oy : Nat) (f : FrameSlot) : Nat := 12 * (oy + f.dy) + ox + f.dx

/-- A frame slot whose team has ended and that has a next team (R255). -/
def State.slotDue (s : State) (g : Grid) (j : Nat) : Bool :=
  g.nextTeam.getD j g.pkt.teams < g.pkt.teams
  && !(s.allTeams.any fun t => t.grid == g.id && t.frameSlot == j)
  && !(s.saved.any fun t => t.grid == g.id && t.frameSlot == j)

/-- What the next team of due frame slots will take of a core, ahead of every queue head (R255). -/
def State.dueOn (s : State) (core : Nat) : Budget :=
  s.grids.foldl
    (fun b g =>
      ((List.range g.pkt.frame).filter fun j => s.slotDue g j).foldl
        (fun b j =>
          match g.pkt.slots[j]? with
          | some f => if slotCluster g.ox g.oy f = core / 8 then b.add (g.pkt.slotNeed f (core % 8)) else b
          | none => b)
        b)
    Budget.zero

/-- What resident teams use of a core. -/
def State.usedOn (s : State) (core : Nat) : Budget :=
  s.allTeams.foldl (fun b t => b.add (t.useOn core)) Budget.zero

/-- A core takes no team while it or its cluster's structures are fenced (Table 16.3). -/
def State.coreFenced (s : State) (core : Nat) : Bool := s.fenced.contains core || s.fenced.contains (768 + core / 8)

/-- The frame slots of the first frame that have a team. -/
def LaunchPacket.firstSlots (p : LaunchPacket) : List FrameSlot := p.slots.take p.teams

/-- A packet fits at an origin (R253). -/
def State.fitsAt (s : State) (p : LaunchPacket) (ox oy : Nat) : Bool :=
  ox + p.wm1 ≤ 11 && oy + p.hm1 ≤ 7
  && (namedCores p.firstSlots).all fun x =>
    let core := 8 * (12 * (oy + x.2.1) + ox + x.1) + x.2.2
    !s.coreFenced core && (((s.usedOn core).add (s.dueOn core)).add (p.need p.firstSlots x.1 x.2.1 x.2.2)).fits

/-- The origin at which a packet is placed: its own, or the first that fits in ascending cluster number (R253). -/
def State.findOrigin (s : State) (p : LaunchPacket) : Option (Nat × Nat) :=
  if p.fixed then if s.fitsAt p p.ox p.oy then some (p.ox, p.oy) else none
  else ((List.range 96).find? fun c => s.fitsAt p (c % 12) (c / 12)).map fun c => (c % 12, c / 12)

/-- The order of queues whose heads are equal otherwise: device queues first, the lower die first, then host queues, the lower queue number
first (R252). Of equal queue numbers, of which R252 gives no order, port A's comes before port B's. (DESIGN CHOICE, log 105) -/
def queueRank : QueueId → Nat
  | .dev die prio => 4 * die.val + prio.val
  | .host p q => 16 + 2 * q.val + (match p with | .a => 0 | .b => 1)

/-- A head is taken before another (R252). -/
def headBefore (a b : Head) : Bool :=
  if a.aged != b.aged then a.aged
  else if a.aged then a.since < b.since || (a.since == b.since && queueRank a.queue < queueRank b.queue)
  else
    b.pkt.prio < a.pkt.prio
    || (a.pkt.prio == b.pkt.prio
        && (a.since < b.since || (a.since == b.since && queueRank a.queue < queueRank b.queue)))

/-- Puts a head at its place in the order of R252. -/
def insertHead (h : Head) : List Head → List Head
  | [] => [h]
  | x :: xs => if headBefore h x then h :: x :: xs else x :: insertHead h xs

/-- The heads that may be placed now, in order: a head of rule 1 blocks all others (R252). -/
def State.headOrder (s : State) : List Head :=
  let hs := (s.heads.map fun h => h.age s.now).foldr insertHead []
  if hs.any (·.aged) then hs.filter (·.aged) else hs

/-- The rows of a core that belong to resident teams, as far as the numbers are known: pools, live rows, rows that commands and
landings have reserved. -/
def State.rowsTaken (s : State) (core : Nat) : List Nat :=
  (s.allTeams.flatMap fun t => t.ranks.zipIdx.flatMap fun (r, k) =>
    if r.core = core then
      r.pool ++ r.zeroing ++ List.map (·.1) r.live
      ++ (List.flatMap (fun x => if x.2.rank = k then x.2.rows else []) t.landings)
    else [])
  ++ (s.cmds.flatMap fun c => if c.core = core ∧ c.kind = .hread then c.rows ++ c.landed.map (·.row) else [])

/-- The rows that a team is granted on a core: the first free ones from a row on (R313); which physical rows is free (R5). (DEDUCED, log 66) -/
def State.grantRows (s : State) (core n base : Nat) : List Nat :=
  match s.rowsTaken core with
  | [] => (List.range n).map fun i => (base + i) % 4096
  | taken => (((List.range 4096).map fun i => (base + i) % 4096).filter fun r => !taken.contains r).take n

/-- The free warp slots of a core, ascending (R403). -/
def State.freeSlots (s : State) (core : Nat) : List Nat :=
  let used := s.allAgents.filterMap fun a =>
    match s.getTeam (teamOf a.id) with
    | some t => if !a.isDrop && (t.rank a.rank).core = core then some a.slot else none
    | none => none
  (List.range 48).filter fun k => !used.contains k

/-- The cores of a frame slot at a cluster, by rank (R22). -/
def slotCores (cluster : Nat) (f : FrameSlot) : List Nat := (maskCores f.mask).map fun c => 8 * cluster + c

/-- A team starts to run on some cores: their L1s hold nothing untracked, since what happens before the start is seen by its warps (R212).
(DESIGN CHOICE, log 91) -/
def State.clearL1 (s : State) (cores : List Nat) : State := s.dropUntracked cores

/-- Starts a team on a cluster: its resources are granted, rendezvous point 0 expects its warps, and every warp stands at its
role's entry (R21, R26 to R28, R249). -/
def State.startTeam (s : State) (g : Grid) (j index cluster : Nat) (f : FrameSlot) (rowBase : Nat) : State :=
  let id := s.nextId
  let p := g.pkt
  let ranks := (slotCores cluster f).zipIdx.map fun (core, r) =>
    { Rank.empty core with
      scratch := if r = 0 then Memory.writeNat (Memory.writeNat [] 0 2 p.warps) 15 1 1 else []
      pool := s.grantRows core p.rows rowBase }
  let t : Team :=
    { Team.nobody with
      id := id, grid := g.id, index := index, frameSlot := j, ctx := g.ctx, depth := g.depth, ptr := g.ptr, pkt := p,
      cluster := cluster, ranks := ranks, started := s.stamp }
  let slots := (slotCores cluster f).map fun core => s.freeSlots core
  let warps := p.roles.zipIdx.map fun (role, i) =>
    let r := i / p.perRank
    let slot := ((slots.getD r []).getD (i - r * p.perRank) 0)
    Agent.start (.warp id i) r slot role (p.sbase + BitVec.ofNat 64 (p.entry role))
  let s := { s.addTeam t with nextId := id + 1, agents := s.agents ++ warps }.clearL1 (slotCores cluster f)
  s.regrant cluster

/-- The default gang watchdog: 100 ms (R247). -/
def LaunchPacket.watchdog (p : LaunchPacket) : Nat := 1000000 * (if p.wdog = 0 then 100 else p.wdog)

/-- A gang launch starts the gang's watchdog on this module (R247). (DESIGN CHOICE, log 112) -/
def State.joinGang (s : State) (ctx : BitVec 16) (p : LaunchPacket) : State :=
  if p.gang then
    let others := s.fab.gangs.filter fun g => g.gang != p.gangid
    let known := ((s.fab.gangs.find? fun g => g.gang == p.gangid).map (·.registered)).getD []
    let known := (s.fab.early.filter fun x => x.1 == p.gangid).foldl (fun k x => addSorted x.2 k) known
    let g : Gang :=
      { gang := p.gangid, ctx := ctx, rank := p.grank, enc := p.enc, deadline := s.now + p.watchdog,
        registered := addSorted p.grank known, retired := false }
    { s with fab := { s.fab with gangs := others ++ [g], early := s.fab.early.filter fun x => x.1 != p.gangid } }
  else s

/-- A head is placed at an origin: its grid exists, and every team of the first frame starts (R253). -/
def State.placeHead (s : State) (h : Head) (ox oy rowBase : Nat) : State :=
  let id := s.nextId
  let p := h.pkt
  let g : Grid :=
    { id := id, ctx := h.item.ctx, depth := h.item.depth, ptr := h.item.ptr, pkt := p, ox := ox, oy := oy,
      parent := (match h.queue with | .dev .. => some h.item.parent | .host .. => none), bar := h.item.bar,
      port := (match h.queue with | .host p _ => some p | .dev .. => none),
      nextTeam := (List.range p.frame).map (p.frame + ·), ended := 0, code := 0 }
  let s := { s with
    nextId := id + 1, grids := s.grids ++ [g],
    heads := s.heads.filter fun x => x.queue != h.queue }
  let s := p.firstSlots.zipIdx.foldl
    (fun s (x : FrameSlot × Nat) => s.startTeam g x.2 x.2 (slotCluster ox oy x.1) x.1 rowBase) s
  s.joinGang h.item.ctx p

/-- The head that is placed next, and where (R252, R253). -/
def State.nextPlacement (s : State) : Option (Head × Nat × Nat) :=
  s.headOrder.findSome? fun h => (s.findOrigin h.pkt).map fun o => (h, o.1, o.2)

/-- GRID_PLACE (R252, R253): nothing happens while no head fits. -/
def execGridPlace (rowBase : Nat) (s : State) : Out :=
  match s.nextPlacement with
  | some (h, ox, oy) => .next (s.placeHead h ox oy rowBase)
  | none => .next s

/-- The cores of a due frame slot can take its next team. -/
def State.slotFits (s : State) (g : Grid) (f : FrameSlot) : Bool :=
  (maskCores f.mask).all fun c =>
    let core := 8 * slotCluster g.ox g.oy f + c
    !s.coreFenced core && ((s.usedOn core).add (g.pkt.slotNeed f c)).fits

/-- FRAME_TEAM_START (R255): nothing happens while the slot is not due or its cores are not free. -/
def execFrameTeamStart (grid slot rowBase : Nat) (s : State) : Out :=
  match s.getGrid grid with
  | none => .next s
  | some g =>
    match g.pkt.slots[slot]? with
    | none => .next s
    | some f =>
      if s.slotDue g slot && s.slotFits g f then
        let index := g.nextTeam.getD slot 0
        let s := s.setGrid { g with nextTeam := g.nextTeam.set slot (index + g.pkt.frame) }
        .next (s.startTeam g slot index (slotCluster g.ox g.oy f) f rowBase)
      else .next s

/-- ROW_ZEROED (R315): a freed row has been zeroed and can be granted again. -/
def execRowZeroed (team rank row : Nat) (s : State) : Out :=
  .next (s.modRank team rank fun r =>
    if r.zeroing.contains row then { r with zeroing := r.zeroing.erase row, pool := r.pool ++ [row] } else r)

end Sys2Proof.Machine
end

