-- ==== Sys2Proof/Machine/EngineOps.lean ====
section
/-! DEFINITION. What the engine commands share: descriptors, checks, acceptance, transfers that stop at a failure, packets
(R66, R67, R227 to R230, R234 to R236, R288, R290). -/

namespace Sys2Proof.Machine

/-! ## Descriptors and checks -/

/-- The descriptor of a command: `n` g registers from a base on (R66). -/
def Agent.desc (a : Agent) (b : Fin 64) (n : Nat) : List Word := (List.range n).map fun i => a.getGAt b i

/-- A descriptor register as a number. -/
def descNat (d : List Word) (i : Nat) : Nat := (d.getD i 0).toNat

/-- The check of the completion barrier (R277); g0 names none. -/
def State.barFail (s : State) (b : Fin 64) : Option Fail :=
  if b.val = 0 then none else checkBarrier s.tm s.who (s.ag.getG b) true

/-- An extent that a command checks at issue: open spaces, pointer, bytes. -/
structure Extent where
  spaces : List Nat
  ptr : Word
  size : Nat
  deriving DecidableEq, Repr

/-- The checks of R175 and R176 over several extents: every space first, then every window, in the order given. (DEDUCED, log 20) -/
def extentFail (t : Team) (w : Who) (xs : List Extent) : Option Fail :=
  match xs.find? fun x => !spaceOk x.spaces x.ptr x.size with
  | some x => some { code := 0x10, addr := x.ptr }
  | none =>
    match xs.find? fun x => !windowOk t w x.ptr x.size with
    | some x => some { code := 0x14, addr := x.ptr }
    | none => none

/-- The first pointer that is not a multiple of its alignment. -/
def alignFail (xs : List (Word × Nat)) : Option Fail :=
  (xs.find? fun x => x.1.toNat % x.2 != 0).map fun x => { code := 0x13, addr := x.1 }

/-- The first failure of a list of checks. -/
def firstFail : List (Option Fail) → Option Fail
  | [] => none
  | some f :: _ => some f
  | none :: r => firstFail r

/-! ## Acceptance -/

/-- A command as it is accepted from the focused agent: its word's scope and bits are taken at issue (R227). -/
def State.newCmd (s : State) (kind : CmdKind) (i : Instr) (e : EngOps) (d : List Word) : Cmd :=
  { id := s.nextId, kind := kind, instr := i, agent := s.ag.id, team := s.tm.id, rank := s.ag.rank, core := s.who.core,
    desc := d, bar := if e.b.val = 0 then none else some (s.ag.getG e.b), scope := e.s, acq := e.acq, rel := e.rel, err := 0,
    stopped := false, suspended := [], refused := [], cursor := 0, pending := [], arrived := false, rows := [], tags := [], landed := [], running := 0,
    window := 0, reserved := 0, delivered := 0, started := 0, final := .none, old := [], keys := [] }

/-- Adds an accepted command. -/
def State.addCmd (s : State) (c : Cmd) : State := { s with nextId := s.nextId + 1, cmds := s.cmds ++ [c] }

/-- The commands of some kinds that a core's engine holds. -/
def State.engineLoad (s : State) (core : Nat) (kinds : List CmdKind) : Nat :=
  (s.cmds.filter fun c => c.core == core && kinds.contains c.kind).length

/-- A command has ended: it leaves its engine, and its team may end (R255). -/
def State.endCmd (s : State) (c : Cmd) : State := (s.dropCmd c.id).checkTeamEnd c.team

/-- The first error of a command stands. -/
def Cmd.fail (c : Cmd) (code : Byte) : Cmd := if c.err = 0 then { c with err := code } else c

/-- A warp stands at a stopping point of R359. (DEDUCED, log 52) -/
def Agent.stopped (a : Agent) : Bool :=
  match a.status with
  | .stopped _ | .halted | .parked .. => true
  | .waiting .. => a.queue.isEmpty
  | .running | .lsync => false

/-- Every warp of a team has stopped for a save (R359, R310). -/
def State.frozen (s : State) (team : Nat) : Bool :=
  match s.getTeam team with
  | none => false
  | some t => t.saveReq.isSome && s.allAgents.all fun a => teamOf a.id != team || a.isDrop || a.stopped

/-! ## Transfers (R290) -/

/-- What a transfer has read: the bytes before its first failure, and that failure. -/
structure Gather where
  bytes : List Byte
  stop : Option Fail
  deriving DecidableEq, Repr

/-- What a command has read ahead for a burst, a packet or a matrix command (R227). -/
def Cmd.ahead (c : Cmd) (burst : Nat) : List EarlyUnit := c.early.filter fun u => u.burst == burst

/-- The byte that has been read ahead at an address of a place. -/
def earlyByte (es : List EarlyUnit) (pl : Place) (a : Nat) : Option Byte :=
  es.findSome? fun u => if u.place = pl ∧ u.addr ≤ a then u.data[a - u.addr]? else none

/-- The bytes of a piece as an engine has them: those that it has read ahead, and the others as they are now. -/
def State.engineBytes (s : State) (w : Who) (warpScope : Bool) (es : List EarlyUnit) (p : Piece) : List Byte :=
  let bs := s.readPiece w warpScope p
  if es.isEmpty then bs else bs.zipIdx.map fun (b, i) => (earlyByte es p.place (p.addr + i)).getD b

/-- Reads pieces at a scope up to the first page or poisoned sector that fails. -/
def State.gather (s : State) (w : Who) (warpScope : Bool) (es : List EarlyUnit) : List (Except Fail Piece) → Gather
  | [] => { bytes := [], stop := none }
  | .error f :: _ => { bytes := [], stop := some f }
  | .ok p :: r =>
    let bs := s.engineBytes w warpScope es p
    match s.piecePoison p with
    | some q => { bytes := bs.take (q - p.ptr).toNat, stop := some { code := 0x21, addr := q } }
    | none =>
      let g := State.gather s w warpScope es r
      { g with bytes := bs ++ g.bytes }

/-- Consecutive bytes of a transfer's source: where they lie from the source pointer on, or zeros. -/
structure Run where
  off : Option Nat
  len : Nat
  deriving DecidableEq, Repr

/-- Joins source bytes into runs. -/
def joinRuns : List (Option Nat) → List Run
  | [] => []
  | o :: r =>
    match joinRuns r with
    | [] => [{ off := o, len := 1 }]
    | x :: xs =>
      let joins := match o, x.off with
        | none, none => true
        | some a, some b => a + 1 == b
        | _, _ => false
      if joins then { off := o, len := x.len + 1 } :: xs else { off := o, len := 1 } :: x :: xs

/-- The pieces of a run; `k` numbers its free choices. -/
def State.runPieces (s : State) (w : Who) (src : Word) (r : Run) (k : Nat) : List (Except Fail Piece) :=
  match r.off with
  | none => []
  | some o => s.pieces w .load (src + BitVec.ofNat 64 o) r.len k

/-- Reads runs up to the first failure. -/
def State.gatherRuns (s : State) (w : Who) (warpScope : Bool) (es : List EarlyUnit) (src : Word) : List Run → Nat → Gather
  | [], _ => { bytes := [], stop := none }
  | r :: rs, k =>
    let g : Gather := match r.off with
      | none => { bytes := List.replicate r.len 0, stop := none }
      | some _ => s.gather w warpScope es (s.runPieces w src r k)
    match g.stop with
    | some _ => g
    | none =>
      let h := State.gatherRuns s w warpScope es src rs (k + 1)
      { h with bytes := g.bytes ++ h.bytes }

/-- The pieces before the first that fails, and that failure. -/
def cutPieces : List (Except Fail Piece) → List Piece × Option Fail
  | [] => ([], none)
  | .error f :: _ => ([], some f)
  | .ok p :: r =>
    let (ps, f) := cutPieces r
    (p :: ps, f)

/-- The bytes that pieces hold. -/
def piecesLen (ps : List Piece) : Nat := ps.foldl (fun n p => n + p.len) 0

/-- Two pointers lie in one 64 KiB page of one space. -/
def samePage (p q : Word) : Bool := p.toNat / 65536 == q.toNat / 65536

/-- A failure as a command meets it: an absent page that the driver has declared invalid for it gives 0x12 (R290). -/
def Cmd.judge (c : Cmd) (f : Fail) : Fail :=
  if f.code = 0x11 ∧ c.refused.any (samePage f.addr) then { f with code := 0x12 } else f

/-- A command is suspended on an absent page; the driver is told once for a page (R188, R290). -/
def State.suspend (s : State) (c : Cmd) (ctx : BitVec 16) (a : Word) : State :=
  if c.suspended.any (samePage a) then s.setCmd c
  else (s.setCmd { c with suspended := c.suspended ++ [a] }).addrNotice 1 0x11 ctx a

/-- A transfer of a command waits: for the driver's answer on a page of its pieces (R290), or for a fenced domain (R371). -/
def State.transferWaits (s : State) (c : Cmd) (ps : List (Except Fail Piece)) : Bool :=
  ps.any fun x => match x with
    | .ok p => c.suspended.any (samePage p.ptr) || s.homeFenced p || s.walkFenced (s.whoCmd c) p.ptr
    | .error f => s.walkFenced (s.whoCmd c) f.addr

/-! ## Packets (R234 to R236) -/

/-- A link's state. -/
def State.link (s : State) (l : Fin 18) : Link := s.fab.links.getD l.val Link.reset

/-- A link takes no packet: it is down for retraining, or its domain is fenced (R245, Table 16.3). -/
def State.linkDown (s : State) (l : Nat) : Bool := (s.fab.links.getD l Link.reset).down || s.fenced.contains (1120 + l)

/-- The directions of the hops along one ring, the shorter way round, + at a tie (R236). -/
def ringSteps (plus start stop size : Nat) : List Nat :=
  let size := max size 1
  let d := (stop % size + size - start % size) % size
  if 2 * d ≤ size then List.replicate d plus else List.replicate (size - d) (plus + 1)

/-- The lane group of a hop, which the device chooses; at this module a link that is up, where one is (R236). (DESIGN CHOICE, log 115) -/
def State.laneGroup (s : State) (k dir : Nat) (here : Bool) : Fin 18 :=
  let all := [3 * dir, 3 * dir + 1, 3 * dir + 2]
  let up := all.filter fun l => !s.linkDown l
  let xs := if here && !up.isEmpty then up else all
  Fin.ofNat 18 (xs.getD (Config.freeNat (s.fresh + 57344 + k % 8192) % xs.length) 0)

/-- The automatic route from this module's rank of a gang to another: dimension-ordered (R236); `k` numbers the packet. -/
def State.autoRoute (s : State) (gang : BitVec 16) (own far k : Nat) : List (Option (Fin 18)) :=
  let a := Config.coords gang own
  let b := Config.coords gang far
  let n := Config.ringSize
  let dirs := ringSteps 0 a.1 b.1 n.1 ++ ringSteps 2 a.2.1 b.2.1 n.2.1 ++ ringSteps 4 a.2.2 b.2.2 n.2.2
  match dirs with
  | [] => [none]
  | _ => dirs.zipIdx.map fun (d, i) => some (s.laneGroup (32 * k + i) d (i == 0))

/-- The operations of an automatic route. -/
def autoOps (route : List (Option (Fin 18))) : List HopOp := List.replicate (route.length - 1) .fwd ++ [.dlv]

/-- The driver is told of a transfer's protection fault or malformed entry, as of an absent page (R331). (DEDUCED, log 39) -/
def State.tellFail (s : State) (ctx : BitVec 16) : Option Fail → State
  | some f => if f.code = 0x12 then s.addrNotice 2 0x12 ctx f.page else s
  | none => s

/-- A packet of a command is still under way on this module: it waits here, or a link sends it. -/
def State.underWay (s : State) (c : Cmd) : Bool :=
  (s.fab.out.any fun x => x.1.cmd == c.id && x.2.isNone) || (s.fab.combine.any fun x => x.1.cmd == c.id && x.2.isNone)
  || (s.fab.table.any fun e => e.parts.any fun p => p.packets.any fun q => q.cmd == c.id)
  || List.any s.fab.links fun x => x.2.flit.any fun f => f.1.cmd == c.id

/-- A command fails: its first error stands, also where its team has been saved, and a copy requests nothing more (R245, R290). -/
def State.failCmd (s : State) (id : Nat) (code : Byte) : State :=
  let f (c : Cmd) : Cmd := if c.id = id then { c.fail code with stopped := c.stopped || c.kind == .cpy } else c
  { s with cmds := s.cmds.map f, saved := s.saved.map fun t => { t with cmds := t.cmds.map f } }

/-- Sends a packet on its first hop; over a link that is down it is lost, and its command fails with 0x23 (R245). -/
def State.send (s : State) (pk : Packet) : State :=
  let link := (pk.route[0]?).getD none
  let down : Bool := match link with
    | some l => s.linkDown l.val
    | none => false
  if down then
    s.failCmd pk.cmd 0x23
  else { s with fab := { s.fab with out := (pk, link) :: s.fab.out } }

end Sys2Proof.Machine
end

