-- ==== Sys2Proof/Machine/Bursts.lean ====
section
/-! DEFINITION. Burst handlers and landing handlers: HREAD, HLAND, HEND and the events of their drops (R243, R292 to R305). -/

namespace Sys2Proof.Machine

/-! ## Handler slots and rows -/

/-- The window of an HREAD, as its descriptor gives it (R293). -/
def hreadWindow (d : List Word) : Nat := bits (descNat d 3) 35 32 + 1
/-- The extra names of a drop (R293). -/
def hreadExtra (d : List Word) : Nat := bits (descNat d 3) 39 36
/-- The bytes that the last burst adds (R301). -/
def hreadBytes (d : List Word) : Nat := bits (descNat d 1) 31 0 * bits (descNat d 1) 47 32 * bits (descNat d 1) 63 48

/-- The handler slots that the commands and landing slots of a team have reserved on a rank. -/
def State.handlersUsed (s : State) (t : Team) (rank : Nat) : Nat :=
  (s.cmds.foldl (fun n c => if c.team = t.id ∧ c.rank = rank ∧ c.kind = .hread then n + hreadWindow c.desc else n) 0)
  + List.foldl (fun n x => if x.2.rank = rank then n + x.2.window else n) 0 t.landings

/-- The lowest free handler slot of a core (R403). -/
def State.freeHandler (s : State) (core : Nat) : Nat :=
  let used := s.allAgents.filterMap fun a =>
    match s.getTeam (teamOf a.id) with
    | some t => if a.isDrop && (t.rank a.rank).core = core then some a.slot else none
    | none => none
  ((List.range 16).find? fun k => !used.contains k).getD 0

/-! ## HREAD (R292 to R294) -/

/-- HREAD: its first check is made in the scalar stream, the others at its place in the lane queue (R294). (DESIGN CHOICE, log 85) -/
def execHread (e : EngOps) (s : State) : Out :=
  if s.ag.isDrop then fault s 0x08 s.instrAddr
  else if s.ag.role ≠ .cpy then fault s 0x07 s.instrAddr
  else
    queued (.hread e) true (gRange e.a 4 ||| gBit e.b) 0 (qBit e.q) s fun s =>
      let d := s.ag.desc e.a 4
      let shape := descNat d 1
      if bits (descNat d 3) 63 45 != 0 || bits (descNat d 3) 31 0 % 4 != 0 then answer e.q false s
      else
        let size := span (bits shape 63 48) (bits (descNat d 2) 63 32) (bits shape 47 32) (bits (descNat d 2) 31 0) (bits shape 31 0)
        match firstFail [extentFail s.tm s.who [{ spaces := [0, 1, 2, 3, 4], ptr := d.getD 0 0, size := size }], s.barFail e.b] with
        | some f => fault s f.code f.addr
        | none =>
          let w := hreadWindow d
          let rows := w * (1 + hreadExtra d)
          if 1024 ≤ s.engineLoad s.who.core [.cpy, .hread] || s.tm.pkt.handlers < s.handlersUsed s.tm s.ag.rank + w
              || s.myRank.rowsFree < rows then
            answer e.q false s
          else gangSync (e.acq && e.s == .gang) s fun s =>
            let (taken, r) := s.myRank.takeRows rows
            let cmd := { s.newCmd .hread (.hread e) e d with
              rows := taken, window := w, reserved := rows, final := if bit (descNat d 3) 44 then .due else .none }
            let s := s.modMyRank fun _ => r
            let s := if e.acq then s.acquire s.who.core e.s else s
            answer e.q true (s.addCmd cmd)
where
  /-- The bytes from the first to the last of the read (R294). -/
  span (planes ps rows rs bytes : Nat) : Nat :=
    if planes = 0 ∨ rows = 0 ∨ bytes = 0 then 0 else (planes - 1) * ps + (rows - 1) * rs + bytes

/-! ## HREAD_BURST_LAND (R295, R302) -/

/-- The coordinates of a burst: offset in the row, row, plane, valid bytes (R295). -/
def hreadBurst (d : List Word) (n : Nat) : Nat × Nat × Nat × Nat :=
  let shape := descNat d 1
  let x := bits shape 31 0
  let per := (x + 255) / 256
  let off := n % per * 256
  (off, n / per % bits shape 47 32, n / per / bits shape 47 32, min 256 (x - off))

/-- The row that bytes fill: lane `l` holds bytes `4l` to `4l + 3`, zeros past their end (R295). -/
def rowOfBytes (bs : List Byte) : List Lane :=
  (List.range 64).map fun l => BitVec.ofNat 32 (ofBytes ((bs.drop (4 * l)).take 4))

/-- An HREAD fails: nothing more is requested, and the first code stands (R302). -/
def Cmd.stopRead (c : Cmd) (code : Byte) : Cmd := { c.fail code with stopped := true }

/-- A burst of an HREAD that has been requested comes back: into a reserved row where the window has room, not at all on an absent page,
or as a failure that starts no drop. -/
def State.landBurst (s : State) (c : Cmd) (n : Nat) : State :=
  let (off, y, z, len) := hreadBurst c.desc n
  let w := s.whoCmd c
  let p := c.desc.getD 0 0 + BitVec.ofNat 64 (z * bits (descNat c.desc 2) 63 32 + y * bits (descNat c.desc 2) 31 0 + off)
  let s := s.beforeAccess p
  let ps := s.pieces w .load p len 0
  if s.transferWaits c ps then s.setCmd c
  else
    let scope := c.scope == .warp
    let g := s.gather w scope (c.ahead n) ps
    match g.stop.map c.judge with
    | some f =>
      if f.code = 0x11 then s.suspend c w.ctx f.addr
      else (s.setCmd { c.stopRead f.code with pending := c.pending.erase n }).tellFail w.ctx g.stop
    | none =>
      if c.window ≤ c.landed.length + c.running then s.setCmd c
      else
        match c.rows with
        | [] => s.setCmd c
        | row :: rows =>
          let c := { c with pending := c.pending.erase n, early := c.early.filter fun u => u.burst != n, rows := rows,
                            landed := c.landed ++ [{ burst := n, row := row }] }
          ((s.seen w scope 0 (goodPieces ps)).setCmd c).modRank c.team c.rank fun r =>
            { r with live := Sparse.insert r.live row (Row.fresh (rowOfBytes g.bytes)) }

/-- The bursts of an HREAD up to a number are requested; a failed read and a frozen team request none (R302, R310). -/
def Cmd.requestRead (c : Cmd) (n : Nat) (frozen : Bool) : Cmd :=
  let stop := min (hreadBursts c.desc) (n + 1)
  if frozen || c.stopped || stop ≤ c.cursor then c else { c with pending := c.pending ++ upTo c.cursor stop, cursor := stop }

/-- HREAD_BURST_LAND (R295, R302): requests the bursts up to `n`, and burst `n` lands. -/
def execHreadBurstLand (cmd n : Nat) (s : State) : Out :=
  match s.getCmd cmd with
  | none => .next s
  | some c =>
    if c.kind ≠ .hread then .next s
    else
      let c := c.requestRead n (s.frozen c.team)
      .next (if c.pending.contains n then s.landBurst c n else s.setCmd c)

/-! ## Drops (R296) -/

/-- A drop at its start: its g registers, its names and rows, its origin. Its core's untracked L1 lines go, since everything before its command's
issue, or before its landing, happens before it (R212, R221, R225). -/
def State.startDrop (s : State) (t : Team) (rank entry : Nat) (o : Origin) (gs : List Nat) (names : List Nat) : State :=
  let a := Agent.start (.drop t.id t.nextDrop) rank (s.freeHandler (t.rank rank).core) .cpy (t.pkt.sbase + BitVec.ofNat 64 entry)
  let a := gs.zipIdx.foldl (fun a (v, i) => a.setG (Fin.ofNat 64 (i + 1)) (BitVec.ofNat 64 v)) a
  let s := s.acquire (t.rank rank).core .team
  let a := { a with
    origin := some o, vmap := names.zipIdx.map fun (row, i) => (i, { row := row, tag := 0 })
    reg := { Region.start a.spc with snapG := a.g } }
  (s.setTeam { t with nextDrop := t.nextDrop + 1 }).addAgent a

/-- Rows of a reservation become live and zero. -/
def Rank.reviveZero (r : Rank) (rows : List Nat) : Rank :=
  { r with live := rows.foldl (fun m n => Sparse.insert m n (Row.fresh zeroRow)) r.live }

/-- A landed burst of an HREAD starts its drop once fewer than W drops run (R295, R296). -/
def State.startBurstDrop (s : State) (cmd n : Nat) : State :=
  match s.getCmd cmd with
  | none => s
  | some c =>
    match c.landed.find? fun x => x.burst == n, s.getTeam c.team with
    | some x, some t =>
      let extra := hreadExtra c.desc
      if c.kind ≠ .hread ∨ c.window ≤ c.running ∨ c.rows.length < extra then s
      else
        let (off, y, z, len) := hreadBurst c.desc n
        let more := c.rows.take extra
        let c' := { c with
          rows := c.rows.drop extra, landed := c.landed.erase x, running := c.running + 1, delivered := c.delivered + len,
          started := c.started + 1 }
        let t := t.setRank c.rank ((t.rank c.rank).reviveZero more)
        (s.setCmd c').startDrop t c.rank (bits (descNat c.desc 3) 31 0) (.burst cmd)
          [off, y, z, len, bits (descNat c.desc 3) 43 40] (x.row :: more)
    | _, _ => s

/-- A landing of a slot starts its drop once its bytes have been added and fewer than W of the slot's drops run (R243, R304). Where a drop has given
its row away the slot's next one comes from the pool. (DEDUCED, log 101) -/
def State.startLandingDrop (s : State) (team : Nat) (slot : Fin 8) : State :=
  match s.getTeam team with
  | none => s
  | some t =>
    match t.landings.find? slot.val with
    | none => s
    | some l =>
      let (rows, r) := if l.rows.isEmpty then (t.rank l.rank).takeRows 1 else (l.rows, t.rank l.rank)
      match l.waiting.find? fun x => x.counted, rows with
      | some x, row :: rows =>
        if l.window ≤ l.running || s.frozen team then s
        else
          let l' := { l with rows := rows, running := l.running + 1, waiting := l.waiting.erase x }
          let r := { r with live := Sparse.insert r.live row (Row.fresh (rowOfBytes x.data)) }
          let t := { t.setRank l.rank r with landings := Sparse.insert t.landings slot.val l' }
          s.startDrop t l.rank l.entry (.landing slot)
            [x.offset, x.srcRank.toNat, b2n x.overflow + 2 * b2n x.encrypted, x.data.length, x.coll.toNat + 2 ^ 16 * slot.val] [row]
      | _, _ => s

/-- DROP_START (R243, R295, R296, R304): nothing happens while the window has no room, or while a landing's team is frozen (R310). -/
def execDropStart (src : DropSource) (s : State) : Out :=
  match src with
  | .burst cmd n => .next (s.startBurstDrop cmd n)
  | .landing team slot => .next (s.startLandingDrop team slot)

/-! ## The end of an HREAD (R301) -/

/-- Every burst that is requested has been delivered or discarded and no more will be, and every drop that was started has ended. -/
def Cmd.readOver (c : Cmd) : Bool :=
  c.kind == .hread && (c.stopped || hreadBursts c.desc ≤ c.cursor) && c.pending.isEmpty && c.landed.isEmpty && c.running == 0

/-- FINAL_DROP_START (R301): its rows come from the reservation, then from the pool; further names start unmapped. -/
def execFinalDropStart (cmd : Nat) (s : State) : Out :=
  match s.getCmd cmd with
  | none => .next s
  | some c =>
    match s.getTeam c.team with
    | none => .next s
    | some t =>
      if !c.readOver || c.final ≠ .due then .next s
      else
        let want := 1 + hreadExtra c.desc
        let own := c.rows.take want
        let (more, r) := (t.rank c.rank).takeRows (want - own.length)
        let c' := { c with rows := c.rows.drop want, final := .runs }
        let t := t.setRank c.rank (r.reviveZero (own ++ more))
        .next ((s.setCmd c').startDrop t c.rank (bits (descNat c.desc 3) 31 0) (.finalOf cmd)
          [0, 0, 0, c.delivered, bits (descNat c.desc 3) 43 40 + 2 ^ 16] (own ++ more))

/-- LAST_BURST (R301): the one arrival with X·Y·Z bytes and the first error, and the rows and handler slots return to the team. -/
def execLastBurst (cmd : Nat) (s : State) : Out :=
  match s.getCmd cmd with
  | none => .next s
  | some c =>
    if c.readOver && (c.final == .none || c.final == .ended) then
      let s := s.arriveCmd c (hreadBytes c.desc) c.err
      .next ((s.modRank c.team c.rank fun r => r.giveRows c.rows).endCmd c)
    else .next s

/-! ## HLAND (R303 to R305) -/

/-- A landing number is held by another team of a gang grid, or by this team with drops running (R303, R305). -/
def State.slotTaken (s : State) (n : Nat) : Bool :=
  (s.tm.pkt.gang
    && (s.teams.any (fun t => t.grid == s.tm.grid && (t.landings.find? n).isSome)
        || s.saved.any fun t => t.grid == s.tm.grid && (t.landings.find? n).isSome))
  || (match s.tm.landings.find? n with
      | some l => l.running != 0
      | none => false)

/-- The binding of a landing number that the focused team holds is released: its rows, and the LAND flag of its barrier (R304). -/
def State.unbind (s : State) (n : Nat) : State :=
  match s.tm.landings.find? n with
  | none => s
  | some l =>
    let s := s.modRank s.tm.id l.rank fun r => r.giveRows l.rows
    let loc : BarLoc := { team := s.tm.id, rank := l.barRank, off := ptrOffset l.bar }
    let s := { s with tm := { s.tm with landings := Sparse.erase s.tm.landings n } }
    s.barOp loc fun b _ => { b with flags := b.flags &&& 0xFD }

/-- Binds a landing number on the focused agent's core: rows, barrier and target (R304). Landings that still wait for the number go to
the new binding. (DEDUCED, log 27) -/
def State.bind (s : State) (n : Nat) (d : List Word) (bar : Word) (waiting : List LandBurst) : State :=
  let w := bits (descNat d 1) 35 32 + 1
  let (rows, r) := s.myRank.takeRows w
  let s := s.modMyRank fun _ => r
  let per := BitVec.ofNat 32 (descNat d 2)
  let loc := barLoc s.who bar
  let l : Landing :=
    { bar := bar, barRank := loc.rank, entry := bits (descNat d 1) 31 0, window := w, perSet := per, rank := s.ag.rank, rows := rows,
      running := 0, waiting := waiting }
  let s := { s with tm := { s.tm with landings := Sparse.insert s.tm.landings n l } }
  s.barOp loc fun b _ => { b with flags := b.flags ||| 2, target := (b.target + per.toNat) % 2 ^ 32 }

/-- HLAND (R303, R304). -/
def execHland (e : EngOps) (s : State) : Out :=
  whenDrained s fun s =>
    let d := s.ag.desc e.a 3
    if s.ag.role ≠ .cpy then fault s 0x07 s.ag.spc
    else if descNat d 0 / 8 != 0 || descNat d 1 / 2 ^ 36 != 0 || bits (descNat d 1) 31 0 % 4 != 0 || descNat d 2 / 2 ^ 32 != 0 then
      answer e.q false s
    else
      match s.barFail e.b with
      | some f => fault s f.code f.addr
      | none =>
        let n := descNat d 0 % 8
        let w := bits (descNat d 1) 35 32 + 1
        let own := match s.tm.landings.find? n with
          | some l => if l.rank = s.ag.rank then (l.window, l.rows.length) else (0, 0)
          | none => (0, 0)
        let waiting := match s.tm.landings.find? n with
          | some l => l.waiting
          | none => []
        if s.slotTaken n || s.tm.pkt.handlers + own.1 < s.handlersUsed s.tm s.ag.rank + w
            || s.myRank.rowsFree + own.2 < w then
          answer e.q false s
        else answer e.q true ((s.unbind n).bind n d (s.ag.getG e.b) waiting)

/-! ## HEND (R299) -/

/-- HEND: a warp takes 0x01; a drop ends once its lane queue is empty. -/
def execHend (s : State) : Out :=
  if s.ag.isDrop then whenDrained s fun s => .next (s.endDrop s.ag 0) else fault s 0x01 s.ag.spc

/-! ## LANDING (R225, R304) -/

/-- The first landing that is not counted yet is counted. -/
def countFirst : List LandBurst → List LandBurst
  | [] => []
  | x :: r => if x.counted then x :: countFirst r else { x with counted := true } :: r

/-- LANDING: the bytes of the next landing of a slot are added to its barrier, before its drop starts; a frozen team's landings wait (R310).
(DEDUCED, log 60) -/
def execLanding (team : Nat) (slot : Fin 8) (s : State) : Out :=
  match s.getTeam team with
  | none => .next s
  | some t =>
    match t.landings.find? slot.val with
    | none => .next s
    | some l =>
      match l.waiting.find? fun x => !x.counted, s.frozen team with
      | none, _ | some _, true => .next s
      | some x, false =>
        let l' := { l with waiting := countFirst l.waiting }
        let s := s.setTeam { t with landings := Sparse.insert t.landings slot.val l' }
        .next (s.arrive { team := team, rank := l.barRank, off := ptrOffset l.bar } 0 x.data.length 0)

end Sys2Proof.Machine
end

