-- ==== Sys2Proof/Machine/Control.lean ====
section
/-! DEFINITION. Scalar control, regions, traps, system registers and level votes (R269, R270, R355 to R358, R361, R382,
R383). -/

namespace Sys2Proof.Machine

/-- BR (R269). -/
def execBr (q : Fin 8) (n : Bool) (o : BitVec 22) (s : State) : Out :=
  scoreboard 0 0 (qBit q) 0 s fun s =>
    .next (s.modAg fun a => a.goto (if a.getQ q != n then a.spc + branchOffset o else a.spc + 4))

/-- CALL (R269). -/
def execCall (o : BitVec 22) (s : State) : Out :=
  scoreboard 0 (gBit 62) 0 0 s fun s =>
    .next (s.modAg fun a => (a.setG 62 (a.spc + 4)).goto (a.spc + branchOffset o))

/-- JR (R269). -/
def execJr (d a : Fin 64) (s : State) : Out :=
  scoreboard (gBit a) (gBit d) 0 0 s fun s =>
    let t := s.ag.getG a
    if ptrSpace t ≠ 0 ∨ ptrRank t ≠ 0 then fault s 0x10 t
    else .next (s.modAg fun x => (x.setG d (x.spc + 4)).goto (t &&& ~~~3#64))

/-- LRUN (R270): the block's registers for the scoreboard are read from its words, at most 4,096 of them. -/
def execLrun (q : Fin 8) (n : Bool) (o : BitVec 22) (s : State) : Out :=
  scoreboard 0 0 (qBit q) 0 s fun s =>
    if s.ag.getQ q != n then
      if 16 ≤ s.ag.queue.length then wait s
      else
        let addr := s.tm.pkt.lbase + o.setWidth 64 * 12
        let (r, w, qw) := s.blockRegs addr 4096 addr addr (0, 0, 0)
        .next (s.enqueue (.block addr) r w qw).goNext
    else .next s.goNext

/-- LSYNC (R34, R270): with nothing before it in the lane queue it ends at once; otherwise the warp waits in it. -/
def execLsync (s : State) : Out :=
  if s.atQueue then .next (s.modAg fun a => { a.pop with status := .running })
  else if s.ag.isDrop then fault s 0x08 s.ag.spc
  else if s.drained then .next s.goNext
  else if 16 ≤ s.ag.queue.length then wait s
  else .next ((s.enqueue (.instr .lsync) 0 0 0).goNext.modAg fun a => { a with status := .lsync })

/-- REGION (R355). -/
def execRegion (s : State) : Out :=
  if s.ag.canEnter then .next (s.goNext.modAg fun a => a.enterRegion a.spc true) else wait s

/-- NOP (R355). -/
def execNop (s : State) : Out := .next s.goNext

/-- A fault for which the region at the next word has been entered before it is delivered (R355). -/
def trapAfter (code : Byte) (addr : Word) (s : State) : Out := fault s.commit code addr

/-- TRAP (R355). -/
def execTrap (b : Fin 64) (s : State) : Out := whenDrained s fun s => trapAfter 0x30 (s.ag.getG b) s

/-- BRK (R355). -/
def execBrk (s : State) : Out := whenDrained s fun s => trapAfter 0x31 s.ag.spc s

/-- HALT (R355). -/
def execHalt (s : State) : Out :=
  if s.ag.isDrop then fault s 0x08 s.ag.spc
  else
    whenDrained s fun s =>
      .next ((s.modAg fun a => { a with status := .halted, issued := a.issued + 1 }).checkTeamEnd s.tm.id)

/-- ERET (R356). -/
def execEret (s : State) : Out :=
  if s.ag.trapMode then whenDrained s fun s => .next s.returnFromTrap else fault s 0x12 s.ag.spc

/-- PHINT (R361). -/
def execPhint (a : Fin 64) (bitmap : BitVec 64) (s : State) : Out :=
  if s.ag.isDrop then fault s 0x08 s.ag.spc
  else
    whenDrained s fun s =>
      let list := if a.val = 0 then none else some (s.ag.getG a)
      let s := s.modAg fun x => (x.goto (x.spc + 12)).enterRegion (x.spc + 12) true
      .next (if s.tm.saveReq.isSome then s.modAg fun x => { x with status := .stopped (.atHint list bitmap) } else s)

/-- A system register that is read after every earlier lane-queue entry has taken effect (R105, R358). -/
def sregWaits (n : BitVec 12) : Bool := n == 0x021 || n == 0x040

/-- SRD (R358). -/
def execSrd (d : Fin 64) (n : BitVec 12) (s : State) : Out :=
  if sregWaits n && !s.drained then wait s
  else scoreboard 0 (gBit d) 0 0 s fun s => .next (s.modAg fun a => a.setG d (s.sreg n)).goNext

/-- SWR (R68, R358). -/
def execSwr (d : Fin 64) (n : BitVec 12) (s : State) : Out :=
  scoreboard (gBit d) 0 0 0 s fun s =>
    let v := s.ag.getG d
    if n = 0x020 then
      if 3 < v.toNat then fault s 0x01 s.ag.spc
      else .next (s.modAg fun a => { a with fpmode := v.setWidth 3 }).goNext
    else if n = 0x021 then
      if 63 < v.toNat then fault s 0x01 s.ag.spc
      else whenDrained s fun s => .next (s.modAg fun a => { a with fpflags := v.setWidth 6 }).goNext
    else fault s 0x12 (n.setWidth 64)

/-- PLVL (R383). -/
def execPlvl (d a : Fin 64) (s : State) : Out :=
  scoreboard (gBit a) (gBit d) 0 0 s fun s =>
    let v := (s.ag.getG a).toNat
    let s := if s.permitted s.tm.ctx then { s with tm := { s.tm with vote := if v ≤ 2 then some v else none } } else s
    let s := s.regrant s.tm.cluster
    .next (s.modAg fun x => x.setG d (BitVec.ofNat 64 (s.granted s.tm.cluster))).goNext

end Sys2Proof.Machine
end

