-- ==== Sys2Proof/Machine/Functions.lean ====
section
/-! DEFINITION. The functions of Table 6.6, on exact F32 values (R134). Irrational results are computed in fixed point with 640
fraction bits, far finer than the distance of any F32 result from a rounding boundary; each is marked sticky, since it is no
multiple of any power of two. DEDUCED, log 12: the correctly rounded value is the one that a computation this fine rounds to. -/

namespace Sys2Proof.Machine

/-- One in fixed point. -/
def fxOne : Nat := 2 ^ 640
/-- π in fixed point, rounded down. -/
def fxPi : Nat := 0x3243f6a8885a308d313198a2e03707344a4093822299f31d0082efa98ec4e6c89452821e638d01377be5466cf34e90c6cc0ac29b7c97c50dd3f84d5b5b54709179216d5d98979fb1bd1310ba698dfb5ac
/-- The natural logarithm of 2 in fixed point, rounded down. -/
def fxLn2 : Nat := 0xb17217f7d1cf79abc9e3b39803f2f6af40f343267298b62d8a0d175b8baafa2be7b876206debac98559552fb4afa1b10ed2eae35c138214427573b291169b8253e96ca16224ae8c51acbda11317c387e
/-- An F32 magnitude in fixed point. -/
def Mag.fx (x : Mag) : Nat := x.m * 2 ^ (x.e + 640).toNat
/-- An irrational fixed-point result. -/
def FVal.ofFx (neg : Bool) (v : Nat) : FVal := .num neg { m := v, e := -640, sticky := true }
/-- A signed irrational fixed-point result. -/
def FVal.ofFxInt (v : Int) : FVal := FVal.ofFx (v < 0) v.natAbs

/-- `t - t·r2/((k+1)(k+2)) + …`: the alternating series of sine (`k = 1`, `t = r`) and cosine (`k = 0`, `t = 1`). -/
def altSum (r2 : Nat) : Nat → Nat → Nat → Int
  | 0, _, _ => 0
  | n + 1, k, t => t - altSum r2 n (k + 2) (t * r2 / fxOne / ((k + 1) * (k + 2)))
/-- `t + t·r/(k+1) + …`: the exponential series (`k = 0`, `t = 1`). -/
def expSum (r : Nat) : Nat → Nat → Nat → Nat
  | 0, _, _ => 0
  | n + 1, k, t => t + expSum r n (k + 1) (t * r / fxOne / (k + 1))
/-- `t/k + t·z2/(k+2) + …`: the series of the inverse hyperbolic tangent (`k = 1`, `t = z`). -/
def atanhSum (z2 : Nat) : Nat → Nat → Nat → Nat
  | 0, _, _ => 0
  | n + 1, k, t => t / k + atanhSum z2 n (k + 2) (t * z2 / fxOne)

/-- Sine and cosine of a magnitude: the number of quarter turns, and sine and cosine of the rest. -/
def sinCos (x : Mag) : Nat × Int × Int :=
  let v := x.fx
  let k := (4 * v + fxPi) / (2 * fxPi)
  let r : Int := (2 * (v : Int) - k * fxPi) / 2
  let a := r.natAbs
  let r2 := a * a / fxOne
  let s := altSum r2 90 1 a
  (k % 4, if r < 0 then -s else s, altSum r2 90 0 fxOne)

/-- FSIN. -/
def FVal.sin : FVal → FVal × Flags
  | .nan s => (.nan false, Flags.when s Flags.inv)
  | .inf _ => (.nan false, Flags.inv)
  | .num neg x =>
    if x.m = 0 then (.num neg x, Flags.none)
    else
      let (k, s, c) := sinCos x
      let v := if k = 0 then s else if k = 1 then c else if k = 2 then -s else -c
      (FVal.ofFxInt (if neg then -v else v), Flags.none)

/-- FCOS. -/
def FVal.cos : FVal → FVal × Flags
  | .nan s => (.nan false, Flags.when s Flags.inv)
  | .inf _ => (.nan false, Flags.inv)
  | .num _ x =>
    if x.m = 0 then (FVal.ofInt 1, Flags.none)
    else
      let (k, s, c) := sinCos x
      (FVal.ofFxInt (if k = 0 then c else if k = 1 then -s else if k = 2 then -c else s), Flags.none)

/-- FEXP2. Below -200 every value rounds as 2^-200 does. -/
def FVal.exp2 : FVal → FVal × Flags
  | .nan s => (.nan false, Flags.when s Flags.inv)
  | .inf neg => (if neg then .num false (Mag.exact 0 0) else .inf false, Flags.none)
  | .num neg x =>
    let v : Int := if neg then -(x.fx : Int) else x.fx
    let n := v / fxOne
    let f := (v % fxOne).toNat
    if 128 ≤ n then (.inf false, Flags.ofl ||| Flags.inx)
    else if n < -200 then (.num false (Mag.exact 1 (-200)), Flags.none)
    else if f = 0 then (.num false (Mag.exact 1 n), Flags.none)
    else (.num false { m := expSum (f * fxLn2 / fxOne) 150 0 fxOne, e := n - 640, sticky := true }, Flags.none)

/-- FLOG2. -/
def FVal.log2 : FVal → FVal × Flags
  | .nan s => (.nan false, Flags.when s Flags.inv)
  | .inf neg => if neg then (.nan false, Flags.inv) else (.inf false, Flags.none)
  | .num neg x =>
    if x.m = 0 then (.inf true, Flags.dz)
    else if neg then (.nan false, Flags.inv)
    else
      let f := x.m * 2 ^ (640 - x.m.log2)
      let high := 2 * fxOne * fxOne < f * f
      let n := if high then x.top + 1 else x.top
      let f := if high then f / 2 else f
      if f = fxOne then (FVal.ofInt n, Flags.none)
      else
        let d : Int := f - fxOne
        let z := d.natAbs * fxOne / (f + fxOne)
        let l : Int := 2 * atanhSum (z * z / fxOne) 140 1 z * fxOne / fxLn2
        (FVal.ofFxInt (n * fxOne + (if d < 0 then -l else l)), Flags.none)

/-- FRCP. -/
def FVal.recip (a : FVal) : FVal × Flags := FVal.div (FVal.ofInt 1) a

/-- FRSQ. -/
def FVal.rsqrt : FVal → FVal × Flags
  | .nan s => (.nan false, Flags.when s Flags.inv)
  | .inf neg => if neg then (.nan false, Flags.inv) else (.num false (Mag.exact 0 0), Flags.none)
  | .num neg x =>
    if x.m = 0 then (.inf neg, Flags.dz)
    else if neg then (.nan false, Flags.inv)
    else
      let odd := x.e % 2 = 1
      let m := if odd then 2 * x.m else x.m
      let e := if odd then x.e - 1 else x.e
      let r := isqrt (2 ^ 256 / m)
      (.num false { m := r, e := -(e / 2) - 128, sticky := r * r * m != 2 ^ 256 }, Flags.none)

/-- FTANH. -/
def FVal.tanh : FVal → FVal × Flags
  | .nan s => (.nan false, Flags.when s Flags.inv)
  | .inf neg => (.num neg (Mag.exact 1 0), Flags.none)
  | .num neg x =>
    if x.m = 0 then (.num neg x, Flags.none)
    else if 9 * fxOne ≤ x.fx then (.num neg (Mag.exact 1 0), Flags.inx)
    else
      let y := 2 * x.fx
      let k := y / fxLn2
      let e := expSum (y - k * fxLn2) 150 0 fxOne * 2 ^ k
      (FVal.ofFx neg ((e - fxOne) * fxOne / (e + fxOne)), Flags.none)

end Sys2Proof.Machine
end

