-- ==== Sys2Proof/Machine/LaneOps.lean ====
section
/-! DEFINITION. The shared operations of lane words: active lanes, operands, checks, results, latches and chains (R35 to R39, R56 to
R60, R96, R109 to R112). -/

namespace Sys2Proof.Machine

/-! ## Active lanes -/

/-- The active lanes of an instruction (R4, R59). -/
def State.active (s : State) (h : LaneHead) : Mask :=
  s.ag.cur.mask &&& (if h.gneg then ~~~(s.ag.getP h.guard) else s.ag.getP h.guard)

/-- The numbers of the lanes of a set, rising. -/
def lanesOf (m : Mask) : List Nat := (List.range 64).filter fun l => m.getLsbD l

/-- A set of lanes from a test. -/
def maskOf (f : Nat → Bool) : Mask :=
  (List.range 64).foldl (fun m l => if f l then m ||| (1#64 <<< l) else m) 0

/-! ## Operands (R57, R109) -/

/-- An integer converted to a type, into every element (R57). (DESIGN CHOICE, log 78) -/
def constInt (t : Ty) (i : Int) : Nat :=
  match tyFmt t with
  | some f => ofElems (elemBits t) (List.replicate t.count (f.deliver .rne false (FVal.ofInt i)).1)
  | none => ofElems (elemBits t) (List.replicate t.count (wrapInt (elemBits t) i))

/-- Special 5 converted to a type (R57): an FP32 pattern. (DESIGN CHOICE, log 102) -/
def constFp (t : Ty) (p : Nat) : Nat :=
  match t, tyFmt t with
  | .f32, _ => p
  | _, some f => ofElems (elemBits t) (List.replicate t.count (f.deliver .rne false (Fmt.f32.decode p)).1)
  | _, none => p

/-- A g register as the running block's lane words read it: its value at the block's place in the scalar stream (R29). -/
def Agent.uniformG (a : Agent) (n : Fin 64) : Word := { a with g := a.blockG, trapG := a.blockTrap }.getG n

/-- The value of a source that is neither a name nor a latch, in one lane (R57). -/
def State.uniformSrc (s : State) (t : Ty) (imm : BitVec 24) (lane : Nat) : Src → Nat
  | .greg n => (s.ag.uniformG n).toNat % 2 ^ tyBits t
  | .imm v => constInt t v.toInt
  | .lane => constInt t lane
  | .warp => constInt t s.ag.warpIndex
  | .team => constInt t (s.tm.index % 2 ^ 32 : Nat)
  | .imm24 => constInt t imm.toInt
  | .fimm => constFp t (imm.toNat * 256)
  | .ones => 2 ^ tyBits t - 1
  | .zero | .vec _ | .latch _ => 0

/-- The lanes of a mapped name. -/
def State.nameRow (s : State) (n : Nat) : List Nat :=
  match s.ag.vmap.find? n with
  | some e => ((s.myRank.row e.row).data).map (·.toNat)
  | none => List.replicate 64 0

/-- operand(s, l, T) in every lane (R109). -/
def State.operand (s : State) (t : Ty) (imm : BitVec 24) (src : Src) : List Nat :=
  match src with
  | .vec n =>
    if t.wide then (List.range 64).map fun l => (s.nameRow n.val).getD l 0 + 2 ^ 32 * (s.nameRow (n.val + 1)).getD l 0 else s.nameRow n.val
  | .latch n => (s.ag.latches.getD n.val (List.replicate 64 0)).map fun x => x.toNat % 2 ^ tyBits t
  | .lane => (List.range 64).map fun (l : Nat) => constInt t l
  | _ => List.replicate 64 (s.uniformSrc t imm 0 src)

/-- An operand that an instruction may not use: zeros where it does not. -/
def State.operand? (s : State) (imm : BitVec 24) (src : Src) : Option Ty → List Nat
  | some t => s.operand t imm src
  | none => List.replicate 64 0

/-! ## Checks (R111, R112) -/

/-- A source and how many consecutive names it spans if it is a name. -/
abbrev SrcUse := Src × Nat

/-- The names that sources read, in order. -/
def srcNames (us : List SrcUse) : List Nat :=
  us.flatMap fun u => match u.1 with
    | .vec n => upTo n.val (n.val + u.2)
    | _ => []

/-- A latch that no earlier instruction of the chain has named (R37). -/
def State.staleLatch (s : State) (us : List SrcUse) : Bool :=
  us.any fun u => match u.1 with
    | .latch n => (s.ag.latches.find? n.val).isNone
    | _ => false

/-- The names among destinations that are not mapped, which need a row each. (DEDUCED, log 21) -/
def State.needRows (s : State) (ds : List Nat) : List Nat := ds.filter fun n => (s.ag.vmap.find? n).isNone

/-- The first of some names that maps a row with more than one reference (R316). -/
def State.aliasedOf (s : State) (ds : List Nat) : Option Nat :=
  ds.find? fun n => match s.ag.vmap.find? n with
    | some e => 1 < (s.myRank.row e.row).refs
    | none => false

/-- Steps 3 and 4 of R111: the fault of the first check that fails. (DESIGN CHOICE, log 79) -/
def State.checkNames (s : State) (us : List SrcUse) (ds : List Nat) : Option Fail :=
  match (srcNames us).find? fun n => (s.ag.vmap.find? n).isNone with
  | some n => some { code := 0x03, addr := BitVec.ofNat 64 n }
  | none =>
    match s.aliasedOf ds with
    | some n => some { code := 0x04, addr := BitVec.ofNat 64 n }
    | none => ((s.needRows ds)[s.myRank.rowsFree]?).map fun n => { code := 0x05, addr := BitVec.ofNat 64 n }

/-- The row of a mapped name. -/
def State.rowOf (s : State) (n : Nat) : Option Row := (s.ag.vmap.find? n).map fun e => s.myRank.row e.row

/-- The pipeline waits of a lane word: on a row that ARD has yet to write, on a held destination, on a row being zeroed (R112, R315,
R318). -/
def State.laneWaits (s : State) (us : List SrcUse) (ds : List Nat) : Bool :=
  ((srcNames us).any fun n => match s.rowOf n with
    | some r => r.writeHolds != 0
    | none => false)
  || (ds.any fun n => match s.rowOf n with
    | some r => r.writeHolds != 0 || r.readHolds != 0
    | none => false)
  || decide (s.myRank.pool.length < (s.needRows ds).length)

/-! ## Going on (R36) -/

/-- The running fragment's next word; a chain goes on or ends, and then the latches are lost. -/
def Agent.nextWord (a : Agent) (chain : Bool) : Agent :=
  let more := chain && a.chain + 1 < 8
  { a with
    cur := { a.cur with lpc := a.cur.lpc + 12, early := none }
    issued := a.issued + 1
    chain := if more then a.chain + 1 else 0
    latches := if more then a.latches else [] }

/-- The focused agent's next lane word. -/
def State.nextLane (s : State) (h : LaneHead) : State := s.modAg fun a => a.nextWord h.chain

/-- Captures a latch (R37): the results of the active lanes, and zero elsewhere. (DEDUCED, log 18) -/
def State.capture (s : State) (n : Fin 4) (act : Mask) (vals : List Nat) : State :=
  let xs : List Word := (List.range 64).map fun l => if act.getLsbD l then BitVec.ofNat 64 (vals.getD l 0) else 0
  s.modAg fun a => { a with latches := a.latches.insert n.val xs }

/-! ## Results (R38, R39, R109, R314) -/

/-- Writes the lanes of a set of a name, with a tag on the whole name; an unmapped name receives a zeroed row. -/
def State.writeName (s : State) (n : Nat) (tag : BitVec 4) (act : Mask) (vals : List Nat) : State :=
  let merge (old : List Lane) : List Lane :=
    (List.range 64).map fun l => if act.getLsbD l then BitVec.ofNat 32 (vals.getD l 0) else old.getD l 0
  match s.ag.vmap.find? n with
  | some e =>
    (s.modMyRank fun r => { r with live := r.live.insert e.row { r.row e.row with data := merge (r.row e.row).data } }).modAg fun a =>
      { a with vmap := a.vmap.insert n { e with tag := tag } }
  | none =>
    match s.myRank.pool with
    | [] => s
    | row :: pool =>
      (s.modMyRank fun r => { r with pool := pool, live := r.live.insert row (Row.fresh (merge zeroRow)) }).modAg fun a =>
        { a with vmap := a.vmap.insert n { row := row, tag := tag } }

/-- The names that a result of a type writes. -/
def destNames (h : LaneHead) (t : Ty) : List Nat :=
  if h.nowb then [] else if t.wide then [h.name.val, h.name.val + 1] else [h.name.val]

/-- result(d, l, x, T) in the active lanes (R109); every instruction that writes T6 writes bits [31:30] as zero (R96; DEDUCED for the
copying instructions, log 13). -/
def State.result (s : State) (h : LaneHead) (t : Ty) (tag : BitVec 4) (act : Mask) (vals : List Nat) : State :=
  let vals := if t = .t6 then vals.map (· % 2 ^ 30) else vals
  let s := s.capture h.latch act vals
  if h.nowb then s
  else if t.wide then (s.writeName h.name.val tag act vals).writeName (h.name.val + 1) tag act (vals.map (· / 2 ^ 32))
  else s.writeName h.name.val tag act vals

/-- Raises flags (R103). -/
def State.raise (s : State) (f : Flags) : State := s.modAg fun a => { a with fpflags := a.fpflags ||| f }

/-- The rounding mode of the running block (R105). -/
def State.blockMode (s : State) : BitVec 3 :=
  match s.ag.queue with
  | e :: _ => e.mode
  | [] => s.ag.fpmode

/-- A lane word takes a fault. -/
def laneFault (s : State) (code : Byte) (addr : Word) : Out := .next (s.takeFault { code := code, addr := addr } true)

/-- What every lane word of files 06 and 08 does first (R37, R110 to R112): it checks its latches; with no active lane it goes on,
naming its latch where it has one, but for a destination with an alias, where it may fault; it checks its names and waits for their rows; then it
acts. (DESIGN CHOICE, log 86) -/
def laneRun (h : LaneHead) (latch : Bool) (us : List SrcUse) (ds : List Nat) (s : State) (act : Mask → State → Out) : Out :=
  if s.staleLatch us then laneFault s 0x06 s.ag.cur.lpc
  else
    let m := s.active h
    if m = 0 then
      match (s.aliasedOf ds).filter fun _ => Config.aliasInactive with
      | some n => laneFault s 0x04 (BitVec.ofNat 64 n)
      | none => .next ((if latch then s.capture h.latch 0 (List.replicate 64 0) else s).nextLane h)
    else
      match s.checkNames us ds with
      | some f => laneFault s f.code f.addr
      | none => if s.laneWaits us ds then wait s else act m s

/-- The source uses of an arithmetic word with the given operand types. -/
def arithUses (w : ArithOps) (ta tb tc : Option Ty) : List SrcUse :=
  [(w.a, ta), (w.b, tb), (w.c, tc)].filterMap fun (s, t) => t.map fun t => (s, tyNames t)

/-- The value of every lane, with the flags of the active ones. -/
def runLanes (act : Mask) (f : Nat → Nat → Nat → Nat × Flags) (as bs cs : List Nat) : List Nat × Flags :=
  let rs := (List.range 64).map fun l =>
    if act.getLsbD l then f (as.getD l 0) (bs.getD l 0) (cs.getD l 0) else (0, Flags.none)
  (rs.map (·.1), rs.foldl (fun g r => g ||| r.2) Flags.none)

/-- A lane word that computes each lane's result from the lane's operands: `f` receives the rounding mode in force. -/
def laneArith (w : ArithOps) (ta tb tc : Option Ty) (rt : Ty) (tag : BitVec 4) (f : Rnd → Nat → Nat → Nat → Nat × Flags)
    (s : State) : Out :=
  laneRun w.h true (arithUses w ta tb tc) (destNames w.h rt) s fun act s =>
    let (vals, fl) := runLanes act (f (roundMode w.m.rnd s.blockMode))
      (s.operand? w.imm w.a ta) (s.operand? w.imm w.b tb) (s.operand? w.imm w.c tc)
    .next (((s.result w.h rt tag act vals).raise fl).nextLane w.h)

/-- A lane word that computes a truth value in each active lane and writes a predicate. -/
def lanePred (w : ArithOps) (t : Ty) (f : Nat → Nat → Bool × Flags) (s : State) : Out :=
  laneRun w.h false (arithUses w (some t) (some t) none) [] s fun act s =>
    let (vals, fl) := runLanes act (fun a b _ => ((f a b).1.toNat, (f a b).2)) (s.operand t w.imm w.a)
      (s.operand t w.imm w.b) (List.replicate 64 0)
    let p := maskOf fun l => vals.getD l 0 == 1
    .next (((s.modAg fun x => x.setP (Fin.ofNat 8 w.h.name.val) act p).raise fl).nextLane w.h)

end Sys2Proof.Machine
end

