-- ==== Sys2Proof/Machine/LaneFloat.lean ====
section
/-! DEFINITION. Lane floating-point instructions (R128 to R135). -/

namespace Sys2Proof.Machine

/-- The format of a type that the encoding limits to floats. -/
def fmtOf (t : Ty) : Fmt := (tyFmt t).getD Fmt.f32

/-- An elementwise floating-point instruction: each operand is modified, the result delivered (R128, R129). -/
def laneFloat (w : ArithOps) (tb tc : Option Ty) (f : Rnd → FVal → FVal → FVal → FVal × Flags) (s : State) : Out :=
  let t := w.ty
  let fmt := fmtOf t
  laneArith w (some t) tb tc t (tyTag t)
    (fun r => mapElems t fun a b c =>
      fmt.deliverF r w.m.sat
        (f r ((fmt.decode a).modify w.m.absA w.m.negA) ((fmt.decode b).modify w.m.absB w.m.negB)
          ((fmt.decode c).modify false w.m.negC))) s

/-- FADD (R129). -/
def execFadd (w : ArithOps) (s : State) : Out := laneFloat w (some w.ty) none (fun r a b _ => a.add r b) s
/-- FSUB (R129). -/
def execFsub (w : ArithOps) (s : State) : Out :=
  laneFloat w (some w.ty) none (fun r a b _ => a.add r (b.modify false true)) s
/-- FMUL (R129). -/
def execFmul (w : ArithOps) (s : State) : Out := laneFloat w (some w.ty) none (fun _ a b _ => a.mul b) s
/-- FFMA (R129). -/
def execFfma (w : ArithOps) (s : State) : Out :=
  laneFloat w (some w.ty) (some w.ty) (fun r a b c => FVal.fma r a b c) s

/-- FMIN and FMAX return an operand's bits (R130). -/
def laneMinMax (isMax : Bool) (w : ArithOps) (s : State) : Out :=
  let t := w.ty
  let fmt := fmtOf t
  laneArith w (some t) (some t) none t (tyTag t)
    (fun _ => mapElems t fun a b _ =>
      fmt.minMax isMax (fmt.modify w.m.absA w.m.negA a) (fmt.modify w.m.absB w.m.negB b)) s
/-- FMIN (R130). -/
def execFmin (w : ArithOps) (s : State) : Out := laneMinMax false w s
/-- FMAX (R130). -/
def execFmax (w : ArithOps) (s : State) : Out := laneMinMax true w s

/-- FSETP (R131). -/
def execFsetp (w : ArithOps) (s : State) : Out :=
  let fmt := fmtOf w.ty
  lanePred w w.ty
    (fun a b =>
      ((fmt.decode a).modify w.m.absA w.m.negA).cond w.imm.toNat ((fmt.decode b).modify w.m.absB w.m.negB)) s

/-- FCLASS (R132): the mask is tagged RAW. -/
def execFclass (w : ArithOps) (s : State) : Out :=
  laneArith w (some w.ty) none none w.ty 0
    (fun _ => mapElems w.ty fun a _ _ => ((fmtOf w.ty).classMask a, Flags.none)) s

/-- FDIV (R133). -/
def execFdiv (w : ArithOps) (s : State) : Out := laneFloat w (some w.ty) none (fun _ a b _ => a.div b) s
/-- FSQRT (R133). -/
def execFsqrt (w : ArithOps) (s : State) : Out := laneFloat w none none (fun _ a _ _ => a.sqrt) s

/-- A function of Table 6.6, rounded to nearest whatever the mode (R134). -/
def laneFn (f : FVal → FVal × Flags) (w : ArithOps) (s : State) : Out :=
  laneArith w (some .f32) none none .f32 (tyTag .f32)
    (fun _ a _ _ => Fmt.f32.deliverF .rne false (f ((Fmt.f32.decode a).modify w.m.absA w.m.negA))) s
/-- FRCP (R134). -/
def execFrcp (w : ArithOps) (s : State) : Out := laneFn FVal.recip w s
/-- FRSQ (R134). -/
def execFrsq (w : ArithOps) (s : State) : Out := laneFn FVal.rsqrt w s
/-- FEXP2 (R134). -/
def execFexp2 (w : ArithOps) (s : State) : Out := laneFn FVal.exp2 w s
/-- FLOG2 (R134). -/
def execFlog2 (w : ArithOps) (s : State) : Out := laneFn FVal.log2 w s
/-- FSIN (R134). -/
def execFsin (w : ArithOps) (s : State) : Out := laneFn FVal.sin w s
/-- FCOS (R134). -/
def execFcos (w : ArithOps) (s : State) : Out := laneFn FVal.cos w s
/-- FTANH (R134). -/
def execFtanh (w : ArithOps) (s : State) : Out := laneFn FVal.tanh w s

/-- The type at which FSCALE reads B, whose low 32 bits are the exponent: a pair for F64 (R135). A source that is no name is an integer
of that width (Table 3.17). -/
def scaleTy (t : Ty) : Ty := if t = .f64 then .s64 else .s32
/-- FSCALE (R135). -/
def execFscale (w : ArithOps) (s : State) : Out :=
  let fmt := fmtOf w.ty
  laneArith w (some w.ty) (some (scaleTy w.ty)) none w.ty (tyTag w.ty)
    (fun r a b _ =>
      fmt.deliverF r w.m.sat
        (((fmt.decode a).modify w.m.absA w.m.negA).scale (toSigned 32 (b % 2 ^ 32)))) s

end Sys2Proof.Machine
end

