-- ==== Sys2Proof/Machine/ScalarAlu.lean ====
section
/-! DEFINITION. Scalar arithmetic, compares, selects and predicates (R113 to R119). -/

namespace Sys2Proof.Machine

/-- Division that never faults (R114). -/
def sdiv64 (a b : Word) : Word := if b = 0 then -1 else a.sdiv b
/-- Unsigned division that never faults (R114). -/
def udiv64 (a b : Word) : Word := if b = 0 then -1 else a / b
/-- Signed remainder, whose sign follows the dividend (R114). -/
def srem64 (a b : Word) : Word := if b = 0 then a else a.srem b
/-- Unsigned remainder (R114). -/
def urem64 (a b : Word) : Word := if b = 0 then a else a % b
/-- The high half of the signed product. -/
def mulh64 (a b : Word) : Word := BitVec.ofInt 64 (a.toInt * b.toInt / 2 ^ 64)
/-- The high half of the unsigned product. -/
def mulhu64 (a b : Word) : Word := BitVec.ofNat 64 (a.toNat * b.toNat / 2 ^ 64)
/-- Shift left; 0 from 64 on. -/
def shl64 (a b : Word) : Word := if 64 ≤ b.toNat then 0 else a <<< b.toNat
/-- Shift right with zeros; 0 from 64 on. -/
def shr64 (a b : Word) : Word := if 64 ≤ b.toNat then 0 else a >>> b.toNat
/-- Shift right with copies of bit 63. -/
def sar64 (a b : Word) : Word := a.sshiftRight (min b.toNat 63)
/-- The number of one bits. -/
def popcount (w : Nat) (x : Nat) : Nat := ((List.range w).filter fun i => bit x i).length
/-- The leading zero bits of a number of `w` bits. -/
def leadingZeros (w : Nat) (x : Nat) : Nat := if x = 0 then w else w - 1 - x.log2
/-- The trailing zero bits of a number of `w` bits. -/
def trailingZeros (w : Nat) (x : Nat) : Nat := ((List.range w).find? fun i => bit x i).getD w

/-- gd := f(ga, gb). -/
def alu (d a b : Fin 64) (f : Word → Word → Word) (s : State) : Out :=
  scoreboard (gBit a ||| gBit b) (gBit d) 0 0 s fun s =>
    .next (s.modAg fun x => x.setG d (f (x.getG a) (x.getG b))).goNext

/-- gd := f(ga). -/
def alu1 (d a : Fin 64) (f : Word → Word) (s : State) : Out :=
  scoreboard (gBit a) (gBit d) 0 0 s fun s => .next (s.modAg fun x => x.setG d (f (x.getG a))).goNext

/-- SADD (R113). -/
def execSadd (d a b : Fin 64) (s : State) : Out := alu d a b (· + ·) s
/-- SSUB (R113). -/
def execSsub (d a b : Fin 64) (s : State) : Out := alu d a b (· - ·) s
/-- SMUL (R113). -/
def execSmul (d a b : Fin 64) (s : State) : Out := alu d a b (· * ·) s
/-- SMULH (R113). -/
def execSmulh (d a b : Fin 64) (s : State) : Out := alu d a b mulh64 s
/-- SMULHU (R113). -/
def execSmulhu (d a b : Fin 64) (s : State) : Out := alu d a b mulhu64 s
/-- SDIV (R113, R114). -/
def execSdiv (d a b : Fin 64) (s : State) : Out := alu d a b sdiv64 s
/-- SDIVU (R113, R114). -/
def execSdivu (d a b : Fin 64) (s : State) : Out := alu d a b udiv64 s
/-- SREM (R113, R114). -/
def execSrem (d a b : Fin 64) (s : State) : Out := alu d a b srem64 s
/-- SREMU (R113, R114). -/
def execSremu (d a b : Fin 64) (s : State) : Out := alu d a b urem64 s
/-- SAND (R113). -/
def execSand (d a b : Fin 64) (s : State) : Out := alu d a b (· &&& ·) s
/-- SOR (R113). -/
def execSor (d a b : Fin 64) (s : State) : Out := alu d a b (· ||| ·) s
/-- SXOR (R113). -/
def execSxor (d a b : Fin 64) (s : State) : Out := alu d a b (· ^^^ ·) s
/-- SANDN (R113). -/
def execSandn (d a b : Fin 64) (s : State) : Out := alu d a b (fun x y => x &&& ~~~y) s
/-- SSHL (R113). -/
def execSshl (d a b : Fin 64) (s : State) : Out := alu d a b shl64 s
/-- SSHR (R113). -/
def execSshr (d a b : Fin 64) (s : State) : Out := alu d a b shr64 s
/-- SSAR (R113). -/
def execSsar (d a b : Fin 64) (s : State) : Out := alu d a b sar64 s
/-- SMIN (R113). -/
def execSmin (d a b : Fin 64) (s : State) : Out := alu d a b (fun x y => if y.slt x then y else x) s
/-- SMAX (R113). -/
def execSmax (d a b : Fin 64) (s : State) : Out := alu d a b (fun x y => if x.slt y then y else x) s
/-- SMINU (R113). -/
def execSminu (d a b : Fin 64) (s : State) : Out := alu d a b (fun x y => if y.ult x then y else x) s
/-- SMAXU (R113). -/
def execSmaxu (d a b : Fin 64) (s : State) : Out := alu d a b (fun x y => if x.ult y then y else x) s
/-- SPOPC (R113). -/
def execSpopc (d a : Fin 64) (s : State) : Out := alu1 d a (fun x => BitVec.ofNat 64 (popcount 64 x.toNat)) s
/-- SCLZ (R113). -/
def execSclz (d a : Fin 64) (s : State) : Out := alu1 d a (fun x => BitVec.ofNat 64 (leadingZeros 64 x.toNat)) s
/-- SCTZ (R113). -/
def execSctz (d a : Fin 64) (s : State) : Out := alu1 d a (fun x => BitVec.ofNat 64 (trailingZeros 64 x.toNat)) s

/-- SADDI (R115). -/
def execSaddi (d a : Fin 64) (i : BitVec 14) (s : State) : Out := alu1 d a (· + sext14 i) s
/-- SANDI (R115). -/
def execSandi (d a : Fin 64) (i : BitVec 14) (s : State) : Out := alu1 d a (· &&& zext14 i) s
/-- SORI (R115). -/
def execSori (d a : Fin 64) (i : BitVec 14) (s : State) : Out := alu1 d a (· ||| zext14 i) s
/-- SXORI (R115). -/
def execSxori (d a : Fin 64) (i : BitVec 14) (s : State) : Out := alu1 d a (· ^^^ zext14 i) s
/-- SSHLI (R115). -/
def execSshli (d a n : Fin 64) (s : State) : Out := alu1 d a (· <<< n.val) s
/-- SSHRI (R115). -/
def execSshri (d a n : Fin 64) (s : State) : Out := alu1 d a (· >>> n.val) s
/-- SSARI (R115). -/
def execSsari (d a n : Fin 64) (s : State) : Out := alu1 d a (·.sshiftRight n.val) s
/-- SLUI (R116). -/
def execSlui (d : Fin 64) (i : BitVec 20) (s : State) : Out :=
  scoreboard 0 (gBit d) 0 0 s fun s =>
    .next (s.modAg fun x => x.setG d ((i.setWidth 32 <<< 12).signExtend 64)).goNext
/-- SLPC (R116). -/
def execSlpc (d : Fin 64) (i : BitVec 20) (s : State) : Out :=
  scoreboard 0 (gBit d) 0 0 s fun s => .next (s.modAg fun x => x.setG d (x.spc + i.signExtend 64 * 4)).goNext

/-- SCMP (R117). -/
def execScmp (q : Fin 8) (c : Cond) (a b : Fin 64) (s : State) : Out :=
  scoreboard (gBit a ||| gBit b) 0 0 (qBit q) s fun s =>
    .next (s.modAg fun x => x.setQ q (Cond.holds c (x.getG a) (x.getG b))).goNext
/-- SCMPI (R117). -/
def execScmpi (q : Fin 8) (c : Cond) (a : Fin 64) (i : BitVec 14) (s : State) : Out :=
  scoreboard (gBit a) 0 0 (qBit q) s fun s =>
    .next (s.modAg fun x => x.setQ q (Cond.holds c (x.getG a) (sext14 i))).goNext
/-- SSEL (R118). -/
def execSsel (d a b : Fin 64) (p : Fin 8) (s : State) : Out :=
  scoreboard (gBit a ||| gBit b) (gBit d) (qBit p) 0 s fun s =>
    .next (s.modAg fun x => x.setG d (if x.getQ p then x.getG a else x.getG b)).goNext

/-- The operations of QLOG (R119). -/
def QOp.apply (f : QOp) (a b : Bool) : Bool :=
  match f with
  | .and => a && b
  | .or => a || b
  | .xor => a != b
  | .andn => a && !b
  | .not => !a

/-- QLOG (R119). -/
def execQlog (d a b : Fin 8) (f : QOp) (s : State) : Out :=
  scoreboard 0 0 (qBit a ||| qBit b) (qBit d) s fun s =>
    .next (s.modAg fun x => x.setQ d (QOp.apply f (x.getQ a) (x.getQ b))).goNext

end Sys2Proof.Machine
end

