-- ==== Sys2Proof/Machine/LaneInt.lean ====
section
/-! DEFINITION. Lane integer instructions (R120 to R127). -/

namespace Sys2Proof.Machine

/-- The range of a signed or unsigned integer of `b` bits. -/
def intRange (signed : Bool) (b : Nat) : Int × Int := if signed then (-2 ^ (b - 1), 2 ^ (b - 1) - 1) else (0, 2 ^ b - 1)

/-- An exact integer result: wrapped, or clamped with the saturation flag (R97, R121). -/
def deliverInt (signed : Bool) (b : Nat) (sat : Bool) (x : Int) : Nat × Flags :=
  let (lo, hi) := intRange signed b
  if sat && (x < lo || hi < x) then (wrapInt b (if x < lo then lo else hi), Flags.sat) else (wrapInt b x, Flags.none)

/-- An elementwise integer instruction of Table 6.4 with its exact formula. -/
def laneInt (w : ArithOps) (tb tc : Option Ty) (f : Int → Int → Int → Int) (s : State) : Out :=
  let t := w.ty
  laneArith w (some t) tb tc t (tyTag t)
    (fun _ => mapElems t fun a b c =>
      deliverInt (tySigned t) (elemBits t) w.m.sat (f (intElem t a) (intElem t b) (intElem t c))) s

/-- An elementwise instruction on bit patterns that raises no flag. -/
def laneBits (w : ArithOps) (tb tc : Option Ty) (f : Nat → Nat → Nat → Nat) (s : State) : Out :=
  laneArith w (some w.ty) tb tc w.ty (tyTag w.ty) (fun _ a b c => (f a b c, Flags.none)) s

/-- IADD (R121). -/
def execIadd (w : ArithOps) (s : State) : Out := laneInt w (some w.ty) none (fun a b _ => a + b) s
/-- ISUB (R121). -/
def execIsub (w : ArithOps) (s : State) : Out := laneInt w (some w.ty) none (fun a b _ => a - b) s
/-- IMUL (R121). -/
def execImul (w : ArithOps) (s : State) : Out := laneInt w (some w.ty) none (fun a b _ => a * b) s
/-- IMULH (R121). -/
def execImulh (w : ArithOps) (s : State) : Out :=
  laneInt w (some w.ty) none (fun a b _ => a * b / 2 ^ elemBits w.ty) s
/-- IMAD (R121). -/
def execImad (w : ArithOps) (s : State) : Out := laneInt w (some w.ty) (some w.ty) (fun a b c => a * b + c) s
/-- IMADW (R122). -/
def execImadw (w : ArithOps) (s : State) : Out :=
  let signed := w.ty == .s32
  let wide : Ty := if signed then .s64 else .u64
  laneArith w (some w.ty) (some w.ty) (some wide) wide 0
    (fun _ a b c =>
      deliverInt signed 64 w.m.sat (intElem w.ty a * intElem w.ty b + intElem wide c)) s
/-- The sum of the products of the elements. -/
def dotElems (t : Ty) (a b : Nat) : Int :=
  (((elems t a).zip (elems t b)).map fun x => intElem t x.1 * intElem t x.2).foldl (· + ·) 0
/-- IDP4 (R122). -/
def execIdp4 (w : ArithOps) (s : State) : Out :=
  let signed := w.ty == .s8x4
  let t32 : Ty := if signed then .s32 else .u32
  laneArith w (some w.ty) (some w.ty) (some t32) t32 (tyTag t32)
    (fun _ a b c => deliverInt signed 32 w.m.sat (dotElems w.ty a b + intElem t32 c)) s
/-- IABS (R121, R122). -/
def execIabs (w : ArithOps) (s : State) : Out := laneInt w none none (fun a _ _ => a.natAbs) s

/-- IAND (R123). -/
def execIand (w : ArithOps) (s : State) : Out := laneBits w (some w.ty) none (fun a b _ => a &&& b) s
/-- IOR (R123). -/
def execIor (w : ArithOps) (s : State) : Out := laneBits w (some w.ty) none (fun a b _ => a ||| b) s
/-- IXOR (R123). -/
def execIxor (w : ArithOps) (s : State) : Out := laneBits w (some w.ty) none (fun a b _ => a ^^^ b) s
/-- IANDN (R123). -/
def execIandn (w : ArithOps) (s : State) : Out :=
  laneBits w (some w.ty) none (fun a b _ => a &&& (2 ^ tyBits w.ty - 1 - b)) s
/-- ISHL (R123): the count is the low 32 bits of B. -/
def execIshl (w : ArithOps) (s : State) : Out :=
  laneBits w (some w.ty) none
    (fun a b _ => if tyBits w.ty ≤ b % 2 ^ 32 then 0 else a * 2 ^ (b % 2 ^ 32) % 2 ^ tyBits w.ty) s
/-- ISHR (R123). -/
def execIshr (w : ArithOps) (s : State) : Out :=
  laneBits w (some w.ty) none (fun a b _ => if tyBits w.ty ≤ b % 2 ^ 32 then 0 else a / 2 ^ (b % 2 ^ 32)) s
/-- ISAR (R123): the sign bit is copied whatever the type. -/
def execIsar (w : ArithOps) (s : State) : Out :=
  laneBits w (some w.ty) none
    (fun a b _ => wrapInt (tyBits w.ty) (toSigned (tyBits w.ty) a / 2 ^ min (b % 2 ^ 32) (tyBits w.ty))) s
/-- ILOP3 (R123): the truth table lies in imm24[7:0]. -/
def execIlop3 (w : ArithOps) (s : State) : Out :=
  laneBits w (some w.ty) (some w.ty)
    (fun a b c =>
      ofElems 1 ((List.range (tyBits w.ty)).map fun j =>
        b2n (bit w.imm.toNat (4 * b2n (bit a j) + 2 * b2n (bit b j) + b2n (bit c j))))) s

/-- IMIN (R124). -/
def execImin (w : ArithOps) (s : State) : Out := laneInt w (some w.ty) none (fun a b _ => min a b) s
/-- IMAX (R124). -/
def execImax (w : ArithOps) (s : State) : Out := laneInt w (some w.ty) none (fun a b _ => max a b) s
/-- POPC (R124). -/
def execPopc (w : ArithOps) (s : State) : Out := laneBits w none none (fun a _ _ => popcount (tyBits w.ty) a) s
/-- CLZ (R124). -/
def execClz (w : ArithOps) (s : State) : Out := laneBits w none none (fun a _ _ => leadingZeros (tyBits w.ty) a) s
/-- The bits of a number in reverse order. -/
def reverseBits (n x : Nat) : Nat := ofElems 1 ((List.range n).map fun j => b2n (bit x (n - 1 - j)))
/-- BREV (R124). -/
def execBrev (w : ArithOps) (s : State) : Out := laneBits w none none (fun a _ _ => reverseBits (tyBits w.ty) a) s

/-- The position of the field of BFE and BFI (R125). -/
def fieldPos (w : ArithOps) : Nat := bits w.imm.toNat 5 0
/-- The length of the field of BFE and BFI (R125). -/
def fieldLen (w : ArithOps) : Nat := bits w.imm.toNat 12 6
/-- BFE (R125). -/
def execBfe (w : ArithOps) (s : State) : Out :=
  laneBits w none none
    (fun a _ _ =>
      let f := a / 2 ^ fieldPos w % 2 ^ fieldLen w
      if tySigned w.ty then wrapInt (tyBits w.ty) (toSigned (fieldLen w) f) else f) s
/-- BFI (R125). -/
def execBfi (w : ArithOps) (s : State) : Out :=
  laneBits w (some w.ty) none
    (fun a b _ =>
      b % 2 ^ fieldPos w + a % 2 ^ fieldLen w * 2 ^ fieldPos w
      + b / 2 ^ (fieldPos w + fieldLen w) * 2 ^ (fieldPos w + fieldLen w)) s

/-- The conditions of Table 3.13 on integers. -/
def intCond (k : Nat) (a b : Int) : Bool :=
  match k with
  | 0 => a == b
  | 1 => a != b
  | 2 => a < b
  | 3 => a ≤ b
  | 4 => b < a
  | _ => b ≤ a
/-- ISETP (R126). -/
def execIsetp (w : ArithOps) (s : State) : Out :=
  lanePred w w.ty (fun a b => (intCond w.imm.toNat (intElem w.ty a) (intElem w.ty b), Flags.none)) s

/-- A predicate of imm24[2:0] in every lane. -/
def State.immPred (s : State) (w : ArithOps) : Mask := s.ag.getP (Fin.ofNat 8 (bits w.imm.toNat 2 0))

/-- SEL (R127): whole lane values are copied. -/
def execSel (w : ArithOps) (s : State) : Out :=
  laneRun w.h true (arithUses w (some w.ty) (some w.ty) none) (destNames w.h w.ty) s fun act s =>
    let p := if bit w.imm.toNat 3 then ~~~(s.immPred w) else s.immPred w
    let a := s.operand w.ty w.imm w.a
    let b := s.operand w.ty w.imm w.b
    let vals := (List.range 64).map fun l => if p.getLsbD l then a.getD l 0 else b.getD l 0
    .next ((s.result w.h w.ty (tyTag w.ty) act vals).nextLane w.h)
/-- MOV (R127). -/
def execMov (w : ArithOps) (s : State) : Out := laneBits w none none (fun a _ _ => a) s
/-- PLANE (R127). -/
def execPlane (w : ArithOps) (s : State) : Out :=
  laneRun w.h true [] (destNames w.h w.ty) s fun act s =>
    let p := s.immPred w
    .next ((s.result w.h w.ty (tyTag w.ty) act ((List.range 64).map fun l => b2n (p.getLsbD l))).nextLane w.h)

end Sys2Proof.Machine
end

