-- ==== Sys2Proof/Machine/Convert.lean ====
section
/-! DEFINITION. Conversions (R136 to R141). -/

namespace Sys2Proof.Machine

/-- A value converted to a floating-point format: an infinite one raises invalid where the format has no infinity (R136). -/
def convToFloat (f : Fmt) (r : Rnd) (sat : Bool) (v : FVal) : Nat × Flags :=
  let noInf := match f with
    | .ieee .. => false
    | .e4m3 | .taper .. => true
  let extra := match v with
    | .inf _ => Flags.when noInf Flags.inv
    | .nan sig => Flags.when sig Flags.inv
    | .num .. => Flags.none
  f.deliverF r sat (v, extra)

/-- Absolute value and negation act on the sign of a float element (R136); the one zero of T8 and T6 has no sign (R94; DEDUCED, log 16). -/
def signElem (f : Fmt) (abs neg : Bool) (v : FVal) : FVal :=
  match f, v with
  | .taper .., .num _ ⟨0, _, _⟩ => v
  | _, v => v.modify abs neg

/-- `conv` of one element (R136), with absolute value and negation of the source element. -/
def convElem (src dst : Ty) (r : Rnd) (sat absA negA : Bool) (x : Nat) : Nat × Flags :=
  match tyFmt src, tyFmt dst with
  | some fs, some fd => convToFloat fd r sat (signElem fs absA negA (fs.decode x))
  | some fs, none =>
    let (lo, hi) := intRange (tySigned dst) (elemBits dst)
    let (i, fl) := ((fs.decode x).modify absA negA).toRange r sat lo hi
    (wrapInt (elemBits dst) i, fl)
  | none, fd =>
    let i := intElem src x
    let i : Int := if absA then i.natAbs else i
    let i := if negA then -i else i
    match fd with
    | some fd => convToFloat fd r sat (FVal.ofInt i)
    | none => deliverInt (tySigned dst) (elemBits dst) sat i

/-- A lane value converted: the elements that both types have (R136). -/
def convLane (src dst : Ty) (r : Rnd) (sat absA negA : Bool) (x : Nat) : Nat × Flags :=
  let rs := ((elems src x).take dst.count).map (convElem src dst r sat absA negA)
  (ofElems (elemBits dst) (rs.map (·.1)), rs.foldl (fun g y => g ||| y.2) Flags.none)

/-- The source type of CVT. -/
def cvtSrc (w : ArithOps) : Ty := (Ty.ofCode (bits w.imm.toNat 4 0)).getD .s32

/-- CVT (R136). -/
def execCvt (w : ArithOps) (s : State) : Out :=
  laneArith w (some (cvtSrc w)) none none w.ty (tyTag w.ty)
    (fun r a _ _ => convLane (cvtSrc w) w.ty r w.m.sat w.m.absA w.m.negA a) s

/-! ## Quantization (R137, R138) -/

/-- The magnitude of a finite value; zero for others. -/
def FVal.mag : FVal → Mag
  | .num _ x => x
  | _ => Mag.exact 0 0

/-- A magnitude is at most another. -/
def Mag.le (x y : Mag) : Bool :=
  let e := min x.e y.e
  x.m * 2 ^ (x.e - e).toNat ≤ y.m * 2 ^ (y.e - e).toNat

/-- The larger magnitude. -/
def Mag.max (x y : Mag) : Mag := if x.le y then y else x

/-- The largest finite value of a format. -/
def Fmt.largestMag (f : Fmt) : Mag := (f.decode f.largest).mag

/-- The smallest integer `t` with `m ≤ L·2^t`, for a non-zero magnitude: one of two neighbours. -/
def scaleExp (f : Fmt) (m : Mag) : Int :=
  let l := f.largestMag
  let t := m.top - l.top
  if m.le { l with e := l.e + t } then t else t + 1

/-- The scale exponent of a block, and whether it was clamped (R137). -/
def blockScale (f : Fmt) (xs : List FVal) : Int × Bool :=
  let m := xs.foldl (fun a x => Mag.max a x.mag) (Mag.exact 0 0)
  if m.m = 0 then (-127, false)
  else
    let t := scaleExp f m
    if t < -127 then (-127, true) else if 127 < t then (127, true) else (t, false)

/-- One element of a quantized block (R137). A signalling NaN raises invalid (R92). -/
def quantElem (f : Fmt) (r : Rnd) (t : Int) (x : FVal) : Nat × Flags :=
  match x with
  | .num neg m => f.deliver r true (.num neg { m with e := m.e - t })
  | x => convToFloat f r true x

/-- The 64 values quantized: the row of elements, the scale bytes and the flags (R137). -/
def quantize (ty : Ty) (r : Rnd) (xs : List FVal) : List Nat × List Nat × Flags :=
  let f := fmtOf ty
  let blocks := [xs.take 32, xs.drop 32].map fun b =>
    let (t, clamped) := blockScale f b
    ((t + 127).toNat, Flags.when clamped Flags.sat, b.map (quantElem f r t))
  let es := blocks.flatMap fun b => b.2.2.map (·.1)
  let fl := blocks.foldl (fun g b => b.2.2.foldl (fun g e => g ||| e.2) (g ||| b.2.1)) Flags.none
  let row := (List.range 64).map fun l => ofElems (elemBits ty) ((es.drop (l * ty.count)).take ty.count)
  let sc := match blocks.map (·.1) with
    | [a, b] => a + 256 * b
    | _ => 0
  (row, sc :: List.replicate 63 0, fl)

/-- QNT (R137): it writes the whole of both rows, whichever lanes are active; its latch reads zero in a lane that was not active (R37, R109).
(DESIGN CHOICE, log 79) -/
def execQnt (w : ArithOps) (s : State) : Out :=
  let sc := bits w.imm.toNat 8 0
  laneRun w.h true (arithUses w (some .f32) none none) (destNames w.h w.ty ++ [sc]) s fun act s =>
    let a := s.operand .f32 0 w.a
    let xs := (List.range 64).map fun l => if act.getLsbD l then Fmt.f32.decode (a.getD l 0) else FVal.ofInt 0
    let (row, scales, fl) := quantize w.ty (roundMode w.m.rnd s.blockMode) xs
    let s := (s.result w.h w.ty (tyTag w.ty) allLanes row).capture w.h.latch act row
    .next (((s.writeName sc 0xB allLanes scales).raise fl).nextLane w.h)

/-- One element of DQNT: `q·2^(s - 127)`, NaN for the scale 0xFF (R99, R138). -/
def dequant (f : Fmt) (r : Rnd) (scale q : Nat) : Nat × Flags :=
  let v := f.decode q
  let fl := Flags.when v.signals Flags.inv
  let v : FVal := if scale = 255 then .nan false else
    match v with
    | .num neg x => .num neg { x with e := x.e + (scale : Int) - 127 }
    | v => v
  Fmt.f32.deliverF r false (v, fl)

/-- DQNT (R138): lane `l` reads element `l` of the row, from whichever lane holds it. -/
def execDqnt (w : ArithOps) (s : State) : Out :=
  let t := w.ty
  laneRun w.h true (arithUses w (some t) (some .u32) none) (destNames w.h .f32) s fun act s =>
    let q := s.operand t w.imm w.a
    let sc := (s.operand .u32 w.imm w.b).getD 0 0
    let r := roundMode w.m.rnd s.blockMode
    let es := (List.range 64).map fun l =>
      (q.getD (l / t.count) 0) / 2 ^ (l % t.count * elemBits t) % 2 ^ elemBits t
    let (vals, fl) := runLanes act (fun x y _ => dequant (fmtOf t) r y x) es
      ((List.range 64).map fun l => sc / 2 ^ (8 * (l / 32)) % 256) (List.replicate 64 0)
    .next (((s.result w.h .f32 (tyTag .f32) act vals).raise fl).nextLane w.h)

/-! ## Fixed point (R139, R140) -/

/-- The scale of CVTQ and CVTF. -/
def fixScale (w : ArithOps) : Nat := bits w.imm.toNat 5 0

/-- A value times a power of two. -/
def FVal.shift (v : FVal) (n : Int) : FVal :=
  match v with
  | .num neg x => .num neg { x with e := x.e + n }
  | v => v

/-- CVTQ (R139). -/
def execCvtq (w : ArithOps) (s : State) : Out :=
  laneArith w (some w.ty) none none .s64 0
    (fun r a _ _ =>
      let v := (((fmtOf w.ty).decode a).modify w.m.absA w.m.negA).shift (fixScale w)
      let (i, fl) := v.toRange r w.m.sat (-2 ^ 63) (2 ^ 63 - 1)
      (wrapInt 64 i, fl)) s

/-- CVTF (R140). -/
def execCvtf (w : ArithOps) (s : State) : Out :=
  laneArith w (some .s64) none none w.ty (tyTag w.ty)
    (fun r a _ _ => (fmtOf w.ty).deliver r false ((FVal.ofInt (toSigned 64 a)).shift (-(fixScale w : Int)))) s

/-! ## PACK and UNPK (R141) -/

/-- A lane value with element `k` replaced. -/
def setElem (t : Ty) (x k v : Nat) : Nat :=
  ofElems (elemBits t) ((elems t x).set k v)

/-- PACK (R141). -/
def execPack (w : ArithOps) (s : State) : Out :=
  laneBits w (some w.ty) none (fun a b _ => setElem w.ty b w.imm.toNat ((elems w.ty a).getD 0 0)) s
/-- UNPK (R141). -/
def execUnpk (w : ArithOps) (s : State) : Out :=
  laneBits w (some w.ty) none (fun a b _ => setElem w.ty b 0 ((elems w.ty a).getD w.imm.toNat 0)) s

end Sys2Proof.Machine
end

