-- ==== Sys2Proof/Machine/Copy.lean ====
section
/-! DEFINITION. The copy engine: CPY, its bursts and its completion (R173, R284 to R291). -/

namespace Sys2Proof.Machine

/-! ## Geometry (R286, R287) -/

/-- The kinds of copy transforms (Table 12.5). -/
inductive Shape where
  | plain | block | unblock | transpose | pad
  deriving DecidableEq, Repr

/-- A copy as its descriptor gives it. `u` is the bytes of an element. -/
structure Copy where
  shape : Shape
  u : Nat
  dims : Nat
  src : Word
  dst : Word
  b : Nat
  r : Nat
  p : Nat
  srs : Nat
  drs : Nat
  sps : Nat
  dps : Nat
  deriving DecidableEq, Repr

/-- The transform of a code. -/
def Shape.ofCode (t : Nat) : Shape :=
  if t = 0 then .plain
  else
    match (t - 1) / 3 with
    | 0 => .block
    | 1 => .unblock
    | 2 => .transpose
    | _ => .pad

/-- The bytes of an element of a code. -/
def elemBytes (t : Nat) : Nat := if t = 0 then 1 else 2 ^ ((t - 1) % 3)

/-- The copy of a descriptor: rows and planes are 1 where the dimension is not used. -/
def Copy.ofDesc (d : List Word) (t n : Nat) : Copy :=
  let shape := descNat d 2
  { shape := Shape.ofCode t, u := elemBytes t, dims := n, src := d.getD 0 0, dst := d.getD 1 0, b := bits shape 31 0,
    r := if n < 2 then 1 else bits shape 47 32, p := if n < 3 then 1 else bits shape 63 48,
    srs := bits (descNat d 3) 31 0, drs := bits (descNat d 3) 63 32, sps := bits (descNat d 4) 31 0,
    dps := bits (descNat d 4) 63 32 }

/-- The bits that must be zero in fewer than three dimensions (R286). -/
def copyReserved (d : List Word) (n : Nat) : Bool :=
  (n < 2 && (bits (descNat d 2) 63 32 != 0 || descNat d 3 != 0)) || (n < 3 && (bits (descNat d 2) 63 48 != 0 || descNat d 4 != 0))

/-- A count of zero in a used dimension (R286). -/
def Copy.empty (c : Copy) : Bool := c.b = 0 || c.r = 0 || c.p = 0
/-- Elements of a row. -/
def Copy.cols (c : Copy) : Nat := c.b / c.u
/-- A number rounded up to a multiple of 64. -/
def up64 (n : Nat) : Nat := (n + 63) / 64 * 64
/-- Bytes of a blocked operand of one plane. -/
def Copy.blocked (c : Copy) : Nat := up64 c.r * up64 c.cols * c.u

/-- Rows of the destination in one plane, and the bytes of a row (Table 12.5). -/
def Copy.dstRows (c : Copy) : Nat × Nat :=
  if c.empty then (0, 0)
  else
    match c.shape with
    | .plain | .unblock => (c.r, c.b)
    | .block => (1, c.blocked)
    | .transpose => (c.cols, c.r * c.u)
    | .pad => (up64 c.r, up64 c.cols * c.u)

/-- Rows of the source in one plane, and the bytes of a row. -/
def Copy.srcRows (c : Copy) : Nat × Nat :=
  if c.empty then (0, 0)
  else
    match c.shape with
    | .unblock => (1, c.blocked)
    | _ => (c.r, c.b)

/-- Bytes from the first to the last of an operand (R288). (DEDUCED, log 23) -/
def span (planes ps rows rs bytes : Nat) : Nat :=
  if planes = 0 ∨ rows = 0 ∨ bytes = 0 then 0 else (planes - 1) * ps + (rows - 1) * rs + bytes

/-- The extent of the source. -/
def Copy.srcSpan (c : Copy) : Nat := span c.p c.sps c.srcRows.1 c.srs c.srcRows.2
/-- The extent of the destination. -/
def Copy.dstSpan (c : Copy) : Nat := span c.p c.dps c.dstRows.1 c.drs c.dstRows.2

/-- The bytes counted (Table 12.5). -/
def Copy.counted (c : Copy) : Nat := c.dstRows.1 * c.dstRows.2 * (if c.empty then 0 else c.p)

/-- The offset of a byte of a blocked operand (R173): element (i, j). -/
def Copy.blockOff (c : Copy) (i j : Nat) : Nat :=
  ((i / 64 * (up64 c.cols / 64) + j / 64) * 4096 + i % 64 * 64 + j % 64) * c.u

/-- The element that lies at an index of a blocked operand. -/
def Copy.blockElem (c : Copy) (k : Nat) : Nat × Nat :=
  let tile := k / 4096
  let across := up64 c.cols / 64
  (tile / across * 64 + k % 4096 / 64, tile % across * 64 + k % 64)

/-- The byte of an element of the source's plain rows, zero outside them. -/
def Copy.srcElem (c : Copy) (i j x : Nat) : Option Nat := if i < c.r ∧ j < c.cols then some (i * c.srs + j * c.u + x) else none

/-- Where byte `b` of destination row `y` comes from, as an offset within the source's plane; `none` is a zero (R287). -/
def Copy.srcAt (c : Copy) (y b : Nat) : Option Nat :=
  let k := b / c.u
  let x := b % c.u
  match c.shape with
  | .plain => some (y * c.srs + b)
  | .unblock => some (c.blockOff y k + x)
  | .block => c.srcElem (c.blockElem k).1 (c.blockElem k).2 x
  | .transpose => c.srcElem k y x
  | .pad => c.srcElem y k x

/-! ## Bursts (R289) -/

/-- Consecutive bytes of one destination row: plane, row, offset in the row, bytes. -/
structure Seg where
  z : Nat
  y : Nat
  off : Nat
  len : Nat
  deriving DecidableEq, Repr

/-- What one burst carries: bytes of one row, and with them those of other rows that lie in its words. -/
abbrev Burst := List Seg

/-- Every destination row begins at a multiple of 4. -/
def Copy.aligned (c : Copy) : Bool := c.dst.toNat % 4 == 0 && c.drs % 4 == 0 && c.dps % 4 == 0

/-- Bursts of a destination row; where rows begin within a word, the last may be empty. -/
def Copy.perRow (c : Copy) : Nat := (c.dstRows.2 + (if c.aligned then 255 else 258)) / 256
/-- Bursts of a copy. -/
def Copy.total (c : Copy) : Nat := if c.empty then 0 else c.perRow * c.dstRows.1 * c.p

/-- The first byte of a destination row, by its number over all planes. -/
def Copy.rowStart (c : Copy) (row : Nat) : Nat := c.dst.toNat + row / c.dstRows.1 * c.dps + row % c.dstRows.1 * c.drs

/-- The plane, row and byte of the destination that lies `x` bytes after its pointer, if any. -/
def Copy.dstIndex (c : Copy) (x : Nat) : Option (Nat × Nat × Nat) :=
  (List.range c.p).findSome? fun z =>
    if x < z * c.dps then none
    else
      let r := x - z * c.dps
      let y := if c.drs = 0 then 0 else min (r / c.drs) (c.dstRows.1 - 1)
      let b := r - y * c.drs
      if b < c.dstRows.2 then some (z, y, b) else none

/-- The destination bytes that lie in an aligned word, of whatever rows and planes they are. -/
def Copy.wordBytes (c : Copy) (word : Nat) : List Seg :=
  (List.range 4).filterMap fun i =>
    if 4 * word + i < c.dst.toNat then none
    else (c.dstIndex (4 * word + i - c.dst.toNat)).map fun (z, y, b) => { z := z, y := y, off := b, len := 1 }

/-- The row that carries an aligned word: the last, over all planes, that has a byte in it. -/
def Copy.wordRow (c : Copy) (word : Nat) : Nat := (c.wordBytes word).foldl (fun n g => max n (g.z * c.dstRows.1 + g.y)) 0

/-- A burst by number: bursts meet at multiples of 4 of the destination, and a word that several rows share goes with the last of them, so that
each aligned word is written whole, by one burst (R230, R289). -/
def Copy.burst (c : Copy) (n : Nat) : Burst :=
  let row := n / c.perRow
  let k := n % c.perRow
  let start := c.rowStart row
  let into := start % 4
  let off := min c.dstRows.2 (k * 256 - into)
  let len := min c.dstRows.2 ((k + 1) * 256 - into) - off
  if c.aligned then [{ z := row / c.dstRows.1, y := row % c.dstRows.1, off := off, len := len }]
  else
    ((upTo ((start + off) / 4) ((start + off + len + 3) / 4)).filter fun w => len ≠ 0 ∧ c.wordRow w = row).flatMap c.wordBytes

/-- The bytes of a burst. -/
def Burst.len (x : Burst) : Nat := x.foldl (fun n g => n + g.len) 0

/-- The source bytes of a burst, from the source pointer on. -/
def Copy.sources (c : Copy) (x : Burst) : List (Option Nat) :=
  x.flatMap fun g => (List.range g.len).map fun i => (c.srcAt g.y (g.off + i)).map (g.z * c.sps + ·)

/-- The offset of the first destination byte of a part of a burst. -/
def Copy.dstOff (c : Copy) (g : Seg) : Nat := g.z * c.dps + g.y * c.drs + g.off

/-- The offset of each destination byte of a burst. -/
def Copy.dstOffs (c : Copy) (x : Burst) : List Nat := x.flatMap fun g => (List.range g.len).map (c.dstOff g + ·)

/-- Parts of a burst that follow one another in the destination, joined: offset and bytes. -/
def joinSegs : List (Nat × Nat) → List (Nat × Nat)
  | [] => []
  | (a, n) :: r =>
    match joinSegs r with
    | (b, m) :: xs => if a + n = b then (a, n + m) :: xs else (a, n) :: (b, m) :: xs
    | [] => [(a, n)]

/-- Where a burst goes: the ranges of the destination, from its pointer on. -/
def Copy.targets (c : Copy) (x : Burst) : List (Nat × Nat) := joinSegs (x.map fun g => (c.dstOff g, g.len))

/-- The pieces that a burst stores to, or the failures of their pages. -/
def State.targetPieces (s : State) (w : Who) (c : Copy) (x : Burst) : List (Except Fail Piece) :=
  (c.targets x).zipIdx.flatMap fun (r, k) => s.pieces w .store (c.dst + BitVec.ofNat 64 r.1) r.2 (255 + k)

/-! ## A copy onto its own source (R289) -/

/-- The place of a pointer as its maker sees it: space, rank and offset, with local space as remote-local. -/
def placeOf (w : Who) (p : Word) : Nat × Nat × Nat :=
  if ptrSpace p = 1 then (2, w.rank, ptrOffset p) else (ptrSpace p, ptrRank p, ptrOffset p)

/-- The distance from the destination's pointer to the source's, where their extents meet. -/
def Copy.overlap (c : Copy) (w : Who) : Option Int :=
  let (s, sr, so) := placeOf w c.src
  let (d, dr, dof) := placeOf w c.dst
  if s = d ∧ sr = dr ∧ so < dof + c.dstSpan ∧ dof < so + c.srcSpan then some ((so : Int) - dof) else none

/-- The old byte at an offset from the source pointer: as it was before the command wrote it. -/
def State.oldByte (s : State) (w : Who) (c : Cmd) (p : Word) : Byte :=
  match c.old.find? (placeOf w p).2.2 with
  | some b => b
  | none => (s.load w false p 1 0).headD 0

/-- The bytes of a burst of a copy onto its own source: for each destination word whose source bytes the command writes, the
old or the new ones are chosen (R289); a byte's new value is what the command has written there, or will write. (DESIGN CHOICE, log 25) -/
def State.mixOverlap (s : State) (w : Who) (c : Cmd) (cp : Copy) (dist : Int) (x : Burst) (bs : List Byte) : List Byte :=
  (bs.zip ((cp.sources x).zip (cp.dstOffs x))).map fun v =>
    match v.2.1 with
    | none => v.1
    | some o =>
      let at_ := (o : Int) + dist
      match if at_ < 0 then none else cp.dstIndex at_.toNat with
      | none => v.1
      | some (z, y, b) =>
        let p := cp.src + BitVec.ofNat 64 o
        let word := (ptrOffset cp.dst + v.2.2) / 4
        if Config.freeNat (s.fresh + 32768 + word % 128) % 2 = 0 then s.oldByte w c p
        else if (c.old.find? (placeOf w p).2.2).isSome then v.1
        else
          match cp.srcAt y b with
          | none => 0
          | some q => s.oldByte w c (cp.src + BitVec.ofNat 64 (z * cp.sps + q))

/-- Remembers the bytes that a burst overwrites. -/
def State.keepOld (s : State) (w : Who) (c : Cmd) (cp : Copy) (offs : List Nat) : Cmd :=
  offs.foldl
    (fun c i =>
      let p := cp.dst + BitVec.ofNat 64 i
      let k := (placeOf w p).2.2
      if (c.old.find? k).isSome then c else { c with old := Sparse.insert c.old k ((s.load w false p 1 0).headD 0) })
    c

/-! ## CPY (R285, R288) -/

/-- CPY (R285 to R288). (DESIGN CHOICE, log 85) -/
def execCpy (e : EngOps) (t : Fin 16) (n : Fin 4) (s : State) : Out :=
  whenDrained s fun s =>
    let d := s.ag.desc e.a 5
    let c := Copy.ofDesc d t.val n.val
    let peers := [c.src, c.dst].filter fun p => ptrSpace p == 5
    match s.ag.role, peers with
    | .cpy, p :: _ => fault s 0x10 p
    | .com, [] => fault s 0x07 s.ag.spc
    | .gen, _ | .mtx, _ => fault s 0x07 s.ag.spc
    | .cpy, [] | .com, _ :: _ =>
      if copyReserved d n.val || c.b % c.u != 0 then answer e.q false s
      else
        let strides := [c.srs, c.sps].any (· % c.u != 0)
        let aligned : Option Fail :=
          if c.src.toNat % c.u != 0 || strides then some { code := 0x13, addr := c.src }
          else if c.dst.toNat % c.u != 0 || c.drs % c.u != 0 || c.dps % c.u != 0 then some { code := 0x13, addr := c.dst }
          else none
        let spaces := [0, 1, 2, 3, 4, 5]
        match firstFail [extentFail s.tm s.who [{ spaces := spaces, ptr := c.src, size := c.srcSpan },
            { spaces := spaces, ptr := c.dst, size := c.dstSpan }], aligned, s.barFail e.b] with
        | some f => fault s f.code f.addr
        | none =>
          if 1024 ≤ s.engineLoad s.who.core [.cpy, .hread] then answer e.q false s
          else gangSync (e.acq && e.s == .gang) s fun s =>
            let cmd := s.newCmd .cpy (.cpy e t n) e d
            let s := if e.acq then s.acquire s.who.core e.s else s
            answer e.q true (s.addCmd cmd)

/-- The copy that a command carries out. -/
def Cmd.copy (c : Cmd) : Copy :=
  match c.instr with
  | .cpy _ t n => Copy.ofDesc c.desc t.val n.val
  | _ => Copy.ofDesc c.desc 0 1

/-! ## CPY_BURST (R289, R290) -/

/-- The bytes that a peer returns, which nothing on this module fixes (R333). -/
def State.peerBytes (s : State) (n : Nat) : List Byte :=
  (List.range n).map fun i => BitVec.ofNat 8 (Config.freeNat (s.fresh + 49152 + i))

/-- How a peer answers a transfer (R245): the codes of R245, or none. (DESIGN CHOICE, log 26) -/
def State.peerAnswer (s : State) : Byte :=
  [0, 0x14, 0x22, 0x23, 0x24].getD (Config.freeNat (s.fresh + 49151) % 5) 0

/-- A burst fails: nothing more is requested, and the first code stands (R290). After an early arrival no code is posted any more. -/
def Cmd.stopCopy (c : Cmd) (code : Byte) : Cmd := { (if c.arrived then c else c.fail code) with stopped := true }

/-- The packets of a burst towards a peer, one for each range of the destination. -/
def State.peerPackets (s : State) (t : Team) (c : Cmd) (cp : Copy) : List (Nat × Nat) → List Byte → List Packet
  | [], _ => []
  | r :: rs, bs =>
    let p := cp.dst + BitVec.ofNat 64 r.1
    let route := s.autoRoute t.pkt.gangid t.pkt.grank (bits p.toNat 57 46) rs.length
    { kind := .put, route := route, ops := autoOps route, overflow := false, encrypted := t.pkt.enc, gang := t.pkt.gangid,
      srcRank := BitVec.ofNat 16 t.pkt.grank, coll := 0, slot := 0, offset := spaceOffset p, payload := bs.take r.2, cmd := c.id }
    :: State.peerPackets s t c cp rs (bs.drop r.2)

/-- A burst towards a peer leaves as packets for the peer's window; the peer's answer may fail it. -/
def State.peerBurst (s : State) (c : Cmd) (cp : Copy) (x : Burst) (bs : List Byte) : State :=
  match s.getTeam c.team with
  | none => s
  | some t =>
    let code := s.peerAnswer
    let s := s.setCmd (if code = 0 then c else c.stopCopy code)
    (s.peerPackets t c cp ((cp.targets x).filter fun r => r.2 != 0) bs).foldl State.send s

/-- Delivers what a burst has read: it is suspended on an absent page, stops at a page or sector that fails, or writes all its bytes.
(DESIGN CHOICE, log 76) -/
def State.deliverBurst (s : State) (w : Who) (c : Cmd) (cp : Copy) (n : Nat) (x : Burst) (g : Gather) : State :=
  let done := { c with pending := c.pending.erase n, early := c.early.filter fun u => u.burst != n }
  let stop := g.stop.map c.judge
  let finish (f : Option Fail) (c : Cmd) : Cmd :=
    match f with
    | some f => c.stopCopy f.code
    | none => c
  let absent := match stop with
    | some f => f.code == 0x11
    | none => false
  if ptrSpace cp.dst = 5 && absent then s.suspend c w.ctx (g.stop.elim 0 Fail.addr)
  else if ptrSpace cp.dst = 5 then (s.tellFail w.ctx g.stop).peerBurst (finish stop done) cp x g.bytes
  else
    let (ps, bad) := cutPieces (s.targetPieces w cp x)
    let met := bad
    let bad := bad.map c.judge
    match stop, bad with
    | some { code := 0x11, addr := a, .. }, _ | none, some { code := 0x11, addr := a, .. } => s.suspend c w.ctx a
    | _, _ =>
      let len := min g.bytes.length (piecesLen ps)
      let short : Bool := len < g.bytes.length
      let f := if short then bad else (match stop with | some f => some f | none => bad)
      let told := if short then met else (match stop with | some _ => g.stop | none => met)
      let done := finish f done
      let dist := cp.overlap w
      let bs := match dist with
        | some k => s.mixOverlap w c cp k x g.bytes
        | none => g.bytes
      let done := match dist with
        | some _ => s.keepOld w done cp ((cp.dstOffs x).take len)
        | none => done
      ((s.setCmd done).writePieces w ps (bs.take len)).tellFail w.ctx told

/-- A requested burst of a copy is tried. -/
def State.tryBurst (s : State) (c : Cmd) (n : Nat) : State :=
  let cp := c.copy
  let x := cp.burst n
  let w := s.whoCmd c
  let runs := joinRuns (cp.sources x)
  if ptrSpace cp.src = 5 then
    let code := s.peerAnswer
    let g : Gather :=
      if code = 0 then { bytes := s.peerBytes x.len, stop := none } else { bytes := [], stop := some { code := code, addr := cp.src } }
    s.deliverBurst w c cp n x g
  else
    let s := s.beforeAccess cp.src
    let scope := c.scope == .warp
    let touched := runs.zipIdx.flatMap fun (r, k) => s.runPieces w cp.src r k
    let out := if ptrSpace cp.dst = 5 then [] else s.targetPieces w cp x
    if s.transferWaits c (touched ++ out) then s.setCmd c
    else (s.seen w scope 0 (goodPieces touched)).deliverBurst w c cp n x (s.gatherRuns w scope (c.ahead n) cp.src runs 0)

/-- The bursts up to a number are requested; a failed copy and a frozen team request none (R290, R310). -/
def Cmd.request (c : Cmd) (total n : Nat) (frozen : Bool) : Cmd :=
  let stop := min total (n + 1)
  if frozen || c.stopped || stop ≤ c.cursor then c else { c with pending := c.pending ++ upTo c.cursor stop, cursor := stop }

/-- CPY_BURST (R289, R290): requests the bursts up to `n`, all of them where `n` lies beyond the last, and delivers burst `n`, suspends
it or fails it. -/
def execCpyBurst (cmd n : Nat) (s : State) : Out :=
  match s.getCmd cmd with
  | none => .next s
  | some c =>
    if c.kind ≠ .cpy then .next s
    else
      let c := c.request c.copy.total n (s.frozen c.team)
      .next (if c.pending.contains n then s.tryBurst c n else s.setCmd c)

/-! ## CPY_COMPLETE (R229, R289, R291) -/

/-- A burst that has been requested will be delivered as things stand. -/
def State.burstPasses (s : State) (c : Cmd) (n : Nat) : Bool :=
  let cp := c.copy
  let x := cp.burst n
  let w := s.whoCmd c
  ptrSpace cp.src != 5 && ptrSpace cp.dst != 5
  && (s.gatherRuns w (c.scope == .warp) (c.ahead n) cp.src (joinRuns (cp.sources x)) 0).stop.isNone
  && (badPieces (s.targetPieces w cp x)).isEmpty

/-- The completion arrival may be made: every burst that is requested has been delivered, its packets with it, and no more will be, or, without
rel, every burst that is under way will be (R229, R290). (DEDUCED, log 24) -/
def State.cpyMayArrive (s : State) (c : Cmd) : Bool :=
  !c.arrived && (c.stopped || c.copy.total ≤ c.cursor) && !s.underWay c
  && (c.pending.isEmpty || (!c.rel && c.suspended.isEmpty && c.pending.all (s.burstPasses c)))

/-- CPY_COMPLETE (R289, R291): the one arrival, with the counted bytes and the first error. The command ends when its last burst has
been delivered too. -/
def execCpyComplete (cmd : Nat) (s : State) : Out :=
  match s.getCmd cmd with
  | none => .next s
  | some c =>
    if c.kind ≠ .cpy then .next s
    else
      let may := s.cpyMayArrive c
      let s := if may then s.arriveCmd c c.copy.counted c.err else s
      let c := if may then { c with arrived := true } else c
      if c.arrived && c.pending.isEmpty then .next (s.endCmd c) else .next (s.setCmd c)

end Sys2Proof.Machine
end

