-- ==== Sys2Proof/Machine/CrossLane.lean ====
section
/-! DEFINITION. Cross-lane instructions (R142 to R146). -/

namespace Sys2Proof.Machine

/-- The source lane of SHFL for receiving lane `l` and operand `k` (R142). -/
def shflLane (mode k l : Nat) : Nat :=
  match mode with
  | 0 => k % 64
  | 1 => if k ≤ l then l - k else l
  | 2 => if l + k ≤ 63 then l + k else l
  | _ => l ^^^ (k % 64)

/-- SHFL (R142): A is read before any lane is written, whether or not the source lane is active. B is read at the word's type, as R57
converts it (DEDUCED, log 14). -/
def execShfl (w : ArithOps) (s : State) : Out :=
  laneRun w.h true (arithUses w (some w.ty) (some w.ty) none) (destNames w.h w.ty) s fun act s =>
    let a := s.operand w.ty w.imm w.a
    let b := s.operand w.ty w.imm w.b
    let vals := (List.range 64).map fun l => a.getD (shflLane (bits w.imm.toNat 1 0) (b.getD l 0 % 2 ^ 32) l) 0
    .next ((s.result w.h w.ty (tyTag w.ty) act vals).nextLane w.h)

/-- BALLOT (R143); with no active lane it writes 0 (R110). -/
def execBallot (w : ArithOps) (s : State) : Out :=
  let v := s.active w.h &&& s.immPred w
  .next ((s.modAg fun a => a.queueWrite fun a => a.setG (Fin.ofNat 64 w.h.name.val) v).nextLane w.h)

/-- VOTE (R144); an empty set gives true for ALL and NONE and false for ANY. -/
def execVote (w : ArithOps) (s : State) : Out :=
  let act := s.active w.h
  let p := s.immPred w
  let v := match bits w.imm.toNat 4 3 with
    | 0 => act &&& ~~~p == 0
    | 1 => act &&& p != 0
    | _ => act &&& p == 0
  .next ((s.modAg fun a => a.queueWrite fun a => a.setQ (Fin.ofNat 8 w.h.name.val) v).nextLane w.h)

/-! ## Reductions (R145, R146) -/

/-- The operation of LRED and LSCAN on two lane values of a type. -/
def redOp (op : Nat) (t : Ty) (r : Rnd) (x y : Nat) : Nat × Flags :=
  match tyFmt t with
  | some f =>
    if op = 0 then f.deliverF r false ((f.decode x).add r (f.decode y)) else f.minMax (op == 2) x y
  | none =>
    let a := intElem t x
    let b := intElem t y
    let v := match op with
      | 0 => wrapInt (elemBits t) (a + b)
      | 1 => if b < a then y else x
      | 2 => if a < b then y else x
      | 3 => x &&& y
      | 4 => x ||| y
      | _ => x ^^^ y
    (v, Flags.none)

/-- The result for an empty set of lanes (Table 6.7). -/
def redIdentity (op : Nat) (t : Ty) : Nat :=
  match tyFmt t with
  | some f =>
    match op with
    | 0 => 0
    | 1 => f.infinity false
    | _ => f.infinity true
  | none =>
    let (lo, hi) := intRange (tySigned t) (elemBits t)
    match op with
    | 1 => wrapInt (elemBits t) hi
    | 2 => wrapInt (elemBits t) lo
    | 3 => 2 ^ elemBits t - 1
    | _ => 0

/-- A combination of nodes: an empty one passes the other through. (DEDUCED, log 114) -/
def combine (op : Nat) (t : Ty) (r : Rnd) (x y : Option Nat × Flags) : Option Nat × Flags :=
  match x.1, y.1 with
  | some a, some b =>
    let (v, f) := redOp op t r a b
    (some v, x.2 ||| y.2 ||| f)
  | some a, none => (some a, x.2 ||| y.2)
  | none, b => (b, x.2 ||| y.2)

/-- One level of the tree: neighbours are combined. -/
def redLevel (op : Nat) (t : Ty) (r : Rnd) : List (Option Nat × Flags) → List (Option Nat × Flags)
  | x :: y :: rest => combine op t r x y :: redLevel op t r rest
  | rest => rest

/-- The tree of R145 over 64 nodes. -/
def redTree (op : Nat) (t : Ty) (r : Rnd) (act : Mask) (vals : List Nat) : Option Nat × Flags :=
  let leaves := (List.range 64).map fun l => (if act.getLsbD l then some (vals.getD l 0) else none, Flags.none)
  let lvl := redLevel op t r
  (lvl (lvl (lvl (lvl (lvl (lvl leaves)))))).getD 0 (none, Flags.none)

/-- `extend` of R145. -/
def redExtend (t : Ty) (x : Nat) : Word := BitVec.ofNat 64 (if t = .s32 then wrapInt 64 (toSigned 32 x) else x)

/-- The operation field. -/
def redField (w : ArithOps) : Nat := bits w.imm.toNat 2 0

/-- LRED (R145): an empty set gives the identity (R110). -/
def execLred (w : ArithOps) (s : State) : Out :=
  let write (v : Nat) (s : State) : State := s.modAg fun a => a.queueWrite fun a => a.setG (Fin.ofNat 64 w.h.name.val) (redExtend w.ty v)
  let uses := arithUses w (some w.ty) none none
  if s.staleLatch uses then laneFault s 0x06 s.ag.cur.lpc
  else if s.active w.h = 0 then .next ((write (redIdentity (redField w) w.ty) s).nextLane w.h)
  else
    laneRun w.h false uses [] s fun act s =>
      let (v, fl) := redTree (redField w) w.ty (roundMode w.m.rnd s.blockMode) act (s.operand w.ty w.imm w.a)
      .next (((write (v.getD 0) s).raise fl).nextLane w.h)

/-- The left fold of R146: what each lane receives, and the flags. -/
def scanFold (op : Nat) (t : Ty) (r : Rnd) (excl : Bool) (act : Mask) :
    List (Nat × Nat) → Option Nat → Flags → List Nat × Flags
  | [], _, fl => ([], fl)
  | (v, l) :: rest, acc, fl =>
    if act.getLsbD l then
      let (acc', fl') := combine op t r (acc, fl) (some v, Flags.none)
      let last := excl && (act.toNat >>> (l + 1)) == 0
      let out := if excl then acc.getD (redIdentity op t) else acc'.getD 0
      let (outs, g) := scanFold op t r excl act rest acc' (if last then fl else fl')
      (out :: outs, g)
    else
      let (outs, g) := scanFold op t r excl act rest acc fl
      (0 :: outs, g)

/-- LSCAN (R146). -/
def execLscan (w : ArithOps) (s : State) : Out :=
  laneRun w.h true (arithUses w (some w.ty) none none) (destNames w.h w.ty) s fun act s =>
    let a := s.operand w.ty w.imm w.a
    let (vals, fl) := scanFold (redField w) w.ty (roundMode w.m.rnd s.blockMode) (bit w.imm.toNat 3) act
      ((List.range 64).map fun l => (a.getD l 0, l)) none Flags.none
    .next (((s.result w.h w.ty (tyTag w.ty) act vals).raise fl).nextLane w.h)

end Sys2Proof.Machine
end

