-- ==== Sys2Proof/Machine/Crypto.lean ====
section
/-! DEFINITION. The digests and signatures that the host commands use (R16, R342 to R344): SHA-384 (FIPS 180-4) and ECDSA P-384 (FIPS 186).
The manual names these standards and does not restate them: PRESUMED, log 7. -/

namespace Sys2Proof.Machine

/-! ## SHA-384 -/

/-- The greatest `r` with `r ^ k ≤ x` below `base + 2 ^ n`, one bit of it at a time from bit `n - 1` down. -/
def rootBits (k x : Nat) : Nat → Nat → Nat
  | 0, base => base
  | n + 1, base => rootBits k x n (if (base + 2 ^ n) ^ k ≤ x then base + 2 ^ n else base)

/-- The first 64 bits of the fractional part of the `k`-th root of a number. -/
def rootFraction (k p : Nat) : Word := BitVec.ofNat 64 (rootBits k (p * 2 ^ (64 * k)) 69 0)

/-- The prime numbers below a bound, rising. -/
def primesBelow (n : Nat) : List Nat := (List.range n).filter fun p => 2 ≤ p && (upTo 2 p).all fun d => p % d != 0

/-- The 80 round constants of SHA-384: the cube roots of the first 80 primes. (PRESUMED, log 7) -/
def shaConsts : List Word := (primesBelow 410).map (rootFraction 3)

/-- The eight working words of SHA-384, in the order a to h. -/
abbrev ShaState := List Word

/-- The initial words of SHA-384: the square roots of the ninth to the sixteenth prime. (PRESUMED, log 7) -/
def shaStart : ShaState := ((primesBelow 54).drop 8).map (rootFraction 2)

/-- A number of some bytes, most significant byte first. -/
def ofBytesBE (bs : List Byte) : Nat := ofBytes bs.reverse
/-- The `n` bytes of a number, most significant byte first. -/
def toBytesBE (n v : Nat) : List Byte := (toBytes n v).reverse

/-- A message with its padding: a whole number of 128-byte blocks. -/
def shaPad (m : List Byte) : List Byte :=
  m ++ [0x80] ++ List.replicate ((239 - m.length % 128) % 128) 0 ++ toBytesBE 16 (8 * m.length)

/-- Rotates a word right. -/
def rotr (x : Word) (n : Nat) : Word := x.rotateRight n

/-- Extends a message schedule, newest word first, by `n` words. -/
def shaExtend : Nat → List Word → List Word
  | 0, ws => ws
  | n + 1, ws =>
    let x := ws.getD 1 0
    let y := ws.getD 14 0
    let s1 := rotr x 19 ^^^ rotr x 61 ^^^ x >>> 6
    let s0 := rotr y 1 ^^^ rotr y 8 ^^^ y >>> 7
    shaExtend n ((s1 + ws.getD 6 0 + s0 + ws.getD 15 0) :: ws)

/-- One round of SHA-384 with its constant and its schedule word. -/
def shaRound (st : ShaState) (kw : Word × Word) : ShaState :=
  match st with
  | [a, b, c, d, e, f, g, h] =>
    let t1 := h + (rotr e 14 ^^^ rotr e 18 ^^^ rotr e 41) + ((e &&& f) ^^^ (~~~e &&& g)) + kw.1 + kw.2
    let t2 := (rotr a 28 ^^^ rotr a 34 ^^^ rotr a 39) + ((a &&& b) ^^^ (a &&& c) ^^^ (b &&& c))
    [t1 + t2, a, b, c, d + t1, e, f, g]
  | _ => st

/-- The state after one block. -/
def shaBlock (st : ShaState) (block : List Byte) : ShaState :=
  let first := (List.range 16).map fun i => BitVec.ofNat 64 (ofBytesBE ((block.drop (8 * i)).take 8))
  let ws := (shaExtend 64 first.reverse).reverse
  ((shaConsts.zip ws).foldl shaRound st).zipWith (· + ·) st

/-- The SHA-384 digest of a byte string: 48 bytes. (PRESUMED, log 7) -/
def sha384 (m : List Byte) : List Byte :=
  let bs := shaPad m
  let st := (List.range (bs.length / 128)).foldl (fun st i => shaBlock st ((bs.drop (128 * i)).take 128)) shaStart
  (st.flatMap fun w => toBytesBE 8 w.toNat).take 48

/-! ## ECDSA P-384 -/

/-- The prime of P-384. (PRESUMED, log 7) -/
def ecPrime : Nat := 2 ^ 384 - 2 ^ 128 - 2 ^ 96 + 2 ^ 32 - 1
/-- The constant b of P-384; a is -3. (PRESUMED, log 7) -/
def ecB : Nat := 0xB3312FA7E23EE7E4988E056BE3F82D19181D9C6EFE8141120314088F5013875AC656398D8A2ED19D2A85C8EDD3EC2AEF
/-- The order of the base point of P-384. (PRESUMED, log 7) -/
def ecOrder : Nat := 0xFFFFFFFFFFFFFFFFFFFFFFFFFFFFFFFFFFFFFFFFFFFFFFFFC7634D81F4372DDF581A0DB248B0A77AECEC196ACCC52973

/-- A point of the curve; none is the point at infinity. -/
abbrev EcPoint := Option (Nat × Nat)

/-- The base point of P-384. (PRESUMED, log 7) -/
def ecBase : EcPoint :=
  some (0xAA87CA22BE8B05378EB1C71EF320AD746E1D3B628BA79B9859F741E082542A385502F25DBF55296C3A545E3872760AB7,
    0x3617DE4A96262C6F5D9E98BF9292DC29F8F41DBD289A147CE9DA3113B5F0B8C00A60B1CE1D7E819D7A431D7C90EA0E5F)

/-- A power modulo `m`, over the lowest `bits` bits of the exponent. -/
def powMod (m : Nat) : Nat → Nat → Nat → Nat
  | 0, _, _ => 1 % m
  | bits + 1, b, e =>
    let r := powMod m bits (b * b % m) (e / 2)
    if e % 2 = 1 then r * b % m else r

/-- An inverse modulo a prime of 384 bits. -/
def invMod (m x : Nat) : Nat := powMod m 384 (x % m) (m - 2)

/-- The sum of two points. -/
def ecAdd (a b : EcPoint) : EcPoint :=
  match a, b with
  | none, q => q
  | p, none => p
  | some (x1, y1), some (x2, y2) =>
    let p := ecPrime
    if x1 = x2 ∧ (y1 + y2) % p = 0 then none
    else
      let l :=
        if x1 = x2 then (3 * x1 * x1 + (p - 3)) * invMod p (2 * y1) % p
        else (y2 + (p - y1)) * invMod p (x2 + (p - x1)) % p
      let x3 := (l * l + (p - x1) + (p - x2)) % p
      some (x3, (l * (x1 + (p - x3)) + (p - y1)) % p)

/-- A multiple of a point, over the lowest `bits` bits of the factor. -/
def ecMul : Nat → Nat → EcPoint → EcPoint
  | 0, _, _ => none
  | bits + 1, k, a =>
    let r := ecMul bits (k / 2) (ecAdd a a)
    if k % 2 = 1 then ecAdd r a else r

/-- A point that lies on the curve. -/
def ecOnCurve : EcPoint → Bool
  | none => false
  | some (x, y) =>
    x < ecPrime && y < ecPrime && y * y % ecPrime == (x * x * x + (ecPrime - 3) * x + ecB) % ecPrime

/-- A pair of 48-byte numbers, most significant byte first. -/
def pairOf (bs : List Byte) : Nat × Nat := (ofBytesBE (bs.take 48), ofBytesBE ((bs.drop 48).take 48))

/-- A 96-byte signature of a digest verifies under a 96-byte public key. (PRESUMED, log 7) -/
def ecdsaVerify (key digest signature : List Byte) : Bool :=
  let n := ecOrder
  let q : EcPoint := some (pairOf key)
  let (r, s) := pairOf signature
  let w := invMod n s
  let z := ofBytesBE digest
  signature.length == 96 && ecOnCurve q && 0 < r && r < n && 0 < s && s < n
  && (match ecAdd (ecMul 384 (z * w % n) ecBase) (ecMul 384 (r * w % n) q) with
      | some (x, _) => x % n == r
      | none => false)

/-- The signature of a digest under a private key, with a nonce. (PRESUMED, log 7) -/
def ecdsaSign (key nonce : Nat) (digest : List Byte) : List Byte :=
  let n := ecOrder
  let r := match ecMul 384 (nonce % n) ecBase with
    | some (x, _) => x % n
    | none => 0
  toBytesBE 48 r ++ toBytesBE 48 (invMod n nonce * (ofBytesBE digest + r * (key % n)) % n)

/-! ## What the module checks and signs (R342 to R344) -/

/-- A signature of a digest under the key that the fused hash identifies (R342, R343). -/
def signedByFused (key digest signature : List Byte) : Bool := sha384 key == Config.fusedHash && ecdsaVerify key digest signature

/-- The 96-byte signature that the identity key makes of the SHA-384 digest of a byte string (R344). -/
def identitySign (m : List Byte) : List Byte := ecdsaSign Config.identityKey (Config.signNonce m) (sha384 m)

end Sys2Proof.Machine
end

