-- ==== Sys2Proof/Machine/Errors.lean ====
section
/-! DEFINITION. Containment domains, uncorrectable and correctable errors, wipes and module resets (file 16, R338, R343, R374). -/

namespace Sys2Proof.Machine

/-! ## Wipes and resets (R338, R343) -/

/-- The fabric unit after a wipe: its buffers and tables are empty, and its links are as they were. -/
def Fabric.wiped (f : Fabric) : Fabric :=
  { Fabric.reset with
    links := (List.map (fun (x : Nat × Link) => (x.1, { Link.reset with down := x.2.down })) f.links).filter fun x => x.2 != Link.reset
    out := f.out.filter fun x => x.2.isSome }

/-- A wipe begins: every memory of the module is zero at its end (R338), that of the caches, of the TLBs, of the fabric unit and of the notice ring
among them. (DEDUCED, log 100) -/
def State.startWipe (s : State) : State :=
  { s with mem := [], poison := [], l1 := [], l2 := [], late := [], tlb := [], predictor := [], latent := [], fab := s.fab.wiped
           host := { s.host with wiping := true, notices := [] } }

/-- The checks of an image: its digest, its signature over digest and version, and the rollback floor; the code of the first that fails
(R343). -/
def Firmware.check (f : Firmware) (floor : Nat) : Option Byte :=
  if f.digest != sha384 f.body || !signedByFused f.key (sha384 (f.digest ++ toBytes 8 f.version)) f.signature then some 6
  else if f.version < floor then some 7
  else none

/-- The firmware that a boot runs: the staged image where it passes its checks again, otherwise the previous one (R343). -/
def HostIf.boot (h : HostIf) : HostIf :=
  match h.staged with
  | some f => if (f.check h.floor).isNone then { h with firmware := f, floor := f.version, staged := none } else { h with staged := none }
  | none => h

/-- A module reset (R338, R366): the state of reset, but for what lies outside the module or is fused, a trip, which holds the module in reset
(R390), with what its sensors read, and the numbers that the model itself counts. -/
def State.resetModule (s : State) : State :=
  let h := s.host.boot
  { State.reset with
    inputs := s.inputs, hostA := s.hostA, hostB := s.hostB, hostPoison := s.hostPoison, fresh := s.fresh, nextId := s.nextId,
    stamp := s.stamp
    pow := if s.pow.tripped then
        { Power.reset with tripped := true, sensors := List.map (fun (x : Nat × Sensor) => (x.1, { x.2 with follows := none })) s.pow.sensors }
      else Power.reset
    host := { HostIf.reset with life := h.life, identity := h.identity, firmware := h.firmware, floor := h.floor } }

/-- MODULE_RESET (R338). -/
def execModuleReset (s : State) : Out := .next s.resetModule

/-- WIPE_DONE (R338). -/
def execWipeDone (s : State) : Out := .next { s with host := { s.host with wiping := false } }

/-! ## Contexts with an entry in a domain (R366, R371) -/

/-- The notice of a terminated context (Table 16.5). -/
def State.endedNotice (s : State) (ctx : BitVec 16) (domain : Nat) : State :=
  s.notice 3 0x20 ctx (BitVec.ofNat 32 domain) 0 0 0 []

/-- A context ends on the module after an error (R369, R373): one under destruction only adds its notice. -/
def State.errorEnds (s : State) (ctx : BitVec 16) (domain : Nat) : State :=
  match s.ctxs.find? ctx.toNat with
  | none => s
  | some c => (if c.destroying then s else s.terminateContext ctx 0x20).endedNotice ctx domain

/-- A core of a team. -/
def Team.onCore (t : Team) (core : Nat) : Bool := t.ranks.any fun r => r.core == core

/-- The contexts of the walks that a TLB holds. -/
def State.tagsOf (s : State) (t : TlbLevel) : List (BitVec 16) := (s.tlb.filter fun e => e.level == t).map (·.ctx)

/-- The contexts whose packet stands in the retry buffer of a link. -/
def State.retryTags (s : State) (link : Nat) : List (BitVec 16) :=
  match (s.fab.links.getD link Link.reset).flit with
  | some (pk, _) => (s.fab.gangs.filter fun g => g.gang == pk.gang).map (·.ctx)
  | none => []

/-- The contexts whose tags stand in a domain (Tables 14.3 and 16.1). (DEDUCED, log 43) -/
def State.tagsIn (s : State) (d : Nat) : List (BitVec 16) :=
  let ctxs :=
    if d < 768 then
      (s.allTeams.filter fun t => t.onCore d).map (·.ctx) ++ (s.l1.filter fun l => l.core == d).map (·.tag) ++ s.tagsOf (.core d)
    else if d < 864 then (s.teamsOn (d - 768)).map (·.ctx) ++ s.tagsOf (.cluster (d - 768))
    else if d < 1056 then (List.filter (fun (x : Nat × L2Line) => sliceDomain x.1 == d) s.l2).map (·.2.tag)
    else if 1120 ≤ d then s.retryTags (d - 1120)
    else []
  (ctxs.filter fun c => c != 0 && c != 0xFFFE && c != 0xFFFF).eraseDups

/-- Poisons sectors; an atomic of theirs that was issued before is performed before. -/
def State.poisonSectors (s : State) (xs : List Nat) : State :=
  let s := s.landWhere fun x => x.op.isSome && x.lines.any fun l => xs.any fun k => k / 4 == l
  { s with poison := xs.foldl (fun p x => addSorted x p) s.poison }

/-- The four sectors of a line. -/
def lineSectors (line : Nat) : List Nat := upTo (4 * line) (4 * line + 4)

/-- A dirty shared line is lost: its affected sectors are poisoned, and the notice carries its page (R370). (DEDUCED, log 44) -/
def State.loseShared (s : State) (line : Nat) (sectors : List Nat) : State :=
  ({ s.poisonSectors sectors with l2 := s.l2.erase line }).notice 4 0 0xFFFF noDomain 0
    (BitVec.ofNat 64 (line * 128 / 65536 * 65536)) 0 []

/-- A line that only its slice held up to date is gone with the slice; its bytes are free values (R371). (DESIGN CHOICE, log 72) -/
def State.loseLine (s : State) (line : Nat) : State :=
  { s with
    mem := s.mem.writeN (line * 128) ((List.range 128).map fun i => Config.lostByte s.fresh (line * 128 + i))
    l2 := s.l2.erase line }

/-- A line leaves a slice that is reset (R371): a dirty one is lost, a shared one as R370 says. -/
def State.resetLine (s : State) (line : Nat) : State :=
  match s.l2.find? line with
  | none => s
  | some l =>
    match l.dirty with
    | none => { s with l2 := s.l2.erase line }
    | some t => if t = 0xFFFE then s.loseShared line (lineSectors line) else s.loseLine line

/-- A slice is reset: its lines, its directory entries and its contention counters are gone (R371, Table 16.1). -/
def State.resetSlice (s : State) (d : Nat) : State :=
  let s := ((List.filter (fun (x : Nat × L2Line) => sliceDomain x.1 == d) s.l2).map (·.1)).foldl State.resetLine s
  { s with
    l1 := s.l1.filter fun l => l.untracked || sliceDomain l.line != d
    predictor := List.filter (fun (x : Nat × Nat) => x.1 / 4096 != d - 864) s.predictor }

/-- A domain loses what it holds beside the resources of teams (R371). -/
def State.resetDomain (s : State) (d : Nat) : State :=
  if d < 768 then
    { s with l1 := s.l1.filter fun l => l.core != d, tlb := s.tlb.filter fun e => e.level != .core d }
  else if d < 864 then { s with tlb := s.tlb.filter fun e => e.level != .cluster (d - 768) }
  else if d < 1056 then s.resetSlice d
  else if 1120 ≤ d then
    let x := s.fab.links.getD (d - 1120) Link.reset
    { s with fab := { s.fab with links := Sparse.set s.fab.links (d - 1120) { x with flit := none, failures := 0 } Link.reset } }
  else s

/-- The notice of kind 5 about a domain (Table 16.5). -/
def State.domainNotice (s : State) (d : Nat) (ctx : BitVec 16) (readmitted : Byte) : State :=
  s.notice 5 0 ctx (BitVec.ofNat 32 d) 0 0 readmitted []

/-- A domain is fenced and reset (R371): every context with an entry in it ends, what the domain holds is gone, and notices of kind 5 say so, one for
each context that the reset ends (R373), or one that names none. The stores and the atomics that wait for a line of the domain come before. (DEDUCED,
log 73) -/
def State.fenceDomain (s : State) (d : Nat) : State :=
  if s.fenced.contains d then s
  else
    let s := s.landLines fun l => sliceDomain l == d || Config.lineMemory l == some d
    let ctxs := (s.tagsIn d).filter fun c => (s.ctxs.find? c.toNat).isSome
    let s := (ctxs.foldl (fun s c => s.errorEnds c d) s).resetDomain d
    let s := { s with fenced := addSorted d s.fenced }
    match ctxs with
    | [] => s.domainNotice d 0xFFFF 0
    | _ => ctxs.foldl (fun s c => s.domainNotice d c 0) s

/-! ## UE_CONSUMED (R367 to R372) -/

/-- An error in a part of a team's core, as the team was before: its context ends (R368). -/
def State.teamError (s before : State) (team rank : Nat) : State :=
  match before.getTeam team with
  | none => s
  | some t => s.errorEnds t.ctx (t.rank rank).core

/-- The hatband of a row of a team (R312, R334): its context, and 0x0000 while the row is in the pool and free of contents. -/
def State.hatband (s : State) (team rank row : Nat) : BitVec 16 :=
  match s.getTeam team with
  | none => 0
  | some t =>
    let held := ((t.rank rank).live.find? row).isSome || (t.rank rank).zeroing.contains row
    let bound := List.any t.landings fun x => x.2.rank == rank && x.2.rows.contains row
    let reserved := s.cmds.any fun c => c.team == team && c.rank == rank && c.kind == .hread && c.rows.contains row
    if held || bound || reserved then t.ctx else 0

/-- The key of a poisoned host sector. -/
def poisonKey (p : Port) (sector : Nat) : Nat := 2 * sector + (match p with | .a => 0 | .b => 1)

/-- Some sectors of a line. -/
def someSectors (line : Nat) (ks : List (Fin 4)) : List Nat := ks.map fun k => 4 * line + k.val

/-- A clean line is dropped, and sectors that cannot be fetched again arrive poisoned (Table 16.2). -/
def State.refetch (s : State) (line : Nat) (lost : List (Fin 4)) : State :=
  let clean := (s.l2.getD line { filler := 0, dirty := none, keep := .normal }).dirty.isNone
  let s := { s with l1 := s.l1.filter fun l => l.line != line, l2 := if clean then s.l2.erase line else s.l2 }
  if clean then s.poisonSectors (someSectors line lost) else s

/-- The domain number of an error in a unit that belongs to no domain (R366). -/
def outsideDomains : Nat := 0xFFFFFFFF

/-- A dirty line of a context is scrubbed: it reads as zero, and its entry is free (R368). -/
def State.scrubLine (s : State) (line : Nat) : State :=
  { s with
    mem := s.mem.writeN (line * 128) (List.replicate 128 0)
    l1 := s.l1.filter fun l => l.line != line
    l2 := s.l2.erase line }

/-- The domain of a TLB (Table 16.1); a die's TLB belongs to none. -/
def tlbDomain : TlbLevel → Nat
  | .core n => n
  | .cluster n => 768 + n
  | .die _ => outsideDomains

/-- The errors of the stores in the host write path, once that at a place has left it. -/
def State.moveHostErrors (s : State) (place : Nat) : State :=
  { s with
    latent := s.latent.map fun e => match e with
      | .hostWrite k => if place < k then .hostWrite (k - 1) else e
      | e => e }

/-- The errors of the entries of a device queue, once that at a place has left it. -/
def State.moveQueueErrors (s : State) (q place : Nat) : State :=
  { s with
    latent := s.latent.map fun e => match e with
      | .launchEntry k p => if k = q ∧ place < p then .launchEntry k (p - 1) else e
      | e => e }

/-- What an uncorrectable error costs at the place where it is consumed (Table 16.2), whose entries `before` holds: of several errors that one read
meets, each has its own cost (R373). The team or the context that ends takes the entry with it; entries that outlive it are scrubbed here. -/
def State.consume (s before : State) : ErrorPlace → State
  | .cleanLine line lost => s.refetch line lost
  | .freeEntry _ => s
  | .row team rank row => if before.hatband team rank row = 0 then s else s.teamError before team rank
  | .scratch team rank _ | .accum team rank _ => s.teamError before team rank
  | .tagged ctx d => s.errorEnds ctx d
  | .launchEntry q place =>
    let items := s.devq.getD q []
    match items[place]? with
    | none => s
    | some i => (({ s with devq := s.devq.set q (items.eraseIdx place) [] }.moveQueueErrors q place).errorEnds i.ctx outsideDomains).checkRetire i.parent
  | .head q =>
    match s.heads.find? fun h => h.queue == q with
    | none => s
    | some h =>
      ({ s with heads := s.heads.filter fun x => x.queue != q }.errorEnds h.item.ctx outsideDomains).checkRetire h.item.parent
  | .walk level ctx host va =>
    let struck (e : TlbEntry) : Bool := e.level == level && e.ctx == ctx && e.host == host && e.va == va
    if s.tlb.any struck then { s with tlb := s.tlb.filter fun e => !struck e }.errorEnds ctx (tlbDomain level) else s
  | .hostWrite place =>
    match s.hostPath[place]? with
    | none => s
    | some x => ({ s with hostPath := s.hostPath.eraseIdx place }.moveHostErrors place).errorEnds x.ctx outsideDomains
  | .sharedLine line sectors =>
    match (s.l2.find? line).bind (·.dirty) with
    | some t => if t = 0xFFFE then s.loseShared line (someSectors line sectors) else (s.errorEnds t (sliceDomain line)).scrubLine line
    | none => s
  | .device d => if d < 1138 then s.fenceDomain d else s
  | .noDomain => s.resetModule
  | .sector x => s.poisonSectors [x]
  | .hostSector p x => { s with hostPoison := addSorted (poisonKey p x) s.hostPoison }

/-- An entry's error is consumed: it waits no longer, and costs what its place decides (R367, R368). -/
def State.spend (s : State) (e : ErrorPlace) : State := { s with latent := s.latent.filter (· != e) }.consume s e

/-- The waiting errors that a test picks are consumed together, each with its own cost and notice (R367, R373). -/
def State.spendWhere (s : State) (f : ErrorPlace → Bool) : State :=
  (s.latent.filter f).foldl (fun t e => State.consume { t with latent := t.latent.filter (· != e) } s e) s

/-- The error is one of a store in the host write path. -/
def isHostWrite : ErrorPlace → Bool
  | .hostWrite _ => true
  | _ => false

/-- Every store of the host write path with an error is consumed. -/
def State.spendHostWrites (s : State) : State :=
  let struck (k : Nat) : Bool := s.latent.contains (.hostWrite k)
  let bad := (s.hostPath.zipIdx.filter fun x => struck x.2).map (·.1)
  let s := { s with
    hostPath := (s.hostPath.zipIdx.filter fun x => !struck x.2).map (·.1), latent := s.latent.filter fun e => !isHostWrite e }
  bad.foldl (fun s x => s.errorEnds x.ctx outsideDomains) s

/-- UE_CONSUMED (R368). -/
def execUeConsumed (e : ErrorPlace) (s : State) : Out := whileUp s fun s => .next (s.spend e)

/-- A port whose DOMRESET of a domain is under way has it completed. -/
def PortRegs.resetDone (r : PortRegs) (d : Nat) : PortRegs :=
  if r.busy && r.waits.isNone && r.code == 0x10 && (r.held.getD 0 0).toNat == d then { r with busy := false, result := 0 } else r

/-- DOMAIN_READMIT (R371): the domain's reset is over; a notice says so, a DOMRESET that asked for it completes, and grids whose record has waited for
it retire. -/
def execDomainReadmit (d : Nat) (s : State) : Out :=
  if !s.fenced.contains d then .next s
  else
    let s := { s with
      fenced := s.fenced.erase d
      host := { s.host with portA := s.host.portA.resetDone d, portB := s.host.portB.resetDone d } }
    .next (s.domainNotice d 0xFFFF 1).retireWaiting

/-! ## Correctable errors and timing repeats (R374, R376) -/

/-- An error has been corrected in a domain (R376). -/
def State.countCorrected (s : State) (d : Nat) : State :=
  if d < 1138 then { s with corrected := s.corrected.set d (addTime (s.corrected.getD d []) s.now 1000000000 256) [] } else s

/-- PATROL_SCRUB (R376): it consumes an uncorrectable error, or corrects one in a domain; with a number that is no domain it finds
nothing. (DESIGN CHOICE, log 50) -/
def execPatrolScrub (e : Option ErrorPlace) (d : Nat) (s : State) : Out :=
  whileUp s fun s =>
  match e with
  | some e => .next (s.spend e)
  | none => .next (s.countCorrected d)

/-- CORRECTABLE_THRESHOLD (R376): more than 256 corrections of a domain within one second. (DEDUCED, log 45) -/
def execCorrectableThreshold (d : Nat) (s : State) : Out :=
  if (s.corrected.getD d []).length ≤ 256 then .next s
  else .next ({ s with corrected := s.corrected.erase d }.notice 6 0 0xFFFF (BitVec.ofNat 32 d) 0 0 0 [])

/-- TIMING_REPEAT (R374): the cluster repeats a cycle, which changes nothing but the count of repeats. (DEDUCED, log 51) -/
def execTimingRepeat (c : Fin 96) (s : State) : Out :=
  whileUp s fun s =>
  let x := s.cluster c.val
  .next (s.setCluster c.val { x with repeats := addTime x.repeats s.now 1000000 4096 })

/-- REPLAY_THRESHOLD (R374): more than 4,096 repeats within 1 ms: a notice, and one frequency step less within the level. -/
def execReplayThreshold (c : Fin 96) (s : State) : Out :=
  let x := s.cluster c.val
  if x.repeats.length ≤ 4096 then .next s
  else
    let held := min (x.held + 1) (levelTop x.level - levelLow x.level)
    let s := s.setCluster c.val { x with held := held, repeats := [] }
    .next ((s.regrant c.val).notice 7 0 0xFFFF (BitVec.ofNat 32 (768 + c.val)) 0 0 0 [])

/-- PREDICTOR_DECAY (R192): every contention counter falls by one. -/
def execPredictorDecay (s : State) : Out :=
  .next { s with predictor := (List.map (fun (x : Nat × Nat) => (x.1, x.2 - 1)) s.predictor).filter fun x => x.2 != 0 }

end Sys2Proof.Machine
end

