-- ==== Sys2Proof/Machine/Fabric.lean ====
section
/-! DEFINITION. The fabric unit: FPUT, FPUTH, FCOLL, FCONT, and what packets do at this module (R233 to R247, R333). -/

namespace Sys2Proof.Machine

/-! ## Hop operations (R237, R238) -/

/-- The operation of a code (Table 10.2); values 11 to 15 are reserved. -/
def HopOp.ofCode : Nat → Option HopOp
  | 0 => some .fwd
  | 1 => some .addS64
  | 2 => some .addS32
  | 3 => some .addF32
  | 4 => some .addB2
  | 5 => some .maxS64
  | 6 => some .maxS32
  | 7 => some .maxF32
  | 8 => some .dlv
  | 9 => some .dlvf
  | 10 => some .bar
  | _ => none

/-- An operation that may only stand last. -/
def isFinalOp : HopOp → Bool
  | .dlv | .dlvf | .bar => true
  | _ => false

/-- The type of a combine, as the bytes of its element and whether it is a float. -/
def combineTy : HopOp → Option (Nat × Bool)
  | .addS64 | .maxS64 => some (8, false)
  | .addS32 | .maxS32 => some (4, false)
  | .addF32 | .maxF32 => some (4, true)
  | .addB2 => some (2, true)
  | .fwd | .dlv | .dlvf | .bar => none

/-- The identity of a combine (R238). -/
def combineId : HopOp → Nat
  | .maxS64 => 2 ^ 63
  | .maxS32 => 2 ^ 31
  | .maxF32 => 0xFF800000
  | _ => 0

/-- The greater of two numbers that are read with a sign. -/
def maxSigned (b x y : Nat) : Nat := if (x + 2 ^ (b - 1)) % 2 ^ b < (y + 2 ^ (b - 1)) % 2 ^ b then y else x

/-- A rounded float sum, and whether it overflowed. -/
def addFloat (f : Fmt) (x y : Nat) : Nat × Bool :=
  let (w, fl) := f.deliverF .rne false (FVal.add .rne (f.decode x) (f.decode y))
  (w, fl &&& Flags.ofl != 0)

/-- One element of a combine, and whether it overflowed (R238). -/
def combineElem (op : HopOp) (x y : Nat) : Nat × Bool :=
  match op with
  | .addS64 => ((x + y) % 2 ^ 64, false)
  | .addS32 => ((x + y) % 2 ^ 32, false)
  | .addF32 => addFloat Fmt.f32 x y
  | .addB2 => addFloat Fmt.b2 x y
  | .maxS64 => (maxSigned 64 x y, false)
  | .maxS32 => (maxSigned 32 x y, false)
  | .maxF32 => ((Fmt.f32.minMax true x y).1, false)
  | .fwd | .dlv | .dlvf | .bar => (x, false)

/-- Bytes extended to a length with the identity of a combine (R238). -/
def padIdentity (op : HopOp) (size n : Nat) (bs : List Byte) : List Byte :=
  bs ++ (upTo bs.length n).map fun i => BitVec.ofNat 8 (combineId op / 256 ^ (i % size))

/-- Two payloads combined element by element. (DEDUCED, log 33) -/
def combineBytes (op : HopOp) (xs ys : List Byte) : List Byte × Bool :=
  let size := ((combineTy op).getD (1, false)).1
  let n := max xs.length ys.length
  let xs := padIdentity op size ((n + size - 1) / size * size) xs
  let ys := padIdentity op size ((n + size - 1) / size * size) ys
  let rs := (List.range ((n + size - 1) / size)).map fun i =>
    combineElem op (ofBytes ((xs.drop (i * size)).take size)) (ofBytes ((ys.drop (i * size)).take size))
  ((rs.flatMap fun r => toBytes size r.1).take n, rs.any (·.2))

/-! ## Route records (R236, R237) -/

/-- A route with its operations. -/
structure Route where
  hops : List (Option (Fin 18))
  ops : List HopOp
  deriving DecidableEq, Repr

/-- A route byte: a link, or local; every other value is reserved (R235). -/
def routeByte (b : Nat) : Option (Option (Fin 18)) :=
  if h : b < 18 then some (some ⟨b, h⟩) else if b = 255 then some none else none

/-- Every member of a list, if all are there. -/
def allSome {α : Type} : List (Option α) → Option (List α)
  | [] => some []
  | none :: _ => none
  | some x :: r => (allSome r).map (x :: ·)

/-- The route of the 40 bytes of a record; none where a field is reserved or HOPS is out of range. -/
def parseRoute (bs : List Byte) : Option Route :=
  let at_ (i : Nat) : Nat := (bs.getD i 0).toNat
  let n := at_ 36
  if n = 0 || 24 < n || at_ 37 != 0 || at_ 38 != 0 || at_ 39 != 0 then none
  else
    match allSome ((List.range n).map fun i => routeByte (at_ i)),
          allSome ((List.range n).map fun i => HopOp.ofCode (at_ (24 + i / 2) / 16 ^ (i % 2) % 16)) with
    | some hops, some ops => some { hops := hops, ops := ops }
    | _, _ => none

/-- The record is legal for a command (R237): `coll` says that combines, DLVF and BAR are allowed. -/
def Route.legal (r : Route) (coll : Bool) : Bool :=
  let tys := (r.ops.filterMap combineTy).eraseDups
  (match r.ops.getLast? with | some op => isFinalOp op | none => false)
  && r.ops.dropLast.all (fun op => !isFinalOp op)
  && (coll || r.ops.all fun op => op == .fwd || op == .dlv)
  && tys.length ≤ 1

/-- The module at the end of a hop, by its coordinates. -/
def hopFrom (p : Nat × Nat × Nat) (h : Option (Fin 18)) : Nat × Nat × Nat :=
  let n := Config.ringSize
  let move (plus : Bool) (x size : Nat) : Nat := if plus then (x + 1) % max size 1 else (x + max size 1 - 1) % max size 1
  match h with
  | none => p
  | some l =>
    match l.val / 3 with
    | 0 => (move true p.1 n.1, p.2.1, p.2.2)
    | 1 => (move false p.1 n.1, p.2.1, p.2.2)
    | 2 => (p.1, move true p.2.1 n.2.1, p.2.2)
    | 3 => (p.1, move false p.2.1 n.2.1, p.2.2)
    | 4 => (p.1, p.2.1, move true p.2.2 n.2.2)
    | _ => (p.1, p.2.1, move false p.2.2 n.2.2)

/-- Every combine or delivery of a route acts at a module of the gang (R244). -/
def Route.inGang (gang : BitVec 16) : Nat × Nat × Nat → List (Option (Fin 18)) → List HopOp → Bool
  | p, h :: hs, op :: ops =>
    let q := hopFrom p h
    (op == .fwd || (List.range (Config.gangSize gang)).any fun r => Config.coords gang r == q) && Route.inGang gang q hs ops
  | _, _, _ => true

/-! ## Issue (R240 to R242) -/

/-- What a fabric command's own fields ask for. -/
structure FabricForm where
  kind : CmdKind
  /-- some descriptor bit or value is reserved -/
  reserved : Bool
  /-- the rank that an FPUT or FPUTH names -/
  rank : Option Nat
  /-- where the route comes from: `none` for FCONT, and whether 0 selects an automatic route -/
  record : Option Bool
  deriving DecidableEq, Repr

/-- The fields of the four commands (Table 10.4). (DESIGN CHOICE, log 113) -/
def fabricForm (i : Instr) (d : List Word) : FabricForm :=
  let y := descNat d 1
  let wide := descNat d 2 / 2 ^ 32 != 0
  match i with
  | .fput _ => { kind := .fput, reserved := wide, rank := some (bits y 57 46), record := some true }
  | .fputh _ => { kind := .fputh, reserved := wide || y / 2 ^ 15 != 0, rank := some (bits y 11 0), record := some true }
  | .fcoll _ => { kind := .fcoll, reserved := wide || y / 2 ^ 19 != 0 || bits y 15 0 == 0, rank := none, record := some false }
  | _ =>
    { kind := .fcont, reserved := wide || y / 2 ^ 23 != 0 || bits y 15 0 == 0 || bits y 19 16 == 0, rank := none, record := none }

/-- The route-record pointer that a command reads, if any. -/
def FabricForm.recordPtr (f : FabricForm) (d : List Word) : Option Word :=
  match f.record with
  | none => none
  | some auto => if auto && descNat d 3 == 0 then none else some (d.getD 3 0)

/-- Check 2 of R242: spaces, windows, the record's alignment, and the translation of the source. The FPUT destination must be a peer
pointer (R180). (DEDUCED, log 30) (DESIGN CHOICE, log 84) -/
def State.fabricPtrFail (s : State) (f : FabricForm) (d : List Word) : Option Fail :=
  let src := d.getD 0 0
  let n := bits (descNat d 2) 31 0
  let dst : List Extent := if f.kind = .fput then [{ spaces := [5], ptr := d.getD 1 0, size := n }] else []
  let record : List Extent := match f.recordPtr d with
    | some p => [{ spaces := [1], ptr := p, size := 40 }]
    | none => []
  let bad := badPieces (s.pieces s.who .load src n 0)
  let walked : Option Fail := match bad.find? fun x => x.code == 0x12 with
    | some x => some x
    | none => bad[0]?
  firstFail [extentFail s.tm s.who ([{ spaces := [0, 1, 2, 3], ptr := src, size := n }] ++ dst ++ record),
    alignFail ((f.recordPtr d).toList.map fun p => (p, 8)), walked]

/-- The route that a command has at issue: of its record, or none for an automatic one; illegal records are told apart. -/
def State.recordRoute (s : State) (f : FabricForm) (d : List Word) : Except Unit (Option Route) :=
  match f.recordPtr d with
  | none => .ok none
  | some p =>
    match parseRoute (s.load s.who false p 40 0) with
    | some r => if r.legal (f.kind == .fcoll) then .ok (some r) else .error ()
    | none => .error ()

/-- A rank that the gang does not have; a team outside a gang has none at all. (DEDUCED, log 31) -/
def Team.noRank (t : Team) (r : Option Nat) : Bool :=
  match r with
  | none => false
  | some r => !t.pkt.gang || Config.gangSize t.pkt.gangid ≤ r

/-- The kinds that share the send queue (R242). -/
def fabricKinds : List CmdKind := [.fput, .fputh, .fcoll, .fcont]

/-- Payload offsets of a command: one for each 1,024 bytes, and one where there are none (R234, R242). -/
def offsetsOf (d : List Word) : Nat := max 1 ((bits (descNat d 2) 31 0 + 1023) / 1024)

/-- The collective entry that an FCONT opens (R239). (DESIGN CHOICE, log 87) (DESIGN CHOICE, log 97) -/
def State.openEntry (s : State) (d : List Word) (id : Nat) : CollEntry :=
  let y := descNat d 1
  { coll := BitVec.ofNat 16 y, gang := s.tm.pkt.gangid, cmd := some id, team := s.tm.id, fanin := bits y 19 16,
    slot := Fin.ofNat 8 (bits y 22 20), parts := [], links := [], offsets := offsetsOf d, combined := 0, seen := [],
    down := 0 }

/-- The route record as the command keeps it: its 40 bytes are read at issue. -/
def State.recordBytes (s : State) (f : FabricForm) (d : List Word) : List Word :=
  match f.recordPtr d with
  | none => []
  | some p => (List.range 5).map fun i => BitVec.ofNat 64 (ofBytes (s.load s.who false (p + BitVec.ofNat 64 (8 * i)) 8 0))

/-- The checks of R242 and acceptance; `n` is the number of descriptor registers. A gang's fabric command waits for its ranks (R247).
(DEDUCED, log 32) -/
def fabricIssue (i : Instr) (e : EngOps) (n : Nat) (s : State) : Out :=
  whenDrained s fun s =>
    let d := s.ag.desc e.a n
    let f := fabricForm i d
    if s.ag.role ≠ .com then fault s 0x07 s.ag.spc
    else
      match s.fabricPtrFail f d with
      | some x => .next (s.memFault x false)
      | none =>
        if f.reserved || s.tm.noRank f.rank then answer e.q false s
        else
          match s.recordRoute f d with
          | .error _ => answer e.q false s
          | .ok r =>
            let outside := match r with
              | none => false
              | some r => s.tm.pkt.enc && !Route.inGang s.tm.pkt.gangid (Config.coords s.tm.pkt.gangid s.tm.pkt.grank) r.hops r.ops
            if outside then fault s 0x24 (s.ag.getG e.a)
            else
              match s.barFail e.b with
              | some x => fault s x.code x.addr
              | none =>
                let full := 4096 ≤ (s.cmds.filter fun c => fabricKinds.contains c.kind).length
                  || (f.kind == .fcont && 256 ≤ s.fab.table.length)
                if full then answer e.q false s
                else
                  gangSync true s fun s =>
                    let cmd := s.newCmd f.kind i e (d ++ s.recordBytes f d)
                    let s := if e.acq then s.acquire s.who.core e.s else s
                    let s := if f.kind = .fcont then
                        { s with fab := { s.fab with table := s.fab.table ++ [s.openEntry d cmd.id] } }
                      else s
                    answer e.q true (s.addCmd cmd)

/-- FPUT (R240 to R242). -/
def execFput (e : EngOps) (s : State) : Out := fabricIssue (.fput e) e 4 s
/-- FPUTH (R240 to R243). -/
def execFputh (e : EngOps) (s : State) : Out := fabricIssue (.fputh e) e 4 s
/-- FCOLL (R240 to R242). -/
def execFcoll (e : EngOps) (s : State) : Out := fabricIssue (.fcoll e) e 4 s
/-- FCONT (R239 to R242). -/
def execFcont (e : EngOps) (s : State) : Out := fabricIssue (.fcont e) e 3 s

/-! ## Sending (R234, R242) -/

/-- The `i`-th packet of a command with its payload (R234): payload offsets rise by 1,024, and a command without bytes has one empty packet. -/
def State.packetOf (s : State) (t : Team) (c : Cmd) (i : Nat) (payload : List Byte) : Packet :=
  let y := descNat c.desc 1
  let p := t.pkt
  let record := parseRoute (((List.range 5).flatMap fun i => toBytes 8 (descNat c.desc (4 + i))))
  let rank := if c.kind = .fput then bits y 57 46 else bits y 11 0
  let route := s.autoRoute p.gangid p.grank rank i
  let (route, ops) := match (if c.desc.length = 4 then none else record) with
    | some r => (r.hops, r.ops)
    | none => (route, autoOps route)
  { kind := match c.kind with | .fput => .put | .fputh => .notice | _ => .collective
    route := route, ops := ops, overflow := false, encrypted := p.enc, gang := p.gangid, srcRank := BitVec.ofNat 16 p.grank
    coll := if c.kind = .fcoll then BitVec.ofNat 16 y else 0
    slot := Fin.ofNat 8 (if c.kind = .fcoll then bits y 18 16 else bits y 14 12)
    offset := if c.kind = .fput then bits y 45 0 + 1024 * i else 1024 * i
    payload := payload, cmd := c.id, total := offsetsOf c.desc }

/-- A command reads the source of its next packet and sends it; a source that fails ends the sending and posts the code (R227, R242, R245,
R290). -/
def State.sendNext (s : State) (t : Team) (c : Cmd) : State :=
  let w := s.whoCmd c
  let off := 1024 * c.cursor
  let n := min 1024 (bits (descNat c.desc 2) 31 0 - off)
  let ps := if n = 0 then [] else s.pieces w .load (c.desc.getD 0 0 + BitVec.ofNat 64 off) n 0
  let scope := c.scope == .warp
  if s.transferWaits c ps then s
  else
    let g := s.gather w scope (c.ahead c.cursor) ps
    match g.stop.map c.judge with
    | some f =>
      if f.code = 0x11 then s.suspend c w.ctx f.addr
      else (s.setCmd { c.fail f.code with stopped := true }).tellFail w.ctx g.stop
    | none =>
      ((s.seen w scope 0 (goodPieces ps)).setCmd { c with cursor := c.cursor + 1 }).send (s.packetOf t c c.cursor g.bytes)

/-! ## Deliveries (R243, R333) -/

/-- A gang that has members on this module. -/
def State.gang (s : State) (gang : BitVec 16) : Option Gang := s.fab.gangs.find? fun g => g.gang == gang && !g.retired

/-- A packet is lost; a command of this module that sent it has failed with the code (R245). (DESIGN CHOICE, log 35) -/
def State.lost (s : State) (pk : Packet) (code : Byte) : State := s.failCmd pk.cmd code

/-- The landing slot that a landing list holds. -/
def boundSlot (team : Nat) (m : Sparse Landing) (slot : Fin 8) : Option (Nat × Landing) := (m.find? slot.val).map fun l => (team, l)

/-- The gang of a saved team's grid. -/
def State.savedGang (s : State) (x : SavedTeam) (gang : BitVec 16) : Bool :=
  match s.getGrid x.grid with
  | some g => g.pkt.gang && g.pkt.gangid == gang
  | none => false

/-- The team of a gang that holds a landing number, resident or saved (R305, R310). -/
def State.holder (s : State) (gang : BitVec 16) (slot : Fin 8) : Option (Nat × Landing) :=
  let resident := s.allTeams.findSome? fun t =>
    if t.pkt.gang ∧ t.pkt.gangid = gang then boundSlot t.id t.landings slot else none
  match resident with
  | some x => some x
  | none => s.saved.findSome? fun x => if s.savedGang x gang then boundSlot x.id x.landings slot else none

/-- Replaces a landing slot of a team, resident or saved. -/
def State.setLanding (s : State) (team : Nat) (slot : Fin 8) (l : Landing) : State :=
  let s := s.modTeam team fun t => { t with landings := t.landings.insert slot.val l }
  { s with saved := s.saved.map fun x => if x.id = team then { x with landings := x.landings.insert slot.val l } else x }

/-- Cuts a delivered payload into landings of up to 256 bytes (R243). -/
def landBursts (pk : Packet) : List LandBurst :=
  (List.range ((pk.payload.length + 255) / 256)).map fun i =>
    { offset := pk.offset + 256 * i, srcRank := pk.srcRank, overflow := pk.overflow, encrypted := pk.encrypted, coll := pk.coll,
      data := (pk.payload.drop (256 * i)).take 256, counted := false }

/-- Delivers to a landing slot: its landings wait for LANDING and DROP_START; a slot that is not bound discards them (R243). -/
def State.deliverSlot (s : State) (pk : Packet) (slot : Fin 8) : State :=
  match s.gang pk.gang with
  | none => s.lost pk 0x22
  | some _ =>
    match s.holder pk.gang slot with
    | none => s.lost pk 0x14
    | some (team, l) => s.setLanding team slot { l with waiting := l.waiting ++ landBursts pk }

/-- Delivers a put into the exported window of the gang's context (R242, R333). (DESIGN CHOICE, log 118) -/
def State.deliverPut (s : State) (pk : Packet) : State :=
  match s.gang pk.gang with
  | none => s.lost pk 0x22
  | some g =>
    match s.ctxs.find? g.ctx.toNat with
    | none => s.lost pk 0x22
    | some c =>
      let n := pk.payload.length
      let p := mkPtr 0 0 ((c.expBase + pk.offset) % 2 ^ 57)
      let w : Who := { team := 0, ctx := g.ctx, rank := 0, core := 768 }
      if c.expSize < pk.offset + n || !(badPieces (s.pieces w .store p n 0)).isEmpty then s.lost pk 0x14
      else s.store w p pk.payload 0

/-- DLV: an FPUT writes the window, the others deliver to their slot (Table 10.2). -/
def State.deliverPacket (s : State) (pk : Packet) : State :=
  match pk.kind with
  | .put => s.deliverPut pk
  | .notice | .collective => s.deliverSlot pk pk.slot

/-- DLVF or BAR at one module: a delivery to a slot, or one arrival with zero bytes on the slot's barrier (Table 10.2). (DESIGN CHOICE, log 104) -/
def State.reach (s : State) (pk : Packet) (op : HopOp) (slot : Fin 8) : State :=
  if op = .bar then
    match s.holder pk.gang slot with
    | none => s.lost pk 0x14
    | some (team, l) => s.arrive { team := team, rank := l.barRank, off := ptrOffset l.bar } 1 0 0
  else s.deliverSlot pk slot

/-! ## Collectives (R239) -/

/-- The open entry of a packet's collective. -/
def State.entryOf (s : State) (pk : Packet) : Option CollEntry :=
  s.fab.table.find? fun e => e.coll == pk.coll && e.gang == pk.gang

/-- Two entries are of one collective. -/
def CollEntry.same (x e : CollEntry) : Bool := x.coll == e.coll && x.gang == e.gang

/-- Replaces the entry of a collective that packets find: the one that was opened first. -/
def replaceFirst (e : CollEntry) : List CollEntry → List CollEntry
  | [] => []
  | x :: xs => if x.same e then e :: xs else x :: replaceFirst e xs

/-- Replaces an entry. -/
def State.setEntry (s : State) (e : CollEntry) : State := { s with fab := { s.fab with table := replaceFirst e s.fab.table } }

/-- Closes an entry. -/
def State.closeEntry (s : State) (e : CollEntry) : State := { s with fab := { s.fab with table := s.fab.table.eraseP (·.same e) } }

/-- Records an arrival link. -/
def CollEntry.record (e : CollEntry) (link : Option (Fin 18)) : CollEntry :=
  if e.links.contains link then e else { e with links := e.links ++ [link] }

/-- Records the link over which a result of the entry goes up. -/
def CollEntry.raise (e : CollEntry) (pk : Packet) : CollEntry :=
  let l := (pk.route[0]?).getD none
  if e.ups.contains l then e else { e with ups := e.ups ++ [l] }

/-- Adds a packet to its payload offset. -/
def CollEntry.gather (e : CollEntry) (pk : Packet) : CollEntry :=
  match e.parts.find? fun p => p.offset == pk.offset with
  | some _ => { e with parts := e.parts.map fun p => if p.offset = pk.offset then { p with packets := p.packets ++ [pk] } else p }
  | none => { e with parts := e.parts ++ [{ offset := pk.offset, packets := [pk] }] }

/-- The packets that an offset has gathered. -/
def CollEntry.at (e : CollEntry) (off : Nat) : List Packet :=
  match e.parts.find? fun p => p.offset == off with
  | some p => p.packets
  | none => []

/-- A packet waits in the 8 MiB combine buffer, once (R239); where it has no room it waits on its link credits, and one that this module sent to
itself waits where it was. -/
def State.buffer (s : State) (pk : Packet) (link : Option (Fin 18)) : State :=
  let used := s.fab.combine.foldl (fun n x => n + x.1.payload.length) 0
  if s.fab.combine.contains (pk, link) then s
  else if 8388608 < used + pk.payload.length then
    if link.isNone then { s with fab := { s.fab with out := (pk, none) :: s.fab.out } } else s
  else { s with fab := { s.fab with combine := s.fab.combine ++ [(pk, link)] } }

/-- A packet as it goes on: its hop is popped (R235). -/
def popHop (pk : Packet) : Packet := { pk with route := pk.route.drop 1, ops := pk.ops.drop 1 }

/-- The packet whose sender has the lowest rank. -/
def lowestRank (p : Packet) : List Packet → Packet
  | [] => p
  | q :: r => lowestRank (if q.srcRank.ult p.srcRank then q else p) r

/-- The result of an offset: the module's own contribution first, then the packets in arrival order; it goes on as the packet of the lowest
sender's rank (R239). -/
def combineAll (op : HopOp) (own : List Byte) (p : Packet) (ps : List Packet) : Packet :=
  let (bs, ov) := (p :: ps).foldl
    (fun (x : List Byte × Bool) q =>
      let (bs, o) := combineBytes op x.1 q.payload
      (bs, x.2 || o || q.overflow))
    (own, false)
  { popHop (lowestRank p ps) with payload := bs, overflow := ov }

/-- An FCONT's contribution at an offset; a source that fails contributes the identity from there on and posts its code. -/
def State.contribution (s : State) (c : Cmd) (off : Nat) : Gather :=
  let w := s.whoCmd c
  let n := min 1024 (bits (descNat c.desc 2) 31 0 - off)
  if n = 0 then { bytes := [], stop := none }
  else s.gather w (c.scope == .warp) (c.ahead (off / 1024)) (s.pieces w .load (c.desc.getD 0 0 + BitVec.ofNat 64 off) n 0)

/-- An FCONT after an offset of its collective: one of its own offsets has been combined, or one beyond them (R242). -/
def Cmd.contributed (c : Cmd) (off : Nat) (stop : Option Fail) : Cmd :=
  let c := match stop with
    | some f => c.fail f.code
    | none => c
  if off / 1024 < offsetsOf c.desc then { c with cursor := c.cursor + 1 } else c

/-- A combine hop: a packet waits for its entry, or joins it; the last packet of an offset sends the result on (R239). A contribution that meets an
absent page is suspended, and the packet waits for it (R290). -/
def State.combineHop (s : State) (op : HopOp) (pk : Packet) (link : Option (Fin 18)) : State :=
  match s.entryOf pk with
  | none => s.buffer pk link
  | some e =>
    match e.cmd with
    | none => s.buffer pk link
    | some id =>
      let e := (e.record link).gather pk
      let ps := e.at pk.offset
      if ps.length < e.fanin then s.setEntry e
      else
        let g := match s.getCmd id with
          | some c => s.contribution c pk.offset
          | none => { bytes := [], stop := none }
        let stop := (s.getCmd id).bind fun c => g.stop.map c.judge
        let absent := match s.getCmd id, stop with
          | some c, some f => if f.code = 0x11 then some ((s.suspend c (s.whoCmd c).ctx f.addr).buffer pk link) else none
          | _, _ => none
        match absent with
        | some t => t
        | none =>
          let out := combineAll op g.bytes (ps.headD pk) (ps.drop 1)
          let e := { e with parts := e.parts.filter (fun p => p.offset != pk.offset), combined := e.combined + 1 }.raise out
          let s := match s.getCmd id with
            | some c => (s.setCmd (c.contributed pk.offset stop)).tellFail (s.whoCmd c).ctx g.stop
            | none => s
          let ends := pk.ops.getLast? == some .dlv && pk.total ≤ e.combined
          (if ends then s.closeEntry e else s.setEntry e).send out

/-- An entry once a packet has passed it on its way up. -/
def CollEntry.passed (e : CollEntry) (pk : Packet) (link : Option (Fin 18)) : CollEntry :=
  { e.record link with seen := if e.cmd.isNone then addSorted pk.offset e.seen else e.seen }

/-- A packet that only transits goes on; one of a collective records its arrival link in an entry of fan-in 1, which it opens itself. In a
collective that ends in DLV nothing comes back, and the entry closes as the last offset has passed (R239). (DEDUCED, log 34) -/
def State.transit (s : State) (pk : Packet) (link : Option (Fin 18)) : State :=
  if pk.kind ≠ .collective then s.send (popHop pk)
  else
    let last (e : CollEntry) : Bool := e.cmd.isNone && pk.ops.getLast? == some .dlv && pk.total ≤ e.seen.length
    match s.entryOf pk with
    | some e =>
      let e := (e.passed pk link).raise (popHop pk)
      (if last e then s.closeEntry e else s.setEntry e).send (popHop pk)
    | none =>
      if 256 ≤ s.fab.table.length then s.buffer pk link
      else
        let e : CollEntry :=
          { coll := pk.coll, gang := pk.gang, cmd := none, team := 0, fanin := 1, slot := pk.slot, parts := [], links := [link],
            offsets := 0, combined := 0, seen := [pk.offset], down := 0, ups := [(pk.route.drop 1).headD none] }
        (if last e then s else { s with fab := { s.fab with table := s.fab.table ++ [e] } }).send (popHop pk)

/-- The FCOLL of this module for a packet's collective. -/
def State.leafCmd (s : State) (pk : Packet) : Option Cmd :=
  let fits (c : Cmd) : Bool := c.kind == .fcoll && bits (descNat c.desc 1) 15 0 == pk.coll.toNat
  match s.cmds.find? fun c => fits c && (match s.getTeam c.team with | some t => t.pkt.gangid == pk.gang | none => false) with
  | some c => some c
  | none => s.saved.findSome? fun x => if s.savedGang x pk.gang then x.cmds.find? fits else none

/-- A packet of the down pass has reached the module of its FCOLL (R242). -/
def State.countLeaf (s : State) (id : Nat) : State :=
  let f (c : Cmd) : Cmd := if c.id = id then { c with leaves := c.leaves + 1 } else c
  { s with cmds := s.cmds.map f, saved := s.saved.map fun t => { t with cmds := t.cmds.map f } }

/-- A leaf delivers, or arrives, at the slot in its hat (R239). -/
def State.leafReach (s : State) (pk : Packet) (op : HopOp) : State :=
  match s.leafCmd pk with
  | some c => (s.countLeaf c.id).reach pk op (Fin.ofNat 8 (bits (descNat c.desc 1) 18 16))
  | none => s.reach pk op pk.slot

/-- The down pass leaves over the recorded links; a leaf of this module is reached at once (R239). -/
def State.sendDown (s : State) (pk : Packet) (op : HopOp) (links : List (Option (Fin 18))) : State :=
  links.foldl
    (fun s l => match l with
      | none => s.leafReach pk op
      | some _ => s.send { pk with route := [l], ops := [op], cmd := 0, down := true })
    s

/-- The first hop of a command's own route record. -/
def Cmd.firstHop (c : Cmd) : Option (Option (Fin 18)) :=
  (parseRoute ((List.range 5).flatMap fun i => toBytes 8 (descNat c.desc (4 + i)))).bind fun r => r.hops[0]?

/-- A module of the tree acts as a node: it delivers or arrives at its FCONT's slot, and the result goes down its recorded links; the entry closes
when all of it has left (R239). -/
def State.reachNode (s : State) (op : HopOp) (pk : Packet) (e : CollEntry) : State :=
  let s := if e.cmd.isSome then s.reach pk op e.slot else s
  let s := s.sendDown pk op e.links
  let e := { e with down := e.down + 1 }
  if pk.total ≤ e.down then s.closeEntry e else s.setEntry e

/-- DLVF or BAR on the way up, at the root: it delivers or arrives at its own slot, and the result goes back over the links that it recorded and the
one over which it came. An FCOLL that is alone with this module is reached once (R239). (DEDUCED, log 34) -/
def State.reachRoot (s : State) (op : HopOp) (pk : Packet) (link : Option (Fin 18)) : State :=
  match s.entryOf pk, link with
  | some e, none => s.reachNode op pk e
  | some e, some _ => s.reachNode op pk (e.record link)
  | none, none => s.leafReach pk op
  | none, some _ => (s.reach pk op pk.slot).sendDown pk op [link]

/-- DLVF or BAR on the way down over a link: a module acts as a node where its entry's results went up over that link, and as a leaf where its
FCOLL's packets did; one that is both acts as both (R239). (DEDUCED, log 34) -/
def State.reachDown (s : State) (op : HopOp) (pk : Packet) (link : Option (Fin 18)) : State :=
  let node := (s.entryOf pk).filter fun e => e.ups.contains link
  let leaf := (s.leafCmd pk).any fun c => c.firstHop == some link
  let s' := if leaf then s.leafReach pk op else s
  match node, leaf, s.entryOf pk with
  | some e, _, _ => s'.reachNode op pk e
  | none, true, _ => s'
  | none, false, some e => s.reachNode op pk e
  | none, false, none => s.leafReach pk op

/-- DLVF or BAR at a module of the tree: on the way up at its root, or on the way down (R239). -/
def State.reachTree (s : State) (op : HopOp) (pk : Packet) (link : Option (Fin 18)) : State :=
  if pk.down then s.reachDown op pk link else s.reachRoot op pk link

/-- What a packet does at this module (R237 to R244): at one of which its gang has no member any more, or has none, it is lost (R244, R247). -/
def State.hop (s : State) (pk : Packet) (link : Option (Fin 18)) : State :=
  match pk.ops with
  | [] => s
  | op :: _ =>
    if op != .fwd && (s.gang pk.gang).isNone then
      s.lost pk (if pk.encrypted && !(s.fab.gangs.any fun g => g.gang == pk.gang) then 0x24 else 0x22)
    else
      match op with
      | .fwd => s.transit pk link
      | .dlv => s.deliverPacket pk
      | .dlvf | .bar => s.reachTree op pk link
      | .addS64 | .addS32 | .addF32 | .addB2 | .maxS64 | .maxS32 | .maxF32 => s.combineHop op pk link

/-- A packet waits on its link credits while what it would write or read here lies in a fenced domain (R371). -/
def State.packetWaits (s : State) (pk : Packet) : Bool :=
  !s.fenced.isEmpty
  && (match pk.ops.head?, pk.kind with
      | some .dlv, .put =>
        ((s.gang pk.gang).bind fun g => (s.ctxs.find? g.ctx.toNat).map fun c => (g, c)).any fun (g, c) =>
          let w : Who := { team := 0, ctx := g.ctx, rank := 0, core := 768 }
          let p := mkPtr 0 0 ((c.expBase + pk.offset) % 2 ^ 57)
          s.deviceFenced w .store p pk.payload.length
      | some op, _ =>
        (combineTy op).isSome
        && ((s.entryOf pk).bind fun e => e.cmd.bind s.getCmd).any fun c =>
          s.transferWaits c (s.pieces (s.whoCmd c) .load (c.desc.getD 0 0 + BitVec.ofNat 64 pk.offset) (min 1024 (bits (descNat c.desc 2) 31 0 - pk.offset)) 0)
      | none, _ => false)

/-- FABRIC_PACKET_ARRIVE (R235, R239): a packet that this module sent to itself, or one that comes over a link. A packet that waited in the
combine buffer is taken from it. (DESIGN CHOICE, log 67) -/
def execFabricPacketArrive (pk : Packet) (link : Option (Fin 18)) (s : State) : Out :=
  whileUp s fun s =>
  if 1024 < pk.payload.length || s.packetWaits pk then .next s
  else
    let waiting := s.fab.combine.contains (pk, link)
    let s' := { s with fab := { s.fab with combine := s.fab.combine.erase (pk, link) } }
    match link with
    | none =>
      if waiting then .next (s'.hop pk none)
      else if s.fab.out.contains (pk, none) then
        .next ({ s with fab := { s.fab with out := s.fab.out.erase (pk, none) } }.hop pk none)
      else .next s
    | some _ => .next (s'.hop { pk with cmd := 0 } link)

/-! ## FABRIC_COMPLETE (R242, R245) -/

/-- The codes with which a peer may answer (R245). -/
def answerCodes : List Byte := [0, 0x14, 0x22, 0x23, 0x24]

/-- The completion arrival of a fabric command: its bytes, and the first error (R242, R245). -/
def State.fabricArrive (s : State) (c : Cmd) (err : Byte) : State :=
  (s.arriveCmd c (bits (descNat c.desc 2) 31 0) (if c.err = 0 then err else c.err)).endCmd c

/-- A command whose packets come back to it: an FCOLL that ends in DLVF or BAR (R239). -/
def Cmd.comesBack (c : Cmd) : Bool :=
  c.kind == .fcoll
  && (match parseRoute ((List.range 5).flatMap fun i => toBytes 8 (descNat c.desc (4 + i))) with
      | some r => r.ops.getLast? == some .dlvf || r.ops.getLast? == some .bar
      | none => false)

/-- FABRIC_COMPLETE (R242): a command that has packets left reads the source of the next and sends it; one that has none completes, with
what its peers answered. An FCONT completes when every offset has been combined. (DESIGN CHOICE, log 29) -/
def execFabricComplete (cmd : Nat) (ans : FabricAnswer) (s : State) : Out :=
  match s.getCmd cmd with
  | none => .next s
  | some c =>
    match s.getTeam c.team with
    | none => .next s
    | some t =>
      if !fabricKinds.contains c.kind || !answerCodes.contains ans.err then .next s
      else if c.kind = .fcont then
        if offsetsOf c.desc ≤ c.cursor then .next (s.fabricArrive c 0) else .next s
      else if !c.stopped && c.cursor < offsetsOf c.desc then .next (s.sendNext t c)
      else if s.underWay c || (c.comesBack && c.err == 0 && ans.err == 0 && c.leaves < offsetsOf c.desc) then .next s
      else .next (s.fabricArrive c ans.err)

/-! ## Links (R234, R245) -/

/-- Replaces a link. -/
def State.setLink (s : State) (l : Fin 18) (x : Link) : State :=
  { s with fab := { s.fab with links := Sparse.set s.fab.links l.val x Link.reset } }

/-- A command of this module has packets that may still be sent: it has not arrived, or its team has been saved. -/
def State.hasCmd (s : State) (id : Nat) : Bool :=
  (s.cmds.any fun c => c.id == id) || s.saved.any fun t => t.cmds.any fun c => c.id == id

/-- A link that is up begins to send a flit, which has failed no retry yet (R234); a packet of a command that has arrived has been sent already.
After its last flit the link sends nothing. (DESIGN CHOICE, log 96) -/
def State.sendFlit (s : State) (l : Fin 18) (pk : Packet) (flit : Nat) : State :=
  if (s.link l).down || (pk.cmd != 0 && !s.hasCmd pk.cmd) then s
  else s.setLink l { down := false, flit := if flit ≤ (pk.payload.length + 63) / 64 then some (pk, flit) else none, failures := 0 }

/-- FLIT_RETRY (R234, R245): the flit that a link sends fails its CRC and is retried; when it has failed all 8 retries its packet is lost, its
command fails with 0x23, and its link goes down for retraining. -/
def execFlitRetry (l : Fin 18) (s : State) : Out :=
  whileUp s fun s =>
  let x := s.link l
  match x.flit with
  | none => .next s
  | some (pk, _) =>
    if x.down then .next s
    else if x.failures < 8 then .next (s.setLink l { x with failures := x.failures + 1 })
    else
      let s := s.setLink l { down := true, flit := none, failures := 0 }
      .next ({ s with fab := { s.fab with out := s.fab.out.erase (pk, some l) } }.failCmd pk.cmd 0x23)

/-- LINK_RETRAIN_DONE (R245): the link is up again. -/
def execLinkRetrainDone (l : Fin 18) (s : State) : Out := .next (s.setLink l Link.reset)

/-! ## Gangs (R247) -/

/-- GANG_REGISTER (R247): a member module has registered its rank; a rank that registers before this module's own launch is remembered. -/
def execGangRegister (gang : BitVec 16) (rank : Nat) (s : State) : Out :=
  whileUp s fun s => .next { s with fab := { s.fab with
    gangs := s.fab.gangs.map fun g => if g.gang = gang then { g with registered := addSorted rank g.registered } else g
    early := if (s.fab.gangs.any fun g => g.gang == gang) || s.fab.early.contains (gang, rank) then s.fab.early
      else s.fab.early ++ [(gang, rank)] } }

/-- The ranks of a gang that have not registered. -/
def Gang.absent (g : Gang) : List (BitVec 16) :=
  ((List.range (Config.gangSize g.gang)).filter fun r => !g.registered.contains r).map fun r => BitVec.ofNat 16 r

/-- GANG_WATCHDOG (R247): where ranks are absent when it expires, the gang's context ends with 0x22, and a notice names them. -/
def execGangWatchdog (gang : BitVec 16) (s : State) : Out :=
  match s.gang gang with
  | none => .next s
  | some g =>
    if s.now < g.deadline || g.absent.isEmpty then .next s
    else
      let s := { s with fab := { s.fab with
        gangs := s.fab.gangs.map fun (x : Gang) => if x.gang = gang then { x with retired := true } else x } }
      .next ((s.terminateContext g.ctx 0x22).notice 8 0x22 g.ctx noDomain 0 0 (if 11 < g.absent.length then 1 else 0) g.absent)

end Sys2Proof.Machine
end

