-- ==== Sys2Proof/Machine/HostOps.lean ====
section
/-! DEFINITION. The host ports: registers, semaphores and commands (R328, R332, R336, R339 to R344, R371, R386). -/

namespace Sys2Proof.Machine

/-! ## Registers (R339) -/

/-- A register write of a port. -/
def State.modPort (s : State) (p : Port) (f : PortRegs → PortRegs) : State := s.setPort p (f (s.port p))

/-- QTAIL_WRITE (R339): bits [7:0] are the new tail. -/
def execQtailWrite (p : Port) (q : Fin 64) (v : Word) (s : State) : Out :=
  whileUp s fun s => .next (s.modPort p fun r => { r with qtail := r.qtail.set q.val (v.setWidth 8) 0 })

/-- QBASE_WRITE (R339): ignored while the ring is not empty; the low 12 bits of the base are zero. (DEDUCED, log 41) -/
def execQbaseWrite (p : Port) (q : Fin 64) (v : Word) (s : State) : Out :=
  whileUp s fun s => .next (s.modPort p fun r =>
    if r.qhead.getD q.val 0 = r.qtail.getD q.val 0 then { r with qbase := r.qbase.set q.val (v &&& 0xFFFFFFFFFFFFF000) 0 } else r)

/-- PORTERR_WRITE (R339): a written one clears its bit. -/
def execPorterrWrite (p : Port) (v : Word) (s : State) : Out :=
  whileUp s fun s => .next (s.modPort p fun r => { r with err := r.err &&& ~~~v })

/-- HOST_REG_WRITE (R339): CMD0 to CMD4 take the value; every other register ignores it. -/
def execHostRegWrite (p : Port) (off : Nat) (v : Word) (s : State) : Out :=
  whileUp s fun s => .next (s.modPort p fun r =>
    if 0x100 ≤ off ∧ off < 0x128 ∧ off % 8 = 0 then { r with cmd := r.cmd.set ((off - 0x100) / 8) v } else r)

/-- What SEMOWN shows of an owner. -/
def ownerCode : Option Port → Word
  | none => 0
  | some .a => 1
  | some .b => 2

/-- IDENT of a port (R339): product 0x09, stepping, port, version of the running firmware. -/
def State.ident (s : State) (p : Port) : Word :=
  BitVec.ofNat 64 (9 + 2 ^ 8 * Config.stepping.toNat + (match p with | .a => 0 | .b => 2 ^ 16) + 2 ^ 32 * s.host.firmware.version)

/-- An aligned 8-byte read of a port's register block (R339, Table 14.4). A read of SEMTAKE is also the take itself, which SEMTAKE performs; here
stands what it returns. Every offset not listed reads as zero. -/
def State.portRead (s : State) (p : Port) (off : Nat) : Word :=
  let r := s.port p
  let semaphore (n : Nat) : Semaphore := s.host.sems.getD n Semaphore.reset
  if off = 0 then s.ident p
  else if off = 8 then
    BitVec.ofNat 64 ((match s.host.life with | .manufacture => 0 | .provisioned => 1 | .deployed => 2 | .decommissioned => 3)
      + (if s.host.wiping then 256 else 0) + (if s.host.staged.isSome then 512 else 0))
  else if off = 0x10 then r.err
  else if 0x100 ≤ off ∧ off < 0x128 ∧ off % 8 = 0 then r.cmd.getD ((off - 0x100) / 8) 0
  else if off = 0x130 then BitVec.ofNat 64 ((if r.busy then 1 else 0) + 256 * r.result.toNat)
  else if 0x1000 ≤ off ∧ off < 0x1100 ∧ off % 8 = 0 then ownerCode (semaphore ((off - 0x1000) / 8)).owner
  else if 0x1100 ≤ off ∧ off < 0x1200 ∧ off % 8 = 0 then
    match (semaphore ((off - 0x1100) / 8)).owner with
    | none => 1
    | some o => if o = p then 1 else 0
  else if 0x2000 ≤ off ∧ off < 0x2800 then
    let q := (off - 0x2000) / 32
    if off % 32 = 0 then r.qbase.getD q 0
    else if off % 32 = 8 then (r.qtail.getD q 0).setWidth 64
    else if off % 32 = 16 then (r.qhead.getD q 0).setWidth 64
    else 0
  else 0

/-! ## Semaphores (R341) -/

/-- A semaphore by number. -/
def State.sem (s : State) (n : Fin 32) : Semaphore := s.host.sems.getD n.val Semaphore.reset
/-- Replaces a semaphore. -/
def State.setSem (s : State) (n : Fin 32) (x : Semaphore) : State :=
  { s with host := { s.host with sems := s.host.sems.set n.val x Semaphore.reset } }

/-- The other port. -/
def otherPort : Port → Port
  | .a => .b
  | .b => .a

/-- SEMTAKE (R341): a take of a free semaphore makes the port its owner, any other take changes nothing; of two ports in one clock the loser of
the last tie wins. -/
def execSemtake (n : Fin 32) (t : Takers) (s : State) : Out :=
  whileUp s fun s =>
  let x := s.sem n
  match x.owner, t with
  | some _, _ => .next s
  | none, .one p => .next (s.setSem n { x with owner := some p })
  | none, .both => .next (s.setSem n { owner := some x.lost, lost := otherPort x.lost })

/-- SEMREL (R341): by a port that does not own the semaphore it only sets PORTERR[0]. -/
def execSemrel (n : Fin 32) (p : Port) (s : State) : Out :=
  whileUp s fun s =>
  let x := s.sem n
  if x.owner = some p then .next (s.setSem n { x with owner := none })
  else .next (s.modPort p fun r => { r with err := r.err ||| 1 })

/-- PORT_LINK_DOWN (R341): the port's semaphores are released. -/
def execPortLinkDown (p : Port) (s : State) : Out :=
  let sems := (List.map (fun (e : Nat × Semaphore) => (e.1, if e.2.owner = some p then { e.2 with owner := none } else e.2))
    s.host.sems).filter fun e => e.2 != Semaphore.reset
  .next ({ s with host := { s.host with sems := sems } }.modPort p fun r => { r with up := false })

/-- The widths of a PCIe link (R14). (PRESUMED, log 93) -/
def linkWidths : List Nat := [16, 8, 4, 2, 1]

/-- The rates of a PCIe 7.0 lane, in tenths of GT/s (R14). (PRESUMED, log 93) -/
def linkRates : List Nat := [1280, 640, 320, 160, 80, 50, 25]

/-- The largest of some falling choices that an offer reaches; the last of them where it reaches none. -/
def negotiated (choices : List Nat) (offer : Nat) : Nat := (choices.find? fun x => decide (x ≤ offer)).getD (choices.getLastD 0)

/-- PORT_LINK_UP (R14): the link's width, rate and AtomicOp support are settled, as wide and as fast as the two ends allow; the rate stands in
tenths of GT/s. (DESIGN CHOICE, log 110) -/
def execPortLinkUp (p : Port) (lanes rate : Nat) (atomicOp : Bool) (s : State) : Out :=
  whileUp s fun s => .next (s.modPort p fun r =>
    { r with up := true, lanes := negotiated linkWidths lanes, rate := negotiated linkRates rate, atomicOp := atomicOp })

/-- SMBUS_POWER_LIMIT (R386): clamped to 1,000 to 6,400; it applies from the next governor step. -/
def execSmbusPowerLimit (v : BitVec 16) (s : State) : Out :=
  whileUp s fun s => .next { s with pow := { s.pow with limit := min 6400 (max 1000 v.toNat) } }

/-! ## Commands (R340, Table 14.5) -/

/-- What a command asks of the module before its own checks. -/
structure HostForm where
  instr : Instr
  code : Byte
  /-- accepted only in DEPLOYED -/
  deployed : Bool
  /-- needs semaphore 0 -/
  sem0 : Bool
  /-- names a context in CMD0 -/
  names : Bool
  deriving DecidableEq, Repr

/-- The codes of the commands that name a context. -/
def contextCodes : List Byte := [1, 2, 3, 4]
/-- The codes of the commands that need semaphore 0. -/
def semaphoreCodes : List Byte := [0x10, 0x11, 0x12]

/-- A command reached the unit after one of the other port that names the same context, or that needs semaphore 0 as it does: it waits for its
turn (R340). Of two that wait, the one that reached the unit first goes first. (DEDUCED, log 90) -/
def State.heldUp (s : State) (p : Port) (f : HostForm) (ops : List Word) : Bool :=
  let r := s.port p
  let o := s.port (otherPort p)
  o.busy && (o.waits.isNone || r.waits.isNone || decide (o.reached < r.reached))
  && ((f.names && contextCodes.contains o.code && (o.held.getD 0 0).toNat % 65536 == (ops.getD 0 0).toNat % 65536)
      || (f.sem0 && semaphoreCodes.contains o.code))

/-- The result of a command that ends at once. -/
def State.hostResult (s : State) (p : Port) (code : Byte) : State :=
  s.modPort p fun r => { r with busy := false, waits := none, result := code }

/-- Runs the command that a port starts with CMDGO (R339, R340). The body gives a result code, or the state after its effect and whether the
command is still under way. A refused command changes nothing but its result. (DEDUCED, log 40) -/
def hostCommand (p : Port) (f : HostForm) (s : State) (body : List Word → State → Except Byte (State × Bool)) : Out :=
  let r := s.port p
  let ops := if r.waits.isSome then r.held else r.cmd
  if r.busy then .next (s.setPort p { r with err := r.err ||| 2 })
  else if s.heldUp p f ops then
    .next (s.setPort p
      { r with busy := true, code := f.code, held := ops, waits := some f.instr, reached := if r.waits.isSome then r.reached else s.stamp })
  else if s.host.wiping then .next (State.hostResult s p 5)
  else if s.pow.tripped then .next s
  else if f.deployed && s.host.life != .deployed then .next (State.hostResult s p 5)
  else if f.sem0 && (s.sem 0).owner != some p then .next (State.hostResult s p 3)
  else
    match body ops s with
    | .error c => .next (State.hostResult s p c)
    | .ok (s, true) => .next (s.modPort p fun r => { r with busy := true, code := f.code, held := ops, waits := none })
    | .ok (s, false) => .next (State.hostResult s p 0)

/-- An operand of a command as a number. -/
def operandOf (ops : List Word) (i : Nat) : Nat := (ops.getD i 0).toNat
/-- The context that CMD0 names. -/
def ctxOf (ops : List Word) : BitVec 16 := BitVec.ofNat 16 (operandOf ops 0)

/-- CTXCREATE (R328, Table 14.5). (DESIGN CHOICE, log 117) -/
def execCtxcreate (p : Port) (s : State) : Out :=
  hostCommand p { instr := .ctxcreate p, code := 1, deployed := true, sem0 := false, names := true } s fun ops s =>
    let c := ctxOf ops
    let illegal := c == 0 || c == 0xFFFE || c == 0xFFFF || operandOf ops 1 % 65536 != 0 || operandOf ops 2 % 65536 != 0
      || operandOf ops 3 % 65536 != 0 || operandOf ops 4 % 65536 != 0 || decide (2 ^ 46 < operandOf ops 4)
    if illegal then .error 2
    else if (s.ctxs.find? c.toNat).isSome then .error 4
    else
      let x : Ctx :=
        { perf := bit (operandOf ops 0) 16, groot := operandOf ops 1 % 2 ^ 52, hroot := operandOf ops 2 % 2 ^ 52, expBase := operandOf ops 3,
          expSize := operandOf ops 4, slots := [], destroying := false }
      .ok ({ s with ctxs := s.ctxs.insert c.toNat x }, false)

/-- Steps 2 to 4 of R336 for every grid of a context: teams, commands and fabric traffic go; nothing is recorded. -/
def State.dropContext (s : State) (ctx : BitVec 16) : State :=
  let s := ((s.allTeams.filter fun t => t.ctx == ctx).foldl State.removeTeam s).dropTraffic ctx
  { s with grids := s.grids.filter fun g => g.ctx != ctx, saved := s.saved.filter fun t => t.ctx != ctx }

/-- The host rings whose unread entries of a context are discarded, with how many entries are unread. -/
def State.purgesOf (s : State) (ctx : BitVec 16) : List Purge :=
  [Port.a, Port.b].flatMap fun p =>
    let r := s.port p
    ((List.range 64).filter fun n => r.qhead.getD n 0 != r.qtail.getD n 0).map fun n =>
      { port := p, queue := n, ctx := ctx, left := (r.qtail.getD n 0 - r.qhead.getD n 0).toNat }

/-- The entries of a host ring that are to be discarded for a context: all that stand unread in the rings now. -/
def State.purge (s : State) (ctx : BitVec 16) : State :=
  { s with host := { s.host with purges := (s.host.purges.filter fun x => x.ctx != ctx) ++ s.purgesOf ctx } }

/-- The error of an entry that stays follows its entry, and that of an entry which is discarded is gone. -/
def State.queueError (s : State) (ctx : BitVec 16) (e : ErrorPlace) : Option ErrorPlace :=
  match e with
  | .launchEntry q place =>
    let items := s.devq.getD q []
    if items[place]?.all fun i => i.ctx == ctx then none else some (.launchEntry q ((items.take place).filter fun i => i.ctx != ctx).length)
  | .head q => if s.heads.any fun h => h.queue == q && h.item.ctx == ctx then none else some e
  | e => some e

/-- Step 1 of R336: queued entries of a context are discarded, those that stand unread in a host ring as the device comes to them. -/
def State.dropQueued (s : State) (ctx : BitVec 16) : State :=
  { s.purge ctx with
    latent := s.latent.filterMap (s.queueError ctx)
    devq := (List.map (fun (q : Nat × List QueueItem) => (q.1, q.2.filter fun i => i.ctx != ctx)) s.devq).filter fun q => q.2 != []
    heads := s.heads.filter fun h => h.item.ctx != ctx }

/-- Steps 1 to 5 of R336. (DEDUCED, log 42) -/
def State.beginDestroy (s : State) (ctx : BitVec 16) (c : Ctx) : State :=
  let s := { s with ctxs := s.ctxs.insert ctx.toNat { c with destroying := true } }
  ((s.dropQueued ctx).dropContext ctx).drainHost

/-- CTXDESTROY (R336): its first steps; CTXDESTROY_COMPLETE makes the last ones. -/
def execCtxdestroy (p : Port) (s : State) : Out :=
  hostCommand p { instr := .ctxdestroy p, code := 2, deployed := true, sem0 := false, names := true } s fun ops s =>
    match s.ctxs.find? (ctxOf ops).toNat with
    | none => .error 4
    | some c => .ok (s.beginDestroy (ctxOf ops) c, true)

/-- Lines tagged with a context go: a dirty one has been written back, and its entry is free (R336). -/
def freeLines (m : Sparse L2Line) (ctx : BitVec 16) : Sparse L2Line := List.filter (fun x => x.2.tag != ctx) m

/-- An error in a dirty line that wears the tag of a context. -/
def State.dirtyError (s : State) (ctx : BitVec 16) : ErrorPlace → Bool
  | .sharedLine line _ => (s.l2.find? line).bind (·.dirty) == some ctx
  | _ => false

/-- The entry is one that wears a context's tag: the context takes the entry with it, and an error in it costs nothing any more. -/
def ErrorPlace.isOf (ctx : BitVec 16) : ErrorPlace → Bool
  | .tagged c _ | .walk _ c .. => c == ctx
  | _ => false

/-- Steps 6 to 8 of R336: an error in a dirty line is consumed as the line is written back (R367); translations, lines and the identifier itself
are freed. Launch entries that have come in meanwhile are discarded too: the context that takes the identifier next has not posted them. -/
def State.endDestroy (s : State) (ctx : BitVec 16) : State :=
  let s := s.spendWhere (s.dirtyError ctx)
  { s.purge ctx with
    tlb := s.tlb.filter fun e => e.ctx != ctx
    l2 := freeLines s.l2 ctx
    l1 := s.l1.filter fun l => l.tag != ctx
    latent := s.latent.filter fun e => !ErrorPlace.isOf ctx e
    ctxs := s.ctxs.erase ctx.toNat
    fab := { s.fab with gangs := s.fab.gangs.filter fun g => g.ctx != ctx } }

/-- CTXDESTROY_COMPLETE (R336). -/
def execCtxdestroyComplete (p : Port) (s : State) : Out :=
  let r := s.port p
  if r.busy && r.waits.isNone && r.code == 2 then .next (State.hostResult (s.endDestroy (ctxOf r.held)) p 0) else .next s

/-- INVAL (R332): it completes with INVAL_COMPLETE. -/
def execInval (p : Port) (s : State) : Out :=
  hostCommand p { instr := .inval p, code := 3, deployed := true, sem0 := false, names := true } s fun ops s =>
    if (s.ctxs.find? (ctxOf ops).toNat).isNone then .error 4 else .ok (s, true)

/-- A cached walk that an INVAL covers; 0 bytes mean the whole table. -/
def TlbEntry.covered (e : TlbEntry) (ops : List Word) : Bool :=
  e.ctx == ctxOf ops && e.host == bit (operandOf ops 0) 16
  && (operandOf ops 2 == 0
      || (decide (operandOf ops 1 % 2 ^ 57 < e.va + e.leaf.size) && decide (e.va < operandOf ops 1 % 2 ^ 57 + operandOf ops 2)))

/-- An agent has begun a lane word of which some lanes are still to make their accesses, where its check has found them (R187, R217). -/
def Agent.begun (a : Agent) : Bool := (a.cur :: a.others).any fun f => f.early.isSome

/-- An access that has been translated is still to be performed: a store on its way to the host, through the table that an INVAL names, or the rest of
a lane word of the context. (DEDUCED, log 88) -/
def State.invalWaits (s : State) (ops : List Word) : Bool :=
  (bit (operandOf ops 0) 16 && s.hostPath.any fun x => x.ctx == ctxOf ops)
  || s.allAgents.any fun a => a.begun && (s.getTeam (teamOf a.id)).any fun t => t.ctx == ctxOf ops

/-- INVAL_COMPLETE (R332): no TLB holds a covered entry any more, and every access through one has been performed. Nothing happens while one
has not. -/
def execInvalComplete (p : Port) (s : State) : Out :=
  let r := s.port p
  if r.busy && r.waits.isNone && r.code == 3 && !s.invalWaits r.held then
    .next (State.hostResult { s with tlb := s.tlb.filter fun e => !e.covered r.held } p 0)
  else .next s

/-! ### FAULTREPLY (R188, R290, R353) -/

/-- The bytes of the page that a FAULTREPLY names: the mapped page, or the smallest one where none is mapped. (DEDUCED, log 37) -/
def State.replySize (s : State) (ctx : BitVec 16) (page : Word) : Nat :=
  match s.walkCtx ctx (ptrSpace page == 4) (ptrOffset page % 2 ^ 57) with
  | .ok l => l.size
  | .error _ => 65536

/-- An address lies on the page. -/
def onPage (page : Word) (size : Nat) (a : Word) : Bool := a.toNat / size == page.toNat / size

/-- An agent of the context is parked on the page, and has not stopped there for a save (R359). -/
def State.parkedOn (s : State) (ctx : BitVec 16) (page : Word) (size : Nat) (a : Agent) : Bool :=
  match a.status with
  | .parked _ x _ =>
    onPage page size x
    && (match s.getTeam (teamOf a.id) with
        | some t => t.ctx == ctx && (t.saveReq.isNone || a.isDrop)
        | none => false)
  | _ => false

/-- An agent whose page is there goes on at its region's entry. -/
def State.unpark (s : State) (id : AgentId) : State :=
  match s.getAgent id with
  | some a => s.setAgent { a with status := .running }
  | none => s

/-- An agent whose page is declared invalid takes 0x12 in place of 0x11. -/
def State.refusePage (s : State) (id : AgentId) : State :=
  match s.focus id with
  | none => s
  | some s =>
    match s.ag.status with
    | .parked a page lane => s.deliver { rid := s.ag.reg.rid, code := 0x12, addr := a, page := page, lane := lane, tell := false }
    | _ => s

/-- A suspended command hears the driver's answer (R290). -/
def Cmd.reply (c : Cmd) (page : Word) (size : Nat) (invalid : Bool) : Cmd :=
  if c.suspended.any (onPage page size) then
    let hit := c.suspended.filter (onPage page size)
    let c := { c with suspended := c.suspended.filter fun a => !onPage page size a }
    if invalid then { c.fail 0x12 with refused := c.refused ++ hit, stopped := c.stopped || c.kind != .fcont } else c
  else c

/-- The save area has a page on which a save or a restore was suspended (R362): where it is still absent the driver is told again. -/
def State.replySave (s : State) (ctx : BitVec 16) (page : Word) (size : Nat) : State :=
  let answered (c : BitVec 16) (a : Option Word) : Bool := c == ctx && (match a with | some x => onPage page size x | none => false)
  let f (t : Team) : Team := if answered t.ctx t.saveTold then { t with saveTold := none } else t
  { s with
    tm := f s.tm
    teams := s.teams.map f
    saved := s.saved.map fun x => if answered x.ctx x.told then { x with told := none } else x }

/-- FAULTREPLY (R188): agents parked on the page and commands suspended on it go on, or take 0x12. (DESIGN CHOICE, log 119) -/
def execFaultreply (p : Port) (s : State) : Out :=
  hostCommand p { instr := .faultreply p, code := 4, deployed := false, sem0 := false, names := true } s fun ops s =>
    let ctx := ctxOf ops
    if (s.ctxs.find? ctx.toNat).isNone then .error 4
    else
      let invalid := bit (operandOf ops 0) 16
      let page := ops.getD 1 0
      let size := if invalid then 65536 else s.replySize ctx page
      let ids := (s.allAgents.filter (s.parkedOn ctx page size)).map (·.id)
      let mine (c : Cmd) : Bool := (s.whoCmd c).ctx == ctx
      let s := { s with cmds := s.cmds.map fun c => if mine c then c.reply page size invalid else c }
      let s := if invalid then s else s.replySave ctx page size
      .ok (ids.foldl (if invalid then State.refusePage else State.unpark) s, false)

/-- DOMRESET (R371): the domain is fenced; DOMAIN_READMIT completes the command. -/
def execDomreset (p : Port) (s : State) : Out :=
  hostCommand p { instr := .domreset p, code := 0x10, deployed := false, sem0 := true, names := false } s fun ops s =>
    if 1138 ≤ operandOf ops 0 then .error 2 else .ok (s.fenceDomain (operandOf ops 0), true)

/-! ### Life cycle, firmware, identity (R342 to R344) -/

/-- The code of a life-cycle state (Table 14.6). -/
def LifeState.code : LifeState → Nat
  | .manufacture => 0
  | .provisioned => 1
  | .deployed => 2
  | .decommissioned => 3

/-- The transitions of Table 14.6. -/
def lifeStep (x : LifeState) (target : Nat) : Option LifeState :=
  match x, target with
  | .manufacture, 1 | .deployed, 1 => some .provisioned
  | .provisioned, 2 => some .deployed
  | .provisioned, 3 | .deployed, 3 => some .decommissioned
  | _, _ => none

/-- The bytes that a life-cycle signature covers: serial number, current state, target state (R342). -/
def lifeMessage (x : LifeState) (target : Nat) : List Byte :=
  toBytes 8 Config.serial.toNat ++ [BitVec.ofNat 8 x.code, BitVec.ofNat 8 target]

/-- Every context is destroyed, as CTXDESTROY does (R342). -/
def State.destroyAll (s : State) : State :=
  let s := (List.map (fun (x : Nat × Ctx) => BitVec.ofNat 16 x.1) s.ctxs).foldl
    (fun s c => (((s.dropQueued c).dropContext c).drainHost).endDestroy c) s
  s

/-- LCCHANGE (R342): a signed transition destroys every context and wipes the module. -/
def execLcchange (p : Port) (s : State) : Out :=
  hostCommand p { instr := .lcchange p, code := 0x11, deployed := false, sem0 := true, names := false } s fun ops s =>
    let target := operandOf ops 0 % 4
    match lifeStep s.host.life target with
    | none => .error 5
    | some x =>
      let (key, signature) := Config.parseAuth ((s.hostMem p).readN (operandOf ops 1) (operandOf ops 2))
      if !signedByFused key (sha384 (lifeMessage s.host.life target)) signature then .error 6
      else
        let identity := match x, s.host.life with
          | .decommissioned, _ => false
          | .provisioned, .manufacture => true
          | _, _ => s.host.identity
        let s := s.destroyAll
        .ok ({ s with host := { s.host with life := x, identity := identity } }.startWipe, false)

/-- FWUPDATE (R343): the image is verified and staged for the next reset. -/
def execFwupdate (p : Port) (s : State) : Out :=
  hostCommand p { instr := .fwupdate p, code := 0x12, deployed := false, sem0 := true, names := false } s fun ops s =>
    let (version, body, digest, key, signature) := Config.parseImage ((s.hostMem p).readN (operandOf ops 1) (operandOf ops 2))
    let image : Firmware := { version := version, body := body, digest := digest, key := key, signature := signature }
    match image.check s.host.floor with
    | some code => .error code
    | none => .ok ({ s with host := { s.host with staged := some image } }, false)

/-- Bytes 0 to 119 of the attestation report (Table 14.7). -/
def State.reportBody (s : State) (nonce : List Byte) : List Byte :=
  toBytes 4 1 ++ toBytes 4 s.host.life.code ++ toBytes 8 Config.serial.toNat ++ toBytes 8 s.host.firmware.version
  ++ sha384 s.host.firmware.body ++ nonce

/-- ATTEST (R344): the signed report after the nonce, or the certificate chain after its length. -/
def execAttest (p : Port) (s : State) : Out :=
  hostCommand p { instr := .attest p, code := 0x13, deployed := false, sem0 := false, names := false } s fun ops s =>
    if s.host.life = .manufacture ∨ s.host.life = .decommissioned then .error 5
    else
      let a := operandOf ops 1
      let m := s.hostMem p
      if bit (operandOf ops 0) 0 then
        .ok (s.setHostMem p (m.writeN a (toBytes 4 Config.certChain.length ++ Config.certChain)), false)
      else
        let body := s.reportBody (m.readN a 48)
        .ok (s.setHostMem p (m.writeN (a + 48) (body ++ identitySign body)), false)

/-- HOST_CMD_UNKNOWN (R340): result 0x01. -/
def execHostCmdUnknown (p : Port) (code : Byte) (s : State) : Out :=
  hostCommand p { instr := .hostCmdUnknown p code, code := code, deployed := false, sem0 := false, names := false } s fun _ _ => .error 1

end Sys2Proof.Machine
end

