-- ==== Sys2Proof/Machine/LaneControl.lean ====
section
/-! DEFINITION. Lane control and divergence, and LTRAP (R271 to R274, R357). -/

namespace Sys2Proof.Machine

/-- The running fragment goes to an address, after an instruction that ends its chain (R36). -/
def Agent.jumpLane (a : Agent) (lpc : Word) : Agent :=
  { a with cur := { a.cur with lpc := lpc }, issued := a.issued + 1, chain := 0, latches := [] }

/-- The address after a lane word. -/
def nextLpc (a : Word) : Word := a + 12

/-- A mask lies within another. -/
def Mask.within (m e : Mask) : Bool := m &&& ~~~e == 0

/-- BRD (R273): the split table holds 8 fragments. -/
def execBrd (w : CtlOps) (s : State) : Out :=
  let a := s.ag.cur.lpc
  let m := s.ag.cur.mask
  let p := s.ag.getP w.pred
  let t := m &&& (if w.pneg then ~~~p else p)
  let target := a + laneOffset w
  if t = 0 then .next (s.modAg fun x => x.jumpLane (nextLpc a))
  else if t = m then .next (s.modAg fun x => x.jumpLane target)
  else if 7 ≤ s.ag.others.length then laneFault s 0x09 a
  else
    .next (s.modAg fun x =>
      let x := x.jumpLane (nextLpc a)
      { x with
        cur := { x.cur with mask := m &&& ~~~t }
        others := { mask := t, lpc := target, wait := .no } :: x.others })

/-- JMARK (R273). -/
def execJmark (w : CtlOps) (s : State) : Out :=
  let a := s.ag.cur.lpc
  if 16 ≤ s.ag.stack.length then laneFault s 0x09 a
  else
    .next (s.modAg fun x =>
      { x.jumpLane (nextLpc a) with stack := { addr := a + laneOffset w, mask := x.cur.mask } :: x.stack })

/-- The lanes of fragments. -/
def unionMask (fs : List Frag) : Mask := fs.foldl (fun m f => m ||| f.mask) 0

/-- A fragment waits at a JOIN of an address within an entry's mask. -/
def Frag.waitsAt (f : Frag) (a : Word) (e : Mask) : Bool := f.wait == .atJoin && f.lpc == a && Mask.within f.mask e

/-- JOIN (R273): the most recent entry whose mask includes the fragment must name this address. -/
def execJoin (_ : CtlOps) (s : State) : Out :=
  let a := s.ag.cur.lpc
  match s.ag.stack.find? fun e => Mask.within s.ag.cur.mask e.mask with
  | none => laneFault s 0x09 a
  | some e =>
    if e.addr ≠ a then laneFault s 0x09 a
    else
      .next (s.modAg fun x =>
        let x := x.jumpLane a
        let x := { x with cur := { x.cur with wait := .atJoin } }
        let at_ := (x.cur :: x.others).filter fun f => f.waitsAt a e.mask
        if unionMask at_ = e.mask then
          { x with
            cur := { mask := e.mask, lpc := nextLpc a, wait := .no }
            others := x.others.filter fun f => !f.waitsAt a e.mask
            stack := x.stack.erase e }
        else x)

/-- LJMP (R273). -/
def execLjmp (w : CtlOps) (s : State) : Out :=
  .next (s.modAg fun x => x.jumpLane (x.cur.lpc + laneOffset w))

/-- LNOP (R273): it ends no chain by itself, but its chain bit is clear (R272). -/
def execLnop (_ : CtlOps) (s : State) : Out := .next (s.modAg fun x => x.jumpLane (nextLpc x.cur.lpc))

/-- The block ends (R273): the lane barrier phase advances, and its queue entry frees. -/
def Agent.endBlock (a : Agent) : Agent :=
  { a.pop with
    running := false, cur := Frag.whole 0, others := [], stack := [], latches := [], chain := 0, lphase := a.lphase + 1 }

/-- LEND (R273). -/
def execLend (_ : CtlOps) (s : State) : Out :=
  let a := s.ag.cur.lpc
  if s.ag.stack.any fun e => e.mask &&& s.ag.cur.mask != 0 then laneFault s 0x09 a
  else
    .next (s.modAg fun x =>
      let x := x.jumpLane a
      let x := { x with cur := { x.cur with wait := .atLend } }
      if x.others.all fun f => f.wait == .atLend then x.endBlock else x)

/-- LTRAP (R357). -/
def execLtrap (w : CtlOps) (s : State) : Out :=
  if s.active w.h = 0 then .next (s.nextLane w.h) else laneFault s 0x30 (BitVec.ofNat 64 (bits w.imm.toNat 7 0))

end Sys2Proof.Machine
end

