-- ==== Sys2Proof/Machine/ScalarMem.lean ====
section
/-! DEFINITION. Scalar loads, stores, atomics and fences, and PUBL (R189 to R198). -/

namespace Sys2Proof.Machine

/-- Runs a scalar access once its checks have passed (R187); a store does not wait for the host write path (R194). -/
def scalarAccess (sp : AccSpec) (x : LaneAcc) (s : State) (f : State → Out) : Out :=
  match s.judge s.tm s.who sp [x] with
  | .fail e => .next (s.memFault e false)
  | .wait => wait s
  | .go => f (if sp.acc.reads then s.beforeAccess x.ptr else s)

/-- The spaces open to SLD and SST (Table 8.4). -/
def openScalar : List Nat := [0, 1, 2, 3, 4]
/-- The spaces open to atomics (Table 8.4). -/
def openAtomic : List Nat := [0, 1, 2]

/-- A scalar load of `n` bytes (R196). -/
def scalarLoad (n : Nat) (d a : Fin 64) (i : BitVec 14) (s : State) : Out :=
  whenDrained s fun s =>
    let x := scalarAcc (s.ag.getG a) (sext14 i)
    scalarAccess { spaces := openScalar, size := n, align := 1, acc := .load } x s fun s =>
      let v := ofBytes (s.load s.who false x.ptr n 0)
      let s := s.seen s.who false 0 (goodPieces (s.pieces s.who .load x.ptr n 0))
      .next (s.modAg fun y => y.setG d (BitVec.ofNat 64 v)).goNext

/-- A scalar store of `n` bytes (R196). -/
def scalarStore (n : Nat) (d a : Fin 64) (i : BitVec 14) (s : State) : Out :=
  whenDrained s fun s =>
    let x := scalarAcc (s.ag.getG a) (sext14 i)
    scalarAccess { spaces := openScalar, size := n, align := 1, acc := .store } x s fun s =>
      .next (s.store s.who x.ptr (toBytes n (s.ag.getG d).toNat) 0).goNext

/-- SLD64 (R196). -/
def execSld64 (d a : Fin 64) (i : BitVec 14) (s : State) : Out := scalarLoad 8 d a i s
/-- SLD32 (R196). -/
def execSld32 (d a : Fin 64) (i : BitVec 14) (s : State) : Out := scalarLoad 4 d a i s
/-- SST64 (R196). -/
def execSst64 (d a : Fin 64) (i : BitVec 14) (s : State) : Out := scalarStore 8 d a i s
/-- SST32 (R196). -/
def execSst32 (d a : Fin 64) (i : BitVec 14) (s : State) : Out := scalarStore 4 d a i s

/-- The acquire of an access with an order. -/
def State.acquireOrder (s : State) (core : Nat) (sc : Scope) (o : Order) : State :=
  match o with
  | .acquire | .acqRel => s.acquire core sc
  | .relaxed | .release => s

/-- A 64-bit scalar atomic: reads the old value, writes `f` of it, and gives the old value to gd (R197). -/
def scalarAtomic (d a : Fin 64) (sc : Scope) (o : Order) (f : Agent → Word → Option Word) (s : State) : Out :=
  whenDrained s fun s =>
    let p := s.ag.getG a
    scalarAccess { spaces := openAtomic, size := 8, align := 8, acc := .atomic } { lane := 0, ptr := p, ok := true } s fun s =>
      gangSync (acquiresGang sc o) s fun s =>
      let ag := s.ag
      let ps := goodPieces (s.pieces s.who .atomic p 8 0)
      let (old, s) := (s.predictAt s.who 0 ps).atomicAt s.who 0 ps fun bs =>
        (f ag (BitVec.ofNat 64 (ofBytes bs))).map fun v => toBytes 8 v.toNat
      .next ((s.acquireOrder s.who.core sc o).modAg fun x => x.setG d (BitVec.ofNat 64 (ofBytes old))).commit

/-- SATOM (R197). -/
def execSatom (d a b : Fin 64) (sc : Scope) (o : Order) (f : SatomOp) (s : State) : Out :=
  scalarAtomic d a sc o (fun ag old => some (SatomOp.apply f old (ag.getG b))) s
/-- SCAS (R197): a compare that fails writes nothing. -/
def execScas (d a b : Fin 64) (sc : Scope) (o : Order) (s : State) : Out :=
  scalarAtomic d a sc o (fun ag old => if old = ag.getG d then some (ag.getG b) else none) s

/-- FENCE (R198). -/
def execFence (sc : Scope) (k : FenceKind) (s : State) : Out :=
  whenDrained s fun s =>
    match k with
    | .acquire | .full => gangSync (sc == .gang) s fun s => .next (s.acquire s.who.core sc).goNext
    | .release => .next s.goNext

/-- PUBL (R195): every host write pending is performed, and then the counter rises by one. -/
def execPubl (a : Fin 64) (s : State) : Out :=
  whenDrained s fun s =>
    let p := s.ag.getG a
    scalarAccess { spaces := [4], size := 8, align := 8, acc := .publish } { lane := 0, ptr := p, ok := true } s fun s =>
      match goodPieces (s.pieces s.who .publish p 8 0) with
      | x :: _ =>
        match x.place with
        | .host port => .next (s.advanceCounter port x.addr).commit
        | _ => .next s.commit
      | [] => .next s.commit

end Sys2Proof.Machine
end

