-- ==== Sys2Proof/Machine/LaneMem.lean ====
section
/-! DEFINITION. Lane memory instructions (R199 to R205). -/

namespace Sys2Proof.Machine

/-- The bytes of a memory width (R62). -/
def Width.bytes : Width → Nat
  | .w8 => 1
  | .w16 => 2
  | .w32 => 4
  | .w64 => 8
  | .w128 => 16

/-- The access of one lane (R62): the pointer of the pair of A, or the base of A plus the signed 32-bit offset of B. -/
def laneAddr (uni : Bool) (base off : Nat) (lane : Nat) : LaneAcc :=
  let p := BitVec.ofNat 64 base
  if uni then
    let (q, ok) := addPtr p (BitVec.ofInt 64 (toSigned 32 off))
    { lane := lane, ptr := q, ok := ok }
  else { lane := lane, ptr := p, ok := true }

/-- The accesses of the active lanes, rising. -/
def State.laneAccs (s : State) (w : MemOps) (act : Mask) : List LaneAcc :=
  let a := s.operand .u64 w.imm w.a
  let b := if w.uni then s.operand .s32 w.imm w.b else List.replicate 64 0
  (lanesOf act).map fun l => laneAddr w.uni (a.getD l 0) (b.getD l 0) l

/-- The address sources of a memory word. -/
def addrUses (w : MemOps) : List SrcUse := if w.uni then [(w.a, 1), (w.b, 1)] else [(w.a, 2)]

/-- Runs a lane access once its address phases have passed (R187, R201); where some lanes have made theirs already, the phases have passed before
the first of them. -/
def laneAccess (sp : AccSpec) (as : List LaneAcc) (s : State) (f : State → Out) : Out :=
  match if s.ag.cur.early.isSome then .go else s.judge s.tm s.who sp as with
  | .fail e => .next (s.memFault e true)
  | .wait => wait s
  | .go => f (if sp.acc.reads && as.any fun a => ptrSpace a.ptr == 4 then s.drainHost else s)

/-! ## VLD and VST (R202) -/

/-- The names that VLD writes. (DEDUCED, log 13) -/
def loadNames (w : MemOps) : List Nat :=
  if w.width = .w128 then upTo w.h.name.val (w.h.name.val + 4) else destNames w.h w.ty

/-- A loaded number as a lane value: the narrow widths are extended by the type's sign. -/
def extendLoad (w : MemOps) (x : Nat) : Nat :=
  let b := 8 * Width.bytes w.width
  if w.ty = .s32 ∧ b < 32 then wrapInt 32 (toSigned b x) else x

/-- Writes the four names of a 128-bit load, tagged RAW. -/
def State.writeFour (s : State) (n : Nat) (act : Mask) (vals : List Nat) : State :=
  (List.range 4).foldl (fun s i => s.writeName (n + i) 0 act (vals.map fun x => x / 2 ^ (32 * i))) s

/-- The pieces of the accesses of an instruction. -/
def State.accPieces (s : State) (acc : Acc) (n : Nat) (as : List LaneAcc) : List Piece :=
  as.flatMap fun a => goodPieces (s.pieces s.who acc a.ptr n a.lane)

/-- The access of one lane with its pieces, which are translated once (R186). -/
abbrev LanePieces := Nat × List Piece

/-- Where the bytes of each lane's access lie: as the word's one check has found, where some lane has gone ahead (R187). -/
def State.lanePlan (s : State) (acc : Acc) (n : Nat) (as : List LaneAcc) : List LanePieces :=
  match s.ag.cur.early with
  | some e => e.plan
  | none => as.map fun a => (a.lane, goodPieces (s.pieces s.who acc a.ptr n a.lane))

/-- What a lane that went ahead has read (R217). -/
def State.readAhead (s : State) (lane : Nat) : Option Nat := s.ag.cur.early.bind fun e => Sparse.find? e.done lane

/-- What a lane's load returns: what it has read ahead, or what its bytes hold now. -/
def State.laneRead (s : State) (warpScope : Bool) (x : LanePieces) : Nat :=
  (s.readAhead x.1).getD (ofBytes (x.2.flatMap (s.readPiece s.who warpScope)))

/-- VLD (R202). -/
def execVld (w : MemOps) (s : State) : Out :=
  let n := Width.bytes w.width
  laneRun w.h (w.width != .w128) (addrUses w) (loadNames w) s fun act s =>
    let as := s.laneAccs w act
    laneAccess { spaces := openScalar, size := n, align := 1, acc := .load } as s fun s => gangSync (acquiresGang w.scope w.order) s fun s =>
      let ps := s.lanePlan .load n as
      let got := ps.map fun x => (x.1, s.laneRead (w.scope == .warp) x)
      let vals := (List.range 64).map fun l => extendLoad w (Sparse.getD got l 0)
      let s := s.seen s.who (w.scope == .warp) w.hint (ps.flatMap (·.2))
      let s := if w.width = .w128 then s.writeFour w.h.name.val act vals else s.result w.h w.ty (tyTag w.ty) act vals
      .next ((s.acquireOrder s.who.core w.scope w.order).nextLane w.h)

/-- The type at which a 128-bit store reads a source that is no name (R202). (DEDUCED, log 22) -/
def storeNames (w : MemOps) : Nat := if w.width = .w128 then 4 else tyNames w.ty

/-- The value that each lane stores, as a number of the access's width. -/
def State.storeVals (s : State) (w : MemOps) : List Nat :=
  if w.width = .w128 then
    match w.c with
    | .vec n =>
      (List.range 64).map fun l => ofElems 32 ((List.range 4).map fun i => (s.nameRow (n.val + i)).getD l 0)
    | c => (s.operand .u32 w.imm c).map fun x => ofElems 32 [x, x, x, x]
  else s.operand w.ty w.imm w.c

/-- The pieces that an access stores, with their bytes. -/
def cutBytes : List Piece → List Byte → List (Piece × List Byte)
  | [], _ => []
  | p :: ps, bs => (p, bs.take p.len) :: cutBytes ps (bs.drop p.len)

/-- Everything that the lanes of a store write, lane by lane. -/
def State.storeList (s : State) (as : List (LaneAcc × List Byte)) : List (Piece × List Byte) :=
  as.flatMap fun a => cutBytes (goodPieces (s.pieces s.who .store a.1.ptr a.2.length a.1.lane)) a.2

/-- The part of a stored piece from a byte on. -/
def cutStore (x : Piece × List Byte) (i n : Nat) : Piece × List Byte :=
  ({ x.1 with addr := x.1.addr + i, len := n, ptr := x.1.ptr + BitVec.ofNat 64 i }, (x.2.drop i).take n)

/-- The parts of a stored piece that become visible together (R184): an aligned piece of up to 8 bytes whole, an aligned 16-byte piece by
halves, any other byte by byte. (DESIGN CHOICE, log 103) -/
def storeAtoms (x : Piece × List Byte) : List (Piece × List Byte) :=
  let n := x.1.len
  if n = 16 ∧ x.1.addr % 8 = 0 then [cutStore x 0 8, cutStore x 8 8]
  else if n ≤ 8 ∧ 0 < n ∧ x.1.addr % n = 0 then [x]
  else (List.range n).map fun i => cutStore x i 1

/-- Two pieces of one list share a byte. -/
def piecesMeet : List (Piece × List Byte) → Bool
  | [] => false
  | x :: xs =>
    xs.any (fun y => y.1.place == x.1.place && y.1.addr < x.1.addr + x.1.len && x.1.addr < y.1.addr + y.1.len) || piecesMeet xs

/-- An order of a list that the free values choose. -/
def shuffle {α : Type} [DecidableEq α] (free : Nat → Nat) : Nat → List α → List α
  | 0, xs => xs
  | n + 1, xs =>
    match xs[free n % xs.length]? with
    | some x => x :: shuffle free n (xs.erase x)
    | none => xs

/-- The order in which the stores of the lanes are performed: where two share a byte, any order of their parts (R190, R202, R5). -/
def State.storeOrder (s : State) (xs : List (Piece × List Byte)) : List (Piece × List Byte) :=
  if piecesMeet xs then
    let atoms := xs.flatMap storeAtoms
    shuffle (fun i => Config.freeNat (s.fresh + 32768 + i)) atoms.length atoms
  else xs

/-- A sector is covered whole by pieces together. -/
def covers (ps : List Piece) (sector : Nat) : Bool :=
  (upTo (32 * sector) (32 * sector + 32)).all fun a => ps.any fun p => p.place == .phys && p.addr ≤ a && a < p.addr + p.len

/-- The lanes of a store write their bytes; a sector that they cover whole together loses its poison (R372). -/
def State.storeLanes (s : State) (hint : Fin 4) (as : List (LaneAcc × List Byte)) : State :=
  let xs := s.storeList as
  let s := (linesOf (xs.map (·.1))).foldl (fun s l => s.fillL2 s.who.ctx (keepOf hint) l) s
  let t := (s.storeOrder xs).foldl (fun t x => t.writePiece s.who x.1 x.2) s
  { t with poison := t.poison.filter fun x => !covers (xs.map (·.1)) x }

/-- A lane value as VST stores it: a value of type T6 has bits [31:30] zero (R96). (DEDUCED, log 22) -/
def storedVal (w : MemOps) (x : Nat) : Nat := if w.ty = .t6 then x % 2 ^ 30 else x

/-- VST (R202). -/
def execVst (w : MemOps) (s : State) : Out :=
  let n := Width.bytes w.width
  laneRun w.h false (addrUses w ++ [(w.c, storeNames w)]) [] s fun act s =>
    let as := s.laneAccs w act
    laneAccess { spaces := openScalar, size := n, align := 1, acc := .store } as s fun s =>
      let c := s.storeVals w
      .next ((s.storeLanes w.hint (as.map fun a => (a, toBytes n (storedVal w (c.getD a.lane 0))))).nextLane w.h)

/-! ## VLDN and VSTN (R203) -/

/-- The rows of VLDN and VSTN. -/
def rowCount (w : MemOps) : Nat := bits w.imm.toNat 5 0 + 1

/-- The one pointer of VLDN and VSTN. -/
def State.rowsPtr (s : State) (w : MemOps) : LaneAcc :=
  { lane := 0, ptr := BitVec.ofNat 64 ((s.operand .u64 w.imm w.a).getD 0 0), ok := true }

/-- What R187 asks of the range of VLDN and VSTN. -/
def rowsSpec (w : MemOps) (acc : Acc) : AccSpec := { spaces := [1, 2], size := 256 * rowCount w, align := 4, acc := acc }

/-- The words of a range of rows that active lanes load or store (R203). -/
def rowWords (ps : List Piece) (act : Mask) (rows : Nat) : List Piece :=
  ps.flatMap fun p => (List.range rows).flatMap fun i => (lanesOf act).map fun l =>
    { p with addr := p.addr + 256 * i + 4 * l, len := 4 }

/-- Where each lane's words of the range lie. -/
def State.rowsPlan (s : State) (w : MemOps) (act : Mask) (a : LaneAcc) : List LanePieces :=
  match s.ag.cur.early with
  | some e => e.plan
  | none =>
    (lanesOf act).map fun l =>
      (l, rowWords (goodPieces (s.pieces s.who .load a.ptr (256 * rowCount w) 0)) (1#64 <<< l) (rowCount w))

/-- VLDN (R203). -/
def execVldn (w : MemOps) (s : State) : Out :=
  let n := rowCount w
  laneRun w.h false [(w.a, 1)] (upTo w.h.name.val (w.h.name.val + n)) s fun act s =>
    let a := s.rowsPtr w
    laneAccess (rowsSpec w .load) [a] s fun s =>
      let got := (s.rowsPlan w act a).map fun x => (x.1, s.laneRead false x)
      let s := (List.range n).foldl
        (fun s i =>
          let row := (List.range 64).map fun l => Sparse.getD got l 0 / 2 ^ (32 * i) % 2 ^ 32
          s.writeName (w.h.name.val + i) (tyTag w.ty) act (if w.ty = .t6 then row.map (· % 2 ^ 30) else row))
        s
      .next (s.nextLane w.h)

/-- VSTN (R203): only the words of the active lanes are stored. -/
def execVstn (w : MemOps) (s : State) : Out :=
  let n := rowCount w
  laneRun w.h false [(w.a, 1), (w.c, n)] [] s fun act s =>
    let a := s.rowsPtr w
    laneAccess (rowsSpec w .store) [a] s fun s =>
      let first := match w.c with
        | .vec k => k.val
        | _ => 0
      let s' := (List.range n).foldl
        (fun t i =>
          (lanesOf act).foldl
            (fun t l =>
              t.store s.who (a.ptr + BitVec.ofNat 64 (256 * i + 4 * l)) (toBytes 4 ((s.nameRow (first + i)).getD l 0)) 0)
            t)
        s
      .next (s'.nextLane w.h)

/-! ## Lane atomics (R189, R190, R204) -/

/-- The atomics of the lanes that have not gone ahead. -/
def State.atomPieces (s : State) (n : Nat) (as : List LaneAcc) : List LanePieces :=
  (s.lanePlan .atomic n as).filter fun x => (s.readAhead x.1).isNone

/-- The 8-byte granule of an atomic (R190). -/
def granule (x : LanePieces) : Option (Place × Nat) := x.2.head?.map fun p => (p.place, p.addr / 8)

/-- Two of the atomics fall into one granule. -/
def granulesMeet : List LanePieces → Bool
  | [] => false
  | a :: as => as.any (fun b => granule a == granule b) || granulesMeet as

/-- The order in which the lanes' atomics are performed: unspecified where they share a granule (R5, R190). -/
def State.atomOrder (s : State) (as : List LanePieces) : List LanePieces :=
  if granulesMeet as then shuffle (fun i => Config.freeNat (s.fresh + 49152 + i)) as.length as else as

/-- Performs the atomics of the lanes in turn: the state after them and the old value of each lane. -/
def State.runAtomics (s : State) (n : Nat) (hint : Fin 4) (f : Nat → Nat → Option Nat) : List LanePieces → State × List (Nat × Nat)
  | [] => (s, [])
  | a :: as =>
    let (old, s) := (s.predictAt s.who hint a.2).atomicAt s.who hint a.2 fun bs => (f a.1 (ofBytes bs)).map (toBytes n)
    let (s, olds) := State.runAtomics s n hint f as
    (s, (a.1, ofBytes old) :: olds)

/-- The region of the running block cannot be re-executed any more (R349). -/
def Agent.laneCommit (a : Agent) : Agent :=
  match a.queue with
  | e :: _ => a.setNr e.rid
  | [] => a.setNr a.reg.rid

/-- What R187 asks of a lane atomic. -/
def atomSpec (w : MemOps) : AccSpec :=
  { spaces := openAtomic, size := Width.bytes w.width, align := Width.bytes w.width, acc := .atomic }

/-- The lanes' atomics with their new values, and what follows them; `ordered` says that the outcome depends on their order. -/
def laneAtomics (w : MemOps) (uses : List SrcUse) (dests : List Nat) (latch ordered : Bool) (new : State → Nat → Nat → Option Nat)
    (s : State) : Out :=
  laneRun w.h latch uses dests s fun act s =>
    let as := s.laneAccs w act
    laneAccess (atomSpec w) as s fun s => gangSync (acquiresGang w.scope w.order) s fun s =>
      let ps := s.atomPieces (Width.bytes w.width) as
      let (t, olds) := s.runAtomics (Width.bytes w.width) w.hint (new s) (if ordered then s.atomOrder ps else ps)
      let t := t.modAg Agent.laneCommit
      let vals := (List.range 64).map fun l => (s.readAhead l).getD (((List.find? (fun x => x.1 == l) olds).map (·.2)).getD 0)
      let t := if latch then t.result w.h w.ty (tyTag w.ty) act vals else t
      .next ((t.acquireOrder t.who.core w.scope w.order).nextLane w.h)

/-- What ATOM or RED writes in a lane over an old value (R204). -/
def atomNew (w : MemOps) (s : State) (l o : Nat) : Option Nat :=
  some (atomOp w.imm.toNat w.ty o ((s.operand w.ty w.imm w.c).getD l 0))

/-- What ACAS writes in a lane over an old value: nothing where the compare fails (R204). -/
def acasNew (w : MemOps) (s : State) (l o : Nat) : Option Nat :=
  if o = (s.operand w.ty w.imm (.vec w.h.name)).getD l 0 then some ((s.operand w.ty w.imm w.c).getD l 0) else none

/-- The sources of ATOM and RED. -/
def atomUses (w : MemOps) : List SrcUse := addrUses w ++ [(w.c, tyNames w.ty)]
/-- The sources of ACAS, of which vd is one. (DEDUCED, log 19) -/
def acasUses (w : MemOps) : List SrcUse := atomUses w ++ [(.vec w.h.name, tyNames w.ty)]

/-- ATOM (R204). -/
def execAtom (w : MemOps) (s : State) : Out := laneAtomics w (atomUses w) (destNames w.h w.ty) true true (atomNew w) s

/-- ACAS (R204). (DEDUCED, log 19) -/
def execAcas (w : MemOps) (s : State) : Out := laneAtomics w (acasUses w) (destNames w.h w.ty) true true (acasNew w) s

/-- RED (R204): the integer operations give one final value in every order. -/
def execRed (w : MemOps) (s : State) : Out := laneAtomics w (atomUses w) [] false (tyFmt w.ty).isSome (atomNew w) s

/-! ## Lanes that go ahead (R217) -/

/-- A word's accesses begin: its names, its rows and its addresses are checked for all lanes at once, and its destinations are mapped (R187,
R201). Nothing begins where the word would fault or wait. -/
def State.beginWord (s : State) (i : Instr) (sp : AccSpec) (as : List LaneAcc) (us : List SrcUse) (ds : List Nat) (plan : List LanePieces) :
    Option State :=
  if s.ag.cur.early.isSome then some s
  else if s.staleLatch us || (s.checkNames us ds).isSome || s.laneWaits us ds || s.judge s.tm s.who sp as != .go then none
  else
    let s := (s.needRows ds).foldl (fun s n => s.writeName n 0 0 []) s
    some (s.modAg fun a => { a with cur := { a.cur with early := some { instr := i, plan := plan, done := [] } } })

/-- The pieces of a lane that has not gone ahead yet. -/
def State.pendingLane (s : State) (lane : Nat) : Option LanePieces :=
  s.ag.cur.early.bind fun e => if (Sparse.find? e.done lane).isSome then none else (Sparse.find? e.plan lane).map fun ps => (lane, ps)

/-- A lane is through: what it has read is kept. -/
def State.laneDone (s : State) (lane v : Nat) : State :=
  s.modAg fun a =>
    { a with cur := { a.cur with early := a.cur.early.map fun e => { e with done := e.done ++ [(lane, v)] } } }

/-- A device read of host memory first lets the host write path drain (R194). -/
def State.drainFor (s : State) (ps : List Piece) : State :=
  if ps.any fun p => match p.place with | .host _ => true | _ => false then s.drainHost else s

/-- One lane of a load reads. -/
def State.readLane (s : State) (warpScope : Bool) (hint : Fin 4) (lane : Nat) : State :=
  match s.pendingLane lane with
  | none => s
  | some x =>
    let s := s.drainFor x.2
    (s.seen s.who warpScope hint x.2).laneDone lane (s.laneRead warpScope x)

/-- One lane of an atomic is performed; its region cannot be re-executed any more (R349). -/
def State.atomLane (s : State) (w : MemOps) (new : State → Nat → Nat → Option Nat) (lane : Nat) : State :=
  match s.pendingLane lane with
  | none => s
  | some x =>
    let (t, olds) := s.runAtomics (Width.bytes w.width) w.hint (new s) [x]
    (t.modAg Agent.laneCommit).laneDone lane ((olds.head?.map (·.2)).getD 0)

/-- A lane word whose lanes may go ahead one by one: a load or an atomic. -/
def goesAhead : Instr → Bool
  | .vld _ | .vldn _ | .atom _ | .acas _ | .red _ => true
  | _ => false

/-- One lane of a lane memory word makes its access ahead of the others: of a load, or of an atomic. (DESIGN CHOICE, log 98) -/
def State.earlyLane (s : State) (i : Instr) (lane : Nat) : State :=
  let onto (w : MemOps) (sp : AccSpec) (as : List LaneAcc) (us : List SrcUse) (ds : List Nat) (plan : List LanePieces)
      (f : State → State) : State :=
    if acquiresGang w.scope w.order && s.gangPending s.tm then s else ((s.beginWord i sp as us ds plan).map f).getD s
  match i with
  | .vld w =>
    let as := s.laneAccs w (s.active w.h)
    let n := Width.bytes w.width
    onto w { spaces := openScalar, size := n, align := 1, acc := .load } as (addrUses w) (loadNames w) (s.lanePlan .load n as)
      fun s => s.readLane (w.scope == .warp) w.hint lane
  | .vldn w =>
    let a := s.rowsPtr w
    onto w (rowsSpec w .load) [a] [(w.a, 1)] (upTo w.h.name.val (w.h.name.val + rowCount w)) (s.rowsPlan w (s.active w.h) a)
      fun s => s.readLane false 0 lane
  | .atom w =>
    let as := s.laneAccs w (s.active w.h)
    onto w (atomSpec w) as (atomUses w) (destNames w.h w.ty) (s.lanePlan .atomic (Width.bytes w.width) as) fun s => s.atomLane w (atomNew w) lane
  | .acas w =>
    let as := s.laneAccs w (s.active w.h)
    onto w (atomSpec w) as (acasUses w) (destNames w.h w.ty) (s.lanePlan .atomic (Width.bytes w.width) as) fun s => s.atomLane w (acasNew w) lane
  | .red w =>
    let as := s.laneAccs w (s.active w.h)
    onto w (atomSpec w) as (atomUses w) [] (s.lanePlan .atomic (Width.bytes w.width) as) fun s => s.atomLane w (atomNew w) lane
  | _ => s

/-- The lines that VPREF brings into L2, and into L1 as lines that the home slice tracks unless the hint is 3: those of the addresses that pass every
check (R205, R372). An untracked copy stays, so that a later load is served as if VPREF had not run. -/
def State.prefetch (s : State) (w : MemOps) : State :=
  let sp : AccSpec := { spaces := [0], size := 1, align := 1, acc := .load }
  let as := if (s.checkNames (addrUses w) []).isSome then [] else s.laneAccs w (s.active w.h)
  let good := as.filter fun a => (s.checkAccesses s.tm s.who sp [a]).isNone
  (linesOf (s.accPieces .load 1 good)).foldl (fun t l => (t.fillL2 s.who.ctx (keepOf w.hint) l).shareLine s.who w.hint l) s

/-- VPREF (R205): it changes no value; only a stale latch can stop it. -/
def execVpref (w : MemOps) (s : State) : Out :=
  if s.staleLatch (addrUses w) then laneFault s 0x06 s.ag.cur.lpc else .next ((s.prefetch w).nextLane w.h)

end Sys2Proof.Machine
end

