-- ==== Sys2Proof/Machine/MapEdits.lean ====
section
/-! DEFINITION. Map edits, transfers and MQRY (R316 to R325). -/

namespace Sys2Proof.Machine

/-- The entry of a name of the focused agent. -/
def State.entry (s : State) (n : Nat) : Option MapEntry := s.ag.vmap.find? n
/-- Sets or removes the entry of a name of the focused agent. -/
def State.putEntry (s : State) (n : Nat) (e : Option MapEntry) : State := s.modAg fun a => { a with vmap := a.vmap.put n e }
/-- The row has more than one reference (R316). -/
def State.aliased (s : State) (e : MapEntry) : Bool := 1 < (s.myRank.row e.row).refs
/-- A command holds the row (R312). -/
def State.held (s : State) (row : Nat) : Bool :=
  let x := s.myRank.row row
  x.readHolds != 0 || x.writeHolds != 0
/-- Unmaps a name: its row loses one reference (R316). -/
def State.unmap (s : State) (n : Nat) : State :=
  match s.entry n with
  | none => s
  | some e => (s.putEntry n none).modMyRank fun r => r.unref e.row

/-- A fault about a number: a name, a slot, a warp index (R320, R321). -/
def faultNum (s : State) (code : Byte) (n : Nat) : Out := fault s code (BitVec.ofNat 64 n)

/-- The names of a multi-name edit. -/
def namesFrom (a : Fin 512) (k : Nat) : List Nat := upTo a.val (a.val + k)

/-- MSWAP (R320). -/
def execMswap (a b : Fin 512) (s : State) : Out :=
  queued (.mswap a b) true 0 0 0 s fun s =>
    let ea := s.entry a.val
    let eb := s.entry b.val
    .next ((s.putEntry a.val eb).putEntry b.val ea).commit

/-- MROT (R320). -/
def execMrot (a : Fin 512) (k : Fin 32) (s : State) : Out :=
  queued (.mrot a k) true 0 0 0 s fun s =>
    let old := (namesFrom a k.val).map s.entry
    let new := (old.drop (k.val - 1)) ++ old.take (k.val - 1)
    .next (((namesFrom a k.val).zip new).foldl (fun s x => s.putEntry x.1 x.2) s).commit

/-- MFREE (R320). -/
def execMfree (a : Fin 512) (k : Fin 32) (s : State) : Out :=
  queued (.mfree a k) true 0 0 0 s fun s => .next ((namesFrom a k.val).foldl State.unmap s).commit

/-- Removes the old mapping of a destination name, waiting for a hold on its row; a destination that already maps the source's row
changes nothing (R317). -/
def overwrite (b : Nat) (e : MapEntry) (s : State) (f : State → Out) : Out :=
  match s.entry b with
  | none => f s
  | some old =>
    if old.row = e.row then .next s.commit
    else if s.held old.row then wait s
    else f (s.unmap b)

/-- MALIAS (R320). -/
def execMalias (a b : Fin 512) (s : State) : Out :=
  queued (.malias a b) true 0 0 0 s fun s =>
    match s.entry a.val with
    | none => faultNum s 0x03 a.val
    | some e =>
      overwrite b.val e s fun s =>
        .next ((s.putEntry b.val (some e)).modMyRank fun r => r.modRow e.row fun x => { x with refs := x.refs + 1 }).commit

/-- MMOVE (R320). -/
def execMmove (a b : Fin 512) (s : State) : Out :=
  queued (.mmove a b) true 0 0 0 s fun s =>
    match s.entry a.val with
    | none => faultNum s 0x03 a.val
    | some e => overwrite b.val e s fun s => .next ((s.putEntry a.val none).putEntry b.val (some e)).commit

/-- MTAG (R320). -/
def execMtag (a : Fin 512) (t : BitVec 4) (k : Fin 32) (s : State) : Out :=
  queued (.mtag a t k) true 0 0 0 s fun s =>
    let names := namesFrom a k.val
    match names.find? fun n => (s.entry n).isNone with
    | some n => faultNum s 0x03 n
    | none =>
      match names.find? fun n => (s.entry n).any s.aliased with
      | some n => faultNum s 0x04 n
      | none =>
        .next (names.foldl (fun s n => s.putEntry n ((s.entry n).map fun e => { e with tag := t })) s).commit

/-- MGIVE (R321). -/
def execMgive (a : Fin 512) (k : Fin 32) (s : State) : Out :=
  queued (.mgive a k) true 0 0 0 s fun s =>
    match s.entry a.val with
    | none => faultNum s 0x03 a.val
    | some e =>
      if s.aliased e then faultNum s 0x04 a.val
      else if (s.tm.handoff.find? k.val).isSome then faultNum s 0x04 k.val
      else
        let h : Handoff := { row := e.row, tag := e.tag, rank := s.ag.rank }
        .next ({ s with tm := { s.tm with handoff := s.tm.handoff.insert k.val h } }.putEntry a.val none).commit

/-- MTAKE (R321). -/
def execMtake (b : Fin 512) (k : Fin 32) (s : State) : Out :=
  queued (.mtake b k) true 0 0 0 s fun s =>
    match s.tm.handoff.find? k.val with
    | none => faultNum s 0x03 k.val
    | some h =>
      if h.rank ≠ s.ag.rank then faultNum s 0x14 k.val
      else
        let e : MapEntry := { row := h.row, tag := h.tag }
        overwrite b.val e s fun s =>
          let s := { s with tm := { s.tm with handoff := s.tm.handoff.erase k.val } }
          .next ((s.acquire s.who.core .team).putEntry b.val (some e)).commit

/-- The resident warp of an index on the focused agent's core; a halted warp is none (R321, R355). -/
def State.receiver (s : State) (w : Nat) : Option Agent :=
  match s.getAgent (.warp s.tm.id w) with
  | some x => if x.rank = s.ag.rank ∧ x.status ≠ .halted then some x else none
  | none => none

/-- MPLACE (R321, R323). -/
def execMplace (a b : Fin 512) (k : Fin 32) (s : State) : Out :=
  queued (.mplace a b k) true (gBit (Fin.ofNat 64 k.val)) 0 0 s fun s =>
    match s.entry a.val with
    | none => faultNum s 0x03 a.val
    | some e =>
      if s.aliased e then faultNum s 0x04 a.val
      else
        let w := (s.ag.getG (Fin.ofNat 64 k.val)).toNat
        match s.receiver w with
        | none => faultNum s 0x14 w
        | some x =>
          if (x.vmap.find? b.val).isSome then faultNum s 0x04 w
          else
            let placed := if x.id = s.ag.id then x.placed else addSorted b.val x.placed
            let s := s.setAgent { x with vmap := x.vmap.insert b.val e, placed := placed }
            .next (s.putEntry a.val none).commit

/-- The report of MQRY (Table 13.4). -/
def State.report (s : State) (n : Nat) : Word :=
  match s.entry n with
  | none => 0
  | some e =>
    let x := s.myRank.row e.row
    BitVec.ofNat 64 (x.refs * 2 ^ 20 + e.row * 2 ^ 8 + e.tag.toNat * 2 ^ 4 + b2n (s.held e.row) * 2 + 1)

/-- MQRY (R325). -/
def execMqry (d : Fin 64) (n : Fin 512) (s : State) : Out :=
  queued (.mqry d n) false 0 (gBit d) 0 s fun s => .next (s.modAg fun a => a.queueWrite fun a => a.setG d (s.report n.val)).finish

end Sys2Proof.Machine
end

