-- ==== Sys2Proof/Machine/Matrix.lean ====
section
/-! DEFINITION. The matrix engine: MMAC, AZERO, ARD, AWR and their completion (file 07). -/

namespace Sys2Proof.Machine

/-! ## Operands (R147 to R152) -/

/-- The element type of an operand tag (Table 7.1); other tags are no operand. -/
def tagTy (t : BitVec 4) : Option Ty :=
  match t.toNat with
  | 1 => some .f32
  | 2 => some .h2
  | 3 => some .b2
  | 4 => some .e4
  | 5 => some .e5
  | 6 => some .t8
  | 7 => some .t6
  | 8 => some .s8x4
  | 9 => some .u8x4
  | _ => none

/-- A float operand. -/
def isFloatTy (t : Ty) : Bool := (tyFmt t).isSome

/-- The fields of an MMAC descriptor (Table 7.3). -/
structure Mmac where
  a : Nat
  b : Nat
  sa : Nat
  sb : Nat
  colA : Bool
  colB : Bool
  scaled : Bool
  accumulate : Bool
  accType : Nat
  m : Nat
  n : Nat
  k : Nat
  off : Nat
  ld : Nat
  reserved : Bool
  deriving DecidableEq, Repr

/-- Reads an MMAC descriptor; a bit that Table 7.3 does not name is reserved (R161). -/
def Mmac.ofDesc (d : List Word) : Mmac :=
  let x := descNat d 0
  let y := descNat d 1
  let z := descNat d 2
  { a := bits x 8 0, b := bits x 17 9, sa := bits x 26 18, sb := bits x 35 27, colA := bit x 36, colB := bit x 37,
    scaled := bit x 38, accumulate := bit x 39, accType := bits x 43 40, m := bits y 15 0, n := bits y 31 16, k := bits y 47 32,
    off := bits z 17 0, ld := bits z 33 18, reserved := bits x 63 44 != 0 || bits y 63 48 != 0 || bits z 63 34 != 0 }

/-- The names of A (R150). -/
def Mmac.namesA (x : Mmac) : List Nat := upTo x.a (x.a + (if x.colA then x.k else x.m))
/-- The names of B (R150). -/
def Mmac.namesB (x : Mmac) : List Nat := upTo x.b (x.b + (if x.colB then x.k else x.n))
/-- The scale names of one operand (R152). -/
def Mmac.scales (x : Mmac) (base : Nat) : List Nat :=
  if x.scaled then upTo base (base + ((x.k + 31) / 32 + 3) / 4) else []
/-- The names that the command reads, in the order of R150. -/
def Mmac.names (x : Mmac) : List Nat := x.namesA ++ x.namesB ++ x.scales x.sa ++ x.scales x.sb

/-! ## Checks at issue -/

/-- The tag of a name of the focused agent. -/
def State.nameTag (s : State) (n : Nat) : BitVec 4 :=
  match s.ag.vmap.find? n with
  | some e => e.tag
  | none => 0

/-- A fault that reports a name. -/
def nameFail (code : Byte) (n : Nat) : Fail := { code := code, addr := BitVec.ofNat 64 n }

/-- Steps 1 and 2 of R402 for one operand: the base by its own tag, the other names also against the base. -/
def State.tagFail (s : State) (names : List Nat) : Option Fail :=
  let base := s.nameTag (names.headD 0)
  (names.find? fun n => (tagTy (s.nameTag n)).isNone || s.nameTag n != base).map (nameFail 0x0B)

/-- The tag checks of R402. -/
def State.tagChecks (s : State) (x : Mmac) : Option Fail :=
  match firstFail [s.tagFail x.namesA, s.tagFail x.namesB] with
  | some f => some f
  | none =>
    match tagTy (s.nameTag x.a), tagTy (s.nameTag x.b) with
    | some ta, some tb =>
      let unscalable (t : Ty) : Bool := t == .f32 || !isFloatTy t
      if isFloatTy ta != isFloatTy tb then some (nameFail 0x0B x.b)
      else if x.scaled && unscalable ta then some (nameFail 0x0B x.a)
      else if x.scaled && unscalable tb then some (nameFail 0x0B x.b)
      else
        match (x.scales x.sa ++ x.scales x.sb).find? fun n => s.nameTag n != 0xB with
        | some n => some (nameFail 0x0B n)
        | none => if isFloatTy ta != (x.accType == 0) then some (nameFail 0x0B x.a) else none
    | _, _ => none

/-- The highest K that an operand allows (R162). -/
def kMax (col : Bool) (t : Option Ty) : Nat := if col then 64 else 64 * (match t with | some t => t.count | none => 0)

/-- The matrix-shape fault, which reports the instruction (R154). -/
def State.shapeFail (s : State) : Fail := { code := 0x0A, addr := s.instrAddr }

/-- The pointer to an accumulator offset on the issuing core (R154). -/
def State.accPtr (s : State) (off : Nat) : Word := mkPtr 3 s.ag.rank off

/-- The window checks of R154. -/
def State.windowFail (s : State) (off ld rows cols : Nat) : Option Fail :=
  if rows = 0 ∨ cols = 0 then none
  else if off % 4 ≠ 0 ∨ (1 < rows ∧ ld < cols) then some s.shapeFail
  else if s.tm.accumSize < off + 4 * ((rows - 1) * ld + cols) then some { code := 0x14, addr := s.accPtr off }
  else none

/-- The first unmapped name (R162, R168). (DESIGN CHOICE, log 80) -/
def State.unmappedFail (s : State) (ns : List Nat) : Option Fail :=
  (ns.find? fun n => (s.ag.vmap.find? n).isNone).map (nameFail 0x03)

/-- The kinds that share the matrix queue (R156). -/
def matrixKinds : List CmdKind := [.mmac, .azero, .ard, .awr]

/-- The matrix queue of the focused agent's core is full (R156). -/
def State.matrixFull (s : State) : Bool := 16 ≤ s.engineLoad s.who.core matrixKinds

/-! ## Holds (R159) -/

/-- The rows that names of the focused agent map. -/
def State.rowsOf (s : State) (ns : List Nat) : List Nat :=
  ns.map fun n => match s.ag.vmap.find? n with
    | some e => e.row
    | none => 0

/-- A command that reads rows holds each of them. -/
def Rank.holdRead (r : Rank) (rows : List Nat) : Rank :=
  rows.foldl (fun r n => r.modRow n fun x => { x with readHolds := x.readHolds + 1 }) r
/-- A command that writes rows holds each of them. -/
def Rank.holdWrite (r : Rank) (rows : List Nat) : Rank :=
  rows.foldl (fun r n => r.modRow n fun x => { x with writeHolds := x.writeHolds + 1 }) r
/-- Holds of reading drop; a row that nothing refers to any more is freed. -/
def Rank.dropRead (r : Rank) (rows : List Nat) : Rank :=
  rows.foldl (fun r n => r.modRow n fun x => { x with readHolds := x.readHolds - 1 }) r
/-- Holds of writing drop. -/
def Rank.dropWrite (r : Rank) (rows : List Nat) : Rank :=
  rows.foldl (fun r n => r.modRow n fun x => { x with writeHolds := x.writeHolds - 1 }) r

/-! ## The four commands -/

/-- The role check of a matrix command, in the scalar stream, and then its place in the lane queue (R23, R156). -/
def matrixIssue (i : Instr) (e : EngOps) (n : Nat) (s : State) (f : List Word → State → Out) : Out :=
  if s.ag.role ≠ .mtx then fault s 0x07 s.instrAddr
  else queued i true (gRange e.a n ||| gBit e.b) 0 (qBit e.q) s fun s => f (s.ag.desc e.a n) s

/-- The last checks of a matrix command: the barrier, the queue; then it is accepted (R156). (DESIGN CHOICE, log 85) -/
def matrixAccept (e : EngOps) (s : State) (f : State → Out) : Out :=
  match s.barFail e.b with
  | some x => fault s x.code x.addr
  | none => if s.matrixFull then answer e.q false s else gangSync (e.acq && e.s == .gang) s f

/-- MMAC (R162, R163). -/
def execMmac (e : EngOps) (s : State) : Out :=
  matrixIssue (.mmac e) e 3 s fun d s =>
    let x := Mmac.ofDesc d
    let cmd := s.newCmd .mmac (.mmac e) e d
    if x.reserved || 1 < x.accType then answer e.q false s
    else if 64 < x.m || 64 < x.n || 320 < x.k then fault s 0x0A s.instrAddr
    else if x.m = 0 || x.n = 0 || x.k = 0 then matrixAccept e s fun s => answer e.q true (s.addCmd cmd)
    else
      let past := if x.names.any (512 ≤ ·) then some s.shapeFail else none
      let deep := if min (kMax x.colA (tagTy (s.nameTag x.a))) (kMax x.colB (tagTy (s.nameTag x.b))) < x.k then some s.shapeFail else none
      match firstFail [past, s.unmappedFail x.names, s.tagChecks x, deep, s.windowFail x.off x.ld x.m x.n] with
      | some f => fault s f.code f.addr
      | none =>
        matrixAccept e s fun s =>
          let rows := s.rowsOf x.names
          let cmd := { cmd with rows := rows, tags := [s.nameTag x.a, s.nameTag x.b] }
          answer e.q true ((s.modMyRank fun r => r.holdRead rows).addCmd cmd)

/-- AZERO (R168, Table 7.5). -/
def execAzero (e : EngOps) (s : State) : Out :=
  matrixIssue (.azero e) e 1 s fun d s =>
    let off := bits (descNat d 0) 17 0
    let n := bits (descNat d 0) 35 18
    if bits (descNat d 0) 63 36 != 0 then answer e.q false s
    else if off % 4 != 0 || n % 4 != 0 then fault s 0x0A s.instrAddr
    else if n != 0 && decide (s.tm.accumSize < off + n) then fault s 0x14 (s.accPtr off)
    else matrixAccept e s fun s => answer e.q true (s.addCmd (s.newCmd .azero (.azero e) e d))

/-- The fields of the descriptor of ARD and AWR (Table 7.5). -/
structure AccMove where
  off : Nat
  ld : Nat
  first : Nat
  rows : Nat
  cols : Nat
  deriving DecidableEq, Repr

/-- Reads the descriptor of ARD or AWR. -/
def AccMove.ofDesc (d : List Word) : AccMove :=
  let x := descNat d 0
  let y := descNat d 1
  { off := bits x 17 0, ld := bits x 33 18, first := bits x 42 34, rows := bits y 15 0, cols := bits y 31 16 }

/-- The names of the descriptor. -/
def AccMove.names (x : AccMove) : List Nat := upTo x.first (x.first + x.rows)
/-- A zero count (R168). -/
def AccMove.none (x : AccMove) : Bool := x.rows = 0 || x.cols = 0

/-- Checks 1 and 2 of R168, which ARD and AWR share, and then the others. -/
def accMove (e : EngOps) (d : List Word) (s : State) (f : AccMove → State → Out) : Out :=
  let x := AccMove.ofDesc d
  if bits (descNat d 0) 63 43 != 0 || bits (descNat d 1) 63 32 != 0 then answer e.q false s
  else if 64 < x.rows || 64 < x.cols || 512 < x.first + x.rows then fault s 0x0A s.instrAddr
  else f x s

/-- The destination checks of ARD: a row with more than one reference, then the pool (R168, R169). -/
def State.ardFail (s : State) (ns : List Nat) : Option Fail :=
  match ns.find? fun n => match s.ag.vmap.find? n with
    | some e => 1 < (s.myRank.row e.row).refs
    | none => false with
  | some n => some (nameFail 0x04 n)
  | none => ((s.needRows ns)[s.myRank.rowsFree]?).map (nameFail 0x05)

/-- A destination name of ARD: its own row, or one that is allocated, with the tag RAW (R169). -/
def State.ardName (s : State) (n : Nat) : State :=
  match s.ag.vmap.find? n with
  | some e => s.modAg fun a => { a with vmap := Sparse.insert a.vmap n { e with tag := 0 } }
  | none => s.writeName n 0 0 (List.replicate 64 0)

/-- ARD (R168, R169). -/
def execArd (e : EngOps) (s : State) : Out :=
  matrixIssue (.ard e) e 2 s fun d s =>
    accMove e d s fun x s =>
      let cmd := s.newCmd .ard (.ard e) e d
      if x.none then matrixAccept e s fun s => answer e.q true (s.addCmd cmd)
      else
        match firstFail [s.ardFail x.names, s.windowFail x.off x.ld x.rows x.cols] with
        | some f => fault s f.code f.addr
        | none =>
          matrixAccept e s fun s =>
            if s.myRank.pool.length < (s.needRows x.names).length then wait s
            else
              let s := x.names.foldl State.ardName s
              let rows := s.rowsOf x.names
              answer e.q true ((s.modMyRank fun r => r.holdWrite rows).addCmd { cmd with rows := rows })

/-- AWR (R168, R170). -/
def execAwr (e : EngOps) (s : State) : Out :=
  matrixIssue (.awr e) e 2 s fun d s =>
    accMove e d s fun x s =>
      let cmd := s.newCmd .awr (.awr e) e d
      if x.none then matrixAccept e s fun s => answer e.q true (s.addCmd cmd)
      else
        match firstFail [s.unmappedFail x.names, s.windowFail x.off x.ld x.rows x.cols] with
        | some f => fault s f.code f.addr
        | none =>
          matrixAccept e s fun s =>
            let rows := s.rowsOf x.names
            answer e.q true ((s.modMyRank fun r => r.holdRead rows).addCmd { cmd with rows := rows })

/-! ## How sums are formed (R164 to R166) -/

/-- The lanes of bound rows. -/
abbrev Bound := List (List Nat)

/-- Element `i` of a lane row of a type (R148, R151). -/
def laneElem (t : Ty) (row : List Nat) (i : Nat) : Nat :=
  row.getD (i / t.count) 0 / 2 ^ (i % t.count * elemBits t) % 2 ^ elemBits t

/-- Element (outer, k) of an operand in row or column mode (R148, R149). -/
def operandElem (t : Ty) (col : Bool) (rows : Bound) (o k : Nat) : Nat :=
  if col then laneElem t (rows.getD k []) o else laneElem t (rows.getD o []) k

/-- The scale byte of an outer index and a block (R152). -/
def scaleByte (rows : Bound) (o j : Nat) : Nat := (rows.getD (j / 4) []).getD o 0 / 2 ^ (8 * (j % 4)) % 256

/-- A value scaled by an E8M0 byte (R99, R165). -/
def FVal.scaleE8 (v : FVal) (s : Nat) : FVal :=
  if s = 255 then .nan false
  else
    match v with
    | .num neg x => .num neg { x with e := x.e + s - 127 }
    | v => v

/-- A sum as an F32 word: to nearest even; a zero is +0, a NaN canonical (R165). -/
def sumWord (v : FVal) : Nat :=
  match v with
  | .num _ x => if x.m = 0 then 0 else (Fmt.f32.deliver .rne false v).1
  | v => (Fmt.f32.deliver .rne false v).1

/-- `block_round`: the exact sum of the terms, rounded once. -/
def blockRound (terms : List FVal) : Nat :=
  sumWord (terms.foldl (fun a b => (FVal.add .rne a b).1) (.num false (Mag.exact 0 0)))

/-- `add_round`. -/
def addRound (a b : Nat) : Nat := sumWord (FVal.add .rne (Fmt.f32.decode a) (Fmt.f32.decode b)).1

/-- The operands of an MMAC as bound at issue. -/
structure Operands where
  ta : Ty
  tb : Ty
  a : Bound
  b : Bound
  sa : Bound
  sb : Bound
  deriving DecidableEq, Repr

/-- The term at k of element (m, n), exact. -/
def Mmac.term (x : Mmac) (o : Operands) (m n k : Nat) : FVal :=
  let dec (t : Ty) (w : Nat) : FVal := match tyFmt t with
    | some f => f.decode w
    | none => .nan false
  let a := dec o.ta (operandElem o.ta x.colA o.a m k)
  let b := dec o.tb (operandElem o.tb x.colB o.b n k)
  let p := (FVal.mul a b).1
  if x.scaled then (p.scaleE8 (scaleByte o.sa m (k / 32))).scaleE8 (scaleByte o.sb n (k / 32)) else p

/-- The sum of element (m, n) over the blocks in ascending order (R164). -/
def Mmac.total (x : Mmac) (o : Operands) (m n : Nat) : Nat :=
  let bs := if o.ta = .f32 ∨ o.tb = .f32 then 1 else 32
  let blocks := (List.range ((x.k + bs - 1) / bs)).map fun j =>
    blockRound ((upTo (bs * j) (min (bs * (j + 1)) x.k)).map (x.term o m n))
  match blocks with
  | [] => 0
  | b :: rest => rest.foldl addRound b

/-- The integer sum of element (m, n) (R166). -/
def Mmac.intSum (x : Mmac) (o : Operands) (m n : Nat) : Int :=
  (List.range x.k).foldl
    (fun (acc : Int) k =>
      acc + intElem o.ta (operandElem o.ta x.colA o.a m k) * intElem o.tb (operandElem o.tb x.colB o.b n k))
    0

/-- The new word of element (m, n) from the old one (R164, R166). -/
def Mmac.word (x : Mmac) (o : Operands) (old m n : Nat) : Nat :=
  if x.accType = 0 then if x.accumulate then addRound old (x.total o m n) else x.total o m n
  else wrapInt 32 (x.intSum o m n + (if x.accumulate then (old : Int) else 0))

/-- The operands of a command from the lanes of its bound rows, in the order A, B, scales. -/
def Mmac.operands (x : Mmac) (tags : List (BitVec 4)) (rows : Bound) : Operands :=
  let na := x.namesA.length
  let nb := x.namesB.length
  let ns := (x.scales x.sa).length
  { ta := (tagTy (tags.getD 0 0)).getD .f32, tb := (tagTy (tags.getD 1 0)).getD .f32, a := rows.take na,
    b := (rows.drop na).take nb, sa := (rows.drop (na + nb)).take ns, sb := (rows.drop (na + nb + ns)).take ns }

/-! ## Completion (R157, R158) -/

/-- Applies a function to every word of a window of rows of an accumulator (R153). -/
def mapWindow (mem : Memory) (off ld rows cols : Nat) (f : Nat → Nat → Nat → Nat) : Memory :=
  (List.range rows).foldl
    (fun m i =>
      (List.range cols).foldl
        (fun m c =>
          let a := off + 4 * (i * ld + c)
          Memory.writeNat m a 4 (f (mem.readNat a 4) i c))
        m)
    mem

/-- The lanes of rows. -/
def Rank.lanes (r : Rank) (rows : List Nat) : Bound := rows.map fun n => (r.row n).data.map (·.toNat)

/-- What a matrix command does to the team's part on its core: its window, its rows, its holds. -/
def Cmd.matrixWork (c : Cmd) (r : Rank) : Rank :=
  match c.kind with
  | .mmac =>
    let x := Mmac.ofDesc c.desc
    if x.m = 0 || x.n = 0 || x.k = 0 then r
    else
      let o := x.operands c.tags (r.lanes c.rows)
      { r with accum := mapWindow r.accum x.off x.ld x.m x.n fun old m n => x.word o old m n }.dropRead c.rows
  | .azero =>
    { r with accum := r.accum.writeN (bits (descNat c.desc 0) 17 0) (List.replicate (bits (descNat c.desc 0) 35 18) 0) }
  | .ard =>
    let x := AccMove.ofDesc c.desc
    if x.none then r
    else
      let put (r : Rank) (i : Nat) : Rank :=
        r.modRow (c.rows.getD i 0) fun row =>
          { row with data := row.data.zipIdx.map fun (v, l) =>
              if l < x.cols then BitVec.ofNat 32 (r.accum.readNat (x.off + 4 * (i * x.ld + l)) 4) else v }
      ((List.range x.rows).foldl put r).dropWrite c.rows
  | .awr =>
    let x := AccMove.ofDesc c.desc
    if x.none then r
    else
      let rows := r.lanes c.rows
      { r with accum := mapWindow r.accum x.off x.ld x.rows x.cols fun _ i l => (rows.getD i []).getD l 0 }.dropRead c.rows
  | _ => r

/-- The accumulator as a matrix command reads it, with the words that it has read ahead (R227). -/
def Cmd.accumSeen (c : Cmd) (m : Memory) : Memory :=
  c.early.foldl (fun m u => if u.place = .accum c.rank then m.writeN u.addr u.data else m) m

/-- What a matrix command does, with what it has read ahead: only the words of its window and its rows are written. -/
def Cmd.matrixEffect (c : Cmd) (r : Rank) : Rank :=
  if c.early.isEmpty then c.matrixWork r
  else
    let x := c.matrixWork { r with accum := c.accumSeen r.accum }
    if c.kind = .mmac then x else { x with accum := (c.matrixWork r).accum }

/-- MATRIX_COMPLETE (R157, R158): the oldest command of a core's queue takes effect, releases and makes its arrival. -/
def execMatrixComplete (core : Nat) (s : State) : Out :=
  match s.cmds.find? fun c => c.core == core && matrixKinds.contains c.kind with
  | none => .next s
  | some c =>
    let s := if c.acq then s.acquire core c.scope else s
    let s := s.modRank c.team c.rank c.matrixEffect
    .next ((s.arriveCmd c 0 0).endCmd c)

end Sys2Proof.Machine
end

