-- ==== Sys2Proof/Machine/Power.lean ====
section
/-! DEFINITION. The power controller: governor, caps, pass counts, level changes, sensors, heat (R380 to R391). Temperatures are in tenths of
a degree Celsius, frequencies in units of 100 MHz. -/

namespace Sys2Proof.Machine

/-! ## Level changes (R381) -/

/-- LEVEL_CHANGE_DONE (R381): a rising cluster moves to its new frequency, a falling one switches its ratio; a request made during the change
then takes effect. -/
def execLevelChangeDone (c : Fin 96) (s : State) : Out :=
  let x := s.cluster c.val
  match x.target with
  | none => .next s
  | some w =>
    let x := if w = x.level then { x.setFreq s.now (s.freqAt c.val w) with target := none } else { x with level := w, target := none }
    .next ((s.setCluster c.val x).regrant c.val)

/-! ## The governor (R387) -/

/-- The nominal voltage of a level, in 10 mV (Table 17.1). -/
def levelVolt : Nat → Nat
  | 0 => 55
  | 1 => 70
  | _ => 85

/-- The need of a cluster at a level and a frequency: ⌈25 · f/3.0 GHz · (V/0.85 V)²⌉. -/
def clusterNeed (level freq : Nat) : Nat :=
  let n := 25 * freq * levelVolt level * levelVolt level
  let d := 30 * 85 * 85
  (n + d - 1) / d

/-- A consumer in one governor step. -/
structure Consumer where
  need : Nat
  floor : Nat
  busy : Nat
  throttled : Bool
  deriving DecidableEq, Repr

/-- The tokens that a consumer demands. -/
def Consumer.demand (x : Consumer) : Nat :=
  if x.throttled then x.need else max x.floor ((x.need * x.busy + 999999) / 1000000)

/-- The 114 consumers: links 0 to 17, then clusters 0 to 95. -/
def State.consumers (s : State) (g : GovInput) : List Consumer :=
  ((List.range 18).map fun i =>
    { need := 29, floor := 3, busy := g.linkBusy.getD i 0, throttled := g.linkThrottled.getD i false })
  ++ (List.range 96).map fun c =>
    { need := clusterNeed (s.cluster c).level (s.cluster c).freq, floor := 2, busy := g.clusterBusy.getD c 0,
      throttled := g.clusterThrottled.getD c false }

/-- A sum of numbers. -/
def sumNat (xs : List Nat) : Nat := xs.foldl (· + ·) 0

/-- Gives left-over tokens, one each, in ascending index to consumers with less than their demand. -/
def handOut : List (Nat × Nat) → Nat → List Nat
  | [], _ => []
  | (g, d) :: r, k => if 0 < k && g < d then (g + 1) :: handOut r (k - 1) else g :: handOut r k

/-- The division of `n` tokens. -/
def divide (n : Int) (cs : List Consumer) : List Nat :=
  let total := sumNat (cs.map Consumer.demand)
  if total ≤ n then cs.map Consumer.demand
  else
    let floors := sumNat (cs.map Consumer.floor)
    let spare := (n - floors).toNat
    let extra := sumNat (cs.map fun c => c.demand - c.floor)
    if spare = 0 then cs.map Consumer.floor
    else
      let gs := cs.map fun c => (c.floor + spare * (c.demand - c.floor) / extra, c.demand)
      handOut gs (spare - sumNat (cs.map fun c => spare * (c.demand - c.floor) / extra))

/-- The tokens of a step: ⌊B / 0.5 W⌋ with 2 % of the limit kept back. -/
def State.tokens (s : State) (draw : Nat) : Int := (490 * (s.pow.limit : Int) - draw) / 500

/-- How long a condition has held. -/
def since (now : Nat) (holds : Bool) (t : Option Nat) : Option Nat :=
  if holds then some (t.getD now) else none

/-- What one step means for a cluster: how long its grant has stayed below half its need, how long the next level's need could have been granted,
the hold of its pass count, and whether the controller restores a frequency that R374 lowered, which is free. (DESIGN CHOICE, log 46) -/
def State.stepCluster (s : State) (n : Int) (total : Nat) (short : Bool) (c : Nat) (x : Consumer) (grant : Nat) : State :=
  let y := s.cluster c
  let next := clusterNeed (y.cap + 1) (levelTop (y.cap + 1))
  let could := y.cap < 2 && decide ((total : Int) - x.demand + next ≤ n)
  let held := if Config.freeNat (s.fresh + c) % 2 = 0 then y.held else 0
  s.setCluster c { y with
    lowSince := since s.now (2 * grant < x.need) y.lowSince, highSince := since s.now could y.highSince, held := held,
    passHold := if short then s.now + 10000 else y.passHold }

/-- GOVERNOR_STEP (R387). -/
def execGovernorStep (g : GovInput) (s : State) : Out :=
  whileUp s fun s =>
  let cs := s.consumers g
  let n := s.tokens g.draw
  let grants := divide n cs
  let total := sumNat (cs.map Consumer.demand)
  let short := decide (n < sumNat (cs.map Consumer.floor))
  let s := { s with pow := { s.pow with grants := grants.zipIdx.map fun (x, i) => (i, x) } }
  .next (((cs.drop 18).zip (grants.drop 18)).zipIdx.foldl
    (fun s (x, c) => s.stepCluster n total short c x.1 x.2) s)

/-- CAP_LOWER (R387): after 1 ms below half the need the cap falls by one level. -/
def execCapLower (c : Fin 96) (s : State) : Out :=
  whileUp s fun s =>
  let x := s.cluster c.val
  match x.lowSince with
  | some t =>
    if t + 1000000 ≤ s.now then
      .next ((s.setCluster c.val { x with cap := x.cap - 1, lowSince := some s.now, highSince := none }).regrant c.val)
    else .next s
  | none => .next s

/-- CAP_RAISE (R387): after 1 ms in which the next level's need was granted in full the cap rises by one level. (DEDUCED, log 47) -/
def execCapRaise (c : Fin 96) (s : State) : Out :=
  let x := s.cluster c.val
  match x.highSince with
  | some t =>
    if t + 1000000 ≤ s.now && x.cap < 2 then
      .next ((s.setCluster c.val { x with cap := x.cap + 1, highSince := none }).regrant c.val)
    else .next s
  | none => .next s

/-- PASS_HOLD_EXPIRE (R387): the hold of 10 µs is over. -/
def execPassHoldExpire (c : Fin 96) (s : State) : Out :=
  let x := s.cluster c.val
  if x.passHold ≤ s.now then .next (s.setCluster c.val { x with passHold := 0 }) else .next s

/-! ## Current (R385, R391) -/

/-- The largest reading of a current monitor, in mA: above 36 A, so that a reading out of range raises the pass count (R391). (PRESUMED, log 74) -/
def currentMax : Nat := 36001 + Config.currentSpan

/-- A current reading as it is accepted: one out of range is taken as the range's maximum (R391). -/
def acceptCurrent (mA : Int) : Nat := if mA < 0 ∨ (currentMax : Int) < mA then currentMax else mA.toNat

/-- A cluster's current monitor reads (R385). -/
def State.readCurrent (s : State) (c : Nat) (mA : Int) : State :=
  let x := s.cluster c
  let v := acceptCurrent mA
  s.setCluster c { x with
    current := v, overSince := since s.now (decide (36000 < v)) x.overSince, underSince := since s.now (decide (v < 28800)) x.underSince }

/-- A condition has held for a time. -/
def heldFor (t : Option Nat) (now span : Nat) : Bool :=
  match t with
  | some t => t + span ≤ now
  | none => false

/-- PASS_DOUBLE (R385): where the current monitor has read above 36 A for 200 ns, the pass count in force doubles, up to 4. The next 200 ns count
anew. (DEDUCED, log 109) -/
def execPassDouble (c : Fin 96) (s : State) : Out :=
  let x := s.cluster c.val
  if heldFor x.overSince s.now 200 then
    .next (s.setCluster c.val { x with passes := min 4 (2 * s.passes c.val), overSince := some s.now })
  else .next s

/-- PASS_HALVE (R385): where the current monitor has read below 28.8 A for 10 µs, the controller halves the count, down to 1. The next 10 µs count
anew. (DEDUCED, log 109) -/
def execPassHalve (c : Fin 96) (s : State) : Out :=
  let x := s.cluster c.val
  if heldFor x.underSince s.now 10000 then
    .next (s.setCluster c.val { x with passes := max 1 (x.passes / 2), underSince := some s.now })
  else .next s

/-! ## Sensors (R391) -/

/-- The edge neighbours of a thermal region on its die, and the region itself. -/
def regionGroup (r : Nat) : List Nat :=
  let x := r % 4
  let y := r % 16 / 4
  (upTo (r / 16 * 16) (r / 16 * 16 + 16)).filter fun q =>
    let u := q % 4
    let v := q % 16 / 4
    (u = x && (v = y || v = y + 1 || v + 1 = y)) || (v = y && (u = x + 1 || u + 1 = x))

/-- The neighbours of a sensor: the others of its region, and those of the regions that share an edge with it. -/
def neighbours (i : Nat) : List Nat := ((regionGroup (i / 4)).flatMap fun r => upTo (4 * r) (4 * r + 4)).filter (· != i)

/-- Puts a number in its place in a rising list. -/
def insertInt (x : Int) : List Int → List Int
  | [] => [x]
  | y :: ys => if x ≤ y then x :: y :: ys else y :: insertInt x ys

/-- The median of readings: the middle one, or the mean of the two middle ones, rounded down. -/
def median (xs : List Int) : Int :=
  let s := xs.foldr insertInt []
  let n := s.length
  if n % 2 = 1 then s.getD (n / 2) 0 else (s.getD (n / 2 - 1) 0 + s.getD (n / 2) 0) / 2

/-- The highest of some readings. -/
def highest (d : Int) (xs : List Int) : Int := xs.foldl max d

/-- How far the last eleven readings, which span 1 ms, lie apart; none before there are eleven. -/
def Sensor.change (x : Sensor) : Option Int :=
  if x.readings.length < 11 then none else some (highest (-100000) x.readings + highest (-100000) (x.readings.map fun r => -r))

/-- A sensor by number. -/
def State.sensor (s : State) (i : Nat) : Sensor := s.pow.sensors.getD i Sensor.reset
/-- The last raw reading of a sensor. (DESIGN CHOICE, log 10) -/
def State.raw (s : State) (i : Nat) : Int := (s.sensor i).readings.headD 0

/-- A sensor has changed by at least 1 °C in the last ms. -/
def State.moved (s : State) (i : Nat) : Bool :=
  match (s.sensor i).change with
  | some d => 10 ≤ d
  | none => false

/-- The sensor has stuck while two or more of its neighbours have moved. -/
def State.stuck (s : State) (i : Nat) : Bool :=
  (match (s.sensor i).change with | some d => d < 10 | none => false) && 2 ≤ ((neighbours i).filter s.moved).length

/-- The checks of R391 on a sensor's new reading, in their order; a reading that one of them replaces is not checked further. A suspect sensor
follows its neighbours while it is within 15 °C of their median and not stuck. (DEDUCED, log 49) -/
def State.accept (s : State) (i : Nat) : Sensor :=
  let x := s.sensor i
  let r := s.raw i
  let ns := (neighbours i).map s.raw
  let mid := median ns
  let near := decide (r - mid ≤ 150 ∧ mid - r ≤ 150)
  if r < -400 ∨ 1300 < r then { x with accepted := 1300, follows := none }
  else
    let stuck := s.stuck i
    let suspect := x.suspect || stuck
    let follows := if suspect then since s.now (near && !stuck) x.follows else none
    let cured := heldFor follows s.now 100000000
    if suspect && !cured then { x with accepted := highest (-100000) ns + 50, suspect := true, follows := follows }
    else { x with accepted := if near then r else highest r ns, suspect := false, follows := none }

/-! ## Heat (R389, R390) -/

/-- 2 to a power of hundredths, to 64 fraction bits or more. (DEDUCED, log 48) -/
def exp2Hundredths (x : Int) : Rat :=
  let k := x / 100
  let f := (x % 100).toNat
  let m : Rat := (expSum (f * fxLn2 / 100) 90 0 fxOne : Nat) / (fxOne : Nat)
  if 0 ≤ k then m * (2 ^ k.toNat : Nat) else m / (2 ^ (-k).toNat : Nat)

/-- The clusters of a thermal region. -/
def clustersIn (r : Nat) : List Nat := (List.range 96).filter fun c => regionOf c == r

/-- A condition of Table 17.2 holds or not: its action starts at once, and the time since it has been clear is kept (R390). -/
def HeatHold.see (h : HeatHold) (now : Nat) (holds : Bool) : HeatHold := { on := h.on || holds, clear := since now (!holds) h.clear }

/-- The action of a condition that has been clear for 10 ms ends (R390). -/
def HeatHold.lift (h : HeatHold) (now : Nat) : HeatHold := if heldFor h.clear now 10000000 then { h with on := false } else h

/-- A region takes up what its damage and its temperature call for (R390). -/
def HeatRegion.apply (x : HeatRegion) (now : Nat) : HeatRegion :=
  { x with
    worn := x.worn.see now (decide (750 < x.damage)), spent := x.spent.see now (decide (1000 < x.damage))
    hot := x.hot.see now (decide (1100 < x.temp)) }

/-- Replaces a region, and its clusters take up what it allows. -/
def State.setHeat (s : State) (r : Nat) (x : HeatRegion) : State :=
  let s := { s with pow := { s.pow with regions := s.pow.regions.set r x HeatRegion.reset } }
  (clustersIn r).foldl State.regrant s

/-- A module trip (R390): the module stops and is wiped, and is held in reset; its sensors go on. (DEDUCED, log 62) -/
def State.trip (s : State) : State := { s with pow := { s.pow with tripped := true } }.resetModule

/-- SENSOR_SAMPLE (R389 to R391): the 256 raw readings of one sample, four to a region. While the module is held in reset, the sensors alone take them
up. -/
def execSensorSample (raw : List Int) (s : State) : Out :=
  let sensors := (List.range 256).map fun i =>
    (i, { s.sensor i with readings := (raw.getD i 0 :: (s.sensor i).readings).take 11 })
  let s := { s with pow := { s.pow with sensors := sensors } }
  let got := (List.range 256).map fun i => (i, s.accept i)
  let s := { s with pow := { s.pow with sensors := got } }
  whileUp s fun s =>
  let readings (r : Nat) : List Int := ((got.drop (4 * r)).take 4).map (·.2.accepted)
  let s := (List.range 64).foldl
    (fun s r =>
      let t := highest (-100000) (readings r)
      let x := s.heat r
      s.setHeat r ({ x with temp := t, tempMax := max x.tempMax t }.apply s.now))
    s
  if (List.range 64).any fun r => 2 ≤ ((readings r).filter fun t => 1250 < t).length then .next s.trip else .next s

/-- A region's damage after one more ms (R389). -/
def HeatRegion.worse (x : HeatRegion) : Rat := max 0 (x.damage + exp2Hundredths (x.tempMax - 950) - 1)

/-- DAMAGE_UPDATE (R389): every region's damage integral, from its highest temperature of the last ms; the next ms begins. -/
def execDamageUpdate (s : State) : Out :=
  whileUp s fun s =>
  .next ((List.range 64).foldl
    (fun s r =>
      let x := s.heat r
      s.setHeat r ({ x with damage := x.worse, tempMax := x.temp }.apply s.now))
    s)

/-- THERMAL_CAP_LIFT (R390): what a condition of the region calls for ends once the condition has been clear for 10 ms. -/
def execThermalCapLift (r : Fin 64) (s : State) : Out :=
  let x := s.heat r.val
  let y := { x with worn := x.worn.lift s.now, spent := x.spent.lift s.now, hot := x.hot.lift s.now }
  if y = x then .next s else .next (s.setHeat r.val y)

/-- TRIP_RELEASE (R390): every sensor reads below 100 °C. -/
def execTripRelease (s : State) : Out :=
  if s.pow.tripped && (List.range 256).all fun i => (s.sensor i).accepted < 1000 then .next { s with pow := { s.pow with tripped := false } }
  else .next s

end Sys2Proof.Machine
end

