-- ==== Sys2Proof/Machine/Tasks.lean ====
section
/-! DEFINITION. The task instructions (R261 to R264). -/

namespace Sys2Proof.Machine

/-- The priority of a task (R264). -/
def TaskSlot.prio (t : TaskSlot) : Nat := bits t.word.toNat 61 60
/-- The valid successors of a task, SUCC0 first (R264). -/
def TaskSlot.succs (t : TaskSlot) : List Nat :=
  ([32, 39, 46, 53].filter fun lo => bit t.word.toNat (lo + 6)).map fun lo => bits t.word.toNat (lo + 5) lo

/-- A task is popped before another (R262). -/
def popsBefore (a b : Nat × TaskSlot) : Bool :=
  b.2.prio < a.2.prio
  || (a.2.prio == b.2.prio && (a.2.stamp < b.2.stamp || (a.2.stamp == b.2.stamp && a.1 < b.1)))

/-- The slot that TGET pops (R262). -/
def Team.nextTask (t : Team) : Option (Nat × TaskSlot) :=
  (List.filter (fun x => x.2.state == .ready) t.tasks).foldl
    (fun best x => match best with
      | none => some x
      | some b => if popsBefore x b then some x else some b)
    none

/-- Sets a task slot of the focused team. -/
def State.setTask (s : State) (n : Nat) (t : TaskSlot) : State :=
  { s with tm := { s.tm with tasks := s.tm.tasks.insert n t } }

/-- TDEF (R264). -/
def execTdef (a b : Fin 64) (s : State) : Out :=
  whenDrained s fun s =>
    let n := s.ag.getG b
    let w := s.ag.getG a
    if 63 < n.toNat then fault s 0x14 n
    else if bits w.toNat 63 62 ≠ 0 then fault s 0x01 s.ag.spc
    else
      let c := bits w.toNat 31 24
      let t : TaskSlot :=
        { state := if c = 0 then .ready else .waiting, counter := c, word := w, arg := s.ag.getGAt a 1, stamp := s.stamp }
      .next (s.setTask n.toNat t).commit

/-- The first successor whose counter would pass below zero (R264). -/
def underflow (tasks : Sparse TaskSlot) : List Nat → List Nat → Option Nat
  | _, [] => none
  | seen, t :: ts =>
    let c := match tasks.find? t with
      | some x => x.counter
      | none => 0
    if c ≤ (seen.filter (· == t)).length then some t else underflow tasks (t :: seen) ts

/-- A successor's counter falls by one; at zero a WAITING slot becomes READY (Table 11.4). -/
def State.decrement (s : State) (n : Nat) : State :=
  match s.tm.tasks.find? n with
  | none => s
  | some t =>
    let c := t.counter - 1
    if c = 0 ∧ t.state = .waiting then s.setTask n { t with counter := c, state := .ready, stamp := s.stamp }
    else s.setTask n { t with counter := c }

/-- TSUB (R264). -/
def execTsub (b : Fin 64) (s : State) : Out :=
  whenDrained s fun s =>
    let n := s.ag.getG b
    if 63 < n.toNat then fault s 0x14 n
    else
      match s.tm.tasks.find? n.toNat with
      | none => .next s.commit
      | some t =>
        match underflow s.tm.tasks [] t.succs with
        | some x => fault s 0x19 (BitVec.ofNat 64 x)
        | none =>
          let s := t.succs.foldl State.decrement s
          match s.tm.tasks.find? n.toNat with
          | none => .next s.commit
          | some t => .next (s.setTask n.toNat { t with state := .done }).commit

/-- TGET (R264): one that writes false is no commit. -/
def execTget (q : Fin 8) (a : Fin 64) (s : State) : Out :=
  whenDrained s fun s =>
    match s.tm.nextTask with
    | none => .next (s.modAg fun x => x.setQ q false).goNext
    | some (n, t) =>
      let s := (s.setTask n { t with state := .running }).acquire s.who.core .team
      let v := BitVec.ofNat 64 (bits t.word.toNat 23 0 * 2 ^ 32 + n)
      .next (s.modAg fun x => ((x.setG a v).setG (Fin.ofNat 64 (a.val + 1)) t.arg).setQ q true).commit

end Sys2Proof.Machine
end

