-- ==== Sys2Proof/Machine/Image.lean ====
section
/-! DEFINITION. The saved image of a team: its pages, its checks and its records (R360 to R363). -/

namespace Sys2Proof.Machine

/-! ## Pages and CRCs (R363, Table 15.6) -/

/-- One bit of CRC-32C, reflected. -/
def crcBit (c : BitVec 32) : BitVec 32 := if c.getLsbD 0 then (c >>> 1) ^^^ 0x82F63B78 else c >>> 1

/-- One byte of CRC-32C. -/
def crcByte (c : BitVec 32) (b : Byte) : BitVec 32 := (List.range 8).foldl (fun c _ => crcBit c) (c ^^^ b.setWidth 32)

/-- CRC-32C of some bytes. -/
def crc32c (bs : List Byte) : Nat := (~~~bs.foldl crcByte 0xFFFFFFFF).toNat

/-- Fills bytes up with zeros to whole pages. -/
def padPages (bs : List Byte) : List Byte := bs ++ List.replicate ((4096 - bs.length % 4096) % 4096) 0

/-- Cuts bytes into pages. -/
def cutIntoPages : Nat → List Byte → List (List Byte)
  | 0, _ => []
  | n + 1, bs => bs.take 4096 :: cutIntoPages n (bs.drop 4096)

/-- A record of an image. -/
structure ImageRecord where
  kind : Nat
  rank : Nat
  data : List Byte
  deriving DecidableEq, Repr

/-- The pages of a record. -/
def ImageRecord.pages (r : ImageRecord) : Nat := (r.data.length + 4095) / 4096

/-- What page 0 says of the whole image. -/
structure ImageHead where
  generation : Nat
  ctx : BitVec 16
  index : Nat
  ptr : Word
  pages : Nat
  tables : Nat
  crc : Nat
  deriving DecidableEq, Repr

/-- The record entries of page 0, from the first page of the first record on. -/
def recordEntries : List ImageRecord → Nat → List Byte
  | [], _ => []
  | r :: rs, page =>
    toBytes 4 (r.kind + 2 ^ 8 * r.rank) ++ toBytes 4 page ++ toBytes 8 r.data.length ++ recordEntries rs (page + r.pages)

/-- Page 0 (Table 15.6). -/
def headPage (h : ImageHead) (rs : List ImageRecord) : List Byte :=
  padPages (toBytes 4 0x09565358 ++ toBytes 4 1 ++ toBytes 8 h.generation ++ toBytes 4 h.ctx.toNat ++ toBytes 4 h.index
    ++ toBytes 8 h.ptr.toNat ++ toBytes 4 h.pages ++ toBytes 4 h.tables ++ toBytes 4 rs.length ++ toBytes 4 h.crc
    ++ toBytes 16 0 ++ recordEntries rs (1 + h.tables))

/-- The image of some records. -/
def buildImage (generation : Nat) (ctx : BitVec 16) (index : Nat) (ptr : Word) (rs : List ImageRecord) : List Byte :=
  let content := rs.flatMap fun r => padPages r.data
  let n := content.length / 4096
  let tables := (n + 1023) / 1024
  let crcs := padPages ((cutIntoPages n content).flatMap fun p => toBytes 4 (crc32c p))
  let h : ImageHead :=
    { generation := generation, ctx := ctx, index := index, ptr := ptr, pages := 1 + tables + n, tables := tables, crc := 0 }
  let crc := crc32c (headPage h rs ++ crcs ++ content)
  headPage { h with crc := crc } rs ++ crcs ++ content

/-- The number of `n` bytes at an offset of some bytes. -/
def numAt (bs : List Byte) (off n : Nat) : Nat := ofBytes ((bs.drop off).take n)

/-- Page 0 is that of a complete image of a generation and a context, of a size that its slot holds (R362, R363). -/
def headOk (page : List Byte) (generation : Nat) (ctx : BitVec 16) : Bool :=
  numAt page 0 4 == 0x09565358 && numAt page 4 4 == 1 && numAt page 8 8 == generation && numAt page 16 2 == ctx.toNat
  && decide (numAt page 32 4 ≤ 2 ^ 20) && decide (numAt page 36 4 + 1 ≤ numAt page 32 4)

/-- Every CRC of an image is right. -/
def crcsOk (image : List Byte) : Bool :=
  let pages := numAt image 32 4
  let tables := numAt image 36 4
  let content := cutIntoPages (pages - tables - 1) (image.drop (4096 * (tables + 1)))
  (content.zipIdx.all fun x => crc32c x.1 == numAt image (4096 + 4 * x.2) 4)
  && crc32c (image.take 44 ++ [0, 0, 0, 0] ++ image.drop 48) == numAt image 44 4

/-- The records of an image. -/
def imageRecords (image : List Byte) : List ImageRecord :=
  (List.range (min 252 (numAt image 40 4))).map fun i =>
    let e := 64 + 16 * i
    { kind := numAt image e 1, rank := numAt image (e + 1) 1,
      data := (image.drop (4096 * numAt image (e + 4) 4)).take (numAt image (e + 8) 8) }

/-! ## What is saved (R360) -/

/-- The bitmap of a PHINT covers a name: bit `i` stands for names 8·i to 8·i + 7 (R53). -/
def hintCovers (bitmap : BitVec 64) (name : Nat) : Bool := bitmap.getLsbD (name / 8)

/-- The names that a warp contributes. -/
def Agent.savedNames (a : Agent) : List (Nat × MapEntry) :=
  match a.status with
  | .halted => []
  | .stopped (.atHint _ bitmap) => List.filter (fun e => hintCovers bitmap e.1) a.vmap
  | _ => a.vmap

/-- The warps of a team, ascending. -/
def State.warpsOf (s : State) (t : Team) : List Agent :=
  (List.range t.pkt.warps).filterMap fun i => s.getAgent (.warp t.id i)

/-- The rows that an image holds of a rank, in image order. -/
def savedRows (t : Team) (warps : List Agent) (rank : Nat) : List Nat :=
  ((warps.filter fun a => a.rank == rank).flatMap (fun a => a.savedNames.map fun e => e.2.row)
    ++ (List.filter (fun x => x.2.rank == rank) t.handoff).map fun x => x.2.row).eraseDups

/-- The image row number of a row. -/
def rowNumber (rows : List Nat) (row : Nat) : Nat := (rows.findIdx? (· == row)).getD 0

/-- A range of scratchpad on a rank. -/
structure LocalRange where
  rank : Nat
  off : Nat
  len : Nat
  deriving DecidableEq, Repr

/-- A word of a scratchpad range list, where it is legal (Table 15.5). -/
def rangeOfWord (t : Team) (w : Nat) : Option LocalRange :=
  let r : LocalRange := { rank := bits w 22 20, off := bits w 19 0, len := bits w 51 32 }
  if bits w 63 52 == 0 && bits w 31 23 == 0 && r.len % 16 == 0 && r.off % 16 == 0 && decide (r.rank < t.pkt.cores)
      && decide (r.off + r.len ≤ t.localSize) then some r
  else none

/-- The word of a range (Table 15.5). -/
def LocalRange.word (r : LocalRange) : Nat := r.len * 2 ^ 32 + r.rank * 2 ^ 20 + r.off

/-- Every member of a list, if all are there. -/
def everyRange : List (Option LocalRange) → Option (List LocalRange)
  | [] => some []
  | none :: _ => none
  | some r :: rs => (everyRange rs).map (r :: ·)

/-- The range list that a PHINT names; none where a check fails (R361). -/
def Team.hintRanges (t : Team) (rank : Nat) : Option Word → Option (List LocalRange)
  | none => some []
  | some p =>
    let at_ (i : Nat) : Nat := (t.rank rank).scratch.readNat (ptrOffset p + 8 * i) 8
    if ptrSpace p ≠ 1 ∨ ptrRank p ≠ 0 ∨ p.toNat % 8 ≠ 0 ∨ t.localSize < ptrOffset p + 8 then none
    else
      let n := at_ 0
      if 31 < n ∨ t.localSize < ptrOffset p + 8 + 8 * n then none
      else everyRange ((List.range n).map fun i => rangeOfWord t (at_ (i + 1)))

/-- The range list of a warp that stopped at a PHINT; none where the scratchpad is saved whole. -/
def Team.warpRanges (t : Team) (a : Agent) : Option (List LocalRange) :=
  match a.status with
  | .halted => some []
  | .stopped (.atHint p _) => t.hintRanges a.rank p
  | _ => none

/-- The ranges of all warps together; none where the scratchpad is saved whole (R360). -/
def Team.allRanges (t : Team) : List Agent → Option (List LocalRange)
  | [] => some []
  | a :: as =>
    match t.warpRanges a, Team.allRanges t as with
    | some x, some y => some (x ++ y)
    | _, _ => none

/-- The barrier objects that command slots and landing bindings name. -/
def barrierRanges (t : Team) (cmds : List Cmd) : List LocalRange :=
  (cmds.filterMap fun c => c.bar.map fun p =>
    { rank := if ptrSpace p = 1 then c.rank else ptrRank p, off := ptrOffset p, len := 16 })
  ++ List.map (fun x => { rank := x.2.barRank, off := ptrOffset x.2.bar, len := 16 }) t.landings

/-- Joins rising 16-byte blocks of a rank into ranges. -/
def joinBlocks (rank : Nat) : List Nat → List LocalRange
  | [] => []
  | b :: bs =>
    match joinBlocks rank bs with
    | [] => [{ rank := rank, off := 16 * b, len := 16 }]
    | r :: rs =>
      if r.off = 16 * b + 16 ∧ r.len + 16 < 2 ^ 20 then { rank := rank, off := 16 * b, len := r.len + 16 } :: rs
      else { rank := rank, off := 16 * b, len := 16 } :: r :: rs

/-- The union of ranges, by rank. -/
def unionRanges (cores : Nat) (rs : List LocalRange) : List LocalRange :=
  (List.range cores).flatMap fun k =>
    let mine := rs.filter fun r => r.rank == k
    let top := mine.foldl (fun m r => max m (r.off + r.len)) 0
    joinBlocks k ((List.range (top / 16)).filter fun b => mine.any fun r => r.off ≤ 16 * b && 16 * b < r.off + r.len)

/-- The whole scratchpad, on every rank. -/
def Team.wholeRanges (t : Team) : List LocalRange :=
  (List.range t.pkt.cores).map fun k => { rank := k, off := 0, len := t.localSize }

/-- The scratchpad that an image holds; it is saved whole also where page 0 has no room for the records of the ranges. -/
def Team.savedRanges (t : Team) (warps : List Agent) (cmds : List Cmd) : List LocalRange :=
  match t.allRanges warps with
  | none => t.wholeRanges
  | some rs =>
    let rs := unionRanges t.pkt.cores ({ rank := 0, off := 0, len := 0x180 } :: rs ++ barrierRanges t cmds)
    if 252 < t.pkt.warps + 2 * t.pkt.cores + 3 + rs.length then t.wholeRanges else rs

/-! ## Records -/

/-- The state code and the resume address of a stopped warp (Table 15.7, R364). -/
def Agent.resume (a : Agent) : Nat × Word :=
  match a.status with
  | .stopped (.atHint ..) => (0, a.spc)
  | .stopped .forced => (1, a.reg.entry)
  | .waiting .. => (2, a.spc)
  | .parked .. => (3, a.reg.entry)
  | .halted => (4, a.spc)
  | .running | .lsync => (0, a.spc)

/-- The WARP record (Table 15.7). -/
def warpRecord (a : Agent) (rows : List Nat) : List Byte :=
  let (code, pc) := a.resume
  let names := a.savedNames
  toBytes 8 pc.toNat ++ toBytes 2 (code + 2 ^ 8 * (b2n a.trapMode + 2 * b2n a.reg.nr)) ++ toBytes 2 a.lphase.toNat
  ++ toBytes 4 a.warpIndex ++ toBytes 8 a.reg.ctr.toNat ++ toBytes 8 a.reg.entry.toNat ++ toBytes 8 a.fault.toNat
  ++ toBytes 8 a.faultaddr.toNat ++ toBytes 8 a.fpmode.toNat ++ toBytes 8 a.fpflags.toNat
  ++ (upTo 1 64).flatMap (fun n => toBytes 8 (a.g.getD n 0).toNat)
  ++ (upTo 56 64).flatMap (fun n => toBytes 8 (a.trapG.getD n 0).toNat)
  ++ toBytes 8 (a.q.toNat % 128)
  ++ (List.range 512).flatMap fun n =>
      match List.find? (fun (e : Nat × MapEntry) => e.1 == n) names with
      | some e => toBytes 4 (2 ^ 31 + e.2.tag.toNat * 2 ^ 12 + rowNumber rows e.2.row)
      | none => toBytes 4 0

/-- The bytes of a row. -/
def rowBytes (data : List Lane) : List Byte := data.flatMap fun x => toBytes 4 x.toNat

/-- The code of a task state (Table 15.8). -/
def TaskState.code : TaskState → Nat
  | .waiting => 1
  | .ready => 2
  | .running => 3
  | .done => 4

/-- Puts a task at its place in pop order (R262). -/
def insertTask (x : Nat × TaskSlot) : List (Nat × TaskSlot) → List (Nat × TaskSlot)
  | [] => [x]
  | y :: ys => if popsBefore x y then x :: y :: ys else y :: insertTask x ys

/-- The ready queue, in pop order (R262). -/
def Team.readyQueue (t : Team) : List Nat :=
  ((List.filter (fun x => x.2.state == .ready) t.tasks).foldr insertTask []).map (·.1)

/-- The TEAM record (Table 15.8); `rows` gives the image rows of a rank. (DESIGN CHOICE, log 55) -/
def teamRecord (t : Team) (rows : Nat → List Nat) : List Byte :=
  (List.range 64).flatMap (fun n =>
    match t.tasks.find? n with
    | some x => toBytes 8 x.word.toNat ++ toBytes 8 x.arg.toNat ++ toBytes 4 x.state.code ++ toBytes 4 x.counter
    | none => toBytes 24 0)
  ++ (List.range 64).flatMap (fun i => toBytes 1 (t.readyQueue.getD i 0xFF))
  ++ (List.range 32).flatMap (fun n =>
    match t.handoff.find? n with
    | some h => toBytes 8 (1 + 2 * h.rank + 2 ^ 4 * h.tag.toNat + 2 ^ 8 * rowNumber (rows h.rank) h.row)
    | none => toBytes 8 0)
  ++ (List.range 8).flatMap fun n =>
    match t.landings.find? n with
    | some l => toBytes 8 1 ++ toBytes 8 l.bar.toNat ++ toBytes 8 l.entry ++ toBytes 4 l.window ++ toBytes 4 l.perSet.toNat
    | none => toBytes 32 0

/-- The bytes that a command has accumulated. -/
def Cmd.accumulated (c : Cmd) : Nat :=
  if c.kind = .hread then c.delivered
  else (List.range c.cursor).foldl (fun n i => n + (c.copy.burst i).len) 0

/-- The CMD entry (Table 15.9). -/
def cmdEntry (c : Cmd) : List Byte :=
  let word := match encode c.instr with
    | some (.scalar w) => w
    | _ => 0
  let read := c.kind == .hread
  (List.range 5).flatMap (fun i => toBytes 8 (if read && i == 4 then 0 else descNat c.desc i))
  ++ toBytes 4 word ++ toBytes 1 (b2n read) ++ toBytes 1 c.err.toNat ++ toBytes 2 0 ++ toBytes 8 (c.bar.getD 0).toNat
  ++ toBytes 8 c.cursor ++ toBytes 8 c.accumulated ++ toBytes 2 (if read then hreadWindow c.desc else 0)
  ++ toBytes 2 (if read then c.reserved else 0) ++ toBytes 4 (if read then c.started else 0) ++ toBytes 48 0

/-- The bytes of the FABRIC record: the spec fixes neither their number nor their values. (DESIGN CHOICE, log 56) -/
def State.fabricBytes (s : State) : List Byte :=
  (List.range (Config.freeNat (s.fresh + 49150) % 4096)).map fun i => BitVec.ofNat 8 (Config.freeNat (s.fresh + 49152 + i))

/-- The command slots of the copy engine that a team's image holds. -/
def copySlots (cmds : List Cmd) : List Cmd := cmds.filter fun c => c.kind == .cpy || c.kind == .hread

/-- The records of a frozen team, by type and then by warp or rank. -/
def State.teamRecords (s : State) (t : Team) : List ImageRecord :=
  let warps := s.warpsOf t
  let cmds := s.cmds.filter fun c => c.team == t.id
  let slots := copySlots cmds
  let rows (k : Nat) : List Nat := savedRows t warps k
  let ranks := List.range t.pkt.cores
  let entries := s.fab.table.filter fun e => e.team == t.id
  let fabric := cmds.length != slots.length || !entries.isEmpty || List.any t.landings (fun x => !x.2.waiting.isEmpty)
  warps.map (fun a => { kind := 1, rank := a.rank, data := warpRecord a (rows a.rank) })
  ++ ranks.map (fun k => { kind := 2, rank := k, data := (rows k).flatMap fun n => rowBytes ((t.rank k).row n).data })
  ++ (t.savedRanges warps slots).map (fun r =>
    { kind := 3, rank := r.rank, data := toBytes 8 r.word ++ (t.rank r.rank).scratch.readN r.off r.len })
  ++ ranks.map (fun k => { kind := 4, rank := k, data := (t.rank k).accum.readN 0 t.accumSize })
  ++ [{ kind := 5, rank := 0, data := teamRecord t rows }, { kind := 6, rank := 0, data := slots.flatMap cmdEntry }]
  ++ if fabric then [{ kind := 7, rank := 0, data := s.fabricBytes }] else []

/-! ## Reading records back (R364) -/

/-- The image row number of a map entry or handoff slot that is valid, with its tag. -/
def savedEntry (w : Nat) : Option (Nat × BitVec 4) :=
  if bit w 31 then some (bits w 11 0, BitVec.ofNat 4 (bits w 15 12)) else none

/-- The valid names of a WARP record. -/
def recordNames (d : List Byte) : List (Nat × Nat × BitVec 4) :=
  (List.range 512).filterMap fun n => (savedEntry (numAt d (640 + 4 * n) 4)).map fun e => (n, e.1, e.2)

/-- Registers from 8-byte words, zeros left out. -/
def registersAt (d : List Byte) (off lo hi : Nat) : Sparse Word :=
  (upTo lo hi).filterMap fun n =>
    let v := numAt d (off + 8 * (n - lo)) 8
    if v = 0 then none else some (n, BitVec.ofNat 64 v)

/-- The lane predicates p0 to p6 of a restored warp: no record holds them and no rule gives them, so they are free values. (DESIGN CHOICE, log 111) -/
def freePreds (free : Nat → Nat) (warp : Nat) : Sparse Mask :=
  (List.range 7).foldl (fun m n => Sparse.set m n (BitVec.ofNat 64 (free (8 * warp + n))) 0) []

/-- A warp as its record says (R364); `rows` gives the new row of an image row, and `free` the values that no record holds. (DESIGN CHOICE, log
111) (DESIGN CHOICE, log 111) -/
def warpFrom (free : Nat → Nat) (team rank slot : Nat) (role : Role) (d : List Byte) (rows : List Nat) : Agent :=
  let num (off n : Nat) : Nat := numAt d off n
  let pc := BitVec.ofNat 64 (num 0 8)
  let g := registersAt d 64 1 64
  let trap := registersAt d 568 56 64
  let q := BitVec.ofNat 8 (num 632 1 % 128)
  let mode := BitVec.ofNat 3 (num 48 8)
  { Agent.start (.warp team (num 12 2)) rank slot role pc with
    g := g, trapG := trap, q := q, trapMode := bit (num 9 1) 0, fpmode := mode, fpflags := BitVec.ofNat 6 (num 56 8)
    fault := BitVec.ofNat 64 (num 32 8), faultaddr := BitVec.ofNat 64 (num 40 8)
    reg := { rid := 0, ctr := BitVec.ofNat 64 (num 16 8), entry := BitVec.ofNat 64 (num 24 8), nr := bit (num 9 1) 1,
             snapG := g, snapTrap := trap, snapQ := q, snapMode := mode }
    lphase := BitVec.ofNat 16 (num 10 2), p := freePreds free (num 12 2)
    vmap := (recordNames d).map fun e => (e.1, { row := rows.getD e.2.1 0, tag := e.2.2 })
    status := if num 8 1 = 4 then .halted else .running
    atEntry := num 8 1 == 0 || num 8 1 == 1 || num 8 1 == 3 }

/-- The lanes of the bytes of a row. -/
def rowFrom (d : List Byte) (i : Nat) : List Lane := (List.range 64).map fun l => BitVec.ofNat 32 (numAt d (256 * i + 4 * l) 4)

/-- The handoff slots of a TEAM record; `rows` gives the new rows of a rank. -/
def handoffsFrom (d : List Byte) (rows : Nat → List Nat) : Sparse Handoff :=
  (List.range 32).filterMap fun n =>
    let w := numAt d (1600 + 8 * n) 8
    if bit w 0 then
      some (n, { row := (rows (bits w 3 1)).getD (bits w 19 8) 0, tag := BitVec.ofNat 4 (bits w 7 4), rank := bits w 3 1 })
    else none

/-- The state of a code (Table 15.8). -/
def TaskState.ofCode : Nat → Option TaskState
  | 1 => some .waiting
  | 2 => some .ready
  | 3 => some .running
  | 4 => some .done
  | _ => none

/-- The task slots of a TEAM record; the ready queue gives the order in which they became READY, from `stamp` on. -/
def tasksFrom (d : List Byte) (stamp : Nat) : Sparse TaskSlot :=
  let queue := (List.range 64).map fun i => numAt d (1536 + i) 1
  (List.range 64).filterMap fun n =>
    (TaskState.ofCode (numAt d (24 * n + 16) 4)).map fun st =>
      (n, { state := st, counter := numAt d (24 * n + 20) 4, word := BitVec.ofNat 64 (numAt d (24 * n) 8),
            arg := BitVec.ofNat 64 (numAt d (24 * n + 8) 8), stamp := stamp + (queue.findIdx? (· == n)).getD 0 })

/-- The scratchpad of a rank, from its LOCAL records; what was not saved reads zero (R360). -/
def scratchFrom (rs : List ImageRecord) (rank : Nat) : Memory :=
  (rs.filter fun r => r.kind == 3 && r.rank == rank).foldl
    (fun m r => m.writeN (bits (numAt r.data 0 8) 19 0) (r.data.drop 8)) []

/-- The accumulator memory of a rank. -/
def accumFrom (rs : List ImageRecord) (rank : Nat) : Memory :=
  (rs.filter fun r => r.kind == 4 && r.rank == rank).foldl (fun m r => m.writeN 0 r.data) []

/-- The record of a type, of a rank. -/
def recordOf (rs : List ImageRecord) (kind rank : Nat) : List Byte :=
  match rs.find? fun r => r.kind == kind && r.rank == rank with
  | some r => r.data
  | none => []

/-- A rank with its saved rows in the first rows of its grant; reference counts are those of the names and handoff slots that map a row
(Table 15.8). -/
def rankFrom (rs : List ImageRecord) (core rank : Nat) (grant : List Nat) (mapped : List Nat) : Rank :=
  let d := recordOf rs 2 rank
  let live := (grant.take (d.length / 256)).zipIdx.filter fun x => mapped.contains x.1
  { core := core, scratch := scratchFrom rs rank, accum := accumFrom rs rank
    pool := grant.filter fun n => !live.any fun x => x.1 == n
    zeroing := []
    live := live.foldl
      (fun m x => Sparse.insert m x.1 { Row.fresh (rowFrom d x.2) with refs := (mapped.filter (· == x.1)).length }) [] }

/-- A landing binding as its entry says, with W rows reserved again (R364). -/
def bindingFrom (d : List Byte) (n : Nat) (l : Landing) (rows : List Nat) : Landing :=
  let at_ (off k : Nat) : Nat := numAt d (1856 + 32 * n + off) k
  { l with
    bar := BitVec.ofNat 64 (at_ 8 8), entry := at_ 16 8, window := at_ 24 4, perSet := BitVec.ofNat 32 (at_ 28 4), rows := rows, running := 0 }

/-- A command slot as its entry says; what the entry does not record stays as the device has it (Table 15.9). -/
def cmdFrom (e : List Byte) (c : Cmd) (core : Nat) (rows : List Nat) : Cmd :=
  let read := c.kind == .hread
  let desc := (List.range (if read then 4 else 5)).map fun i => BitVec.ofNat 64 (numAt e (8 * i) 8)
  let reserved := numAt e 74 2
  let whole := hreadWindow desc * (1 + hreadExtra desc)
  { c with
    desc := desc, core := core, err := BitVec.ofNat 8 (numAt e 45 1)
    bar := if c.bar.isSome then some (BitVec.ofNat 64 (numAt e 48 8)) else none
    cursor := numAt e 56 8, rows := rows
    instr := (match decodeScalar (numAt e 40 4) 0 with | .ok i => i | .error _ => c.instr)
    delivered := if read then numAt e 64 8 else 0
    started := if read then numAt e 76 4 else 0
    window := if read then hreadWindow desc - (whole - reserved) else 0
    reserved := if read then reserved else 0 }

end Sys2Proof.Machine
end

