-- ==== Sys2Proof/Machine/Preempt.lean ====
section
/-! DEFINITION. Pre-emption: requesting a save, forcing it, writing an image and restoring a team; and the delivery of a fault that waited
(R41, R259, R310, R352, R359 to R365). -/

namespace Sys2Proof.Machine

/-! ## PREEMPT_REQUEST (R257, R259) -/

/-- The grids above a grid, the grid itself first; depth is at most 10 (R20), which bounds `fuel`. -/
def State.lineage (s : State) : Nat → Nat → List Grid
  | 0, _ => []
  | fuel + 1, id =>
    match s.getGrid id with
    | none => []
    | some g =>
      match g.parent with
      | some p => g :: State.lineage s fuel p
      | none => [g]

/-- Teams that are saved only together: a team, or all the teams of a cooperative grid (R257). -/
abbrev SaveUnit := List Team

/-- When the youngest team of a unit started. -/
def unitAge (u : SaveUnit) : Nat := u.foldl (fun m t => max m t.started) 0

/-- Puts a unit at its place, the most recently started first. -/
def insertUnit (u : SaveUnit) : List SaveUnit → List SaveUnit
  | [] => [u]
  | x :: xs => if unitAge x < unitAge u then u :: x :: xs else x :: insertUnit u xs

/-- The units of some grids whose save has not been requested, the most recently started first. -/
def State.saveUnits (s : State) (gs : List Grid) : List SaveUnit :=
  let units := gs.flatMap fun g =>
    let ts := s.allTeams.filter fun t => t.grid == g.id && t.saveReq.isNone
    if ts.isEmpty then [] else if g.pkt.coop then [ts] else ts.map fun t => [t]
  units.foldr insertUnit []

/-- What the device would keep of a team that has nothing but its place. -/
def Team.stub (t : Team) : SavedTeam :=
  { id := t.id, grid := t.grid, index := t.index, frameSlot := t.frameSlot, ctx := t.ctx, slot := 0, generation := 0, started := t.started,
    nextDrop := t.nextDrop, cmds := [], entries := [], landings := t.landings, held := [], told := none }

/-- The state as it would be with some teams saved, as far as placement is concerned. -/
def State.without (s : State) (ids : List Nat) : State :=
  let gone := s.allTeams.filter fun t => ids.contains t.id
  { s with
    tm := if ids.contains s.tm.id then Team.nobody else s.tm
    teams := s.teams.filter fun t => !ids.contains t.id
    saved := s.saved ++ gone.map Team.stub }

/-- The first choice of units with `n` teams in all that passes a test; earlier units are preferred. -/
def chooseUnits (fits : List Nat → Bool) : List SaveUnit → Nat → List Nat → Option (List Nat)
  | _, 0, chosen => if fits chosen then some chosen else none
  | [], _ + 1, _ => none
  | u :: us, n + 1, chosen =>
    let taken := if 1 ≤ u.length ∧ u.length ≤ n + 1 then chooseUnits fits us (n + 1 - u.length) (chosen ++ u.map (·.id)) else none
    match taken with
    | some x => some x
    | none => chooseUnits fits us (n + 1) chosen

/-- The fewest teams whose save lets a head fit, beside those whose save is already requested (R259). (DEDUCED, log 59) -/
def State.chooseSave (s : State) (h : Head) : Option (List Nat) :=
  let pending := (s.allTeams.filter fun t => t.saveReq.isSome).map (·.id)
  let units := s.saveUnits (s.lineage 12 h.item.parent)
  let fits (ids : List Nat) : Bool := ((s.without ids).findOrigin h.pkt).isSome
  let total := units.foldl (fun n u => n + u.length) 0
  if fits (pending ++ units.flatten.map (·.id)) then
    (List.range (total + 1)).findSome? fun n => (chooseUnits (fun ids => fits (pending ++ ids)) units n [])
  else none

/-- Requests the save of some teams (R359). -/
def State.requestSave (s : State) (ids : List Nat) : State :=
  ids.foldl (fun s id => s.modTeam id fun t => { t with saveReq := some s.now }) s

/-- PREEMPT_REQUEST (R259): nothing happens where the head of the device queue fits, or where no save of its ancestors' teams would let it fit. -/
def execPreemptRequest (q : QueueId) (s : State) : Out :=
  match q, s.heads.find? fun h => h.queue == q with
  | .dev .., some h =>
    if (s.findOrigin h.pkt).isSome then .next s
    else
      match s.chooseSave h with
      | some ids => .next (s.requestSave ids)
      | none => .next s
  | .dev .., none | .host .., _ => .next s

/-! ## PREEMPT_FORCE (R359) -/

/-- PREEMPT_FORCE (R359): 50 µs after the request, the warps that have not stopped will stop at their next region entries. -/
def execPreemptForce (team : Nat) (s : State) : Out :=
  match s.getTeam team with
  | none => .next s
  | some t =>
    match t.saveReq with
    | none => .next s
    | some at_ => .next (if at_ + 50000 ≤ s.now && !s.frozen team then s.setTeam { t with forced := true } else s)

/-! ## TEAM_SAVE (R310, R359 to R363) -/

/-- A command of a frozen team holds its save up no longer: a copy or a read has no burst under way and no drop, a matrix command or a TOPK has
completed (R171, R310). -/
def Cmd.settled (c : Cmd) : Bool :=
  match c.kind with
  | .cpy => c.pending.isEmpty && !c.arrived
  | .hread => c.pending.isEmpty && c.landed.isEmpty && c.running == 0 && (c.final == .none || c.final == .due)
  | .fput | .fputh | .fcoll | .fcont => true
  | .mmac | .azero | .ard | .awr | .topk => false

/-- The image of a frozen team can be written: every drop has ended and every command is settled (R310). -/
def State.saveReady (s : State) (t : Team) : Bool :=
  s.frozen t.id && s.allAgents.all (fun a => teamOf a.id != t.id || !a.isDrop)
  && s.cmds.all fun c => c.team != t.id || c.settled

/-- The lowest `n` save slots that a context has free (R362). -/
def freeSaveSlots (c : Ctx) (n : Nat) : List Nat :=
  ((List.range 65536).filter fun k => !((c.slots.getD k { busy := false, generation := 0 }).busy)).take n

/-- The generation of a save that takes some slots: one more than any of them has had (R363). (DEDUCED, log 54) -/
def nextGeneration (c : Ctx) (slots : List Nat) : Nat :=
  slots.foldl (fun m k => max m (c.slots.getD k { busy := false, generation := 0 }).generation) 0 + 1

/-- The first byte of a save slot (R362). -/
def saveAddress (slot : Nat) : Word := BitVec.ofNat 64 (0x01FF000000000000 + 2 ^ 32 * slot)

/-- The device as the maker of an access to a context's save area. -/
def saveWho (ctx : BitVec 16) : Who := { team := 0, ctx := ctx, rank := 0, core := 768 }

/-- The first failing page of an access to the save area. -/
def State.saveFail (s : State) (ctx : BitVec 16) (acc : Acc) (slot n : Nat) : Option Fail :=
  (badPieces (s.pieces (saveWho ctx) acc (saveAddress slot) n 0))[0]?

/-- The host driver is told of a failing page of the save area, once (R362). -/
def State.tellSave (s : State) (ctx : BitVec 16) (told : Option Word) (f : Fail) : State :=
  if told = some f.addr then s else s.addrNotice (if f.code = 0x12 then 2 else 1) f.code ctx f.addr

/-- A saved team has left its cores: its agents, rows, memories, commands and votes are gone, and the grid does not count it as ended. -/
def State.leaveCores (s : State) (t : Team) (x : SavedTeam) : State :=
  let s := s.dropAgents fun a => teamOf a.id == t.id
  let s := s.dropTeam t.id
  { s with
    cmds := s.cmds.filter fun c => c.team != t.id
    fab := { s.fab with table := s.fab.table.filter fun e => e.team != t.id }
    saved := s.saved ++ [x] }.regrant t.cluster

/-- What the save of a grid has reserved for a team. -/
def Grid.ticket (g : Grid) (team : Nat) : Option SaveTicket := g.tickets.find? fun k => k.team == team

/-- The teams of the save that the image of a team begins: the team, and the others of its grid that are to be saved with it (R257, R363). -/
def State.savedWith (s : State) (t : Team) (g : Grid) : List Team :=
  t :: s.allTeams.filter fun x => x.grid == g.id && x.id != t.id && (g.pkt.coop || x.saveReq.isSome) && (g.ticket x.id).isNone

/-- The slot and the generation of a team's image, first, and of those that its save reserves with it: every team of one save has the same generation
(R363, R365). (DEDUCED, log 54) -/
def State.saveTickets (s : State) (t : Team) (g : Grid) (c : Ctx) : List SaveTicket :=
  match g.ticket t.id with
  | some k => [k]
  | none =>
    let ts := s.savedWith t g
    let slots := freeSaveSlots c ts.length
    (ts.zip slots).map fun x => { team := x.1.id, slot := x.2, generation := nextGeneration c slots }

/-- A context with some save slots in use. -/
def Ctx.useSlots (c : Ctx) (ks : List SaveTicket) : Ctx :=
  { c with slots := ks.foldl (fun m k => Sparse.insert m k.slot { busy := true, generation := k.generation }) c.slots }

/-- The words of the range lists that a save reads (R361). -/
def Team.listRanges (t : Team) (warps : List Agent) : List LocalRange :=
  warps.filterMap fun a => match a.status with
    | .stopped (.atHint (some p) _) => some { rank := a.rank, off := ptrOffset p, len := 8 + 8 * min 31 ((t.rank a.rank).scratch.readNat (ptrOffset p) 8) }
    | _ => none

/-- An entry that the save of a team reads (R360, R367): of what its image holds, or a slot or queue entry of the team. -/
def State.errorSaved (s : State) (t : Team) : ErrorPlace → Bool
  | .row team rank n => team == t.id && (savedRows t (s.warpsOf t) rank).contains n
  | .scratch team rank off =>
    let warps := s.warpsOf t
    team == t.id
    && (t.listRanges warps ++ t.savedRanges warps (copySlots (s.cmds.filter fun c => c.team == t.id))).any fun r =>
      r.rank == rank && decide (r.off < off / 4 * 4 + 4) && decide (off / 4 * 4 < r.off + r.len)
  | .accum team rank off => team == t.id && decide (rank < t.pkt.cores) && decide (off < t.accumSize)
  | .tagged ctx d => ctx == t.ctx && (t.onCore d || d == 768 + t.cluster)
  | .cleanLine .. | .freeEntry _ | .launchEntry .. | .head _ | .walk .. | .hostWrite _ | .sharedLine .. | .device _ | .noDomain | .sector _
  | .hostSector .. => false

/-- Writes the image of a team and takes the team off its cores (R360 to R363); an absent page suspends the save (R362). (DEDUCED, log 53) -/
def State.saveTeam (s : State) (t : Team) (g : Grid) (c : Ctx) : State :=
  match s.saveTickets t g c with
  | [] => s
  | k :: ks =>
    let image := buildImage k.generation t.ctx t.index t.ptr (s.teamRecords t)
    if s.deviceFenced (saveWho t.ctx) .store (saveAddress k.slot) image.length then s
    else
    match s.saveFail t.ctx .store k.slot image.length with
    | some f => (s.setTeam { t with saveTold := some f.addr }).tellSave t.ctx t.saveTold f
    | none =>
      let x : SavedTeam :=
        { t.stub with
          slot := k.slot, generation := k.generation
          cmds := s.cmds.filter fun c => c.team == t.id
          entries := s.fab.table.filter fun e => e.team == t.id }
      let s := { s.store (saveWho t.ctx) (saveAddress k.slot) image 0 with ctxs := s.ctxs.insert t.ctx.toNat (c.useSlots (k :: ks)) }
      (s.setGrid { g.dropTicket t.id with tickets := (g.dropTicket t.id).tickets ++ ks }).leaveCores t x

/-- TEAM_SAVE (R359 to R363, R365): nothing happens until the team is frozen and quiet, and has a free save slot. An error that the save
consumes ends the context, and no image is written (R373). -/
def execTeamSave (team : Nat) (s : State) : Out :=
  match s.getTeam team with
  | none => .next s
  | some t =>
    match s.getGrid t.grid, s.ctxs.find? t.ctx.toNat with
    | some g, some c =>
      if !s.saveReady t then .next s
      else if s.latent.any (s.errorSaved t) then .next (s.spendWhere (s.errorSaved t))
      else .next (s.saveTeam t g c)
    | _, _ => .next s

/-! ## TEAM_RESTORE (R41, R364, R365) -/

/-- The cores of a frame slot of a packet have room at a cluster, beside what the next teams of due frame slots will take (R41, R255, R364).
(DEDUCED, log 92) -/
def State.roomAt (s : State) (p : LaunchPacket) (fs : List (Nat × FrameSlot)) : Bool :=
  fs.all fun x => (maskCores x.2.mask).all fun k =>
    let core := 8 * x.1 + k
    let need := fs.foldl (fun b y => if y.1 = x.1 then b.add (p.slotNeed y.2 k) else b) Budget.zero
    !s.coreFenced core && decide (x.1 < 96) && (((s.usedOn core).add (s.dueOn core)).add need).fits

/-- A failed check of the image: the restore is refused and the team terminated with 0x21 (R363); its slot is free. -/
def State.refuseRestore (s : State) (x : SavedTeam) : State :=
  let s := s.setGridCode x.grid 0x21
  { s with
    saved := s.saved.filter fun y => y.id != x.id
    grids := s.grids.map fun (g : Grid) => if g.id = x.grid then { g with ended := g.ended + 1 } else g }.checkRetire x.grid

/-- The save slot of a team is free again (R365). -/
def State.freeSaveSlot (s : State) (x : SavedTeam) : State :=
  match s.ctxs.find? x.ctx.toNat with
  | none => s
  | some c =>
    { s with ctxs := s.ctxs.insert x.ctx.toNat { c with slots := c.slots.insert x.slot { busy := false, generation := x.generation } } }

/-- The image of a saved team, from its slot: a page that fails, or the image and whether a byte of it arrived poisoned. -/
def State.readImage (s : State) (x : SavedTeam) : Except Fail (List Byte × Bool) :=
  let w := saveWho x.ctx
  match s.saveFail x.ctx .load x.slot 4096 with
  | some f => .error f
  | none =>
    let head := s.load w false (saveAddress x.slot) 4096 0
    let n := if headOk head x.generation x.ctx then 4096 * numAt head 32 4 else 4096
    match s.saveFail x.ctx .load x.slot n with
    | some f => .error f
    | none =>
      let g := s.gather w false [] (s.pieces w .load (saveAddress x.slot) n 0)
      .ok (g.bytes, g.stop.isSome)

/-- Reading the image of a saved team waits for a fenced domain (R371). -/
def State.imageFenced (s : State) (x : SavedTeam) : Bool :=
  let w := saveWho x.ctx
  let fenced (n : Nat) : Bool := s.deviceFenced w .load (saveAddress x.slot) n
  !s.fenced.isEmpty
  && (fenced 4096
      || ((s.saveFail x.ctx .load x.slot 4096).isNone
          && (let head := s.load w false (saveAddress x.slot) 4096 0
              headOk head x.generation x.ctx && fenced (4096 * numAt head 32 4))))

/-- An image passes the checks of R363. -/
def imageOk (image : List Byte) (x : SavedTeam) : Bool := headOk (image.take 4096) x.generation x.ctx && crcsOk image

/-- Reserves the rows of the landing bindings of a TEAM record, on the ranks that the device has kept (R364). -/
def restoreLandings (d : List Byte) : List (Nat × Landing) → Team → Team
  | [], t => t
  | (n, l) :: ls, t =>
    if numAt d (1856 + 32 * n) 8 % 2 = 0 then restoreLandings d ls t
    else
      let (rows, r) := (t.rank l.rank).takeRows (numAt d (1856 + 32 * n + 24) 4)
      restoreLandings d ls { t.setRank l.rank r with landings := t.landings.insert n (bindingFrom d n l rows) }

/-- Re-reserves the command slots from the CMD entries; the other commands resume as the device has kept them (R364). -/
def restoreCmds (d : List Byte) : Nat → List Cmd → Team → List Cmd × Team
  | _, [], t => ([], t)
  | i, c :: cs, t =>
    let core := (t.rank c.rank).core
    if c.kind = .cpy ∨ c.kind = .hread then
      let e := (d.drop (128 * i)).take 128
      let (rows, r) := if c.kind = .hread then (t.rank c.rank).takeRows (numAt e 74 2) else ([], t.rank c.rank)
      let (cs, t) := restoreCmds d (i + 1) cs (t.setRank c.rank r)
      (cmdFrom e c core rows :: cs, t)
    else
      let (cs, t) := restoreCmds d i cs t
      ({ c with core := core } :: cs, t)

/-- The warps of an image, each in the next free slot of its core (R403). -/
def restoreWarps (free : Nat → Nat) (id : Nat) (p : LaunchPacket) (rs : List ImageRecord) (rows slots : Nat → List Nat) : List Agent :=
  (rs.filter fun r => r.kind == 1).map fun r =>
    let i := numAt r.data 12 2
    warpFrom free id r.rank ((slots r.rank).getD (i - r.rank * p.perRank) 0) (p.roles.getD i .gen) r.data (rows r.rank)

/-- Rebuilds a team on a cluster from the records of its image (R364); the arrivals that waited for it are made. -/
def State.rebuild (s : State) (g : Grid) (x : SavedTeam) (rs : List ImageRecord) (f : FrameSlot) (cluster rowBase : Nat) : State :=
  let p := g.pkt
  let cores := slotCores cluster f
  let rows (k : Nat) : List Nat := s.grantRows (cores.getD k 0) p.rows rowBase
  let slots (k : Nat) : List Nat := s.freeSlots (cores.getD k 0)
  let d := recordOf rs 5 0
  let warps := restoreWarps (fun k => Config.freeNat (s.fresh + k)) x.id p rs rows slots
  let handoff := handoffsFrom d rows
  let mapped (k : Nat) : List Nat :=
    ((warps.filter fun a => a.rank == k).flatMap fun a => List.map (fun (e : Nat × MapEntry) => e.2.row) a.vmap)
    ++ (List.filter (fun (h : Nat × Handoff) => h.2.rank == k) handoff).map fun h => h.2.row
  let ranks := cores.zipIdx.map fun (core, k) => rankFrom rs core k (rows k) (mapped k)
  let t : Team :=
    { Team.nobody with
      id := x.id, grid := g.id, index := x.index, frameSlot := x.frameSlot, ctx := x.ctx, depth := g.depth, ptr := g.ptr, pkt := p,
      cluster := cluster, ranks := ranks, tasks := tasksFrom d s.stamp, handoff := handoff, started := x.started, nextDrop := x.nextDrop }
  let t := restoreLandings d x.landings t
  let (cmds, t) := restoreCmds (recordOf rs 6 0) 0 x.cmds t
  let s := { s.addTeam t with
    stamp := s.stamp + 64, fresh := s.fresh + 65536, agents := s.agents ++ warps, cmds := s.cmds ++ cmds
    saved := s.saved.filter fun y => y.id != x.id
    fab := { s.fab with table := s.fab.table ++ x.entries } }.clearL1 cores
  let s := (s.freeSaveSlot x).regrant cluster
  x.held.foldl (fun s h => s.arrive { team := x.id, rank := h.rank, off := h.off } h.count h.bytes h.err) s

/-- The saved teams that one restore brings back: all those of the grid, as always for a cooperative one, or the one named (R41). -/
def State.restoreSet (s : State) (g : Grid) (x : SavedTeam) (whole : Bool) : List SavedTeam :=
  if whole then s.saved.filter fun y => y.grid == g.id else [x]

/-- The cluster of a team of a restore: at the same offset from the new origin, or the one chosen for it (R41). -/
def restoreCluster (g : Grid) (x y : SavedTeam) (cluster : Nat) : Nat :=
  let at_ (z : SavedTeam) : FrameSlot := g.pkt.slots.getD z.frameSlot { dx := 0, dy := 0, mask := 0 }
  if y.id = x.id then cluster else cluster + (12 * (at_ y).dy + (at_ y).dx) - (12 * (at_ x).dy + (at_ x).dx)

/-- A restore of a whole grid to an origin keeps its rectangle on the device. -/
def restoreInside (g : Grid) (x : SavedTeam) (cluster : Nat) : Bool :=
  let f := g.pkt.slots.getD x.frameSlot { dx := 0, dy := 0, mask := 0 }
  decide (f.dx ≤ cluster % 12) && decide (f.dy ≤ cluster / 12)
  && decide (cluster % 12 - f.dx + g.pkt.wm1 ≤ 11) && decide (cluster / 12 - f.dy + g.pkt.hm1 ≤ 7)

/-- The engines and the collective table have room for what the teams bring back. -/
def State.engineRoom (s : State) (g : Grid) (xs : List (SavedTeam × Nat)) : Bool :=
  let core (x : SavedTeam × Nat) (rank : Nat) : Nat :=
    (slotCores x.2 (g.pkt.slots.getD x.1.frameSlot { dx := 0, dy := 0, mask := 0 })).getD rank 0
  let back := xs.flatMap fun x => (copySlots x.1.cmds).map fun c => core x c.rank
  (back.all fun k => s.engineLoad k [.cpy, .hread] + (back.filter (· == k)).length ≤ 1024)
  && decide (s.fab.table.length + (xs.flatMap fun x => x.1.entries).length ≤ 256)

/-- A restore is suspended on a page of an image; the driver is told (R362). -/
def State.suspendRestore (s : State) (x : SavedTeam) (f : Fail) : State :=
  { s with saved := s.saved.map fun (y : SavedTeam) => if y.id = x.id then { y with told := some f.addr } else y }.tellSave x.ctx x.told f

/-- The first saved team of a restore whose image meets a page that fails: nothing of the restore happens before it is there (R41, R257). -/
def State.restoreStop (s : State) (xs : List SavedTeam) : Option (SavedTeam × Fail) :=
  xs.findSome? fun x => match s.readImage x with
    | .error f => some (x, f)
    | .ok _ => none

/-- Restores one saved team whose cores have room; a failed check refuses it. (DEDUCED, log 57) -/
def State.restoreOne (s : State) (g : Grid) (x : SavedTeam) (cluster rowBase : Nat) : State :=
  match s.readImage x with
  | .error f => s.suspendRestore x f
  | .ok (image, poisoned) =>
    if poisoned || !imageOk image x then (s.freeSaveSlot x).refuseRestore x
    else s.rebuild g x (imageRecords image) (g.pkt.slots.getD x.frameSlot { dx := 0, dy := 0, mask := 0 }) cluster rowBase

/-- TEAM_RESTORE (R41, R363 to R365): nothing happens where the cores have no room, or, in a restore of a whole grid, while a team of it is still
resident. (DEDUCED, log 58) -/
def execTeamRestore (id : Nat) (at_ : RestorePlace) (s : State) : Out :=
  match s.saved.find? fun x => x.id == id with
  | none => .next s
  | some x =>
    match s.getGrid x.grid with
    | none => .next s
    | some g =>
      let whole := g.pkt.coop || at_.whole
      let set := (s.restoreSet g x whole).map fun y => (y, restoreCluster g x y at_.cluster)
      let places := set.map fun y => (y.2, g.pkt.slots.getD y.1.frameSlot { dx := 0, dy := 0, mask := 0 })
      let apart := whole && ((s.allTeams.any fun t => t.grid == g.id) || !restoreInside g x at_.cluster)
      if apart || !s.roomAt g.pkt places || !s.engineRoom g set || set.any (fun y => s.imageFenced y.1) then .next s
      else
        match s.restoreStop (set.map (·.1)) with
        | some (y, f) => .next (s.suspendRestore y f)
        | none =>
          let f := g.pkt.slots.getD x.frameSlot { dx := 0, dy := 0, mask := 0 }
          let s := if whole then
              s.setGrid { g with ox := at_.cluster % 12 - f.dx, oy := at_.cluster / 12 - f.dy }
            else s
          .next (set.foldl (fun s y => s.restoreOne g y.1 y.2 at_.rowBase) s)

/-! ## FAULT_DELIVER (R352) -/

/-- FAULT_DELIVER (R352): a fault that waited is delivered once every lane-queue entry of an earlier region has taken effect. -/
def execFaultDeliver (id : AgentId) (s : State) : Out :=
  match s.focus id with
  | none => .next s
  | some s' =>
    match s'.ag.pend with
    | none => .next s
    | some p => if s'.ag.queue.any fun e => e.rid < p.rid then .next s else .next (s'.deliver p)

end Sys2Proof.Machine
end

