-- ==== Sys2Proof/Machine/Select.lean ====
section
/-! DEFINITION. The select engine: TOPK and its completion (R306 to R309). -/

namespace Sys2Proof.Machine

/-- A search as its descriptor gives it (R307). -/
structure Search where
  keys : Word
  out : Word
  rows : Nat
  cols : Nat
  k : Nat
  stride : Nat
  reserved : Bool
  deriving DecidableEq, Repr

/-- Reads a TOPK descriptor. -/
def Search.ofDesc (d : List Word) : Search :=
  let x := descNat d 1
  { keys := d.getD 0 0, out := d.getD 2 0, rows := bits x 12 0, cols := bits x 25 13, k := bits x 33 26, stride := bits x 63 48,
    reserved := bits x 47 34 != 0 }

/-- The counts lie in their ranges, and a row holds its columns. -/
def Search.legal (x : Search) : Bool :=
  !x.reserved && 1 ≤ x.rows && x.rows ≤ 4096 && 1 ≤ x.cols && x.cols ≤ 4096 && 1 ≤ x.k && x.cols ≤ x.stride

/-- Searched sets. -/
def Search.sets (x : Search) (col : Bool) : Nat := if col then x.cols else x.rows
/-- Candidates of a set. -/
def Search.count (x : Search) (col : Bool) : Nat := if col then x.rows else x.cols
/-- The extent of the keys. -/
def Search.keyBytes (x : Search) : Nat := 4 * ((x.rows - 1) * x.stride + x.cols)
/-- The extent of the output. -/
def Search.outBytes (x : Search) (col : Bool) : Nat := 2 * x.sets col * x.k

/-- TOPK (R306, R307). (DESIGN CHOICE, log 85) -/
def execTopk (e : EngOps) (kt : KeyType) (col bot : Bool) (s : State) : Out :=
  whenDrained s fun s =>
    if s.ag.role ≠ .gen then fault s 0x07 s.ag.spc
    else
      let d := s.ag.desc e.a 3
      let x := Search.ofDesc d
      if !x.legal then answer e.q false s
      else
        match firstFail [
            extentFail s.tm s.who [{ spaces := [1, 2], ptr := x.keys, size := x.keyBytes },
              { spaces := [1, 2], ptr := x.out, size := x.outBytes col }],
            alignFail [(x.keys, 4), (x.out, 2)], s.barFail e.b] with
        | some f => fault s f.code f.addr
        | none =>
          if 8 ≤ s.engineLoad s.who.core [.topk] then answer e.q false s
          else gangSync (e.acq && e.s == .gang) s fun s =>
            let cmd := s.newCmd .topk (.topk e kt col bot) e d
            let s := if e.acq then s.acquire s.who.core e.s else s
            answer e.q true (s.addCmd cmd)

/-- The rank of a key by value (R308): every NaN below the rest, -0 below +0. -/
def keyValue (kt : KeyType) (w : Nat) : Int :=
  match kt with
  | .s32 => toSigned 32 w
  | .u32 => w
  | .f32 =>
    let m : Nat := w % 2 ^ 31
    if 0x7F800000 < m then -(2 ^ 32) else if bit w 31 then -(m : Int) - 1 else (m : Int)

/-- Puts an index before the first that its key beats or equals: with indices taken from the highest down, lower ones rank first
(R308). -/
def insertKey (bot : Bool) (v : Int) (i : Nat) : List (Int × Nat) → List (Int × Nat)
  | [] => [(v, i)]
  | (w, j) :: r =>
    if (if bot then w < v else v < w) then (w, j) :: insertKey bot v i r else (v, i) :: (w, j) :: r

/-- The indices of keys, best first. -/
def rankKeys (bot : Bool) (ks : List Int) : List Nat := (ks.zipIdx.foldr (fun x r => insertKey bot x.1 x.2 r) []).map (·.2)

/-- The key word at a place of the key rows. -/
def State.keyWord (s : State) (w : Who) (x : Search) (k : Nat) : Nat := ofBytes (s.load w false (x.keys + BitVec.ofNat 64 (4 * k)) 4 0)

/-- The keys of a set; `early` holds those that have been read already (R227). -/
def State.setKeys (s : State) (w : Who) (x : Search) (kt : KeyType) (early : Sparse Nat) (col : Bool) (u : Nat) : List Int :=
  (List.range (x.count col)).map fun t =>
    let i := if col then t else u
    let j := if col then u else t
    keyValue kt (early.getD (i * x.stride + j) (s.keyWord w x (i * x.stride + j)))

/-- The `k` entries of a set (R309). -/
def State.setEntries (s : State) (w : Who) (x : Search) (kt : KeyType) (early : Sparse Nat) (col bot : Bool) (u : Nat) : List Nat :=
  let best := rankKeys bot (s.setKeys w x kt early col u)
  (List.range x.k).map fun t => best.getD t 0xFFFF

/-- The output meets a key; the gaps between the rows hold none. (DESIGN CHOICE, log 28) -/
def Search.overlaps (x : Search) (w : Who) (col : Bool) : Bool :=
  let (a, ar, ao) := placeOf w x.keys
  let (b, br, bo) := placeOf w x.out
  a == b && ar == br
  && (List.range x.rows).any fun i => ao + 4 * i * x.stride < bo + x.outBytes col && bo < ao + 4 * i * x.stride + 4 * x.cols

/-- A key of a TOPK is read before its completion; each key is read once (R227). (DESIGN CHOICE, log 95) -/
def State.readKey (s : State) (cmd k : Nat) : State :=
  match s.getCmd cmd with
  | none => s
  | some c =>
    if c.kind = .topk ∧ (c.keys.find? k).isNone then
      s.setCmd { c with keys := c.keys.insert k (s.keyWord (s.whoCmd c) (Search.ofDesc c.desc) k) }
    else s

/-- TOPK_COMPLETE (R309): the indices are written, free ones where the output meets the keys, and the command arrives. -/
def execTopkComplete (cmd : Nat) (s : State) : Out :=
  match s.getCmd cmd with
  | none => .next s
  | some c =>
    match c.instr with
    | .topk _ kt col bot =>
      let x := Search.ofDesc c.desc
      let w := s.whoCmd c
      let n := x.sets col * x.k
      let es :=
        if x.overlaps w col then (List.range n).map fun i => Config.freeNat (s.fresh + i) % 65536
        else (List.range (x.sets col)).flatMap (s.setEntries w x kt c.keys col bot)
      let s := s.store w x.out (es.flatMap (toBytes 2)) 0
      .next (({ s with fresh := s.fresh + n }.arriveCmd c 0 0).endCmd c)
    | _ => .next s

end Sys2Proof.Machine
end

