-- ==== Sys2Proof/Machine/Dispatch.lean ====
section
/-! DEFINITION. What each instruction and each event does: one arm for each constructor. -/

namespace Sys2Proof.Machine

/-- The meaning of an instruction or event. -/
def exec (i : Instr) (s : State) : Host.Outcome State Fault Refusal :=
  match i with
  | .sadd d a b => Sys2Proof.Machine.execSadd d a b s
  | .ssub d a b => Sys2Proof.Machine.execSsub d a b s
  | .smul d a b => Sys2Proof.Machine.execSmul d a b s
  | .smulh d a b => Sys2Proof.Machine.execSmulh d a b s
  | .smulhu d a b => Sys2Proof.Machine.execSmulhu d a b s
  | .sdiv d a b => Sys2Proof.Machine.execSdiv d a b s
  | .sdivu d a b => Sys2Proof.Machine.execSdivu d a b s
  | .srem d a b => Sys2Proof.Machine.execSrem d a b s
  | .sremu d a b => Sys2Proof.Machine.execSremu d a b s
  | .sand d a b => Sys2Proof.Machine.execSand d a b s
  | .sor d a b => Sys2Proof.Machine.execSor d a b s
  | .sxor d a b => Sys2Proof.Machine.execSxor d a b s
  | .sandn d a b => Sys2Proof.Machine.execSandn d a b s
  | .sshl d a b => Sys2Proof.Machine.execSshl d a b s
  | .sshr d a b => Sys2Proof.Machine.execSshr d a b s
  | .ssar d a b => Sys2Proof.Machine.execSsar d a b s
  | .smin d a b => Sys2Proof.Machine.execSmin d a b s
  | .smax d a b => Sys2Proof.Machine.execSmax d a b s
  | .sminu d a b => Sys2Proof.Machine.execSminu d a b s
  | .smaxu d a b => Sys2Proof.Machine.execSmaxu d a b s
  | .spopc d a => Sys2Proof.Machine.execSpopc d a s
  | .sclz d a => Sys2Proof.Machine.execSclz d a s
  | .sctz d a => Sys2Proof.Machine.execSctz d a s
  | .saddi d a imm => Sys2Proof.Machine.execSaddi d a imm s
  | .sandi d a imm => Sys2Proof.Machine.execSandi d a imm s
  | .sori d a imm => Sys2Proof.Machine.execSori d a imm s
  | .sxori d a imm => Sys2Proof.Machine.execSxori d a imm s
  | .sshli d a n => Sys2Proof.Machine.execSshli d a n s
  | .sshri d a n => Sys2Proof.Machine.execSshri d a n s
  | .ssari d a n => Sys2Proof.Machine.execSsari d a n s
  | .slui d imm => Sys2Proof.Machine.execSlui d imm s
  | .slpc d imm => Sys2Proof.Machine.execSlpc d imm s
  | .scmp q c a b => Sys2Proof.Machine.execScmp q c a b s
  | .scmpi q c a imm => Sys2Proof.Machine.execScmpi q c a imm s
  | .ssel d a b p => Sys2Proof.Machine.execSsel d a b p s
  | .qlog d a b f => Sys2Proof.Machine.execQlog d a b f s
  | .br q n o => Sys2Proof.Machine.execBr q n o s
  | .call o => Sys2Proof.Machine.execCall o s
  | .jr d a => Sys2Proof.Machine.execJr d a s
  | .lrun q n o => Sys2Proof.Machine.execLrun q n o s
  | .lsync => Sys2Proof.Machine.execLsync s
  | .sld64 d a imm => Sys2Proof.Machine.execSld64 d a imm s
  | .sld32 d a imm => Sys2Proof.Machine.execSld32 d a imm s
  | .sst64 d a imm => Sys2Proof.Machine.execSst64 d a imm s
  | .sst32 d a imm => Sys2Proof.Machine.execSst32 d a imm s
  | .satom d a b sc o f => Sys2Proof.Machine.execSatom d a b sc o f s
  | .scas d a b sc o => Sys2Proof.Machine.execScas d a b sc o s
  | .fence sc k => Sys2Proof.Machine.execFence sc k s
  | .mswap a b => Sys2Proof.Machine.execMswap a b s
  | .mrot a k => Sys2Proof.Machine.execMrot a k s
  | .mfree a k => Sys2Proof.Machine.execMfree a k s
  | .malias a b => Sys2Proof.Machine.execMalias a b s
  | .mmove a b => Sys2Proof.Machine.execMmove a b s
  | .mtag a t k => Sys2Proof.Machine.execMtag a t k s
  | .mgive a k => Sys2Proof.Machine.execMgive a k s
  | .mtake b k => Sys2Proof.Machine.execMtake b k s
  | .mplace a b k => Sys2Proof.Machine.execMplace a b k s
  | .mqry d n => Sys2Proof.Machine.execMqry d n s
  | .binit a b sc => Sys2Proof.Machine.execBinit a b sc s
  | .barr a b sc => Sys2Proof.Machine.execBarr a b sc s
  | .bexp a b sc => Sys2Proof.Machine.execBexp a b sc s
  | .bwait a b sc => Sys2Proof.Machine.execBwait a b sc s
  | .btest q a b sc => Sys2Proof.Machine.execBtest q a b sc s
  | .bclr a sc => Sys2Proof.Machine.execBclr a sc s
  | .bphase a b sc => Sys2Proof.Machine.execBphase a b sc s
  | .cpy e t n => Sys2Proof.Machine.execCpy e t n s
  | .hread e => Sys2Proof.Machine.execHread e s
  | .hland e => Sys2Proof.Machine.execHland e s
  | .hend => Sys2Proof.Machine.execHend s
  | .mmac e => Sys2Proof.Machine.execMmac e s
  | .azero e => Sys2Proof.Machine.execAzero e s
  | .ard e => Sys2Proof.Machine.execArd e s
  | .awr e => Sys2Proof.Machine.execAwr e s
  | .topk e k col bot => Sys2Proof.Machine.execTopk e k col bot s
  | .fput e => Sys2Proof.Machine.execFput e s
  | .fputh e => Sys2Proof.Machine.execFputh e s
  | .fcoll e => Sys2Proof.Machine.execFcoll e s
  | .fcont e => Sys2Proof.Machine.execFcont e s
  | .launch q a b => Sys2Proof.Machine.execLaunch q a b s
  | .tdef a b => Sys2Proof.Machine.execTdef a b s
  | .tsub b => Sys2Proof.Machine.execTsub b s
  | .tget q a => Sys2Proof.Machine.execTget q a s
  | .publ a => Sys2Proof.Machine.execPubl a s
  | .plvl d a => Sys2Proof.Machine.execPlvl d a s
  | .region => Sys2Proof.Machine.execRegion s
  | .phint a bitmap => Sys2Proof.Machine.execPhint a bitmap s
  | .srd d sc => Sys2Proof.Machine.execSrd d sc s
  | .swr d sc => Sys2Proof.Machine.execSwr d sc s
  | .nop => Sys2Proof.Machine.execNop s
  | .trap b => Sys2Proof.Machine.execTrap b s
  | .halt => Sys2Proof.Machine.execHalt s
  | .eret => Sys2Proof.Machine.execEret s
  | .brk => Sys2Proof.Machine.execBrk s
  | .iadd w => Sys2Proof.Machine.execIadd w s
  | .isub w => Sys2Proof.Machine.execIsub w s
  | .imul w => Sys2Proof.Machine.execImul w s
  | .imulh w => Sys2Proof.Machine.execImulh w s
  | .imad w => Sys2Proof.Machine.execImad w s
  | .imadw w => Sys2Proof.Machine.execImadw w s
  | .idp4 w => Sys2Proof.Machine.execIdp4 w s
  | .iabs w => Sys2Proof.Machine.execIabs w s
  | .iand w => Sys2Proof.Machine.execIand w s
  | .ior w => Sys2Proof.Machine.execIor w s
  | .ixor w => Sys2Proof.Machine.execIxor w s
  | .iandn w => Sys2Proof.Machine.execIandn w s
  | .ishl w => Sys2Proof.Machine.execIshl w s
  | .ishr w => Sys2Proof.Machine.execIshr w s
  | .isar w => Sys2Proof.Machine.execIsar w s
  | .ilop3 w => Sys2Proof.Machine.execIlop3 w s
  | .imin w => Sys2Proof.Machine.execImin w s
  | .imax w => Sys2Proof.Machine.execImax w s
  | .popc w => Sys2Proof.Machine.execPopc w s
  | .clz w => Sys2Proof.Machine.execClz w s
  | .brev w => Sys2Proof.Machine.execBrev w s
  | .bfe w => Sys2Proof.Machine.execBfe w s
  | .bfi w => Sys2Proof.Machine.execBfi w s
  | .isetp w => Sys2Proof.Machine.execIsetp w s
  | .sel w => Sys2Proof.Machine.execSel w s
  | .mov w => Sys2Proof.Machine.execMov w s
  | .plane w => Sys2Proof.Machine.execPlane w s
  | .fadd w => Sys2Proof.Machine.execFadd w s
  | .fsub w => Sys2Proof.Machine.execFsub w s
  | .fmul w => Sys2Proof.Machine.execFmul w s
  | .ffma w => Sys2Proof.Machine.execFfma w s
  | .fmin w => Sys2Proof.Machine.execFmin w s
  | .fmax w => Sys2Proof.Machine.execFmax w s
  | .fsetp w => Sys2Proof.Machine.execFsetp w s
  | .fclass w => Sys2Proof.Machine.execFclass w s
  | .fdiv w => Sys2Proof.Machine.execFdiv w s
  | .fsqrt w => Sys2Proof.Machine.execFsqrt w s
  | .frcp w => Sys2Proof.Machine.execFrcp w s
  | .frsq w => Sys2Proof.Machine.execFrsq w s
  | .fexp2 w => Sys2Proof.Machine.execFexp2 w s
  | .flog2 w => Sys2Proof.Machine.execFlog2 w s
  | .fsin w => Sys2Proof.Machine.execFsin w s
  | .fcos w => Sys2Proof.Machine.execFcos w s
  | .ftanh w => Sys2Proof.Machine.execFtanh w s
  | .fscale w => Sys2Proof.Machine.execFscale w s
  | .cvt w => Sys2Proof.Machine.execCvt w s
  | .qnt w => Sys2Proof.Machine.execQnt w s
  | .dqnt w => Sys2Proof.Machine.execDqnt w s
  | .cvtq w => Sys2Proof.Machine.execCvtq w s
  | .cvtf w => Sys2Proof.Machine.execCvtf w s
  | .pack w => Sys2Proof.Machine.execPack w s
  | .unpk w => Sys2Proof.Machine.execUnpk w s
  | .shfl w => Sys2Proof.Machine.execShfl w s
  | .ballot w => Sys2Proof.Machine.execBallot w s
  | .vote w => Sys2Proof.Machine.execVote w s
  | .lred w => Sys2Proof.Machine.execLred w s
  | .lscan w => Sys2Proof.Machine.execLscan w s
  | .vld w => Sys2Proof.Machine.execVld w s
  | .vst w => Sys2Proof.Machine.execVst w s
  | .vldn w => Sys2Proof.Machine.execVldn w s
  | .vstn w => Sys2Proof.Machine.execVstn w s
  | .atom w => Sys2Proof.Machine.execAtom w s
  | .acas w => Sys2Proof.Machine.execAcas w s
  | .red w => Sys2Proof.Machine.execRed w s
  | .vpref w => Sys2Proof.Machine.execVpref w s
  | .brd w => Sys2Proof.Machine.execBrd w s
  | .jmark w => Sys2Proof.Machine.execJmark w s
  | .join w => Sys2Proof.Machine.execJoin w s
  | .lend w => Sys2Proof.Machine.execLend w s
  | .ljmp w => Sys2Proof.Machine.execLjmp w s
  | .lnop w => Sys2Proof.Machine.execLnop w s
  | .ltrap w => Sys2Proof.Machine.execLtrap w s
  | .qtailWrite p q v => Sys2Proof.Machine.execQtailWrite p q v s
  | .qbaseWrite p q v => Sys2Proof.Machine.execQbaseWrite p q v s
  | .porterrWrite p v => Sys2Proof.Machine.execPorterrWrite p v s
  | .semtake n by_ => Sys2Proof.Machine.execSemtake n by_ s
  | .semrel n p => Sys2Proof.Machine.execSemrel n p s
  | .hostRegWrite p off v => Sys2Proof.Machine.execHostRegWrite p off v s
  | .ctxcreate p => Sys2Proof.Machine.execCtxcreate p s
  | .ctxdestroy p => Sys2Proof.Machine.execCtxdestroy p s
  | .ctxdestroyComplete p => Sys2Proof.Machine.execCtxdestroyComplete p s
  | .inval p => Sys2Proof.Machine.execInval p s
  | .invalComplete p => Sys2Proof.Machine.execInvalComplete p s
  | .faultreply p => Sys2Proof.Machine.execFaultreply p s
  | .domreset p => Sys2Proof.Machine.execDomreset p s
  | .lcchange p => Sys2Proof.Machine.execLcchange p s
  | .fwupdate p => Sys2Proof.Machine.execFwupdate p s
  | .attest p => Sys2Proof.Machine.execAttest p s
  | .hostCmdUnknown p code => Sys2Proof.Machine.execHostCmdUnknown p code s
  | .portLinkDown p => Sys2Proof.Machine.execPortLinkDown p s
  | .smbusPowerLimit v => Sys2Proof.Machine.execSmbusPowerLimit v s
  | .moduleReset => Sys2Proof.Machine.execModuleReset s
  | .wipeDone => Sys2Proof.Machine.execWipeDone s
  | .launchEntryTake q => Sys2Proof.Machine.execLaunchEntryTake q s
  | .launchHeadAge q => Sys2Proof.Machine.execLaunchHeadAge q s
  | .gridPlace rowBase => Sys2Proof.Machine.execGridPlace rowBase s
  | .frameTeamStart grid slot rowBase => Sys2Proof.Machine.execFrameTeamStart grid slot rowBase s
  | .rowZeroed team rank row => Sys2Proof.Machine.execRowZeroed team rank row s
  | .preemptRequest q => Sys2Proof.Machine.execPreemptRequest q s
  | .preemptForce team => Sys2Proof.Machine.execPreemptForce team s
  | .teamSave team => Sys2Proof.Machine.execTeamSave team s
  | .teamRestore saved at_ => Sys2Proof.Machine.execTeamRestore saved at_ s
  | .faultDeliver ag => Sys2Proof.Machine.execFaultDeliver ag s
  | .matrixComplete core => Sys2Proof.Machine.execMatrixComplete core s
  | .cpyBurst cmd n => Sys2Proof.Machine.execCpyBurst cmd n s
  | .cpyComplete cmd => Sys2Proof.Machine.execCpyComplete cmd s
  | .hreadBurstLand cmd n => Sys2Proof.Machine.execHreadBurstLand cmd n s
  | .dropStart src => Sys2Proof.Machine.execDropStart src s
  | .lastBurst cmd => Sys2Proof.Machine.execLastBurst cmd s
  | .finalDropStart cmd => Sys2Proof.Machine.execFinalDropStart cmd s
  | .topkComplete cmd => Sys2Proof.Machine.execTopkComplete cmd s
  | .fabricPacketArrive pk link => Sys2Proof.Machine.execFabricPacketArrive pk link s
  | .fabricComplete cmd ans => Sys2Proof.Machine.execFabricComplete cmd ans s
  | .landing team slot => Sys2Proof.Machine.execLanding team slot s
  | .flitRetry link => Sys2Proof.Machine.execFlitRetry link s
  | .gangRegister gang rank => Sys2Proof.Machine.execGangRegister gang rank s
  | .gangWatchdog gang => Sys2Proof.Machine.execGangWatchdog gang s
  | .ueConsumed at_ => Sys2Proof.Machine.execUeConsumed at_ s
  | .domainReadmit domain => Sys2Proof.Machine.execDomainReadmit domain s
  | .patrolScrub at_ domain => Sys2Proof.Machine.execPatrolScrub at_ domain s
  | .correctableThreshold domain => Sys2Proof.Machine.execCorrectableThreshold domain s
  | .timingRepeat cluster => Sys2Proof.Machine.execTimingRepeat cluster s
  | .replayThreshold cluster => Sys2Proof.Machine.execReplayThreshold cluster s
  | .predictorDecay => Sys2Proof.Machine.execPredictorDecay s
  | .governorStep g => Sys2Proof.Machine.execGovernorStep g s
  | .capLower cluster => Sys2Proof.Machine.execCapLower cluster s
  | .capRaise cluster => Sys2Proof.Machine.execCapRaise cluster s
  | .passHoldExpire cluster => Sys2Proof.Machine.execPassHoldExpire cluster s
  | .passDouble cluster => Sys2Proof.Machine.execPassDouble cluster s
  | .passHalve cluster => Sys2Proof.Machine.execPassHalve cluster s
  | .levelChangeDone cluster => Sys2Proof.Machine.execLevelChangeDone cluster s
  | .sensorSample raw => Sys2Proof.Machine.execSensorSample raw s
  | .damageUpdate => Sys2Proof.Machine.execDamageUpdate s
  | .thermalCapLift region => Sys2Proof.Machine.execThermalCapLift region s
  | .tripRelease => Sys2Proof.Machine.execTripRelease s
  | .linkRetrainDone link => Sys2Proof.Machine.execLinkRetrainDone link s
  | .portLinkUp p lanes rate atomicOp => Sys2Proof.Machine.execPortLinkUp p lanes rate atomicOp s

end Sys2Proof.Machine
end

