-- ==== Sys2Proof/Machine/Auto.lean ====
section
/-! DEFINITION. Which event of the machine comes about by itself when no input says what acts next: one schedule among those that the spec
allows. -/

namespace Sys2Proof.Machine

/-- The events of agents and rows. -/
def State.innerEvents (s : State) : List Instr :=
  ((s.allAgents.filter fun a => a.pend.isSome).map fun a => .faultDeliver a.id)
  ++ s.allTeams.flatMap fun t => t.ranks.zipIdx.flatMap fun (r, k) => r.zeroing.map fun n => .rowZeroed t.id k n

/-- The events of a command. -/
def Cmd.events (c : Cmd) : List Instr :=
  let next := c.pending.headD c.cursor
  match c.kind with
  | .mmac | .azero | .ard | .awr => [.matrixComplete c.core]
  | .topk => [.topkComplete c.id]
  | .cpy => [.cpyBurst c.id next, .cpyComplete c.id]
  | .hread =>
    [.hreadBurstLand c.id next] ++ c.landed.map (fun x => .dropStart (.burst c.id x.burst)) ++ [.finalDropStart c.id, .lastBurst c.id]
  | .fput | .fputh | .fcoll | .fcont => []

/-- The events of landings and of packets that this module sent to itself. -/
def State.fabricEvents (s : State) : List Instr :=
  (s.allTeams.flatMap fun t => List.flatMap (fun x => [.landing t.id (Fin.ofNat 8 x.1), .dropStart (.landing t.id (Fin.ofNat 8 x.1))]) t.landings)
  ++ (s.fab.out.filter fun x => x.2.isNone).map fun x => .fabricPacketArrive x.1 none

/-- The host queues that are not empty. -/
def State.hostQueues (s : State) : List QueueId :=
  [Port.a, Port.b].flatMap fun p =>
    let r := s.port p
    ((List.range 64).filter fun n => r.qhead.getD n 0 != r.qtail.getD n 0).map fun n => .host p (Fin.ofNat 64 n)

/-- The events of the work distributor. -/
def State.distributorEvents (s : State) : List Instr :=
  (List.map (fun q => .launchEntryTake (.dev (Fin.ofNat 4 (q.1 / 4)) (Fin.ofNat 4 q.1))) s.devq)
  ++ s.hostQueues.map .launchEntryTake
  ++ s.heads.map (fun h => .launchHeadAge h.queue)
  ++ (if s.heads.isEmpty then [] else [.gridPlace 0])
  ++ (s.grids.flatMap fun g => ((List.range g.pkt.frame).filter (s.slotDue g)).map fun j => .frameTeamStart g.id j 0)
  ++ s.heads.map (fun h => .preemptRequest h.queue)
  ++ ((s.allTeams.filter fun t => t.saveReq.isSome).map fun t => .teamSave t.id)
  ++ s.saved.flatMap fun x => (List.range 96).map fun c => .teamRestore x.id { cluster := c, rowBase := 0 }

/-- Level changes under way. -/
def State.levelEvents (s : State) : List Instr :=
  (List.filter (fun (x : Nat × Cluster) => x.2.target.isSome) s.pow.clusters).map fun x => .levelChangeDone (Fin.ofNat 96 x.1)

/-- The end of a wipe (R338). -/
def State.wipeEvents (s : State) : List Instr := if s.host.wiping then [.wipeDone] else []

/-- A command of a host port whose turn has come (R340): the one that has waited longer first. -/
def State.goEvents (s : State) : List Port :=
  (if s.host.portB.reached < s.host.portA.reached then [Port.b, Port.a] else [Port.a, Port.b]).filter fun p =>
    (s.port p).waits.isSome && !((s.port (otherPort p)).busy && (s.port (otherPort p)).waits.isNone)

/-- An event that would change the state. -/
def State.due (s : State) (e : Instr) : Bool :=
  match exec e s with
  | .next t => t != s
  | .fault _ | .refused _ => false

/-- The first event that is due, if any. (DESIGN CHOICE, log 2) -/
def State.autoEvent (s : State) : Option Instr :=
  (s.innerEvents ++ s.cmds.flatMap Cmd.events ++ s.fabricEvents ++ s.distributorEvents ++ s.levelEvents ++ s.wipeEvents).find? s.due

end Sys2Proof.Machine
end

