-- ==== Sys2Proof/Machine/Entries.lean ====
section
/-! DEFINITION. What an instruction and an event of an engine read and write: names, registers and bytes; and the entries with an uncorrectable
error among them, which are consumed or overwritten (R209, R229, R367, R368). -/

namespace Sys2Proof.Machine

/-! ## What an instruction is to the order of its agent's accesses (R209) -/

/-- What an instruction is to R209. -/
inductive AccClass where
  /-- it makes no access of memory -/
  | plain
  | load
  | store
  /-- an atomic, or an operation on a barrier object (R191) -/
  | atomic
  /-- it comes after all that its agent has done: a command, a launch or a publication, and what leaves or enters trap mode -/
  | own
  deriving DecidableEq, Repr

/-- The class of an instruction. An operation on a map, a task, a block, a fragment, a register or the lanes makes no access. -/
def accClass : Instr → AccClass
  | .sld64 .. | .sld32 .. | .vld _ | .vldn _ => .load
  | .sst64 .. | .sst32 .. | .vst _ | .vstn _ => .store
  | .satom .. | .scas .. | .atom _ | .acas _ | .red _ | .binit .. | .barr .. | .bexp .. | .bwait .. | .btest .. | .bclr .. | .bphase .. =>
    .atomic
  | .cpy .. | .hread _ | .hland _ | .mmac _ | .azero _ | .ard _ | .awr _ | .topk .. | .fput _ | .fputh _ | .fcoll _ | .fcont _ | .launch ..
  | .publ _ | .phint .. | .trap _ | .eret | .brk => .own
  | .sadd .. | .ssub .. | .smul .. | .smulh .. | .smulhu .. | .sdiv .. | .sdivu .. | .srem .. | .sremu .. | .sand .. | .sor ..
  | .sxor .. | .sandn .. | .sshl .. | .sshr .. | .ssar .. | .smin .. | .smax .. | .sminu .. | .smaxu .. | .spopc .. | .sclz ..
  | .sctz .. | .saddi .. | .sandi .. | .sori .. | .sxori .. | .sshli .. | .sshri .. | .ssari .. | .slui .. | .slpc .. | .scmp ..
  | .scmpi .. | .ssel .. | .qlog .. | .br .. | .call .. | .jr .. | .lrun .. | .lsync | .fence .. | .mswap .. | .mrot .. | .mfree ..
  | .malias .. | .mmove .. | .mtag .. | .mgive .. | .mtake .. | .mplace .. | .mqry .. | .hend | .tdef .. | .tsub _ | .tget .. | .plvl ..
  | .region | .srd .. | .swr .. | .nop | .halt | .vpref _ | .brd _ | .jmark _ | .join _ | .lend _ | .ljmp _ | .lnop _ | .ltrap _
  | .iadd _ | .isub _ | .imul _ | .imulh _ | .imad _ | .imadw _ | .idp4 _ | .iabs _ | .iand _ | .ior _ | .ixor _ | .iandn _
  | .ishl _ | .ishr _ | .isar _ | .ilop3 _ | .imin _ | .imax _ | .popc _ | .clz _ | .brev _ | .bfe _ | .bfi _ | .isetp _ | .sel _
  | .mov _ | .plane _ | .fadd _ | .fsub _ | .fmul _ | .ffma _ | .fmin _ | .fmax _ | .fsetp _ | .fclass _ | .fdiv _ | .fsqrt _
  | .frcp _ | .frsq _ | .fexp2 _ | .flog2 _ | .fsin _ | .fcos _ | .ftanh _ | .fscale _ | .cvt _ | .qnt _ | .dqnt _ | .cvtq _
  | .cvtf _ | .pack _ | .unpk _ | .shfl _ | .ballot _ | .vote _ | .lred _ | .lscan _
  | .qtailWrite .. | .qbaseWrite .. | .porterrWrite .. | .semtake .. | .semrel .. | .hostRegWrite .. | .ctxcreate ..
  | .ctxdestroy .. | .ctxdestroyComplete .. | .inval .. | .invalComplete .. | .faultreply .. | .domreset ..
  | .lcchange .. | .fwupdate .. | .attest .. | .hostCmdUnknown .. | .portLinkDown .. | .smbusPowerLimit ..
  | .moduleReset | .wipeDone | .launchEntryTake .. | .launchHeadAge .. | .gridPlace .. | .frameTeamStart ..
  | .rowZeroed .. | .preemptRequest .. | .preemptForce .. | .teamSave .. | .teamRestore .. | .faultDeliver ..
  | .matrixComplete .. | .cpyBurst .. | .cpyComplete .. | .hreadBurstLand .. | .dropStart .. | .lastBurst ..
  | .finalDropStart .. | .topkComplete .. | .fabricPacketArrive .. | .fabricComplete .. | .landing .. | .flitRetry ..
  | .gangRegister .. | .gangWatchdog .. | .ueConsumed .. | .domainReadmit .. | .patrolScrub ..
  | .correctableThreshold .. | .timingRepeat .. | .replayThreshold .. | .predictorDecay | .governorStep ..
  | .capLower .. | .capRaise .. | .passHoldExpire .. | .passDouble .. | .passHalve .. | .levelChangeDone ..
  | .sensorSample .. | .damageUpdate | .thermalCapLift .. | .tripRelease | .linkRetrainDone .. | .portLinkUp .. => .plain

/-- The head of a lane word, none for any other instruction. -/
def laneHead : Instr → Option LaneHead
  | .iadd w | .isub w | .imul w | .imulh w | .imad w | .imadw w | .idp4 w | .iabs w | .iand w | .ior w | .ixor w | .iandn w
  | .ishl w | .ishr w | .isar w | .ilop3 w | .imin w | .imax w | .popc w | .clz w | .brev w | .bfe w | .bfi w | .isetp w | .sel w
  | .mov w | .plane w | .fadd w | .fsub w | .fmul w | .ffma w | .fmin w | .fmax w | .fsetp w | .fclass w | .fdiv w | .fsqrt w
  | .frcp w | .frsq w | .fexp2 w | .flog2 w | .fsin w | .fcos w | .ftanh w | .fscale w | .cvt w | .qnt w | .dqnt w | .cvtq w
  | .cvtf w | .pack w | .unpk w | .shfl w | .ballot w | .vote w | .lred w | .lscan w => some w.h
  | .vld w | .vst w | .vldn w | .vstn w | .atom w | .acas w | .red w | .vpref w => some w.h
  | .brd w | .jmark w | .join w | .lend w | .ljmp w | .lnop w | .ltrap w => some w.h
  | _ => none

/-- The lanes in which an instruction of the focused agent acts: the active lanes of a lane word, and all for the scalar stream (R59, R110). -/
def State.workLanes (s : State) (i : Instr) : Mask :=
  match laneHead i with
  | some h => s.active h
  | none => allLanes

/-- The lanes of the fragment for which an instruction acts: those of the running one, or all of them in the scalar stream (R218). -/
def State.actingLanes (s : State) (i : Instr) : Mask := if (laneHead i).isSome then s.ag.cur.mask else allLanes

/-! ## What an instruction names -/

/-- The g registers that an instruction of the scalar stream reads or writes; none where nothing bounds them here. -/
def scalarNames : Instr → Option (List (Fin 64))
  | .sadd d a b | .ssub d a b | .smul d a b | .smulh d a b | .smulhu d a b | .sdiv d a b | .sdivu d a b | .srem d a b
  | .sremu d a b | .sand d a b | .sor d a b | .sxor d a b | .sandn d a b | .sshl d a b | .sshr d a b | .ssar d a b
  | .smin d a b | .smax d a b | .sminu d a b | .smaxu d a b | .ssel d a b _ | .satom d a b .. | .scas d a b .. => some [d, a, b]
  | .spopc d a | .sclz d a | .sctz d a | .saddi d a _ | .sandi d a _ | .sori d a _ | .sxori d a _ | .sshli d a _ | .sshri d a _
  | .ssari d a _ | .sld64 d a _ | .sld32 d a _ | .sst64 d a _ | .sst32 d a _ | .jr d a | .plvl d a => some [d, a]
  | .scmp _ _ a b | .binit a b _ | .barr a b _ | .bexp a b _ | .bwait a b _ | .btest _ a b _ | .bphase a b _ => some [a, b]
  | .scmpi _ _ a _ | .bclr a _ | .tsub a => some [a]
  | .slui d _ | .slpc d _ | .srd d _ | .swr d _ | .mqry d _ => some [d]
  | .tget _ a => some [a, Fin.ofNat 64 (a.val + 1)]
  | .tdef a b => some [a, Fin.ofNat 64 (a.val + 1), b]
  | .call _ => some [62]
  | .mplace _ _ k => some [Fin.ofNat 64 k.val]
  | .nop | .qlog .. | .br .. | .lrun .. | .lsync | .fence .. | .mswap .. | .mrot .. | .mfree .. | .malias .. | .mmove .. | .mtag .. | .mgive ..
  | .mtake .. | .region | .hend | .halt => some []
  | _ => none

/-- An instruction reads or writes a g register, as far as is known. -/
def touchesG (i : Instr) (d : Fin 64) : Bool :=
  match scalarNames i with
  | some rs => rs.contains d
  | none => if (laneHead i).isSome then (laneRegs i).1.getLsbD d.val || (laneRegs i).2.1.getLsbD d.val else true

/-- A lane word reads or binds a latch. -/
def touchesLatch (i : Instr) : Bool :=
  let isLatch (x : Src) : Bool := match x with
    | .latch _ => true
    | _ => false
  (match laneHead i with
    | some h => h.chain
    | none => false)
  || (match i with
      | .iadd w | .isub w | .imul w | .imulh w | .imad w | .imadw w | .idp4 w | .iabs w | .iand w | .ior w | .ixor w | .iandn w
      | .ishl w | .ishr w | .isar w | .ilop3 w | .imin w | .imax w | .popc w | .clz w | .brev w | .bfe w | .bfi w | .isetp w | .sel w
      | .mov w | .plane w | .fadd w | .fsub w | .fmul w | .ffma w | .fmin w | .fmax w | .fsetp w | .fclass w | .fdiv w | .fsqrt w
      | .frcp w | .frsq w | .fexp2 w | .flog2 w | .fsin w | .fcos w | .ftanh w | .fscale w | .cvt w | .qnt w | .dqnt w | .cvtq w
      | .cvtf w | .pack w | .unpk w | .shfl w | .ballot w | .vote w | .lred w | .lscan w => isLatch w.a || isLatch w.b || isLatch w.c
      | .vld w | .vst w | .vldn w | .vstn w | .atom w | .acas w | .red w | .vpref w => isLatch w.a || isLatch w.b || isLatch w.c
      | _ => false)

/-- The sources of a lane word that it uses, each with the names that it spans (R109). -/
def laneUses : Instr → List SrcUse
  | .iadd w | .isub w | .imul w | .imulh w | .iand w | .ior w | .ixor w | .iandn w | .ishl w | .ishr w | .isar w | .imin w | .imax w
  | .bfi w | .isetp w | .sel w | .fadd w | .fsub w | .fmul w | .fmin w | .fmax w | .fsetp w | .fdiv w | .pack w | .unpk w | .shfl w =>
    arithUses w (some w.ty) (some w.ty) none
  | .imad w | .ilop3 w | .ffma w => arithUses w (some w.ty) (some w.ty) (some w.ty)
  | .imadw w => arithUses w (some w.ty) (some w.ty) (some .s64)
  | .idp4 w => arithUses w (some w.ty) (some w.ty) (some .s32)
  | .iabs w | .popc w | .clz w | .brev w | .bfe w | .mov w | .fclass w | .fsqrt w | .frcp w | .frsq w | .fexp2 w | .flog2 w | .fsin w
  | .fcos w | .ftanh w | .cvtq w | .lred w | .lscan w => arithUses w (some w.ty) none none
  | .fscale w => arithUses w (some w.ty) (some (scaleTy w.ty)) none
  | .cvt w => arithUses w (some (cvtSrc w)) none none
  | .qnt w => arithUses w (some .f32) none none
  | .dqnt w => arithUses w (some w.ty) (some .u32) none
  | .cvtf w => arithUses w (some .s64) none none
  | .vld w | .vpref w => addrUses w
  | .vst w => addrUses w ++ [(w.c, storeNames w)]
  | .vldn w => [(w.a, 1)]
  | .vstn w => [(w.a, 1), (w.c, rowCount w)]
  | .atom w | .red w => atomUses w
  | .acas w => acasUses w
  | _ => []

/-- The names that a lane word writes (R109). -/
def laneDests : Instr → List Nat
  | .iadd w | .isub w | .imul w | .imulh w | .imad w | .iabs w | .iand w | .ior w | .ixor w | .iandn w | .ishl w | .ishr w | .isar w
  | .ilop3 w | .imin w | .imax w | .popc w | .clz w | .brev w | .bfe w | .bfi w | .sel w | .mov w | .plane w | .fadd w | .fsub w
  | .fmul w | .ffma w | .fmin w | .fmax w | .fclass w | .fdiv w | .fsqrt w | .frcp w | .frsq w | .fexp2 w | .flog2 w | .fsin w
  | .fcos w | .ftanh w | .fscale w | .cvt w | .cvtf w | .pack w | .unpk w | .shfl w | .lscan w => destNames w.h w.ty
  | .imadw w | .cvtq w => destNames w.h .s64
  | .idp4 w => destNames w.h .s32
  | .dqnt w => destNames w.h .f32
  | .qnt w => destNames w.h w.ty ++ [bits w.imm.toNat 8 0]
  | .vld w => loadNames w
  | .vldn w => upTo w.h.name.val (w.h.name.val + rowCount w)
  | .atom w | .acas w => destNames w.h w.ty
  | _ => []

/-- The names that a lane word reads. -/
def sourceNames (i : Instr) : List Nat := srcNames (laneUses i)

/-- The names that a map edit or query names. -/
def mapNames : Instr → List Nat
  | .mswap a b | .malias a b | .mmove a b => [a.val, b.val]
  | .mrot a k | .mfree a k | .mtag a _ k => namesFrom a k.val
  | .mgive a _ | .mplace a _ _ => [a.val]
  | .mtake b _ => [b.val]
  | .mqry _ n => [n.val]
  | _ => []

/-- The names that an instruction reads, writes, edits or queries; none where nothing bounds them. (DEDUCED, log 89) -/
def touchedNames (i : Instr) : Option (List Nat) :=
  match i with
  | .mmac _ | .ard _ | .awr _ => none
  | _ => some (sourceNames i ++ laneDests i ++ mapNames i)

/-! ## The bytes that an instruction reads and writes -/

/-- The pieces that an access of the focused agent touches: of a load, a store, an atomic or a barrier object. -/
def State.accessed (s : State) : Instr → List Piece
  | .sld64 _ a i => s.accPieces .load 8 [scalarAcc (s.ag.getG a) (sext14 i)]
  | .sld32 _ a i => s.accPieces .load 4 [scalarAcc (s.ag.getG a) (sext14 i)]
  | .sst64 _ a i => s.accPieces .store 8 [scalarAcc (s.ag.getG a) (sext14 i)]
  | .sst32 _ a i => s.accPieces .store 4 [scalarAcc (s.ag.getG a) (sext14 i)]
  | .satom _ a _ _ _ _ | .scas _ a _ _ _ => s.accPieces .atomic 8 [{ lane := 0, ptr := s.ag.getG a, ok := true }]
  | .binit a _ _ | .barr a _ _ | .bexp a _ _ | .bwait a _ _ | .btest _ a _ _ | .bclr a _ | .bphase a _ _ =>
    s.accPieces .atomic 16 [{ lane := 0, ptr := s.ag.getG a, ok := true }]
  | .vld w => (s.lanePlan .load (Width.bytes w.width) (s.laneAccs w (s.active w.h))).flatMap (·.2)
  | .vst w => s.accPieces .store (Width.bytes w.width) (s.laneAccs w (s.active w.h))
  | .atom w | .acas w | .red w => (s.lanePlan .atomic (Width.bytes w.width) (s.laneAccs w (s.active w.h))).flatMap (·.2)
  | .vldn w => (s.rowsPlan w (s.active w.h) (s.rowsPtr w)).flatMap (·.2)
  | .vstn w => rowWords (s.accPieces .store (256 * rowCount w) [s.rowsPtr w]) (s.active w.h) (rowCount w)
  | _ => []

/-- What R187 asks of the access that an instruction makes, and its addresses; none of one that makes none. -/
def State.accSpec (s : State) : Instr → Option (AccSpec × List LaneAcc)
  | .sld64 _ a i => some ({ spaces := openScalar, size := 8, align := 1, acc := .load }, [scalarAcc (s.ag.getG a) (sext14 i)])
  | .sld32 _ a i => some ({ spaces := openScalar, size := 4, align := 1, acc := .load }, [scalarAcc (s.ag.getG a) (sext14 i)])
  | .sst64 _ a i => some ({ spaces := openScalar, size := 8, align := 1, acc := .store }, [scalarAcc (s.ag.getG a) (sext14 i)])
  | .sst32 _ a i => some ({ spaces := openScalar, size := 4, align := 1, acc := .store }, [scalarAcc (s.ag.getG a) (sext14 i)])
  | .satom _ a .. | .scas _ a .. =>
    some ({ spaces := openAtomic, size := 8, align := 8, acc := .atomic }, [{ lane := 0, ptr := s.ag.getG a, ok := true }])
  | .vld w => some ({ spaces := openScalar, size := Width.bytes w.width, align := 1, acc := .load }, s.laneAccs w (s.active w.h))
  | .vst w => some ({ spaces := openScalar, size := Width.bytes w.width, align := 1, acc := .store }, s.laneAccs w (s.active w.h))
  | .atom w | .acas w | .red w => some (atomSpec w, s.laneAccs w (s.active w.h))
  | .vldn w => some (rowsSpec w .load, [s.rowsPtr w])
  | .vstn w => some (rowsSpec w .store, [s.rowsPtr w])
  | _ => none

/-- The access of an instruction passes its checks, or it makes none (R187). -/
def State.accPasses (s : State) (i : Instr) : Bool :=
  match s.accSpec i with
  | some (sp, as) => s.ag.cur.early.isSome || s.judge s.tm s.who sp as == .go
  | none => true

/-- A lane word that faults on its names or waits for their rows, and an instruction of the scalar stream that waits for the lane queue: it reads
nothing yet (R111, R112). -/
def State.readsNothing (s : State) (i : Instr) : Bool :=
  if (laneHead i).isSome then
    s.staleLatch (laneUses i) || (s.checkNames (laneUses i) (laneDests i)).isSome || s.laneWaits (laneUses i) (laneDests i)
  else accClass i != .plain && !s.drained

/-- The bytes of memory that an instruction reads beside those of its accesses: a route record (R236), the first bytes of a launch packet
(R258), a published counter (R195). -/
def State.readsToo (s : State) (i : Instr) : List Piece :=
  let record (e : EngOps) (n : Nat) : List Piece :=
    match (fabricForm i (s.ag.desc e.a n)).recordPtr (s.ag.desc e.a n) with
    | some p => goodPieces (s.pieces s.who .load p 40 0)
    | none => []
  match i with
  | .fput e | .fputh e | .fcoll e => record e 4
  | .launch _ a _ => goodPieces (s.pieces s.who .load (s.ag.getG a) 8 0)
  | .publ a => goodPieces (s.pieces s.who .publish (s.ag.getG a) 8 0)
  | _ => []

/-! ## What an event of an engine writes (R229, R230) -/

/-- Bytes of an accumulator. -/
def accPiece (rank a n : Nat) : Piece := { place := .accum rank, addr := a, len := n, ptr := 0, shr := false }

/-- The words of a window of an accumulator (R153). -/
def accWindow (rank off ld rows cols : Nat) : List Piece :=
  (List.range rows).flatMap fun i => (List.range cols).map fun k => accPiece rank (off + 4 * (i * ld + k)) 4

/-- The accumulator words that a matrix command writes. -/
def Cmd.matrixPieces (c : Cmd) : List Piece :=
  match c.kind with
  | .mmac =>
    let x := Mmac.ofDesc c.desc
    if x.k = 0 then [] else accWindow c.rank x.off x.ld x.m x.n
  | .azero => [accPiece c.rank (bits (descNat c.desc 0) 17 0) (bits (descNat c.desc 0) 35 18)]
  | .awr =>
    let x := AccMove.ofDesc c.desc
    accWindow c.rank x.off x.ld x.rows x.cols
  | _ => []

/-- Where an event of an engine writes: whose the stores are, who makes them, and their pieces. -/
structure EngineStores where
  owner : LateOwner
  who : Who
  pieces : List Piece
  deriving DecidableEq, Repr

/-- The command of a matrix engine that completes next. -/
def State.matrixHead (s : State) (core : Nat) : Option Cmd := s.cmds.find? fun c => c.core == core && matrixKinds.contains c.kind

/-- The pieces of a put that this module delivers (R242, R333). -/
def State.putPieces (s : State) (pk : Packet) : Option (Who × List Piece) :=
  match pk.kind, pk.ops, s.gang pk.gang with
  | .put, .dlv :: _, some g =>
    (s.ctxs.find? g.ctx.toNat).map fun c =>
      let w : Who := { team := 0, ctx := g.ctx, rank := 0, core := 768 }
      (w, goodPieces (s.pieces w .store (mkPtr 0 0 ((c.expBase + pk.offset) % 2 ^ 57)) pk.payload.length 0))
  | _, _, _ => none

/-- The pieces that an event of an engine writes. -/
def State.eventStores (s : State) : Instr → Option EngineStores
  | .cpyBurst cmd n =>
    (s.getCmd cmd).map fun c =>
      let cp := c.copy
      { owner := .cmd c.id, who := s.whoCmd c
        pieces := if c.kind ≠ .cpy ∨ ptrSpace cp.dst = 5 ∨ cp.total ≤ n then [] else (cutPieces (s.targetPieces (s.whoCmd c) cp (cp.burst n))).1 }
  | .topkComplete cmd =>
    (s.getCmd cmd).map fun c =>
      { owner := .cmd c.id, who := s.whoCmd c
        pieces := match c.instr with
          | .topk _ _ col _ =>
            let x := Search.ofDesc c.desc
            goodPieces (s.pieces (s.whoCmd c) .store x.out (x.outBytes col) 0)
          | _ => [] }
  | .matrixComplete core => (s.matrixHead core).map fun c => { owner := .cmd c.id, who := s.whoCmd c, pieces := c.matrixPieces }
  | .fabricPacketArrive pk link =>
    (s.putPieces pk).map fun (w, ps) => { owner := if link.isNone then .cmd pk.cmd else .peer, who := w, pieces := ps }
  | _ => none

/-! ## Entries with an uncorrectable error (R367) -/

/-- A piece shares a byte with a range of a place. -/
def Piece.has (p : Piece) (pl : Place) (a n : Nat) : Bool := p.place == pl && p.addr < a + n && a < p.addr + p.len

/-- Pieces together cover a range of a place. -/
def fillsAll (ps : List Piece) (pl : Place) (a n : Nat) : Bool := (upTo a (a + n)).all fun x => ps.any fun p => p.has pl x 1

/-- The entry of an error, where an access may meet it: the place of its bytes, and their range. -/
def entryBytes (team : Nat) : ErrorPlace → Option (Place × Nat × Nat)
  | .cleanLine l _ | .sharedLine l _ => some (.phys, 128 * l, 128)
  | .sector x => some (.phys, 32 * x, 32)
  | .hostSector p x => some (.host p, 32 * x, 32)
  | .scratch t r off => if t = team then some (.scratch r, off / 4 * 4, 4) else none
  | .accum t r off => if t = team then some (.accum r, off / 4 * 4, 4) else none
  | .row .. | .freeEntry _ | .tagged .. | .launchEntry .. | .head _ | .walk .. | .hostWrite _ | .device _ | .noDomain => none

/-- Some rows of a rank of a team, and some pieces. -/
structure Touched where
  team : Nat
  rank : Nat
  rows : List Nat
  pieces : List Piece
  /-- pieces that are translated and not read -/
  stored : List Piece := []
  /-- whose entries they are: a context, on a core; 768 for no core -/
  ctx : BitVec 16 := 0
  core : Nat := 768
  /-- the team control store of the core's cluster is used -/
  control : Bool := false
  /-- the distributor, the fabric unit, the host command unit or the power controller acts -/
  unit : Bool := false
  /-- the links that are used -/
  links : List (Fin 18) := []
  deriving DecidableEq, Repr

/-- A piece is translated. -/
def Piece.translated (p : Piece) : Bool :=
  match p.place with
  | .phys | .host _ => true
  | .scratch _ | .accum _ => false

/-- The translation of a piece uses the walk of a page that a TLB holds (R186, R332). -/
def Touched.translates (x : Touched) (level : TlbLevel) (ctx : BitVec 16) (host : Bool) (va size : Nat) : Bool :=
  x.ctx == ctx && (tlbsOf x.core).contains level
  && (x.pieces ++ x.stored).any fun p =>
    p.translated && ptrSpace p.ptr == (if host then 4 else 0) && decide (va < ptrOffset p.ptr % 2 ^ 57 + p.len)
    && decide (ptrOffset p.ptr % 2 ^ 57 < va + size)

/-- What is touched lies in a domain, or needs it (Table 16.1): a core, the structures of a cluster, the home slice of a line, the memory from which a
line comes, a link; the units that belong to none have every other number. -/
def State.uses (s : State) (x : Touched) (d : Nat) : Bool :=
  let lines := linesOf (x.pieces ++ x.stored)
  if d < 768 then x.core == d
  else if d < 864 then
    decide (x.core < 768) && x.core / 8 == d - 768 && (x.control || (x.pieces ++ x.stored).any Piece.translated)
  else if d < 1056 then lines.any fun l => sliceDomain l == d
  else if d < 1120 then lines.any fun l => (s.l2.find? l).isNone && Config.lineMemory l == some d
  else if d < 1138 then x.links.any fun l => 1120 + l.val == d
  else x.unit

/-- The entry lies among what is read, or is one of those that its reader works with (R366, R367). (DESIGN CHOICE, log 75) -/
def State.entryRead (s : State) (x : Touched) (e : ErrorPlace) : Bool :=
  match e with
  | .row t r n => t == x.team && r == x.rank && x.rows.contains n
  | .walk level ctx host va =>
    s.tlb.any fun e => e.level == level && e.ctx == ctx && e.host == host && e.va == va && x.translates level ctx host va e.leaf.size
  | .tagged ctx d => ctx == x.ctx && s.uses x d
  | .device d => s.uses x d
  | .noDomain => x.unit
  | _ => match entryBytes x.team e with
    | some (pl, a, n) => x.pieces.any fun p => p.has pl a n
    | none => false

/-- What is written covers the entry. -/
def entryFilled (x : Touched) (e : ErrorPlace) : Bool :=
  match e with
  | .row t r n => t == x.team && r == x.rank && x.rows.contains n
  | _ => match entryBytes x.team e with
    | some (pl, a, n) => fillsAll x.pieces pl a n
    | none => false

/-- An agent or an engine reads: the errors of the entries that it meets are consumed (R367). -/
def State.readEntries (s : State) (x : Touched) : State := if s.latent.isEmpty then s else s.spendWhere (s.entryRead x)

/-- Something has been written whole: an error in an entry that it covers has cost nothing (R367). -/
def State.fillEntries (s : State) (x : Touched) : State :=
  if s.latent.isEmpty then s else { s with latent := s.latent.filter fun e => !entryFilled x e }

/-- What the focused agent has in view: rows and pieces of its team on its rank. -/
def State.mine (s : State) (rows : List Nat) (ps : List Piece) : Touched :=
  { team := s.who.team, rank := s.ag.rank, rows := rows, pieces := ps, ctx := s.who.ctx, core := s.who.core }

/-- An instruction works with the team control store of its cluster (R262, R321, R304). -/
def usesControl : Instr → Bool
  | .tdef .. | .tsub _ | .tget .. | .plvl .. | .mgive .. | .mtake .. | .mplace .. | .hland _ => true
  | _ => false

/-- What an instruction of the focused agent reads: a lane word with no active lane reads no source (R110), and one that faults or waits reads
nothing yet. -/
def State.reads (s : State) (i : Instr) : Touched :=
  if s.workLanes i = 0 ∨ s.readsNothing i then s.mine [] []
  else
    let ps := match accClass i with
      | .load | .atomic => if s.accPasses i then s.accessed i else []
      | .own => s.readsToo i
      | .plain | .store => []
    { s.mine (s.rowsOf (sourceNames i)) ps with
      stored := if accClass i = .store ∧ s.accPasses i then s.accessed i else [], control := usesControl i }

/-- The names whose rows an instruction, which has led from one state to another, has written whole: those that it writes in every lane, and those
that have received a row from the pool. -/
def State.namesFilled (s t : State) (i : Instr) : List Nat :=
  let whole := match i with
    | .qnt _ => true
    | _ => s.workLanes i == allLanes
  (laneDests i).filter fun n => (t.ag.vmap.find? n).isSome && (whole || (s.ag.vmap.find? n).isNone)

/-- What an instruction of the focused agent, which has led from one state to another, has written whole: rows, and what it stores. -/
def State.fills (s t : State) (i : Instr) : Touched :=
  s.mine (t.rowsOf (s.namesFilled t i))
    (match accClass i with
      | .store => s.accessed i
      | .plain | .load | .atomic | .own => [])

/-- An instruction has taken effect: its agent has issued it, and has not met a fault or a wait. -/
def tookEffect (s t : State) : Bool := t.ag.id == s.ag.id && t.ag.issued == s.ag.issued + 1

/-- Goes on from a next state. -/
def onNext (o : Out) (f : State → State) : Out :=
  match o with
  | .next t => .next (f t)
  | o => o

/-- Performs an instruction: errors in what it reads are consumed first, and where that has ended its agent it does nothing (R367, R368). -/
def runEntries (i : Instr) (s : State) : Out :=
  if s.latent.isEmpty then exec i s
  else
    let t := s.readEntries (s.reads i)
    if t.ag.id ≠ s.ag.id then .next t
    else onNext (exec i t) fun u => if tookEffect t u then u.fillEntries (t.fills u i) else u

/-- A barrier object of a team. -/
def barPiece (l : BarLoc) : Touched :=
  { team := l.team, rank := l.rank, rows := [], pieces := [{ place := .scratch l.rank, addr := l.off, len := 16, ptr := 0, shr := false }] }

/-- Some pieces that the device itself reads. -/
def devicePieces (ps : List Piece) : Touched := { team := 0, rank := 0, rows := [], pieces := ps }

/-- What a command reads and the object of its arrival. -/
def State.cmdReads (s : State) (c : Cmd) (rows : List Nat) (ps : List Piece) (arrives : Bool) : List Touched :=
  { team := c.team, rank := c.rank, rows := rows, pieces := ps, ctx := (s.whoCmd c).ctx, core := c.core }
  :: (match c.bar, arrives with
      | some p, true => [barPiece (barLoc (s.whoCmd c) p)]
      | _, _ => [])

/-- The accumulator words that a matrix command reads: ARD's window, and that of an MMAC that accumulates (R172). -/
def Cmd.matrixReads (c : Cmd) : List Piece :=
  match c.kind with
  | .ard =>
    let x := AccMove.ofDesc c.desc
    accWindow c.rank x.off x.ld x.rows x.cols
  | .mmac => if (Mmac.ofDesc c.desc).accumulate then c.matrixPieces else []
  | _ => []

/-- The pieces of the next packet's source of a fabric command. -/
def State.sourcePieces (s : State) (c : Cmd) (i : Nat) : List (Except Fail Piece) :=
  let n := min 1024 (bits (descNat c.desc 2) 31 0 - 1024 * i)
  if n = 0 then [] else s.pieces (s.whoCmd c) .load (c.desc.getD 0 0 + BitVec.ofNat 64 (1024 * i)) n 0

/-- Where a burst of an HREAD begins. -/
def Cmd.readPtr (c : Cmd) (n : Nat) : Word :=
  let (off, y, z, _) := hreadBurst c.desc n
  c.desc.getD 0 0 + BitVec.ofNat 64 (z * bits (descNat c.desc 2) 63 32 + y * bits (descNat c.desc 2) 31 0 + off)

/-- What an event of a command reads (R367), and the command. -/
def State.commandReads (s : State) : Instr → List Touched × Option Nat
  | .cpyBurst cmd n =>
    match s.getCmd cmd with
    | none => ([], none)
    | some c =>
      let cp := c.copy
      let ps := if ptrSpace cp.src = 5 then []
        else goodPieces ((joinRuns (cp.sources (cp.burst n))).zipIdx.flatMap fun (r, k) => s.runPieces (s.whoCmd c) cp.src r k)
      (s.cmdReads c [] ps false, some cmd)
  | .cpyComplete cmd | .lastBurst cmd => ((s.getCmd cmd).elim [] fun c => s.cmdReads c [] [] true, some cmd)
  | .hreadBurstLand cmd n =>
    match s.getCmd cmd with
    | none => ([], none)
    | some c => (s.cmdReads c [] (goodPieces (s.pieces (s.whoCmd c) .load (c.readPtr n) (hreadBurst c.desc n).2.2.2 0)) false, some cmd)
  | .topkComplete cmd =>
    match s.getCmd cmd with
    | none => ([], none)
    | some c =>
      let x := Search.ofDesc c.desc
      (s.cmdReads c [] (goodPieces (s.pieces (s.whoCmd c) .load x.keys x.keyBytes 0)) true, some cmd)
  | .matrixComplete core =>
    match s.matrixHead core with
    | none => ([], none)
    | some c => (s.cmdReads c (if c.kind = .ard then [] else c.rows) c.matrixReads true, some c.id)
  | .fabricComplete cmd _ =>
    match s.getCmd cmd with
    | none => ([], none)
    | some c =>
      let last := c.stopped || offsetsOf c.desc ≤ c.cursor
      (s.cmdReads c [] (if last || c.kind == .fcont then [] else goodPieces (s.sourcePieces c c.cursor)) last, some cmd)
  | .fabricPacketArrive pk _ =>
    ((s.entryOf pk).bind fun e => e.cmd.bind s.getCmd).elim ([], none) fun c =>
      (s.cmdReads c [] (if pk.ops.head?.bind combineTy = none then [] else goodPieces (s.sourcePieces c (pk.offset / 1024))) false, none)
  | .landing team slot =>
    match (s.getTeam team).bind fun t => Sparse.find? t.landings slot.val with
    | none => ([], none)
    | some l => ([barPiece { team := team, rank := l.barRank, off := ptrOffset l.bar }], none)
  | _ => ([], none)

/-- The bytes of a launch packet and its placement map, as they are read from an entry whose context may launch (R254). -/
def State.packetPieces (s : State) (i : QueueItem) : List Piece :=
  let n := bits (word64 (s.rangeBytes i.ctx i.ptr 192) 0) 47 32
  if !s.launchable i.ctx || s.packetFenced i || !isGlobal i.ptr || i.ptr.toNat % 64 != 0 then []
  else goodPieces (s.pieces (saveWho i.ctx) .load i.ptr (if n ≤ 4096 then 192 + 4 * n else 192) 0)

/-- The bytes of a saved team's image, as a restore reads them (R363). -/
def State.imagePieces (s : State) (x : SavedTeam) : List Piece :=
  let head := s.load (saveWho x.ctx) false (saveAddress x.slot) 4096 0
  let n := if headOk head x.generation x.ctx then 4096 * numAt head 32 4 else 4096
  goodPieces (s.pieces (saveWho x.ctx) .load (saveAddress x.slot) n 0)

/-- What the work distributor reads from memory: a ring entry, a launch packet, the image of a team that comes back (R251, R254, R363). -/
def State.distributorReads (s : State) (e : Instr) : List Touched :=
  match e with
  | .launchEntryTake q =>
    if s.heads.any fun h => h.queue == q then []
    else
      match q with
      | .dev die prio =>
        ((s.devq.getD (4 * die.val + prio.val) []).head?).elim [] fun i => [{ devicePieces (s.packetPieces i) with ctx := i.ctx }]
      | .host p n =>
        let r := s.port p
        if r.qhead.getD n.val 0 = r.qtail.getD n.val 0 then []
        else
          let a := (r.qbase.getD n.val 0).toNat + 16 * (r.qhead.getD n.val 0).toNat
          let i := s.ringItem p n
          [devicePieces [{ place := .host p, addr := a, len := 16, ptr := 0, shr := false }],
           { devicePieces (s.packetPieces i) with ctx := i.ctx }]
  | .teamRestore .. =>
    match exec e s with
    | .next t => (s.saved.filter fun x => !t.saved.contains x).map fun x => { devicePieces (s.imagePieces x) with ctx := x.ctx }
    | .fault _ | .refused _ => []
  | _ => []

/-- An event of a unit that belongs to no domain (R366). -/
def unitEvent : Instr → Bool
  | .qtailWrite .. | .qbaseWrite .. | .porterrWrite .. | .semtake .. | .semrel .. | .hostRegWrite .. | .ctxcreate .. | .ctxdestroy ..
  | .ctxdestroyComplete .. | .inval .. | .invalComplete .. | .faultreply .. | .domreset .. | .lcchange .. | .fwupdate .. | .attest ..
  | .hostCmdUnknown .. | .portLinkDown .. | .portLinkUp .. | .smbusPowerLimit .. | .launchEntryTake .. | .launchHeadAge .. | .gridPlace ..
  | .frameTeamStart .. | .preemptRequest .. | .preemptForce .. | .teamSave .. | .teamRestore .. | .fabricPacketArrive .. | .fabricComplete ..
  | .flitRetry .. | .linkRetrainDone .. | .gangRegister .. | .gangWatchdog .. | .governorStep .. | .capLower .. | .capRaise ..
  | .passHoldExpire .. | .passDouble .. | .passHalve .. | .levelChangeDone .. | .sensorSample .. | .damageUpdate | .thermalCapLift ..
  | .tripRelease => true
  | _ => false

/-- The context for which a unit that belongs to no domain acts, where it acts for one. -/
def State.unitCtx (s : State) : Instr → Option (BitVec 16)
  | .fabricComplete cmd _ => (s.getCmd cmd).map fun c => (s.whoCmd c).ctx
  | .fabricPacketArrive pk _ => (s.gang pk.gang).map (·.ctx)
  | .gangWatchdog g => (s.gang g).map (·.ctx)
  | .teamSave id | .preemptForce id => (s.getTeam id).map (·.ctx)
  | .frameTeamStart g .. => (s.getGrid g).map (·.ctx)
  | .gridPlace _ => s.nextPlacement.map fun x => x.1.item.ctx
  | .launchHeadAge q => (s.heads.find? fun h => h.queue == q).map (·.item.ctx)
  | _ => none

/-- The links that an event uses. -/
def eventLinks : Instr → List (Fin 18)
  | .fabricPacketArrive pk link => link.toList ++ ((pk.route[1]?).getD none).toList
  | .flitRetry l | .linkRetrainDone l => [l]
  | _ => []

/-- What an event reads (R367), and the command for which it reads. -/
def State.eventReads (s : State) (e : Instr) : List Touched × Option Nat :=
  let (xs, cmd) := s.commandReads e
  ({ devicePieces [] with ctx := (s.unitCtx e).getD 0, unit := unitEvent e, links := eventLinks e } :: s.distributorReads e ++ xs, cmd)

/-- What an event that has led from one state to another has written whole (R367). -/
def State.eventFills (s t : State) (e : Instr) : List Touched :=
  let stored : List Touched := (s.eventStores e).elim [] fun x => [{ team := x.who.team, rank := x.who.rank, rows := [], pieces := x.pieces }]
  match e with
  | .rowZeroed team rank row => [{ team := team, rank := rank, rows := [row], pieces := [] }]
  | .cpyBurst cmd n =>
    match s.getCmd cmd, t.getCmd cmd with
    | some c, some d => if d.err = c.err ∧ n < d.cursor ∧ ¬ d.pending.contains n ∧ (c.cursor ≤ n ∨ c.pending.contains n) then stored else []
    | _, _ => []
  | .hreadBurstLand cmd n =>
    match s.getCmd cmd, t.getCmd cmd with
    | some c, some d =>
      [{ team := c.team, rank := c.rank, rows := (d.landed.filter fun x => x.burst == n && !c.landed.contains x).map (·.row), pieces := [] }]
    | _, _ => []
  | .dropStart (.landing team slot) =>
    match s.getTeam team, t.getTeam team, (s.getTeam team).bind fun x => Sparse.find? x.landings slot.val with
    | some x, some y, some l =>
      let old := (x.rank l.rank).live
      [{ team := team, rank := l.rank, rows := ((y.rank l.rank).live.map (·.1)).filter fun r => !(old.map (·.1)).contains r, pieces := [] }]
    | _, _, _ => []
  | .topkComplete cmd => if (t.getCmd cmd).isNone then stored else []
  | .matrixComplete core =>
    match s.matrixHead core with
    | none => []
    | some c =>
      { team := c.team, rank := c.rank, rows := if c.kind = .ard ∧ (AccMove.ofDesc c.desc).cols = 64 then c.rows else [], pieces := [] }
      :: stored
  | .fabricPacketArrive pk _ => if t.mem != s.mem && pk.kind == .put then stored else []
  | .teamSave id => ((t.saved.filter fun x => x.id == id && !s.saved.contains x).map fun x => devicePieces (t.imagePieces x))
  | _ => []

/-- The error that the work distributor meets as it takes the next entry of a queue, or places a head (R367). -/
def State.distributorMeets (s : State) (e : Instr) : Option ErrorPlace :=
  let found (x : ErrorPlace) : Option ErrorPlace := if s.latent.contains x then some x else none
  match e with
  | .launchEntryTake (.dev die prio) => if s.heads.any fun h => h.queue == .dev die prio then none else found (.launchEntry (4 * die.val + prio.val) 0)
  | .gridPlace _ => s.nextPlacement.bind fun x => found (.head x.1.queue)
  | .launchHeadAge q => if s.heads.any fun h => h.queue == q then found (.head q) else none
  | _ => none

/-- Where an event has taken the first entry of a queue, the errors of a device queue follow their entries, and the new head has overwritten its own.
-/
def State.shiftTaken (s t : State) : Instr → State
  | .launchEntryTake q =>
    let t := if s.heads.length < t.heads.length then { t with latent := t.latent.filter (· != .head q) } else t
    match q with
    | .dev die prio =>
      let k := 4 * die.val + prio.val
      if (t.devq.getD k []).length < (s.devq.getD k []).length then t.moveQueueErrors k 0 else t
    | .host .. => t
  | _ => t

/-- Performs an event: errors in what it reads are consumed first; where that has ended its command, or has cost the entry that it would take, or has
reset the module, it does nothing more (R367, R373). -/
def runEvent (e : Instr) (s : State) : Out :=
  if s.latent.isEmpty then exec e s
  else
    match s.distributorMeets e with
    | some x => .next (s.spend x)
    | none =>
      let (xs, cmd) := s.eventReads e
      let t := xs.foldl State.readEntries s
      if (cmd.any fun c => (s.getCmd c).isSome && (t.getCmd c).isNone) || (t.host.wiping && !s.host.wiping) then .next t
      else onNext (exec e t) fun u => t.shiftTaken ((t.eventFills u e).foldl State.fillEntries u) e

end Sys2Proof.Machine
end

