-- ==== Sys2Proof/Machine/Weak.lean ====
section
/-! DEFINITION. What other agents see of an agent's accesses, and when (R208 to R220, R227 to R230). A step performs the accesses of its instruction
at once. The inputs say which stores other agents see only later, and which loads are performed again before something is ordered after
them; a read sees whatever happens before it (R213, R214). -/

namespace Sys2Proof.Machine

/-! ## Everything is settled -/

/-- An agent has left nothing open: it performs no load again, and has read nothing ahead. -/
def Agent.closed (a : Agent) : Agent := { a with loads := [], ahead := [] }

/-- Everything that was left open is settled: every store is visible, and no load is performed again. -/
def State.settle (s : State) : State :=
  let t := s.landWhere fun _ => true
  { t with ag := t.ag.closed, agents := t.agents.map Agent.closed }

/-- Everything that the focused agent had left open is settled. -/
def State.settleOwn (s : State) : State := (s.landWhere (·.owner.isAgent s.ag.id allLanes)).modAg Agent.closed

/-- What some lanes of the focused agent had left open is settled (R218). -/
def State.settleLanes (s : State) (m : Mask) : State :=
  (s.landWhere (·.owner.isAgent s.ag.id m)).modAg fun a =>
    { a with loads := a.loads.filter fun l => l.mask &&& m == 0, ahead := a.ahead.filter fun x => x.mask &&& m == 0 }

/-! ## Releases and acquires (R208, R210, R211, R215) -/

/-- An operation of an agent of a team at a scope reaches another agent of the module, on a core (Table 9.1). -/
def State.reaches (s : State) (sc : Scope) (team : Nat) (id : AgentId) (core : Nat) : Bool :=
  match sc with
  | .warp => false
  | .team => teamOf id == team || (match id with
      | .warp .. => false
      | .drop .. => (s.getTeam team).any fun t => t.onCore core)
  | .device | .gang | .system => true

/-- How wide a scope is. -/
def scopeRank : Scope → Nat
  | .warp => 0
  | .team => 1
  | .device => 2
  | .gang => 3
  | .system => 4

/-- The wider of a scope and another, if there is another. -/
def widerScope (a : Scope) : Option Scope → Scope
  | none => a
  | some b => if scopeRank a < scopeRank b then b else a

/-- The focused agent releases what some of its lanes have stored, at a scope (R210). -/
def State.releaseStores (s : State) (m : Mask) (sc : Scope) : State :=
  { s with
    late := s.late.map fun x => if x.owner.isAgent s.ag.id m then { x with released := some (widerScope sc x.released) } else x }

/-- The focused agent acquires at a scope: the stores that agents have released at a scope-compatible scope become visible (R208, R211, R215). -/
def State.acquireStores (s : State) (sc : Scope) : State :=
  s.landWhere fun x => match x.owner, x.released with
    | .agent id _, some r => s.reaches r x.team s.ag.id s.who.core && s.reaches sc s.who.team id x.core
    | _, _ => false

/-- The scope at which an operation of an order is a release (Table 9.2); a release at warp scope reaches no other agent (Table 9.1). -/
def releaseOf (sc : Scope) (o : Order) : Option Scope := if o = .release ∨ o = .acqRel then some sc else none
/-- The scope at which an operation of an order is an acquire (Table 9.2). -/
def acquireOf (sc : Scope) (o : Order) : Option Scope := if o = .acquire ∨ o = .acqRel then some sc else none

/-- The fields that engine commands share. -/
def engineOps : Instr → Option EngOps
  | .cpy e .. | .hread e | .mmac e | .azero e | .ard e | .awr e | .topk e .. | .fput e | .fputh e | .fcoll e | .fcont e => some e
  | _ => none

/-- An instruction that takes effect at its place in the lane queue (Table 2.4). -/
def takesPlace : Instr → Bool
  | .mswap .. | .mrot .. | .mfree .. | .malias .. | .mmove .. | .mtag .. | .mgive .. | .mtake .. | .mplace .. | .mqry .. | .hread _ | .mmac _
  | .azero _ | .ard _ | .awr _ => true
  | _ => false

/-- The instruction is only put into the lane queue, and takes effect later (R30). -/
def State.onlyQueues (s : State) (i : Instr) : Bool := takesPlace i && !(s.atQueue || s.drained)

/-- The compare of an SCAS, or that of some lane of an ACAS, succeeds (R210). -/
def State.casHits (s : State) (i : Instr) : Bool :=
  match i with
  | .scas d .. => ofBytes ((s.accessed i).flatMap (s.readPiece s.who false)) == (s.ag.getG d).toNat
  | .acas w =>
    (s.lanePlan .atomic (Width.bytes w.width) (s.laneAccs w (s.active w.h))).any fun x => (acasNew w s x.1 (s.laneRead false x)).isSome
  | _ => false

/-- The scope at which a drop's end releases: that of a team, or its command's, where rel is set and that is wider (R210). -/
def State.endScope (s : State) : Scope :=
  match s.ag.origin with
  | some (.burst c) | some (.finalOf c) =>
    match s.getCmd c with
    | some c => if c.rel then widerScope .team (some c.scope) else .team
    | none => .team
  | _ => .team

/-- The scope at which an instruction is a release (Table 9.2). -/
def State.releasesAt (s : State) (i : Instr) : Option Scope :=
  if s.onlyQueues i then none
  else
    match i with
    | .satom _ _ _ sc o _ => releaseOf sc o
    | .scas _ _ _ sc o => if s.casHits i then releaseOf sc o else none
    | .acas w => if s.casHits i then releaseOf w.scope w.order else none
    | .vst w | .atom w | .red w => releaseOf w.scope w.order
    | .fence sc .release | .fence sc .full | .barr _ _ sc => some sc
    | .mgive .. | .mplace .. | .tsub _ => some .team
    | .hend => if s.ag.isDrop then some s.endScope else none
    | .launch .. => some .device
    | .publ _ => some .system
    | _ => none

/-- The scope at which an instruction that has led from one state to another was an acquire (Table 9.2). -/
def State.acquiredAt (s t : State) (i : Instr) : Option Scope :=
  match i with
  | .satom _ _ _ sc o _ | .scas _ _ _ sc o => if tookEffect s t then acquireOf sc o else none
  | .vld w | .atom w | .acas w | .red w => if tookEffect s t ∧ s.active w.h ≠ 0 then acquireOf w.scope w.order else none
  | .fence sc .acquire | .fence sc .full | .bwait _ _ sc => if tookEffect s t then some sc else none
  | .btest _ a b sc =>
    if tookEffect s t && phaseDone (t.tm.bar (barLoc s.who (s.ag.getG a))).phase (bits (s.ag.getG b).toNat 15 0) then some sc else none
  | .tget .. => if tookEffect s t ∧ t.tm.tasks ≠ s.tm.tasks then some .team else none
  | .mtake _ k => if (Sparse.find? s.tm.handoff k.val).isSome && (Sparse.find? t.tm.handoff k.val).isNone then some .team else none
  | _ =>
    match engineOps i with
    | some e => if e.acq ∧ t.nextId ≠ s.nextId then some e.s else none
    | none => none

/-- The acquire of an instruction, after it: nothing that its agent has read ahead comes after it (R209). -/
def State.acquireAfter (s t : State) (i : Instr) : State :=
  match s.acquiredAt t i with
  | some sc => (t.acquireStores sc).modAg fun a => { a with ahead := [] }
  | none => t

/-- The acquire of a BWAIT that has ended while its agent was blocked in it (R219). -/
def State.payOwed (s : State) : State :=
  match s.ag.owes with
  | some sc => ((s.acquireStores sc).acquire s.who.core sc).modAg fun a => { a with owes := none, ahead := [] }
  | none => s

/-- The first instruction that reads, edits or queries a placed name acquires at team scope (R220, R323). -/
def State.touch (s : State) (i : Instr) : State :=
  if s.ag.placed.isEmpty then s
  else
    let hit (n : Nat) : Bool := match touchedNames i with
      | some ns => ns.contains n
      | none => true
    if s.ag.placed.any hit then
      ((s.acquireStores .team).acquire s.who.core .team).modAg fun a => { a with placed := a.placed.filter fun n => !hit n, ahead := [] }
    else s

/-- The parts of a piece between multiples of `u`: address and bytes; `fuel` bounds their number. -/
def cutUnits (u : Nat) : Nat → Nat → Nat → List (Nat × Nat)
  | 0, _, _ => []
  | fuel + 1, a, n =>
    if n = 0 then []
    else
      let len := min n (u - a % u)
      (a, len) :: cutUnits u fuel (a + len) (n - len)

/-- The bytes at a place of a team. -/
def State.bytesAt (s : State) (w : Who) (pl : Place) (a n : Nat) : List Byte :=
  s.readPiece w false { place := pl, addr := a, len := n, ptr := 0, shr := false }

/-- The grid whose accesses an owner makes: that of its agent's or its command's team, or that of the team of another maker (R256). -/
def State.ownerGrid (s : State) (o : LateOwner) (team : Nat) : Nat :=
  let id := match o with
    | .cmd c => ((s.getCmd c).map (·.team)).getD team
    | .agent .. | .peer => team
  ((s.getTeam id).map (·.grid)).getD 0

/-- The bytes at a place of a team are as they were. -/
def State.putBack (t : State) (team : Nat) (pl : Place) (a : Nat) (old : List Byte) : State :=
  match pl with
  | .phys => { t with mem := t.mem.writeN a old }
  | .host _ => t
  | .scratch r => t.modRank team r fun y => { y with scratch := y.scratch.writeN a old }
  | .accum r => t.modRank team r fun y => { y with accum := y.accum.writeN a old }

/-- A store that `after` has made and `before` has not is hidden again: it waits in `late`, and the maker's core keeps no untracked copy of its
line. A store of what stood there already hides nothing. -/
def State.hideUnit (after before : State) (o : LateOwner) (w : Who) (t : State) (x : Place × Nat × Nat) : State :=
  let (pl, a, n) := x
  let late : LateStore :=
    { owner := o, core := w.core, team := w.team, grid := before.ownerGrid o w.team, place := pl, addr := a,
      data := after.bytesAt w pl a n, released := none }
  let old := before.bytesAt w pl a n
  if late.data = old then t
  else
    let t := { t with late := t.late ++ [late], l1 := if pl = Place.phys then t.l1.filter fun l => !(l.untracked && l.isAt w.core (a / 128)) else t.l1 }
    t.putBack w.team pl a old

/-- The parts of an agent's store that become visible together (R184): an aligned store of up to 8 bytes whole, an aligned 16-byte store by halves,
any other byte by byte. (DESIGN CHOICE, log 103) -/
def atomUnits (a n : Nat) : List (Nat × Nat) :=
  if n = 16 ∧ a % 8 = 0 then [(a, 8), (a + 8, 8)]
  else if n ≤ 8 ∧ 0 < n ∧ a % n = 0 then [(a, n)]
  else (List.range n).map fun i => (a + i, 1)

/-- The parts of an engine's store that become visible together: its aligned 4-byte words (R230). (DESIGN CHOICE, log 76) -/
def wordUnits (a n : Nat) : List (Nat × Nat) := cutUnits 4 (n + 1) a n

/-- The units of stored pieces, without those towards the host, which has its own path (R194). -/
def storeUnits (cut : Nat → Nat → List (Nat × Nat)) (ps : List Piece) : List (Place × Nat × Nat) :=
  (ps.flatMap fun p => match p.place with
    | .host _ => []
    | pl => (cut p.addr p.len).map fun x => (pl, x.1, x.2)).eraseDups

/-- The parts of an engine's store that lie in one aligned word stand together, so that they are seen together (R230). -/
def wordGroups : List (Place × Nat × Nat) → List (List (Place × Nat × Nat))
  | [] => []
  | x :: xs =>
    match wordGroups xs with
    | (y :: ys) :: gs => if x.1 = y.1 ∧ x.2.1 / 4 = y.2.1 / 4 then (x :: y :: ys) :: gs else [x] :: (y :: ys) :: gs
    | gs => [x] :: gs

/-- Of what a step has stored, the groups of units whose bit of `pick` is set stay hidden from the other agents for now. A step that clears
poison hides nothing. -/
def State.hide (after before : State) (o : LateOwner) (w : Who) (groups : List (List (Place × Nat × Nat))) (pick : Nat) : State :=
  if after.poison ≠ before.poison then after
  else ((groups.zipIdx.filter fun x => bit pick x.2).flatMap (·.1)).foldl (fun t x => after.hideUnit before o w t x) after

/-! ## Open loads (R209, R217, R218) -/

/-- Two pieces share a byte. -/
def Piece.meets (p q : Piece) : Bool := p.place == q.place && p.addr < q.addr + q.len && q.addr < p.addr + p.len

/-- A word whose result a latch holds (R37). -/
def inChain (i : Instr) : Bool :=
  match i with
  | .vld w | .atom w | .acas w => w.h.chain || w.h.nowb
  | _ => false

/-- The g register that a scalar load or atomic writes. -/
def resultReg : Instr → Option (Fin 64)
  | .sld64 d .. | .sld32 d .. | .satom d .. | .scas d .. => some d
  | _ => none

/-- An instruction depends on what a load or an atomic returns, or writes what it writes (R209). -/
def needsResult (made i : Instr) : Bool :=
  match resultReg made with
  | some d => d.val != 0 && touchesG i d
  | none =>
    (match touchedNames i with
      | some ms => (laneDests made).any ms.contains
      | none => !(laneDests made).isEmpty)
    || (inChain made && touchesLatch i)

/-- The lanes whose values an instruction may read or write: those of its fragment, and all of them where it reads across lanes or is none of a lane
(R218). -/
def State.neededLanes (s : State) (i : Instr) : Mask :=
  match i with
  | .shfl _ | .qnt _ | .dqnt _ | .lred _ | .lscan _ => allLanes
  | _ => s.actingLanes i

/-- An instruction writes memory by itself: a store, or an atomic. -/
def writesMem (i : Instr) : Bool := accClass i == .store || accClass i == .atomic

/-- The open loads that stay open across an instruction: it needs nothing of them in its lanes, shares no byte with what its lanes have loaded, and
does not write after a FENCE.REL that followed them (R198, R209, R218). -/
def State.keepLoads (s : State) (i : Instr) (ps : List Piece) : List OpenLoad :=
  s.ag.loads.filter fun l =>
    !(l.mask &&& s.neededLanes i != 0 && needsResult l.instr i)
    && !(l.mask &&& s.actingLanes i != 0 && l.pieces.any fun p => ps.any p.meets)
    && !(writesMem i && l.fenced)

/-- The loads that an instruction leaves open: those that are no acquire. -/
def State.openLoads (s : State) (i : Instr) : List OpenLoad :=
  let mk (x : LanePieces) : OpenLoad := { instr := i, lane := x.1, pieces := x.2, mask := s.actingLanes i, rid := s.ag.reg.rid }
  match i with
  | .sld64 .. | .sld32 .. => [mk (0, s.accessed i)]
  | .vld w =>
    if (acquireOf w.scope w.order).isSome then []
    else (s.lanePlan .load (Width.bytes w.width) (s.laneAccs w (s.active w.h))).map mk
  | .vldn w => (s.rowsPlan w (s.active w.h) (s.rowsPtr w)).map mk
  | _ => []

/-! ## An instruction in its order (R209, R210) -/

/-- The atomics of the focused agent that an instruction comes after: those whose result it needs, and, where it writes, those that a FENCE.REL has
followed (R198, R209). -/
def State.opsFirst (s : State) (i : Instr) (x : LateStore) : Bool :=
  x.op.any fun op =>
    (x.owner.isAgent s.ag.id (s.neededLanes i) && needsResult op.instr i) || (x.owner.isAgent s.ag.id allLanes && writesMem i && op.fenced)

/-- FENCE among what its agent has left open (R198): one of kind ACQ or FULL comes after its loads and atomics and before what follows, one of kind
REL comes before the stores and atomics that follow. -/
def State.fenceOpen (s : State) (k : FenceKind) : State :=
  match k with
  | .acquire | .full => (s.landOps s.ag.id fun _ _ => true).modAg Agent.closed
  | .release =>
    { s with
      late := s.late.map fun x =>
        if x.owner.isAgent s.ag.id allLanes then { x with op := x.op.map fun op => { op with fenced := true } } else x
      ag := { s.ag with loads := s.ag.loads.map fun l => { l with fenced := true } } }

/-- The lanes of a release come after what they have loaded, and after their atomics (R209). -/
def State.beforeRelease (s : State) (m : Mask) : State :=
  (s.landWhere fun x => x.op.isSome && x.owner.isAgent s.ag.id m).modAg fun a => { a with loads := a.loads.filter fun l => l.mask &&& m == 0 }

/-- What comes before an instruction whose order is left open: an access lets the stores that it shares a byte with become visible first, and a
release marks the earlier stores for those who acquire from it; a command comes after all that its agent has done. -/
def State.orderBefore (s : State) (i : Instr) : State :=
  let m := s.actingLanes i
  let s := match accClass i with
    | .load | .store | .atomic | .plain =>
      let ps := s.accessed i
      let s' := s.landWhere fun x => (x.owner.isAgent s.ag.id m && ps.any (x.meets s.who.team)) || s.opsFirst i x
      s'.modAg fun a => { a with loads := s.keepLoads i ps }
    | .own => if s.onlyQueues i then s else s.settleOwn
  match i, s.releasesAt i with
  | .fence _ k, r => r.elim (s.fenceOpen k) ((s.fenceOpen k).releaseStores m)
  | _, some sc => (s.beforeRelease m).releaseStores m sc
  | _, none => s

/-- What comes after an instruction: its acquire, and, where a JOIN has fused fragments, everything that they had left open (R218). -/
def State.orderAfter (s t : State) (i : Instr) : State :=
  match i with
  | .join _ => if t.ag.id = s.ag.id ∧ t.ag.stack.length < s.ag.stack.length then t.settleLanes t.ag.cur.mask else t
  | _ => s.acquireAfter t i

/-- Performs an instruction in its place: everything of its agent that was left open comes before it. -/
def perform (i : Instr) (s : State) : Out :=
  let s := s.payOwed.settleOwn.touch i
  onNext (runEntries i s) fun t => s.orderAfter t i

/-! ## Loads whose value is chosen again -/

/-- Which unit of a load a byte belongs to: an aligned load of up to 8 bytes is whole, an aligned 16-byte load has two halves, and any other load
is byte by byte (R184, R214). -/
def loadUnit (a n i : Nat) : Nat := if n ≤ 8 ∧ 0 < n ∧ a % n = 0 then 0 else if n = 16 ∧ a % 8 = 0 then i / 8 else i

/-- The bytes of a load after the units that `pick` names have been read again. -/
def rereadBytes (ps : List Piece) (old new : List Byte) (pick : Nat) : List Byte :=
  match ps with
  | [p] => old.zipIdx.map fun (b, i) => if bit pick (loadUnit p.addr p.len i) then new.getD i b else b
  | _ => old.zipIdx.map fun (b, i) => if bit pick i then new.getD i b else b

/-- Writes one lane of a mapped name. -/
def State.setLane (s : State) (n lane v : Nat) : State := s.setLaneOf s.ag n lane v

/-- The names and lanes that a load writes: bytes of a lane, spread over some names. -/
def State.loadedBytes (s : State) (first k lane : Nat) : List Byte :=
  toBytes (4 * k) (ofElems 32 ((List.range k).map fun i => (s.nameRow (first + i)).getD lane 0))

/-- Gives a lane of some names the words of a number. -/
def State.setLanes (s : State) (first k lane x : Nat) : State :=
  (List.range k).foldl (fun s i => s.setLane (first + i) lane (x / 2 ^ (32 * i))) s

/-- A load reads at warp scope (R181). -/
def warpLoad : Instr → Bool
  | .vld w => w.scope == .warp
  | _ => false

/-- A load of the focused agent takes the given bytes in the units that `pick` names: the value that it has returned is made of them. -/
def State.rereadWith (s : State) (l : OpenLoad) (new : List Byte) (pick : Nat) : State :=
  match l.instr with
  | .sld64 d _ _ =>
    s.modAg fun a => a.setLoaded l.rid d (BitVec.ofNat 64 (ofBytes (rereadBytes l.pieces (toBytes 8 (s.ag.getG d).toNat) new pick)))
  | .sld32 d _ _ =>
    s.modAg fun a => a.setLoaded l.rid d (BitVec.ofNat 64 (ofBytes (rereadBytes l.pieces (toBytes 4 (s.ag.getG d).toNat) new pick)))
  | .vld w =>
    let k := if w.width = .w128 then 4 else tyNames w.ty
    let held := match s.ag.latches.find? w.h.latch.val, w.h.nowb with
      | some xs, true => toBytes (4 * k) (xs.getD l.lane 0).toNat
      | _, _ => s.loadedBytes w.h.name.val k l.lane
    let x := extendLoad w (ofBytes (rereadBytes l.pieces (held.take (Width.bytes w.width)) new pick))
    let x := if w.ty = .t6 then x % 2 ^ 30 else x
    let s := if inChain l.instr then s.modAg fun a => a.setLatch w.h.latch.val l.lane x else s
    if w.h.nowb then s else s.setLanes w.h.name.val k l.lane x
  | .vldn w =>
    let n := rowCount w
    let x := ofBytes (rereadBytes l.pieces (s.loadedBytes w.h.name.val n l.lane) new pick)
    let word (i : Nat) : Nat := let v := x / 2 ^ (32 * i) % 2 ^ 32; if w.ty = .t6 then v % 2 ^ 30 else v
    (List.range n).foldl (fun s i => s.setLane (w.h.name.val + i) l.lane (word i)) s
  | _ => s

/-- The hint of a load. -/
def loadHint : Instr → Fin 4
  | .vld w => w.hint
  | _ => 0

/-- An open load of the focused agent is performed again, in the units that `pick` names: the value that it has returned is the one that it reads now,
and a later load of the core reads nothing older (R185, R209, R214, R216, R217). Where its bytes are poisoned, fenced or hit by an error that waits,
it stays as it was performed. -/
def State.reread (s : State) (l : OpenLoad) (pick : Nat) : State :=
  let ws := warpLoad l.instr
  if (l.pieces.any fun p => (s.piecePoison p).isSome || s.homeFenced p) || s.latent.any (s.entryRead (s.mine [] l.pieces)) then s
  else (s.seen s.who ws (loadHint l.instr) l.pieces).rereadWith l (l.pieces.flatMap (s.readPiece s.who ws)) pick

/-! ## Reads ahead of a load to come (R209) -/

/-- The g registers that an instruction names; none where nothing bounds them. -/
def namedRegs (i : Instr) : Option (BitVec 64) :=
  match scalarNames i with
  | some rs => some (rs.foldl (fun m r => m ||| 1#64 <<< r.val) 0)
  | none => if (laneHead i).isSome then some ((laneRegs i).1 ||| (laneRegs i).2.1) else none

/-- What an instruction computes goes only to registers and names that it names: to no predicate, no latch that stays, and no state of the team. -/
def writesNamed (i : Instr) : Bool :=
  match i with
  | .sadd .. | .ssub .. | .smul .. | .smulh .. | .smulhu .. | .sdiv .. | .sdivu .. | .srem .. | .sremu .. | .sand .. | .sor .. | .sxor ..
  | .sandn .. | .sshl .. | .sshr .. | .ssar .. | .smin .. | .smax .. | .sminu .. | .smaxu .. | .spopc .. | .sclz .. | .sctz .. | .saddi ..
  | .sandi .. | .sori .. | .sxori .. | .sshli .. | .sshri .. | .ssari .. | .slui .. | .slpc .. | .ssel .. | .sld64 .. | .sld32 .. | .sst64 ..
  | .sst32 .. | .satom .. | .scas .. => true
  | .isetp _ | .fsetp _ | .vote _ | .brd _ | .jmark _ | .join _ | .lend _ | .ljmp _ | .ltrap _ => false
  | i => match laneHead i with
    | some h => !h.chain
    | none => false

/-- An instruction names what may depend on a read since then; where nothing bounds what it names, it may. -/
def AheadRead.tainted (x : AheadRead) (i : Instr) : Bool :=
  match namedRegs i, touchedNames i with
  | some rs, some ns => rs &&& x.regs != 0 || ns.any x.names.contains
  | _, _ => true

/-- What has been read ahead, after an instruction of its agent that has these lanes and touches these pieces: an access that shares a byte with it
comes before any later load of the same bytes, and what the instruction computes from a read of its own, or from what depends on one, depends on it.
-/
def AheadRead.after (x : AheadRead) (i : Instr) (m : Mask) (ps : List Piece) : Option AheadRead :=
  if x.mask &&& m != 0 && ps.any x.piece.meets then none
  else if accClass i == .load || accClass i == .atomic || x.tainted i then
    match namedRegs i, touchedNames i with
    | some rs, some ns => if writesNamed i then some { x with regs := x.regs ||| rs, names := x.names ++ ns } else none
    | _, _ => none
  else some x

/-- The unit of a load of one piece that bytes read ahead are, if they are one. -/
def AheadRead.unit (x : AheadRead) (p : Piece) : Option Nat :=
  let at_ := x.piece.addr - p.addr
  let k := loadUnit p.addr p.len at_
  if x.piece.place == p.place && decide (p.addr ≤ x.piece.addr)
      && (List.range p.len).all fun i => (loadUnit p.addr p.len i == k) == (decide (at_ ≤ i) && decide (i < at_ + x.data.length)) then some k
  else none

/-- A load takes the units that its agent has read ahead of it, unless its address may depend on a read since then (R209); `s` is the state before. -/
def State.useAhead (s t : State) (l : OpenLoad) : State :=
  match l.pieces with
  | [p] =>
    (s.ag.ahead.filter fun x => x.lane == l.lane && !x.tainted l.instr && !touchesLatch l.instr).foldl
      (fun t x => match x.unit p with
        | some k => t.rereadWith l (List.replicate (x.piece.addr - p.addr) 0 ++ x.data) (2 ^ k)
        | none => t)
      t
  | _ => t

/-- The results that are still open: of loads that may be performed again, and of atomics that are still to be performed. -/
def State.openResults (s : State) : List Instr :=
  s.ag.loads.map (·.instr) ++ (s.late.filter fun x => x.owner.isAgent s.ag.id allLanes).filterMap fun x => x.op.map (·.instr)

/-- The focused agent reads an aligned unit of bytes ahead of a load to come (R209): what its fragment has stored there is visible before, and what it
has loaded there comes before. (DESIGN CHOICE, log 76) -/
def State.readUnitAhead (s : State) (lane : Option Nat) (p : Word) (n : Nat) : State :=
  let k := lane.getD 0
  let m := if lane.isSome && s.ag.running then s.ag.cur.mask else allLanes
  let sp : AccSpec := { spaces := openScalar, size := n, align := n, acc := .load }
  if s.ag.owes.isSome || s.ag.status != .running || !m.getLsbD k || !([1, 2, 4, 8].contains n)
      || s.judge s.tm s.who sp [{ lane := k, ptr := p, ok := true }] != .go then s
  else
    match goodPieces (s.pieces s.who .load p n k) with
    | [u] =>
      if (s.piecePoison u).isSome || s.latent.any (s.entryRead (s.mine [] [u])) then s
      else
        let made := s.openResults
        let x : AheadRead :=
          { lane := k, mask := m, piece := u, data := []
            regs := made.foldl (fun r i => r ||| (resultReg i).elim 0 fun d => 1#64 <<< d.val) 0, names := made.flatMap laneDests }
        let s := (s.landWhere fun y => y.owner.isAgent s.ag.id m && y.meets s.who.team u).modAg fun a =>
          { a with loads := a.loads.filter fun l => l.mask &&& m == 0 || !(l.pieces.any u.meets) }
        let s := s.drainFor [u]
        (s.seen s.who false 0 [u]).modAg fun a => { a with ahead := a.ahead ++ [{ x with data := s.readPiece s.who false u }] }
    | _ => s

/-! ## Atomics that are performed later (R209) -/

/-- An atomic whose place among its agent's accesses may stay open: no acquire, and no release whose compare could fail. -/
def mayDefer : Instr → Bool
  | .satom _ _ _ _ o _ => o == .relaxed || o == .release
  | .scas _ _ _ _ o => o == .relaxed
  | .atom w | .red w => w.order == .relaxed || w.order == .release
  | .acas w => w.order == .relaxed
  | _ => false

/-- The atomics of an instruction of the focused agent, each with its operands, as they wait to be performed. -/
def State.lateOps (s : State) (i : Instr) : List LateStore :=
  let mk (owned : Mask) (lane : Nat) (p : Piece) (value compare : Nat) : LateStore :=
    { owner := .agent s.ag.id owned, core := s.who.core, team := s.who.team, grid := s.ownerGrid .peer s.who.team, place := p.place, addr := p.addr
      data := List.replicate p.len 0, released := none
      op := some
        { instr := i, lane := lane, rid := s.ag.reg.rid, piece := p, ctx := s.who.ctx, rank := s.who.rank, trap := s.ag.trapMode, value := value
          compare := compare } }
  let ofLanes (w : MemOps) : List LateStore :=
    (s.atomPieces (Width.bytes w.width) (s.laneAccs w (s.active w.h))).flatMap fun x => x.2.map fun p =>
      mk (1#64 <<< x.1) x.1 p ((s.operand w.ty w.imm w.c).getD x.1 0) ((s.operand w.ty w.imm (.vec w.h.name)).getD x.1 0)
  match i with
  | .satom d _ b .. | .scas d _ b .. => (s.accessed i).map fun p => mk allLanes 0 p (s.ag.getG b).toNat (s.ag.getG d).toNat
  | .atom w | .acas w | .red w => ofLanes w
  | _ => []

/-- An instruction whose atomics R209 does not order with what follows has led from `s` to `t`: those that `pick` names are still to be performed, and
give their results then; the others are performed now. (DESIGN CHOICE, log 76) -/
def State.deferOps (s t : State) (i : Instr) (pick : Nat) : State :=
  if pick = 0 ∨ ¬ mayDefer i ∨ ¬ s.latent.isEmpty then t
  else
    let ops := s.lateOps i
    let back := ops.foldl (fun t x => t.putBack x.team x.place x.addr (s.bytesAt s.who x.place x.addr x.data.length)) t
    let u := { back with poison := s.poison, predictor := s.predictor, l1 := s.l1, l2 := s.l2, late := back.late ++ ops }
    let now := (ops.zipIdx.filter fun x => !bit pick x.2).map (·.1)
    u.landWhere now.contains

/-! ## Instructions and lanes whose order is left open -/

/-- What an instruction that has led from `s` to `t` leaves open: a load that is no acquire stays open, units of a store that `pick` names are hidden,
and so are the atomics that it names. -/
def State.leaveOpen (s t : State) (i : Instr) (pick : Nat) : State :=
  match accClass i with
  | .load =>
    let ls := s.openLoads i
    (ls.foldl (State.useAhead s) t).modAg fun a => { a with loads := a.loads ++ ls }
  | .store => t.hide s (.agent s.ag.id (s.actingLanes i)) s.who ((storeUnits atomUnits (s.accessed i)).map fun x => [x]) pick
  | .atomic => s.deferOps t i pick
  | .plain | .own => t

/-- Performs an instruction whose accesses R209 does not order with all others of its agent. (DESIGN CHOICE, log 76) -/
def performLate (pick : Nat) (i : Instr) (s : State) : Out :=
  let s := (s.payOwed.orderBefore i).touch i
  onNext (runEntries i s) fun t =>
    let u := s.orderAfter t i
    if tookEffect s t then
      (s.leaveOpen u i pick).modAg fun a => { a with ahead := a.ahead.filterMap (·.after i (s.actingLanes i) (s.accessed i)) }
    else u

/-- One lane of a memory word makes its access ahead of the others, in the order of its word (R217). -/
def performEarly (lane : Nat) (i : Instr) (s : State) : Out :=
  let s := (s.payOwed.orderBefore i).touch i
  let t := s.readEntries (s.reads i)
  if t.ag.id ≠ s.ag.id then .next t else .next (t.earlyLane i lane)

/-! ## Engine events whose stores are left open (R229, R230) -/

/-- Events that come after everything that is under way: an image holds it all (R360, R362), and a translation or a context ends once every access
through it has been performed (R332, R336). -/
def settlesAll : Instr → Bool
  | .teamSave _ | .teamRestore .. | .ctxdestroy _ | .ctxdestroyComplete _ | .lcchange _ | .invalComplete _ => true
  | _ => false

/-- The command that an event completes, if it completes one, and whether its stores come before its arrival in any case: a fabric command
completes once its packets have been performed (R242). -/
def State.completes (s : State) : Instr → Option (Cmd × Bool)
  | .cpyComplete cmd | .lastBurst cmd | .topkComplete cmd => (s.getCmd cmd).map fun c => (c, c.rel)
  | .matrixComplete core => (s.matrixHead core).map fun c => (c, c.rel)
  | .fabricComplete cmd _ => (s.getCmd cmd).map fun c => (c, true)
  | _ => none

/-- The stores that are visible before an event: all of its command where it completes one with rel set (R229), those to the accumulators of
the matrix engine's earlier commands (R157), and what peers have put here before a landing (R212, R225). -/
def State.eventFirst (s : State) (e : Instr) (x : LateStore) : Bool :=
  (match s.completes e with
    | some (c, rel) => rel && x.owner == .cmd c.id
    | none => false)
  || (match e, x.place with
      | .matrixComplete core, .accum _ => x.core == core
      | .landing .., _ => x.owner == .peer
      | _, _ => false)

/-- What an event of an engine will read, as far as it may be read ahead: the command, the number of the burst or packet, and the pieces. -/
def State.aheadPieces (s : State) : Instr → Option (Cmd × Nat × List Piece)
  | .cpyBurst cmd n =>
    (s.getCmd cmd).bind fun c =>
      let cp := c.copy
      if c.kind = .cpy ∧ ptrSpace cp.src ≠ 5 ∧ n < cp.total then
        some (c, n, goodPieces ((joinRuns (cp.sources (cp.burst n))).zipIdx.flatMap fun (r, k) => s.runPieces (s.whoCmd c) cp.src r k))
      else none
  | .hreadBurstLand cmd n =>
    (s.getCmd cmd).bind fun c =>
      if c.kind = .hread ∧ n < hreadBursts c.desc then
        some (c, n, goodPieces (s.pieces (s.whoCmd c) .load (c.readPtr n) (hreadBurst c.desc n).2.2.2 0))
      else none
  | .fabricComplete cmd _ =>
    (s.getCmd cmd).bind fun c =>
      if fabricKinds.contains c.kind ∧ c.kind ≠ .fcont ∧ c.cursor < offsetsOf c.desc then
        some (c, c.cursor, goodPieces (s.sourcePieces c c.cursor))
      else none
  | .fabricPacketArrive pk _ =>
    ((s.entryOf pk).bind fun e => e.cmd.bind s.getCmd).map fun c => (c, pk.offset / 1024, goodPieces (s.sourcePieces c (pk.offset / 1024)))
  | .matrixComplete core => (s.matrixHead core).map fun c => (c, 0, c.matrixReads)
  | _ => none

/-- A command may read a burst: it has been requested, or can be (R290, R310). -/
def State.mayRead (s : State) (c : Cmd) (n : Nat) : Bool :=
  if c.kind = .cpy ∨ c.kind = .hread then c.pending.contains n || (c.cursor ≤ n && !c.stopped && !s.frozen c.team) else !c.stopped

/-- The parts of pieces that an engine reads one by one: their aligned 4-byte words. -/
def readUnits (ps : List Piece) : List Piece :=
  ps.flatMap fun p => (cutUnits 4 (p.len + 1) p.addr p.len).map fun x =>
    { p with addr := x.1, len := x.2, ptr := p.ptr + BitVec.ofNat 64 (x.1 - p.addr) }

/-- An engine reads one unit of what an event of its will read, ahead of the rest; each unit is read once (R227). The head of a matrix queue sees what
the earlier commands have written (R157). (DESIGN CHOICE, log 99) -/
def State.engineRead (s : State) (e : Instr) (k : Nat) : State :=
  let s := match e with
    | .matrixComplete _ => s.landWhere (s.eventFirst e)
    | _ => s
  match s.aheadPieces e with
  | none => s
  | some (c, n, ps) =>
    match (readUnits ps)[k]? with
    | none => s
    | some u =>
      if !s.mayRead c n || (s.piecePoison u).isSome || s.transferWaits c [.ok u] || (c.ahead n).any fun x => x.place == u.place && x.addr == u.addr then s
      else
        let s := s.readEntries { team := c.team, rank := c.rank, rows := [], pieces := [u] }
        match s.getCmd c.id with
        | none => s
        | some c =>
          let s := s.drainFor [u]
          s.setCmd { c with early := c.early ++ [{ burst := n, place := u.place, addr := u.addr, data := s.readPiece (s.whoCmd c) (c.scope == .warp) u }] }

/-- Performs an event. One of an engine leaves what others have left open as it is, and the 4-byte words that it stores and `pick` names are seen
later (R230); the completion of a command with rel set is made after all of them (R229). (DESIGN CHOICE, log 76) -/
def eventLate (pick : Nat) (e : Instr) (s : State) : Out :=
  let s := if settlesAll e then s.settle else s.landWhere (s.eventFirst e)
  match s.eventStores e, s.completes e with
  | none, _ | some _, some (_, true) => runEvent e s
  | some x, _ => onNext (runEvent e s) fun t => t.hide s x.owner x.who (wordGroups (storeUnits wordUnits x.pieces)) pick

end Sys2Proof.Machine
end

