-- ==== Sys2Proof/Machine/Issue.lean ====
section
/-! DEFINITION. Which stream issues, and what one issue does: fetching, decoding, the drop limit, the choice of fragments, and
the inputs (R43, R265 to R268, R274, R297). -/

namespace Sys2Proof.Machine

/-- The scalar stream may issue (R265). -/
def Agent.scalarReady (a : Agent) : Bool := a.status == .running && a.pend.isNone

/-- The lane stream has something to do. -/
def Agent.laneReady (a : Agent) : Bool :=
  !a.queue.isEmpty && (match a.status with | .running | .lsync | .waiting .. => true | _ => false)

/-- A drop that has issued 4,096 instructions takes 0x0C in place of the next (R297). -/
def Agent.overrun (a : Agent) : Bool := a.isDrop && 4096 ≤ a.issued

/-- How an instruction is performed at its turn: in its place, or with its order left open. -/
abbrev Runner := Instr → State → Out

/-- A forced warp stops at a region entry once its lane queue is empty (R359). -/
def State.stopForced (s : State) : Out :=
  if s.drained then .next (s.modAg fun a => { a with status := .stopped .forced }) else wait s

/-- A code word is fetched: an error of an entry that holds it is consumed (R367). -/
def State.fetchEntries (s : State) (a : Word) (n : Nat) : State :=
  if s.latent.isEmpty then s else s.readEntries (s.mine [] (goodPieces (s.pieces s.who .fetch a n 0)))

/-- Goes on with a code word once its entries have been read, where that has not ended the agent (R367, R369). -/
def onFetch (s : State) (a : Word) (n : Nat) (f : State → Out) : Out :=
  let t := s.fetchEntries a n
  if t.ag.id = s.ag.id then f t else .next t

/-- The bitmap of a PHINT word, which its two following words hold, each fetched at its own address (R43, R53); a word in a fenced domain is waited
for (R371). -/
def onBitmap (w : Nat) (s : State) (f : Nat → State → Out) : Out :=
  if !isPhintWord w then f 0 s
  else
    let word (a : Word) (s : State) (g : Nat → State → Out) : Out :=
      if s.fetchFenced s.who a 4 then wait s
      else onFetch s a 4 fun s =>
        match s.fetch s.who a 4 with
        | .error e => .next (s.memFault e false)
        | .ok bs => g (ofBytes bs) s
    word (s.ag.spc + 4) s fun lo s => word (s.ag.spc + 8) s fun hi s => f (lo + 2 ^ 32 * hi) s

/-- The focused agent's scalar stream issues one word: a malformed one takes 0x01, before a PHINT's bitmap is fetched (R43). -/
def State.issueScalar (s : State) (run : Runner) : Out :=
  if !s.ag.scalarReady then wait s
  else if s.tm.forced && s.ag.atEntry && !s.ag.isDrop then s.stopForced
  else if s.ag.overrun then fault s 0x0C s.ag.spc
  else if s.fetchFenced s.who s.ag.spc 4 then wait s
  else onFetch s s.ag.spc 4 fun s =>
    match s.fetch s.who s.ag.spc 4 with
    | .error f => .next (s.memFault f false)
    | .ok bs =>
      match decodeScalar (ofBytes bs) 0 with
      | .error _ => fault s 0x01 s.ag.spc
      | .ok _ =>
        onBitmap (ofBytes bs) s fun bm s =>
          match decodeScalar (ofBytes bs) bm with
          | .error _ => fault s 0x01 s.ag.spc
          | .ok i => run i s

/-- A fragment may run. -/
def Frag.runnable (f : Frag) : Bool := f.wait == .no

/-- The fragments that may run, in an order of their own. -/
def Agent.runnables (a : Agent) : List Frag := (a.cur :: a.others).filter Frag.runnable

/-- Lets the fragment of a number run next, where the running one has ended a chain or waits (R274). -/
def Agent.pick (a : Agent) (k : Nat) : Agent :=
  if a.chain ≠ 0 && a.cur.runnable then a
  else
    match a.runnables with
    | [] => a
    | f :: fs =>
      let x := (f :: fs).getD (k % (fs.length + 1)) f
      if x = a.cur then a
      else { a with cur := x, others := (a.cur :: a.others).erase x, latches := [], chain := 0 }

/-- A block starts: one fragment of 64 lanes, empty latches, and the g registers of its place (R29). -/
def Agent.startBlock (a : Agent) (addr : Word) : Agent :=
  { a with running := true, blockG := a.g, blockTrap := a.trapG, cur := Frag.whole addr, others := [], stack := [], latches := [], chain := 0 }

/-- The focused agent's lane stream issues the next word of its running block; a word of which some lanes have gone ahead is there already. -/
def State.issueWord (s : State) (k : Nat) (run : Runner) : Out :=
  let s := s.modAg fun a => a.pick k
  match s.ag.cur.early with
  | some e => run e.instr s
  | none =>
  if s.ag.overrun then .next (s.takeFault { code := 0x0C, addr := s.ag.cur.lpc } true)
  else if s.fetchFenced s.who s.ag.cur.lpc 12 then wait s
  else onFetch s s.ag.cur.lpc 12 fun s =>
    match s.fetch s.who s.ag.cur.lpc 12 with
    | .error f => .next (s.memFault f true)
    | .ok bs =>
      match decodeLane (ofBytes bs) with
      | .error _ => .next (s.takeFault { code := 0x01, addr := s.ag.cur.lpc } true)
      | .ok i => run i s

/-- The focused agent's lane stream goes on with the head of its queue: a word of a block, or an instruction of Table 2.4.
-/
def State.issueLane (s : State) (k : Nat) (run : Runner) : Out :=
  if !s.ag.laneReady then wait s
  else
    match s.ag.queue with
    | [] => wait s
    | e :: _ =>
      match e.kind with
      | .instr i => run i { s with atQueue := true }
      | .block addr => (if s.ag.running then s else s.modAg fun a => a.startBlock addr).issueWord k run

/-- A lane of the next word of the focused agent's running block goes ahead of the others (R217); nothing happens where the word is no load and no
atomic, or cannot be read. -/
def State.issueEarly (s : State) (k lane : Nat) : Out :=
  let ahead (i : Instr) (t : State) : Out := if goesAhead i then performEarly lane i t else .next t
  match s.ag.laneReady, s.ag.queue with
  | true, { kind := .block addr, .. } :: _ =>
    let t := (if s.ag.running then s else s.modAg fun a => a.startBlock addr).modAg fun a => a.pick k
    match t.ag.cur.early with
    | some e => ahead e.instr t
    | none =>
      if t.ag.overrun || t.fetchFenced t.who t.ag.cur.lpc 12 then .next s
      else onFetch t t.ag.cur.lpc 12 fun t =>
        match t.fetch t.who t.ag.cur.lpc 12 with
        | .error _ => .next t
        | .ok bs =>
          match decodeLane (ofBytes bs) with
          | .error _ => .next t
          | .ok i => ahead i t
  | _, _ => .next s

/-- An agent can act. -/
def Agent.canAct (a : Agent) : Bool := a.laneReady || a.scalarReady

/-- Of two agents, the one that issued longer ago (R266, R267). -/
def older (a : Agent) (b : Option Agent) : Option Agent :=
  match b with
  | none => if a.canAct then some a else none
  | some b => if a.canAct && a.lastIssue < b.lastIssue then some a else some b

/-- The least recently issued agent that can act. -/
def State.nextAgent (s : State) : Option AgentId :=
  (s.allAgents.foldl (fun b a => older a b) none).map (·.id)

/-- An agent becomes the one that acts. -/
def State.select (s : State) (id : AgentId) : Option State :=
  (s.focus id).map fun s => s.modAg fun a => { a with lastIssue := s.stamp }

/-- The command of a port that waits for one of the other port is tried again (R340). -/
def State.portGo (s : State) (p : Port) : Out :=
  match (s.port p).waits with
  | some i => eventLate 0 i (s.modPort p fun r => { r with busy := false })
  | none => .next s

/-- With no input left the machine goes on by itself: a host command whose turn has come, an event that is due, or the least recently issued
agent, its lane stream first; otherwise nothing happens. (DESIGN CHOICE, log 2) -/
def State.auto (s : State) : Out :=
  match s.goEvents, s.autoEvent with
  | p :: _, _ => s.portGo p
  | [], some e => eventLate 0 e s
  | [], none =>
    match s.nextAgent with
    | none => .next s
    | some id =>
      match s.select id with
      | none => .next s
      | some s => if s.ag.laneReady then s.issueLane 0 perform else s.issueScalar perform

/-- A host stores to its own memory behind a port. -/
def State.hostStores (s : State) (p : Port) (a : Nat) (bs : List Byte) : State :=
  s.setHostMem p ((s.hostMem p).writeN a bs)

/-- The oldest store of the host write path reaches host memory; one with an uncorrectable error is consumed instead (R367). (DESIGN CHOICE, log
83) (DESIGN CHOICE, log 83) -/
def State.drainOne (s : State) : State :=
  match s.hostPath with
  | [] => s
  | x :: r =>
    if s.latent.contains (.hostWrite 0) then s.spend (.hostWrite 0)
    else ({ s with hostPath := r }.moveHostErrors 0).setHostMem x.port ((s.hostMem x.port).writeN x.addr x.data)

/-- How many walks a TLB holds (R186). -/
def tlbSize : TlbLevel → Nat
  | .core _ => 128
  | .cluster _ => 2048
  | .die _ => 32768

/-- A TLB keeps the walk of a page that is present (R332); a full one drops its oldest (R186). -/
def State.fillTlb (s : State) (t : TlbLevel) (ctx : BitVec 16) (host : Bool) (va : Nat) : State :=
  let va := va % 2 ^ 57
  match s.walkCtx ctx host va with
  | .error _ => s
  | .ok l =>
    let e : TlbEntry := { level := t, ctx := ctx, host := host, va := va - va % l.size, leaf := l }
    let mine := s.tlb.filter fun x => x.level == t
    let kept := if mine.length < tlbSize t then s.tlb else
      match mine.getLast? with
      | some x => s.tlb.erase x
      | none => s.tlb
    { s with tlb := e :: kept, latent := s.latent.filter (· != .walk t ctx host e.va) }

/-- A TLB drops the walk of an address. -/
def State.evictTlb (s : State) (t : TlbLevel) (ctx : BitVec 16) (host : Bool) (va : Nat) : State :=
  { s with tlb := s.tlb.filter fun e => !(e.level == t && e.ctx == ctx && e.host == host && e.va ≤ va && va < e.va + e.leaf.size) }

/-- Time passes. -/
def State.pass (s : State) (ns : Nat) : State := { s with now := s.now + ns }

/-- A dirty line is written back and is clean then, in L2 and in the L1 that owns it, wearing the tag of the access that filled it; an error in it is
consumed (R334, R367). Nothing is written to a fenced domain (R371). -/
def State.writeBack (s : State) (line : Nat) : State :=
  if s.lineFenced line then s
  else
    let s := s.readEntries (devicePieces [{ place := .phys, addr := 128 * line, len := 128, ptr := 0, shr := false }])
    { s with
      l1 := s.l1.map fun x => if x.line = line then { x with dirty := none } else x
      l2 := match s.l2.find? line with
        | some l => s.l2.insert line { l with dirty := none }
        | none => s.l2 }

/-- L2 drops a line, which it writes back first where it is dirty. -/
def State.evictL2 (s : State) (line : Nat) : State :=
  if s.lineFenced line then s
  else
  let s := if ((s.l2.find? line).bind (·.dirty)).isSome then s.writeBack line else s
  { s with l2 := s.l2.erase line }

/-- Two events one after the other. -/
def bothEvents (a b : Instr) (s : State) : Out :=
  match eventLate 0 a s with
  | .next t => eventLate 0 b t
  | .fault f => .fault f
  | .refused r => .refused r

/-- An open load of an agent is performed again. -/
def State.reload (s : State) (id : AgentId) (k pick : Nat) : Out :=
  match s.focus id with
  | none => .fault .noSuchAgent
  | some t =>
    match t.ag.loads[k]? with
    | some l => .next (t.reread l pick)
    | none => .next s

/-- What an agent's place is among the operations of one clock in its cluster: warps before drops, then by core and slot (R263, R383, R403). -/
def State.clockKey (s : State) (a : Agent) : Nat × Nat × Nat × Nat :=
  match s.getTeam (teamOf a.id) with
  | some t => (t.cluster, if a.isDrop then 1 else 0, (t.rank a.rank).core, a.slot)
  | none => (0, 0, 0, 0)

/-- One place comes before another in the order of one clock, or is the same; agents of different clusters have no order (R263). -/
def clockBefore (a b : Nat × Nat × Nat × Nat) : Bool :=
  a.1 != b.1 || decide (a.2.1 < b.2.1)
  || (a.2.1 == b.2.1 && (decide (a.2.2.1 < b.2.2.1) || (a.2.2.1 == b.2.2.1 && decide (a.2.2.2 ≤ b.2.2.2))))

/-- The agent that an input lets issue. -/
def Input.agent : Input → Option AgentId
  | .scalar id | .lane id _ | .scalarLate id _ | .laneLate id .. | .laneEarly id .. => some id
  | _ => none

/-- An input may fall into the clock of the step before it: what an agent does there comes after what the agents before it have done (R263). -/
def State.mayShare (s : State) (i : Input) : Bool :=
  match i.agent.bind s.getAgent with
  | some a => s.allAgents.all fun b => b.lastIssue + 1 != s.stamp || clockBefore (s.clockKey b) (s.clockKey a)
  | none => true

/-- An error strikes an entry; an atomic of it that was issued before is performed before. -/
def State.strike (s : State) (e : ErrorPlace) : State :=
  let s := s.landWhere fun x => x.op.isSome && (entryBytes x.team e).any fun (pl, a, n) =>
    x.meets x.team { place := pl, addr := a, len := n, ptr := 0, shr := false }
  { s with latent := s.latent ++ [e] }

/-- What the module itself does on an input: nothing while it is held in reset (R390). -/
def State.whileRunning (s : State) (f : State → State) : Out := .next (if s.pow.tripped then s else f s)

/-- The lines of some bytes of the module's memory. -/
def bytesLines (a n : Nat) : List Nat := upTo (a / 128) ((a + n + 127) / 128)

/-- A host stores to the module's memory; a store to a fenced domain waits outside (R371). -/
def State.hostWrites (s : State) (a : Nat) (bs : List Byte) : State :=
  if (bytesLines a bs.length).any s.lineFenced then s else s.writePhys 768 a bs

/-- What one input does by itself. -/
def State.doPlain (s : State) : Input → Out
  | .scalar id =>
    match s.select id with
    | none => .fault .noSuchAgent
    | some s => s.issueScalar perform
  | .lane id k =>
    match s.select id with
    | none => .fault .noSuchAgent
    | some s => s.issueLane k perform
  | .event i => if i.isEvent then eventLate 0 i s else .fault .notAnEvent
  | .scalarLate id pick =>
    match s.select id with
    | none => .fault .noSuchAgent
    | some s => s.issueScalar (performLate pick)
  | .laneLate id k pick =>
    match s.select id with
    | none => .fault .noSuchAgent
    | some s => s.issueLane k (performLate pick)
  | .eventLate i pick => if i.isEvent then eventLate pick i s else .fault .notAnEvent
  | .land k => .next (s.landOne k)
  | .reload id k pick => s.reload id k pick
  | .flitOn l pk k => s.whileRunning fun s => s.sendFlit l pk k
  | .keyRead cmd k => .next (s.readKey cmd k)
  | .engineRead e k => .next (s.engineRead e k)
  | .laneEarly id k lane =>
    match s.select id with
    | none => .fault .noSuchAgent
    | some s => s.issueEarly k lane
  | .readAhead id lane p n =>
    match s.focus id with
    | none => .fault .noSuchAgent
    | some s => .next (s.readUnitAhead lane p n)
  | .sameClock _ => .next s
  | .strike e => s.whileRunning fun s => s.strike e
  | .corrected d => s.whileRunning fun s => s.countCorrected d
  | .current c mA => s.whileRunning fun s => s.readCurrent c.val mA
  | .bothGo even a b =>
    if a.isEvent && b.isEvent then if even then bothEvents a b s else bothEvents b a s else .fault .notAnEvent
  | .portGo p => s.portGo p
  | .tick ns => .next (s.pass ns)
  | .hostStore a bs => s.whileRunning fun s => s.hostWrites a bs
  | .hostOwn p a bs => .next (s.hostStores p a bs)
  | .hostPoison p x on =>
    let k := poisonKey p x
    .next { s with hostPoison := if on then addSorted k s.hostPoison else s.hostPoison.erase k }
  | .hostDrain => .next s.drainOne
  | .tlbFill t ctx host va => .next (s.fillTlb t ctx host va)
  | .tlbEvict t ctx host va => .next (s.evictTlb t ctx host va)
  | .l1Evict core line => .next { s with l1 := s.l1.filter fun l => !l.isAt core line }
  | .writeBack line => .next (s.writeBack line)
  | .l2Evict line => .next (s.evictL2 line)

/-- What one input does. One that falls into the clock of the step before it shares its age, where the order of R263 allows it; otherwise it has a
clock of its own. (DESIGN CHOICE, log 2) -/
def State.doInput (s : State) (i : Input) : Out :=
  match i with
  | .sameClock j => (if s.mayShare j then { s with stamp := s.stamp - 1 } else s).doPlain j
  | i => s.doPlain i

/-- A step that would send a store with an uncorrectable error to the host consumes the error first (R367). -/
def State.runInput (s : State) (i : Input) : Out :=
  if i = .hostDrain || !(s.latent.any isHostWrite) then s.doInput i
  else
    match s.doInput i with
    | .next t =>
      if s.hostPath.isPrefixOf t.hostPath then .next t
      else
        let u := s.spendHostWrites
        match u.doInput i with
        | .next v => .next v
        | .fault _ | .refused _ => .next u
    | o => o

/-- What every step does before anything acts: it moves on to fresh free values and a new age. -/
def State.begin (s : State) : State := { s with fresh := s.fresh + 65536, stamp := s.stamp + 1, atQueue := false }

/-! ## Placing an instruction (log 11) -/

/-- The page tables of context 1: virtual page 0 is the physical page at 0x5_0000, with all permissions. -/
def placeTables (m : Memory) : Memory :=
  (((m.writeNat 0x10000 8 0x20001).writeNat 0x20000 8 0x40001).writeNat 0x40000 8 0x41001).writeNat 0x41000 8 0x5001F

/-- The packet of the placed warp's grid: one team of one warp on one core, with 16 rows, 384 bytes of scratchpad and one
handler slot, SBASE 0 and LBASE 0x8000. -/
def placePacket : LaunchPacket :=
  { LaunchPacket.zero with
    version := 1, frame := 1, teams := 1, warps := 1, cores := 1, rows := 16, local16 := 24, handlers := 1, lbase := 0x8000,
    roles := [.gen], slots := [{ dx := 0, dy := 0, mask := 1 }] }

/-- The placed team: rendezvous point 0 expects its one warp (R26). -/
def placeTeam : Team :=
  { Team.nobody with
    id := 1, grid := 1, ctx := 1, pkt := placePacket,
    ranks := [{ Rank.empty 0 with scratch := [(0, 1), (15, 1)], pool := List.range 16 }] }

/-- The placed grid. -/
def placeGrid : Grid :=
  { id := 1, ctx := 1, depth := 0, ptr := 0, pkt := placePacket, ox := 0, oy := 0, parent := none, bar := none, port := some .a,
    nextTeam := [1], ended := 0, code := 0 }

/-- The placed warp; with `lane` its lane queue holds the block at LBASE. -/
def placeAgent (lane : Bool) : Agent :=
  let a := Agent.start (.warp 1 0) 0 0 .gen 0
  if lane then
    { a with queue := [{ kind := .block 0x8000, addr := 0, rid := 0, mode := 0, gRead := 0, gWrite := 0, qWrite := 0 }] }
  else a

/-- A word of more than 32 bits is a lane word, where it decodes as one. -/
def isLaneCode (nbits w : Nat) : Bool :=
  32 < nbits && (match decodeLane (w % 2 ^ 96) with | .ok _ => true | .error _ => false)

/-- The state with one warp of context 1 that is about to run the instruction of a word. -/
def State.placeWord (s : State) (nbits w : Nat) : State :=
  let lane := isLaneCode nbits w
  let m := placeTables s.mem
  { s with
    inputs := [], ag := placeAgent lane, agents := [], tm := placeTeam, teams := [], grids := [placeGrid], nextId := 2,
    mem := m.writeN (if lane then 0x58000 else 0x50000) (toBytes 12 w)
    ctxs := s.ctxs.insert 1 { perf := false, groot := 0x10000, hroot := 0, expBase := 0, expSize := 0, slots := [],
                              destroying := false }
    host := { s.host with wiping := false } }

end Sys2Proof.Machine
end

