-- ==== Sys2Proof/Machine/Step.lean ====
section
/-! DEFINITION. The step of the machine. -/

namespace Sys2Proof.Machine

/-- One step: the next input acts, or the machine settles what was left open and goes on by itself. -/
def step (s : State) : Host.Outcome State Fault Refusal :=
  match s.inputs with
  | [] => s.begin.settle.auto
  | i :: rest => ({ s with inputs := rest }.begin).runInput i

/-- The state with the instruction of a word where the next step fetches (log 11). -/
def State.withFetchWord (s : State) (nbits w : Nat) : State := s.placeWord nbits w

end Sys2Proof.Machine
end

