-- ==== Sys2Proof/Safety.lean ====
section
/-! DEFINITION. The terms in which claims about the machine are stated: what an instruction leaves unchanged, how registers, names and bytes
are read, the tables of results, and the invariants. -/

namespace Sys2Proof.Machine

/-! ## Registers, and what a scalar instruction leaves unchanged -/

/-- A g register as it is named in trap mode, or outside it (R353). -/
def Agent.gIn (a : Agent) (mode : Bool) (n : Fin 64) : Word := ({ a with trapMode := mode } : Agent).getG n

/-- Every g register but some reads as before; of these also the one that has the same number in the other mode. -/
def Agent.keepsG (a b : Agent) (ds : List (Fin 64)) : Prop :=
  ∀ (mode : Bool) (n : Fin 64), (n ∉ ds ∨ (56 ≤ n.val ∧ mode ≠ a.trapMode)) → b.gIn mode n = a.gIn mode n

/-- Every q predicate but some reads as before. -/
def Agent.keepsQ (a b : Agent) (ds : List (Fin 8)) : Prop := ∀ n : Fin 8, n ∉ ds → b.getQ n = a.getQ n

/-- A g register holds a value; g0 reads zero (R27). -/
def State.gIs (t : State) (d : Fin 64) (v : Word) : Prop := t.ag.getG d = if d.val = 0 then 0 else v

/-- A q predicate holds a value; q7 reads true (R27). -/
def State.qIs (t : State) (q : Fin 8) (v : Bool) : Prop := t.ag.getQ q = (q.val == 7 || v)

/-- The scalar stream has gone on to `pc`, and nothing else has changed but the named g registers and q predicates. -/
def Went (pc : Word) (gs : List (Fin 64)) (qs : List (Fin 8)) (s t : State) : Prop :=
  t = { s with ag := { s.ag with
          g := t.ag.g, trapG := t.ag.trapG, q := t.ag.q, spc := pc, issued := s.ag.issued + 1, atEntry := false } }
  ∧ s.ag.keepsG t.ag gs ∧ s.ag.keepsQ t.ag qs
  ∧ ∀ a, Memory.read t.mem a = Memory.read s.mem a

/-- Nothing but the named g registers and q predicates has changed. -/
def OnlyRegs (gs : List (Fin 64)) (qs : List (Fin 8)) (s t : State) : Prop :=
  t = { s with ag := { s.ag with g := t.ag.g, trapG := t.ag.trapG, q := t.ag.q } } ∧ s.ag.keepsG t.ag gs ∧ s.ag.keepsQ t.ag qs

/-! ## Results of scalar arithmetic (Tables 6.1 and 6.2) -/

/-- The integer `k` as a register value. -/
def ofInt64 (k : Int) : Word := BitVec.ofInt 64 k
/-- The natural number `k` as a register value. -/
def ofNat64 (k : Nat) : Word := BitVec.ofNat 64 k

/-- Table 6.1, the operations of two operands, and what each writes to gd (R113, R114). -/
def aluTable : List ((Fin 64 → Fin 64 → Fin 64 → Instr) × (Word → Word → Word)) :=
  [(.sadd, fun x y => ofNat64 (x.toNat + y.toNat)),
   (.ssub, fun x y => ofInt64 (x.toInt - y.toInt)),
   (.smul, fun x y => ofNat64 (x.toNat * y.toNat)),
   (.smulh, fun x y => ofInt64 (x.toInt * y.toInt / 2 ^ 64)),
   (.smulhu, fun x y => ofNat64 (x.toNat * y.toNat / 2 ^ 64)),
   (.sdiv, fun x y => if y.toNat = 0 then ofInt64 (-1) else ofInt64 (x.toInt.tdiv y.toInt)),
   (.sdivu, fun x y => if y.toNat = 0 then ofInt64 (-1) else ofNat64 (x.toNat / y.toNat)),
   (.srem, fun x y => if y.toNat = 0 then x else ofInt64 (x.toInt.tmod y.toInt)),
   (.sremu, fun x y => if y.toNat = 0 then x else ofNat64 (x.toNat % y.toNat)),
   (.sand, fun x y => x &&& y),
   (.sor, fun x y => x ||| y),
   (.sxor, fun x y => x ^^^ y),
   (.sandn, fun x y => x &&& ~~~y),
   (.sshl, fun x y => if 64 ≤ y.toNat then 0 else ofNat64 (x.toNat * 2 ^ y.toNat)),
   (.sshr, fun x y => if 64 ≤ y.toNat then 0 else ofNat64 (x.toNat / 2 ^ y.toNat)),
   (.ssar, fun x y => if 64 ≤ y.toNat then (if x.toInt < 0 then ofInt64 (-1) else 0) else ofInt64 (x.toInt / 2 ^ y.toNat)),
   (.smin, fun x y => ofInt64 (min x.toInt y.toInt)),
   (.smax, fun x y => ofInt64 (max x.toInt y.toInt)),
   (.sminu, fun x y => ofNat64 (min x.toNat y.toNat)),
   (.smaxu, fun x y => ofNat64 (max x.toNat y.toNat))]

/-- Table 6.1, the bit counts: one bits; how often the number stays below a falling power of two; how often a rising power of two divides it. -/
def countTable : List ((Fin 64 → Fin 64 → Instr) × (Word → Nat)) :=
  [(.spopc, fun x => (List.range 64).countP fun i => x.getLsbD i),
   (.sclz, fun x => (List.range 64).countP fun i => decide (x.toNat < 2 ^ (63 - i))),
   (.sctz, fun x => (List.range 64).countP fun i => decide (x.toNat % 2 ^ (i + 1) = 0))]

/-- Table 6.2, the operations with a 14-bit immediate. -/
def immTable : List ((Fin 64 → Fin 64 → BitVec 14 → Instr) × (Word → BitVec 14 → Word)) :=
  [(.saddi, fun x i => ofInt64 (x.toInt + i.toInt)),
   (.sandi, fun x i => x &&& ofNat64 i.toNat),
   (.sori, fun x i => x ||| ofNat64 i.toNat),
   (.sxori, fun x i => x ^^^ ofNat64 i.toNat)]

/-- Table 6.2, the shifts by an immediate. -/
def immShiftTable : List ((Fin 64 → Fin 64 → Fin 64 → Instr) × (Word → Nat → Word)) :=
  [(.sshli, fun x n => ofNat64 (x.toNat * 2 ^ n)),
   (.sshri, fun x n => ofNat64 (x.toNat / 2 ^ n)),
   (.ssari, fun x n => ofInt64 (x.toInt / 2 ^ n))]

/-- The conditions of Table 3.2 on numbers. -/
def condSpec (c : Cond) (x y : Word) : Bool :=
  match c with
  | .eq => decide (x.toNat = y.toNat)
  | .ne => decide (x.toNat ≠ y.toNat)
  | .lt => decide (x.toInt < y.toInt)
  | .ge => decide (y.toInt ≤ x.toInt)
  | .ltu => decide (x.toNat < y.toNat)
  | .geu => decide (y.toNat ≤ x.toNat)
  | .tst => (List.range 64).any fun i => x.getLsbD i && y.getLsbD i

/-! ## Regions, traps and system registers -/

/-- A region entry at `pc` has been made (R347, R350): the counter rises, and the registers are kept as they stand. -/
def EntersRegion (pc : Word) (a b : Agent) : Prop :=
  b.spc = pc ∧ b.atEntry = true ∧ b.issued = a.issued + 1 ∧ b.nextRid = a.nextRid + 1
  ∧ b.reg = { rid := a.nextRid, ctr := a.reg.ctr + 1, entry := pc, nr := false, snapG := b.g, snapTrap := b.trapG, snapQ := b.q,
              snapMode := b.fpmode }
  ∧ b.olds = if a.queue.isEmpty then [] else a.reg :: a.olds

/-- The agent of a state has made a region entry at `pc`, and nothing else has changed. -/
def OnlyEntered (pc : Word) (s t : State) : Prop :=
  EntersRegion pc s.ag t.ag
  ∧ t = { s with ag := { s.ag with
          spc := t.ag.spc, atEntry := t.ag.atEntry, issued := t.ag.issued, nextRid := t.ag.nextRid, reg := t.ag.reg, olds := t.ag.olds } }

/-- The fields of sr.fault (Table 15.2): the entry of the region as an offset from SBASE, NR, LANE and the code. -/
def FaultIs (f : Word) (rpc : Nat) (nr lane : Bool) (code : Byte) : Prop :=
  bits f.toNat 63 16 = rpc ∧ bits f.toNat 15 10 = 0 ∧ bit f.toNat 9 = nr ∧ bit f.toNat 8 = lane ∧ bits f.toNat 7 0 = code.toNat

/-- A warp has taken a trap for the region at `entry` (R352, R353): it stands in trap mode at the trap entry, with the fault in its two
registers and an empty lane queue, and every other register, row and byte is as before. -/
def TookTrap (code : Byte) (addr : Word) (lane nr : Bool) (entry ctr : Word) (s t : State) : Prop :=
  t.ag.trapMode = true ∧ t.ag.spc = s.tm.pkt.sbase + ofNat64 s.tm.pkt.etrap ∧ t.ag.faultaddr = addr
  ∧ FaultIs t.ag.fault ((entry - s.tm.pkt.sbase).toNat % 2 ^ 48) nr lane code
  ∧ t.ag.reg.ctr = ctr ∧ t.ag.reg.entry = t.ag.spc
  ∧ t = { s with ag := { s.ag with
          trapMode := t.ag.trapMode, spc := t.ag.spc, fault := t.ag.fault, faultaddr := t.ag.faultaddr, reg := t.ag.reg,
          olds := t.ag.olds, nextRid := t.ag.nextRid, queue := [], running := false, cur := t.ag.cur, others := [], stack := [],
          latches := [], chain := 0, status := .running, pend := none, issued := t.ag.issued, atEntry := true, loads := [] } }

/-- The system registers of Table 3.15 and what each reads as (R68). -/
def sregTable : List (BitVec 12 × (State → Word)) :=
  [(0x000, fun s => ofNat64 s.ag.warpIndex), (0x001, fun s => ofNat64 s.tm.index), (0x002, fun s => s.tm.ptr),
   (0x003, fun s => ofNat64 s.ag.rank), (0x004, fun s => ofNat64 s.tm.cluster),
   (0x005, fun s => ofNat64 (2 * (s.tm.cluster / 12 / 4) + s.tm.cluster % 12 / 6)),
   (0x006, fun s => if s.tm.pkt.gang then ofNat64 s.tm.pkt.grank else 0), (0x007, fun s => ofNat64 s.tm.depth),
   (0x010, fun s => ofNat64 (((s.cluster s.tm.cluster).clkAt
      + (s.now - (s.cluster s.tm.cluster).clkFrom) * (s.cluster s.tm.cluster).freq) / 10)),
   (0x011, fun s => ofNat64 s.now), (0x020, fun s => s.ag.fpmode.setWidth 64), (0x021, fun s => s.ag.fpflags.setWidth 64),
   (0x030, fun s => s.ag.reg.ctr), (0x031, fun s => s.ag.fault), (0x032, fun s => s.ag.faultaddr),
   (0x040, fun s => ofNat64 (s.myRank.pool.length + s.myRank.zeroing.length)), (0x041, fun s => ofNat64 (s.passes s.tm.cluster)),
   (0x042, fun s => ofNat64 (s.cluster s.tm.cluster).level)]

/-- The agent with its registers as they stood at the entry of the region after `rid`, where its scalar stream has passed that entry (R350). -/
def Agent.registersAt (a : Agent) (rid : Nat) : Agent :=
  let n := a.region (rid + 1)
  if rid = a.reg.rid then a else { a with g := n.snapG, trapG := n.snapTrap, q := n.snapQ, fpmode := n.snapMode }

/-! ## Bytes -/

/-- The place can hold bytes of the focused team: the module's memory, or a part of the team's own windows. -/
def State.holds (s : State) : Place → Prop
  | .phys => True
  | .scratch _ | .accum _ => s.tm.id ≠ 0
  | .host _ => False

/-- One byte, in the module's memory, behind a port, or in a window of the focused team. -/
def State.byteAt (s : State) : Place → Nat → Byte
  | .phys, a => s.mem.read a
  | .host p, a => (s.hostMem p).read a
  | .scratch r, a => if s.tm.id = 0 then 0 else (s.tm.rank r).scratch.read a
  | .accum r, a => if s.tm.id = 0 then 0 else (s.tm.rank r).accum.read a

/-- A byte as a load of a core reads it: at warp scope from the core's untracked copy of its line, where there is one (R181). -/
def State.seenByte (s : State) (core : Nat) (warpScope : Bool) (pl : Place) (a : Nat) : Byte :=
  match pl, s.l1.find? fun l => warpScope && l.core == core && l.line == a / 128 with
  | .phys, some l => l.data.getD (a % 128) (s.mem.read a)
  | _, _ => s.byteAt pl a

/-- Where byte `k` of an access lies. -/
def locOf : List Piece → Nat → Option (Place × Nat)
  | [], _ => none
  | p :: ps, k => if k < p.len then some (p.place, p.addr + k) else locOf ps (k - p.len)

/-- Byte `k` of an access, as memory holds it. -/
def State.accByte (s : State) (ps : List Piece) (k : Nat) : Byte :=
  match locOf ps k with
  | some (pl, a) => s.byteAt pl a
  | none => 0

/-- The first `n` bytes of an access as a little-endian number (R2). -/
def State.accNat (s : State) (ps : List Piece) (n : Nat) : Nat := ofBytes ((List.range n).map (s.accByte ps))

/-- An access covers a byte. -/
def Covers (ps : List Piece) (pl : Place) (a : Nat) : Prop := ∃ p ∈ ps, p.place = pl ∧ p.addr ≤ a ∧ a < p.addr + p.len

/-- What the pieces of a store in host memory send down the host write path (R194). -/
def hostWrites (ctx : BitVec 16) : List Piece → List Byte → List HostWrite
  | [], _ => []
  | p :: ps, bs =>
    match p.place with
    | .host port => { ctx := ctx, port := port, addr := p.addr, data := bs.take p.len } :: hostWrites ctx ps (bs.drop p.len)
    | _ => hostWrites ctx ps (bs.drop p.len)

/-- The bytes of a store of a context have been written where its pieces lie (of two bytes for one place the later stands), host bytes have been
sent on their way, and every other byte reads as before. -/
def StoredBy (ctx : BitVec 16) (ps : List Piece) (bs : List Byte) (s t : State) : Prop :=
  (∀ pl a, ¬ Covers ps pl a → t.byteAt pl a = s.byteAt pl a)
  ∧ (∀ k pl a, k < bs.length → locOf ps k = some (pl, a) → s.holds pl →
      (∀ j, k < j → j < bs.length → locOf ps j ≠ some (pl, a)) → t.byteAt pl a = bs.getD k 0)
  ∧ t.hostPath = s.hostPath ++ hostWrites ctx ps bs

/-- The bytes of a store of the focused agent have been written. -/
def Stored (ps : List Piece) (bs : List Byte) (s t : State) : Prop := StoredBy s.tm.ctx ps bs s t

/-- Nothing but bytes, and what the caches hold beside them, has changed. -/
def OnlyBytes (s t : State) : Prop :=
  t = { s with
        mem := t.mem, poison := t.poison, l1 := t.l1, l2 := t.l2, hostPath := t.hostPath,
        tm := { s.tm with ranks := t.tm.ranks } }
  ∧ ∀ r, t.tm.rank r = { s.tm.rank r with scratch := (t.tm.rank r).scratch, accum := (t.tm.rank r).accum }

/-- The sectors that some stores cover whole together have lost their poison; every other one is poisoned as before (R372). -/
def PoisonAfter (ps : List Piece) (s t : State) : Prop :=
  ∀ x, x ∈ t.poison ↔ x ∈ s.poison ∧ ∃ a, 32 * x ≤ a ∧ a < 32 * x + 32 ∧ ¬ Covers ps .phys a

/-- The sectors that a piece covers whole have lost their poison; every other one is poisoned as before (R372). -/
def PoisonLeft (ps : List Piece) (s t : State) : Prop :=
  ∀ x, x ∈ t.poison ↔ x ∈ s.poison ∧ ∀ p ∈ ps, ¬ (p.place = .phys ∧ p.addr ≤ 32 * x ∧ 32 * x + 32 ≤ p.addr + p.len)

/-- A store within one line of the focused agent: its line is dirty in L2, which takes the line where its slice has room, and in the L1 of its core
where that owns it, with the agent's context as its tag, or 0xFFFE through a shared page or over another context's dirty line (R334); the untracked
copies of its own core hold the new bytes, those of other cores are as before, and no other core's L1 holds the line as a tracked one (R181). -/
def LineStored (p : Piece) (bs : List Byte) (s t : State) : Prop :=
  let line := p.addr / 128
  let old := (s.l2.find? line).bind fun y => y.dirty
  let tag (d : Option (BitVec 16)) : BitVec 16 := if p.shr = true ∨ (d.any fun g => g != s.tm.ctx) = true then 0xFFFE else s.tm.ctx
  (∀ x, t.l2.find? line = some x → x.dirty = some (tag old))
  ∧ ((s.l2.find? line).isSome = true ∨ (roomFor s.badLines s.l2 line).isSome = true → (t.l2.find? line).isSome = true)
  ∧ ∃ f : L1Line → L1Line,
      t.l1 = (s.l1.filter fun y => decide (y.kind = .untracked ∨ y.core = s.who.core ∨ y.line ≠ line)).map f
      ∧ ∀ y, f y = { y with data := (f y).data, dirty := (f y).dirty } ∧ (f y).data.length = y.data.length
          ∧ (f y).dirty = (if y.kind = .owned ∧ y.core = s.who.core ∧ y.line = line
              then some (tag (if (t.l2.find? line).isSome = true then old else y.dirty)) else y.dirty)
          ∧ ∀ j, j < y.data.length → j < 128 → (f y).data.getD j 0
              = if y.kind = .untracked ∧ y.core = s.who.core ∧ p.addr ≤ 128 * y.line + j ∧ 128 * y.line + j < p.addr + bs.length
                then bs.getD (128 * y.line + j - p.addr) 0 else y.data.getD j 0

/-- Some pieces share a byte with a line of the module's memory. -/
def Touches (ps : List Piece) (line : Nat) : Prop := ∃ p ∈ ps, p.place = .phys ∧ p.addr < 128 * line + 128 ∧ 128 * line < p.addr + p.len

/-- A line of an L1 that a load of a core has put there, or changed: at warp scope an untracked copy, which holds the line as memory does; at a wider
scope a tracked line of the core, or one of another core that owned the line and now shares it (R181, R214). -/
def FilledLine (core : Nat) (warpScope : Bool) (s : State) (x : L1Line) : Prop :=
  if warpScope = true then x.core = core ∧ x.kind = .untracked ∧ x.data = s.mem.readN (x.line * 128) 128
  else x.kind = .shared ∧ (x.core = core ∨ ∃ y ∈ s.l1, y.kind = .owned ∧ x = { y with kind := .shared, dirty := none })

/-- The caches after a load of a core, and nothing else has changed: the lines of other cores stay, but for an owner that now shares, and a load at a
scope wider than the warp leaves the core no untracked copy of what it has read; L2 takes lines, which are clean (R181, R183, R214). -/
def Cached (core : Nat) (warpScope : Bool) (ps : List Piece) (s t : State) : Prop :=
  t = { s with l1 := t.l1, l2 := t.l2 }
  ∧ (∀ x ∈ t.l1, x ∈ s.l1 ∨ (Touches ps x.line ∧ FilledLine core warpScope s x))
  ∧ (∀ x ∈ s.l1, x.core ≠ core → x ∈ t.l1 ∨ (warpScope = false ∧ Touches ps x.line ∧ x.kind = .owned ∧ { x with kind := .shared, dirty := none } ∈ t.l1))
  ∧ (warpScope = false → ∀ x ∈ t.l1, x.kind = .untracked → ¬ (x.core = core ∧ Touches ps x.line))
  ∧ ∀ x ∈ t.l2, x ∈ s.l2 ∨ (Touches ps x.1 ∧ x.2.dirty = none)

/-- No other L1 holds a tracked line of what a core has stored to; the core's own L1 keeps what it tracks of it, and what it owns of it is dirty;
every other tracked line stays (R181, R192, R334). -/
def TrackedAfter (core : Nat) (ps : List Piece) (s t : State) : Prop :=
  ∀ x : L1Line, x.kind ≠ .untracked →
    (¬ (x.core = core ∧ Touches ps x.line) → (x ∈ t.l1 ↔ x ∈ s.l1 ∧ ¬ Touches ps x.line))
    ∧ (x.core = core → Touches ps x.line →
        ((∃ d, { x with dirty := d } ∈ t.l1) ↔ ∃ d, { x with dirty := d } ∈ s.l1)
        ∧ (x.kind = .owned → x ∈ t.l1 → x.dirty.isSome = true) ∧ (x.kind = .shared → (x ∈ t.l1 ↔ x ∈ s.l1)))

/-- Another core's L1 holds a line in a way that its home slice knows of, with some property. -/
def State.heldElsewhere (s : State) (core line : Nat) (f : L1Kind → Prop) : Prop := ∃ x ∈ s.l1, x.line = line ∧ x.core ≠ core ∧ x.kind ≠ .untracked ∧ f x.kind

/-- The L1s after an atomic of a core to a line that has been granted to it: no other L1 holds the line as a tracked one, its own holds it as its
owner unless the hint forbids it, and no line of another core is touched otherwise (R183, R192). -/
def Granted (core : Nat) (hint : Fin 4) (line : Nat) (s t : State) : Prop :=
  (∀ x ∈ t.l1, x ∈ s.l1 ∨ (x.core = core ∧ x.line = line))
  ∧ (∀ x : L1Line, x.core ≠ core → (x ∈ t.l1 ↔ x ∈ s.l1 ∧ (x.line = line → x.kind = .untracked)))
  ∧ (∀ x ∈ t.l1, x.core = core → x.line = line → hint ≠ 3 ∧ x.kind = .owned)
  ∧ (hint ≠ 3 → ∃ x ∈ t.l1, x.core = core ∧ x.line = line
      ∧ let held (y : L1Line) : Prop := y ∈ s.l1 ∧ y.core = core ∧ y.line = line ∧ y.kind ≠ .untracked
        ((∀ y, ¬ held y) ∧ x.ctx = s.who.ctx ∧ x.dirty = none) ∨ ∃ y, held y ∧ x.ctx = y.ctx ∧ x.dirty = y.dirty)

/-- The contention predictor after an atomic of the focused agent at its pieces, and nothing else has changed (R192): the counter of the line rises
where another L1 owned it, and falls where no other L1 held it; a request whose counter was below 2 is granted the line, and any other takes
the ownership from the other L1s. Memory outside global space has none. -/
def Predicted (hint : Fin 4) (ps : List Piece) (s t : State) : Prop :=
  t = { s with predictor := t.predictor, l1 := t.l1 }
  ∧ match ps with
    | [] => t = s
    | p :: _ =>
      let line := p.addr / 128
      let n := counterOf line
      let c := s.predictor.getD n 0
      let core := s.who.core
      if p.place = .phys then
        (∀ m, m ≠ n → t.predictor.getD m 0 = s.predictor.getD m 0)
        ∧ (s.heldElsewhere core line (· = .owned) → t.predictor.getD n 0 = min (c + 1) 3)
        ∧ (¬ s.heldElsewhere core line (· = .owned) → s.heldElsewhere core line (fun _ => True) → t.predictor.getD n 0 = c)
        ∧ (¬ s.heldElsewhere core line (fun _ => True) → t.predictor.getD n 0 = c - 1)
        ∧ (c < 2 → Granted core hint line s t)
        ∧ (2 ≤ c → ∀ x, x ∈ t.l1 ↔ x ∈ s.l1 ∧ ¬ (x.kind = .owned ∧ x.line = line ∧ x.core ≠ core))
      else t = s

/-- A pointer with a displacement, and whether it has kept its space and rank (R176). -/
def scalarAt (a : Word) (i : BitVec 14) : LaneAcc :=
  { lane := 0, ptr := a + ofInt64 i.toInt, ok := bits (a + ofInt64 i.toInt).toNat 63 58 == bits a.toNat 63 58 }

/-- The host write path stands empty before an access to host space (R194). -/
def State.hostFirst (s : State) (p : Word) : State := if bits p.toNat 63 61 = 4 then s.drainHost else s

/-- The core's L1 holds no untracked line any more: an acquire at a scope wider than the warp (R216). -/
def Acquired (core : Nat) (sc : Scope) (s t : State) : Prop :=
  t = { s with l1 := t.l1 } ∧ if sc = .warp then t.l1 = s.l1 else t.l1 = s.l1.filter fun l => decide ¬ (l.core = core ∧ l.kind = .untracked)

/-! ## Register maps and rows -/

/-- A row of the focused agent's core that some name, slot or command holds. -/
def State.liveRow (s : State) (n : Nat) : Option Row := s.myRank.live.find? n

/-- A row that loses `c` references: without references and holds it is free (R315, R316). -/
def Row.less (x : Row) (c : Nat) : Option Row :=
  if c ≠ 0 ∧ x.refs ≤ c ∧ x.readHolds = 0 ∧ x.writeHolds = 0 then none else some { x with refs := x.refs - c }

/-- Nothing but the map of the focused agent and rows of its core has changed; a row that is no longer live has joined the rows being
zeroed. -/
def OnlyMap (s t : State) : Prop :=
  t = { s with ag := { s.ag with vmap := t.ag.vmap }, tm := { s.tm with ranks := t.tm.ranks } }
  ∧ t.myRank = { s.myRank with live := t.myRank.live, zeroing := t.myRank.zeroing }
  ∧ (∀ r, r ≠ s.ag.rank → t.tm.rank r = s.tm.rank r)
  ∧ ∃ l, t.myRank.zeroing = s.myRank.zeroing ++ l ∧ ∀ n, n ∈ l ↔ (s.liveRow n).isSome ∧ t.liveRow n = none

/-- No row has changed. -/
def RowsKept (s t : State) : Prop := t.tm.ranks = s.tm.ranks

/-- The names of a range that map a row. -/
def State.namesOf (s : State) (a k row : Nat) : Nat := (List.range k).countP fun i => (s.entry (a + i)).any fun e => e.row == row

/-- A destination name gives up its row: it is free, or maps a row on which no command holds. -/
def State.yields (s : State) (b row : Nat) : Prop := ∀ e, s.entry b = some e → e.row ≠ row ∧ s.held e.row = false

/-- Every row as it stands when the old row of a destination name has lost its reference. -/
def State.rowAfter (s : State) (b n : Nat) : Option Row :=
  match s.liveRow n with
  | none => none
  | some x => if (s.entry b).any fun e => e.row == n then x.less 1 else some x

/-! ## Barriers -/

/-- The wait of an agent on an object has ended, unless it has stopped in it for a save (R279, R359). -/
def wakeIf (t : Team) (l : BarLoc) (phase : Nat) (a : Agent) : Agent :=
  if a.satisfied l phase = true ∧ ¬ (t.saveReq.isSome = true ∧ a.queue = []) then a.wake a.waitScope else a

/-- The object at a place of the focused team has become `b`, the waits that it satisfies have ended, and nothing else has changed. -/
def BarNow (l : BarLoc) (b : Bar) (s t : State) : Prop :=
  t = { s with
        tm := { s.tm with ranks := t.tm.ranks }, l1 := t.l1, ag := wakeIf s.tm l b.phase s.ag, agents := s.agents.map (wakeIf s.tm l b.phase) }
  ∧ t.tm.bar l = b
  ∧ (∀ r n, r ≠ l.rank ∨ n < l.off ∨ l.off + 16 ≤ n → (t.tm.rank r).scratch.read n = (s.tm.rank r).scratch.read n)
  ∧ (∀ r, t.tm.rank r = { s.tm.rank r with scratch := (t.tm.rank r).scratch })
  ∧ ∀ x ∈ t.l1, x ∈ s.l1

/-! ## Engine commands -/

/-- The instruction has written its answer and committed; nothing else has changed since `v`, but that regions entered since hold the answer
too (R350). -/
def Answered (q : Fin 8) (b : Bool) (v : State) (o : Out) : Prop :=
  ∃ u : State, o = .next u.commit ∧ u.qIs q b ∧ OnlyRegs [] [q] v { u with ag := { u.ag with reg := v.ag.reg, olds := v.ag.olds } }

/-- A command as it is accepted: with its word, its descriptor registers, its barrier and its issuer, and nothing done yet. -/
def CmdIs (kind : CmdKind) (i : Instr) (e : EngOps) (d : List Word) (s : State) (c : Cmd) : Prop :=
  c.id = s.nextId ∧ c.kind = kind ∧ c.instr = i ∧ c.agent = s.ag.id ∧ c.team = s.tm.id ∧ c.rank = s.ag.rank ∧ c.core = s.who.core ∧ c.desc = d
  ∧ c.bar = (if e.b.val = 0 then none else some (s.ag.getG e.b)) ∧ c.scope = e.s ∧ c.acq = e.acq ∧ c.rel = e.rel ∧ c.err = 0 ∧ c.suspended = []
  ∧ c.refused = [] ∧ c.cursor = 0 ∧ c.pending = [] ∧ c.arrived = false ∧ c.landed = [] ∧ c.running = 0 ∧ c.delivered = 0 ∧ c.old = []
  ∧ c.stopped = false ∧ c.started = 0 ∧ c.keys = [] ∧ c.early = [] ∧ c.leaves = 0

/-- The state in which a command has joined its engine. -/
def Joined (c : Cmd) (s t : State) : Prop := t = { s with nextId := s.nextId + 1, cmds := s.cmds ++ [c] }

/-- The registers of a descriptor (R66). -/
def State.descOf (s : State) (b : Fin 64) (n : Nat) : List Word := (List.range n).map fun i => s.ag.getG (Fin.ofNat 64 (b.val + i))

/-- A gang's acquiring command does not wait for its ranks (R247). -/
def GangReady (s : State) (sync : Prop) : Prop := s.gangPending s.tm = false ∨ ¬ sync

/-- Commands of some kinds on a core. -/
def State.loadOn (s : State) (core : Nat) (kinds : List CmdKind) : Nat := s.cmds.countP fun c => decide (c.core = core ∧ c.kind ∈ kinds)

/-- The first failure of a list of checks is this one. -/
def FirstOf (fs : List (Option Fail)) (r : Option Fail) : Prop :=
  match r with
  | none => ∀ f ∈ fs, f = none
  | some x => ∃ xs ys, fs = xs ++ some x :: ys ∧ ∀ f ∈ xs, f = none

/-- The last checks of a matrix command: its barrier, and room in the queue of 16 (R156); then it is accepted as `ok` says. -/
def MatrixTaken (e : EngOps) (s : State) (o : Out) (ok : Out → Prop) : Prop :=
  (∀ f, s.barFail e.b = some f → o = fault s f.code f.addr)
  ∧ (s.barFail e.b = none →
    (16 ≤ s.loadOn s.who.core [.mmac, .azero, .ard, .awr] → Answered e.q false s o)
    ∧ (s.loadOn s.who.core [.mmac, .azero, .ard, .awr] < 16 → GangReady s (e.acq = true ∧ e.s = .gang) → ok o))

/-- Nothing but rows of the focused agent's core has changed: some are held more often, for reading or for writing (R159). -/
def HeldMore (reads writes : List Nat) (s t : State) : Prop :=
  t = { s with tm := { s.tm with ranks := t.tm.ranks } }
  ∧ (∀ r, r ≠ s.ag.rank → t.tm.rank r = s.tm.rank r) ∧ t.myRank = { s.myRank with live := t.myRank.live }
  ∧ ∀ n, t.liveRow n = (s.liveRow n).map fun x =>
      { x with readHolds := x.readHolds + reads.count n, writeHolds := x.writeHolds + writes.count n }

/-- The rows that names map. -/
def State.rowsNamed (s : State) (ns : List Nat) : List Nat := ns.map fun n => ((s.entry n).map (·.row)).getD 0

/-! ## Lane words: what they leave -/

/-- A lane word acts: its latches are named, some lane is active, its names fit, and it waits for no row (R37, R110 to R112). -/
def LaneReady (s : State) (h : LaneHead) (us : List SrcUse) (ds : List Nat) : Prop :=
  s.staleLatch us = false ∧ s.active h ≠ 0 ∧ s.checkNames us ds = none ∧ s.laneWaits us ds = false

/-- A result has been written to a name in the active lanes, with a tag: the name's own row, whose other lanes are kept, or a row of the pool,
whose other lanes are zero (R39, R314). Nothing else has changed. -/
def NameWrote (n : Nat) (tag : BitVec 4) (act : Mask) (v : Nat → Nat) (s u : State) : Prop :=
  ∃ r x, u = { s with ag := { s.ag with vmap := u.ag.vmap }, tm := { s.tm with ranks := u.tm.ranks } }
    ∧ u.entry n = some { row := r, tag := tag } ∧ (∀ m, m ≠ n → u.entry m = s.entry m)
    ∧ (∀ k, k ≠ s.ag.rank → u.tm.rank k = s.tm.rank k) ∧ u.myRank = { s.myRank with pool := u.myRank.pool, live := u.myRank.live }
    ∧ u.liveRow r = some x ∧ (∀ m, m ≠ r → u.liveRow m = s.liveRow m) ∧ x.data.length = 64
    ∧ (∀ e, s.entry n = some e → r = e.row ∧ u.myRank.pool = s.myRank.pool ∧ x = { s.myRank.row r with data := x.data }
        ∧ ∀ l, l < 64 → x.data.getD l 0 = if act.getLsbD l = true then BitVec.ofNat 32 (v l) else (s.myRank.row r).data.getD l 0)
    ∧ (s.entry n = none → s.myRank.pool = r :: u.myRank.pool ∧ x = { data := x.data, refs := 1, readHolds := 0, writeHolds := 0 }
        ∧ ∀ l, l < 64 → x.data.getD l 0 = if act.getLsbD l = true then BitVec.ofNat 32 (v l) else 0)

/-- The running fragment has gone on to its next word; the chain goes on, with the word's latch where it names one, or ends, and its latches
are lost (R36, R37). -/
def LaneWent (h : LaneHead) (latch : Bool) (act : Mask) (v : Nat → Nat) (fl : Flags) (u t : State) : Prop :=
  t = { u with ag := { u.ag with
          cur := { u.ag.cur with lpc := u.ag.cur.lpc + 12, early := none }, issued := u.ag.issued + 1, chain := t.ag.chain, latches := t.ag.latches,
          fpflags := u.ag.fpflags ||| fl } }
  ∧ (h.chain = true ∧ u.ag.chain + 1 < 8 →
      t.ag.chain = u.ag.chain + 1
      ∧ (∀ m, latch = false ∨ m ≠ h.latch.val → t.ag.latches.find? m = u.ag.latches.find? m)
      ∧ (latch = true → ∃ xs, t.ag.latches.find? h.latch.val = some xs ∧ xs.length = 64
          ∧ ∀ l, l < 64 → xs.getD l 0 = if act.getLsbD l = true then ofNat64 (v l) else 0))
  ∧ (¬ (h.chain = true ∧ u.ag.chain + 1 < 8) → t.ag.chain = 0 ∧ t.ag.latches = [])

/-- A lane word has delivered a result: to its name, or its two names, or with nowb to none; to its latch; and its flags. -/
def LaneResult (h : LaneHead) (wide : Bool) (tag : BitVec 4) (act : Mask) (v : Nat → Nat) (fl : Flags) (s t : State) : Prop :=
  ∃ u, (h.nowb = true → u = s)
    ∧ (h.nowb = false → wide = false → NameWrote h.name.val tag act v s u)
    ∧ (h.nowb = false → wide = true → ∃ w, NameWrote h.name.val tag act v s w ∧ NameWrote (h.name.val + 1) tag act (fun l => v l / 2 ^ 32) w u)
    ∧ LaneWent h true act v fl u t

/-- The flags that the active lanes raise (R103). -/
def flagsOf (act : Mask) (f : Nat → Flags) : Flags :=
  (List.range 64).foldl (fun g l => if act.getLsbD l = true then g ||| f l else g) 0

/-- The value of an operand in one lane (R109). -/
def State.laneVal (s : State) (t : Ty) (imm : BitVec 24) (src : Src) (l : Nat) : Nat := (s.operand t imm src).getD l 0

/-- An operand that an instruction may not have. -/
def State.laneVal? (s : State) (imm : BitVec 24) (src : Src) (l : Nat) : Option Ty → Nat
  | some t => s.laneVal t imm src l
  | none => 0

/-! ## Lane words: what they compute -/

/-- A lane word of the arithmetic layout that computes each lane by itself: the types of its operands, of its result, its tag, and the value and
the flags of a lane. -/
structure LaneForm where
  instr : Instr
  ta : Option Ty
  tb : Option Ty
  tc : Option Ty
  rt : Ty
  tag : BitVec 4
  f : Rnd → Nat → Nat → Nat → Nat × Flags

/-- Element `i` of a lane value (R96). -/
def elemOf (t : Ty) (x i : Nat) : Nat := x / 2 ^ (i * elemBits t) % 2 ^ elemBits t
/-- A lane value from its elements. -/
def wholeOf (t : Ty) (f : Nat → Nat) : Nat := (List.range t.count).foldl (fun x i => x + f i * 2 ^ (i * elemBits t)) 0
/-- The flags of the elements of a lane value. -/
def elemFlags (t : Ty) (f : Nat → Flags) : Flags := (List.range t.count).foldl (fun g i => g ||| f i) 0
/-- A number of `b` bits as an integer. -/
def intOf (signed : Bool) (b x : Nat) : Int := if signed = true ∧ 2 ^ (b - 1) ≤ x then (x : Int) - 2 ^ b else x
/-- The least and the greatest integer of `b` bits. -/
def leastInt (signed : Bool) (b : Nat) : Int := if signed = true then -2 ^ (b - 1) else 0
/-- The greatest integer of `b` bits. -/
def greatestInt (signed : Bool) (b : Nat) : Int := if signed = true then 2 ^ (b - 1) - 1 else 2 ^ b - 1
/-- An exact result in `b` bits (R97): clamped under saturation, else wrapped. -/
def clampInt (signed : Bool) (b : Nat) (sat : Bool) (x : Int) : Nat × Flags :=
  if sat = true ∧ x < leastInt signed b then ((leastInt signed b % 2 ^ b).toNat, Flags.sat)
  else if sat = true ∧ greatestInt signed b < x then ((greatestInt signed b % 2 ^ b).toNat, Flags.sat)
  else ((x % 2 ^ b).toNat, 0)
/-- A function of elements applied to lane values. -/
def byElems (t : Ty) (f : Nat → Nat → Nat → Nat × Flags) (a b c : Nat) : Nat × Flags :=
  let r (i : Nat) : Nat × Flags := f (elemOf t a i) (elemOf t b i) (elemOf t c i)
  (wholeOf t fun i => (r i).1, elemFlags t fun i => (r i).2)
/-- A number of `n` bits from its bits. -/
def numOf (n : Nat) (p : Nat → Bool) : Nat := (List.range n).foldl (fun x j => if p j = true then x + 2 ^ j else x) 0

/-- The integer operations of Table 6.4 on elements, by their exact results (R121, R122, R124). -/
def intForms (w : ArithOps) : List LaneForm :=
  let t := w.ty
  let b := elemBits t
  let g (f : Int → Int → Int → Int) : Rnd → Nat → Nat → Nat → Nat × Flags := fun _ =>
    byElems t fun x y z => clampInt (tySigned t) b w.m.sat (f (intOf (tySigned t) b x) (intOf (tySigned t) b y) (intOf (tySigned t) b z))
  let two (i : Instr) (f : Int → Int → Int) : LaneForm := ⟨i, some t, some t, none, t, tyTag t, g fun x y _ => f x y⟩
  [two (.iadd w) fun x y => x + y, two (.isub w) fun x y => x - y, two (.imul w) fun x y => x * y,
   two (.imulh w) fun x y => x * y / 2 ^ b, two (.imin w) fun x y => min x y, two (.imax w) fun x y => max x y,
   ⟨.imad w, some t, some t, some t, t, tyTag t, g fun x y z => x * y + z⟩,
   ⟨.iabs w, some t, none, none, t, tyTag t, g fun x _ _ => if x < 0 then -x else x⟩]

/-- The widening operations (R122): IMADW gives a pair, IDP4 a sum of four products. -/
def widenForms (w : ArithOps) : List LaneForm :=
  let sw := decide (w.ty = .s32)
  let sp := decide (w.ty = .s8x4)
  let wide : Ty := if sw = true then .s64 else .u64
  let sum : Ty := if sp = true then .s32 else .u32
  let b := elemBits w.ty
  [⟨.imadw w, some w.ty, some w.ty, some wide, wide, 0, fun _ x y z =>
      clampInt sw 64 w.m.sat (intOf (tySigned w.ty) b x * intOf (tySigned w.ty) b y + intOf sw 64 z)⟩,
   ⟨.idp4 w, some w.ty, some w.ty, some sum, sum, tyTag sum, fun _ x y z =>
      clampInt sp 32 w.m.sat ((List.range w.ty.count).foldl (fun (n : Int) i =>
        n + intOf (tySigned w.ty) b (elemOf w.ty x i) * intOf (tySigned w.ty) b (elemOf w.ty y i)) 0 + intOf sp 32 z)⟩]

/-- The operations on bit patterns (R123 to R125, R127, R141), on whole lane values. -/
def bitForms (w : ArithOps) : List LaneForm :=
  let t := w.ty
  let n := tyBits t
  let one (i : Instr) (f : Nat → Nat) : LaneForm := ⟨i, some t, none, none, t, tyTag t, fun _ x _ _ => (f x, 0)⟩
  let two (i : Instr) (f : Nat → Nat → Nat) : LaneForm := ⟨i, some t, some t, none, t, tyTag t, fun _ x y _ => (f x y, 0)⟩
  let pos := bits w.imm.toNat 5 0
  let len := bits w.imm.toNat 12 6
  [two (.iand w) fun x y => x &&& y, two (.ior w) fun x y => x ||| y, two (.ixor w) fun x y => x ^^^ y,
   two (.iandn w) fun x y => x &&& (2 ^ n - 1 - y),
   two (.ishl w) fun x y => if n ≤ y % 2 ^ 32 then 0 else x * 2 ^ (y % 2 ^ 32) % 2 ^ n,
   two (.ishr w) fun x y => if n ≤ y % 2 ^ 32 then 0 else x / 2 ^ (y % 2 ^ 32),
   two (.isar w) fun x y =>
     ((intOf true n x / 2 ^ (if n ≤ y % 2 ^ 32 then n else y % 2 ^ 32)) % 2 ^ n).toNat,
   ⟨.ilop3 w, some t, some t, some t, t, tyTag t, fun _ x y z =>
     (numOf n fun j => bit w.imm.toNat ((if bit x j = true then 4 else 0) + (if bit y j = true then 2 else 0) + if bit z j = true then 1 else 0), 0)⟩,
   one (.popc w) fun x => (List.range n).countP fun j => bit x j,
   one (.clz w) fun x => (List.range n).countP fun j => decide (x < 2 ^ (n - 1 - j)),
   one (.brev w) fun x => numOf n fun j => bit x (n - 1 - j),
   one (.bfe w) fun x => if tySigned t = true then (intOf true len (x / 2 ^ pos % 2 ^ len) % 2 ^ n).toNat else x / 2 ^ pos % 2 ^ len,
   two (.bfi w) fun x y => y % 2 ^ pos + x % 2 ^ len * 2 ^ pos + y / 2 ^ (pos + len) * 2 ^ (pos + len),
   one (.mov w) fun x => x,
   two (.pack w) fun x y => wholeOf t fun i => if i = w.imm.toNat then elemOf t x 0 else elemOf t y i,
   two (.unpk w) fun x y => wholeOf t fun i => if i = 0 then (if w.imm.toNat < t.count then elemOf t x w.imm.toNat else 0) else elemOf t y i]

/-- The floating-point operations on elements: each operand modified, the exact result, and its delivery (R128 to R135). -/
def floatForms (w : ArithOps) : List LaneForm :=
  let t := w.ty
  let fmt := fmtOf t
  let a (x : Nat) : FVal := (fmt.decode x).modify w.m.absA w.m.negA
  let b (x : Nat) : FVal := (fmt.decode x).modify w.m.absB w.m.negB
  let c (x : Nat) : FVal := (fmt.decode x).modify false w.m.negC
  let g (f : Rnd → Nat → Nat → Nat → FVal × Flags) : Rnd → Nat → Nat → Nat → Nat × Flags := fun r =>
    byElems t fun x y z => fmt.deliverF r w.m.sat (f r x y z)
  let two (i : Instr) (f : Rnd → FVal → FVal → FVal × Flags) : LaneForm :=
    ⟨i, some t, some t, none, t, tyTag t, g fun r x y _ => f r (a x) (b y)⟩
  let pick (i : Instr) (f : Nat → Nat → Nat × Flags) : LaneForm :=
    ⟨i, some t, some t, none, t, tyTag t, fun _ => byElems t fun x y _ => f (fmt.modify w.m.absA w.m.negA x) (fmt.modify w.m.absB w.m.negB y)⟩
  [two (.fadd w) fun r x y => FVal.add r x y, two (.fsub w) fun r x y => FVal.add r x (y.modify false true),
   two (.fmul w) fun _ x y => FVal.mul x y, two (.fdiv w) fun _ x y => FVal.div x y,
   ⟨.ffma w, some t, some t, some t, t, tyTag t, g fun r x y z => FVal.fma r (a x) (b y) (c z)⟩,
   ⟨.fsqrt w, some t, none, none, t, tyTag t, g fun _ x _ _ => FVal.sqrt (a x)⟩,
   pick (.fmin w) fun x y => fmt.minMax false x y, pick (.fmax w) fun x y => fmt.minMax true x y,
   ⟨.fclass w, some t, none, none, t, 0, fun _ => byElems t fun x _ _ => (fmt.classMask x, 0)⟩,
   ⟨.fscale w, some t, some (if t = .f64 then .s64 else .s32), none, t, tyTag t, fun r x y _ =>
      fmt.deliverF r w.m.sat ((a x).scale (intOf true 32 (y % 2 ^ 32)))⟩]

/-- The functions of Table 6.6, on F32, to nearest (R134). -/
def functionForms (w : ArithOps) : List LaneForm :=
  let g (i : Instr) (f : FVal → FVal × Flags) : LaneForm :=
    ⟨i, some .f32, none, none, .f32, 1, fun _ x _ _ =>
      Fmt.f32.deliverF .rne false (f ((Fmt.f32.decode x).modify w.m.absA w.m.negA))⟩
  [g (.frcp w) FVal.recip, g (.frsq w) FVal.rsqrt, g (.fexp2 w) FVal.exp2, g (.flog2 w) FVal.log2, g (.fsin w) FVal.sin, g (.fcos w) FVal.cos,
   g (.ftanh w) FVal.tanh]

/-- The conversions (R136, R139, R140): CVT of the elements that both types have, CVTQ to and CVTF from 64-bit fixed point. -/
def convertForms (w : ArithOps) : List LaneForm :=
  let src := cvtSrc w
  let scale : Int := (bits w.imm.toNat 5 0 : Nat)
  let times (v : FVal) (n : Int) : FVal := match v with
    | .num neg x => .num neg { x with e := x.e + n }
    | v => v
  [⟨.cvt w, some src, none, none, w.ty, tyTag w.ty, fun r x _ _ =>
      let e (i : Nat) : Nat × Flags := if i < src.count then convElem src w.ty r w.m.sat w.m.absA w.m.negA (elemOf src x i) else (0, 0)
      (wholeOf w.ty fun i => (e i).1, elemFlags w.ty fun i => (e i).2)⟩,
   ⟨.cvtq w, some w.ty, none, none, .s64, 0, fun r x _ _ =>
      let v := (times (((fmtOf w.ty).decode x).modify w.m.absA w.m.negA) scale).toRange r w.m.sat (-2 ^ 63) (2 ^ 63 - 1)
      ((v.1 % 2 ^ 64).toNat, v.2)⟩,
   ⟨.cvtf w, some .s64, none, none, w.ty, tyTag w.ty, fun r x _ _ => (fmtOf w.ty).deliver r false (times (FVal.ofInt (intOf true 64 x)) (-scale))⟩]

/-- A word of the table computes its lanes from its operands and delivers them (R109, R128). -/
def LaneComputes (w : ArithOps) (s : State) (x : LaneForm) : Prop :=
  let act := s.active w.h
  let r := roundMode w.m.rnd s.blockMode
  let f (l : Nat) : Nat × Flags := x.f r (s.laneVal? w.imm w.a l x.ta) (s.laneVal? w.imm w.b l x.tb) (s.laneVal? w.imm w.c l x.tc)
  let v (l : Nat) : Nat := if x.rt = .t6 then (f l).1 % 2 ^ 30 else (f l).1
  LaneReady s w.h (arithUses w x.ta x.tb x.tc) (destNames w.h x.rt) →
    ∃ t, exec x.instr s = .next t ∧ LaneResult w.h x.rt.wide x.tag act v (flagsOf act fun l => (f l).2) s t

/-! ## The delivery of floating-point results (R90 to R102) -/

/-- The power of two of an exponent. -/
def pow2 (e : Int) : Rat := 2 ^ e

/-- The real number of an exact magnitude. -/
def Mag.value (x : Mag) : Rat := x.m * pow2 x.e

/-- A magnitude stands for a real number: its own, or one strictly above it and below the next. -/
def Mag.Holds (x : Mag) (v : Rat) : Prop :=
  if x.sticky = true then x.value < v ∧ v < (x.m + 1 : Nat) * pow2 x.e else v = x.value

/-- A binary format of Tables 5.1 and 5.2: fraction bits, the exponent of the smallest positive number, the largest number, and the patterns of the
largest number, of positive infinity, of the canonical NaN and of the sign. -/
structure BinaryFormat where
  fmt : Fmt
  fb : Nat
  qmin : Int
  largest : Rat
  top : Nat
  inf : Nat
  nan : Nat
  sign : Nat

/-- The binary formats; E4M3 has the NaN of the sign in place of an infinity (R92). -/
def binaryFormats : List BinaryFormat :=
  [⟨Fmt.f64, 52, -1074, (2 ^ 53 - 1) * pow2 971, 0x7FEFFFFFFFFFFFFF, 0x7FF0000000000000, 0x7FF8000000000000, 0x8000000000000000⟩,
   ⟨Fmt.f32, 23, -149, (2 ^ 24 - 1) * pow2 104, 0x7F7FFFFF, 0x7F800000, 0x7FC00000, 0x80000000⟩,
   ⟨Fmt.h2, 10, -24, 65504, 0x7BFF, 0x7C00, 0x7E00, 0x8000⟩,
   ⟨Fmt.b2, 7, -133, 255 * pow2 120, 0x7F7F, 0x7F80, 0x7FC0, 0x8000⟩,
   ⟨.e4m3, 3, -9, 448, 0x7E, 0x7F, 0x7F, 0x80⟩,
   ⟨Fmt.e5m2, 2, -16, 57344, 0x7B, 0x7C, 0x7E, 0x80⟩]

/-- A sign and a pattern. -/
def BinaryFormat.signed (b : BinaryFormat) (neg : Bool) (n : Nat) : Nat := if neg = true then b.sign + n else n

/-- The number of a positive finite pattern: subnormal where its exponent field is zero (R91, R93). -/
def BinaryFormat.valueOf (b : BinaryFormat) (n : Nat) : Rat :=
  if n < 2 ^ b.fb then n * pow2 b.qmin else ((2 ^ b.fb + n % 2 ^ b.fb : Nat) : Rat) * pow2 (b.qmin + (n / 2 ^ b.fb : Nat) - 1)

/-- The multiple that a mode selects for the magnitude `u` of a number with a sign (Table 5.4). -/
def Selects (r : Rnd) (neg : Bool) (u : Rat) (k : Nat) : Prop :=
  let down : Prop := (k : Rat) ≤ u ∧ u < k + 1
  let up : Prop := u ≤ k ∧ (k : Rat) < u + 1
  match r with
  | .rne => 2 * u ≤ 2 * k + 1 ∧ 2 * (k : Rat) ≤ 2 * u + 1 ∧ (2 * u = 2 * k + 1 ∨ 2 * (k : Rat) = 2 * u + 1 → k % 2 = 0)
  | .rtz => down
  | .rdn => if neg = true then up else down
  | .rup => if neg = true then down else up
  | .dyn => False

/-- Whether a mode takes the value of the larger magnitude where a number overflows (Table 5.5). -/
def Overflows (r : Rnd) (neg : Bool) : Prop := r = .rne ∨ (r = .rdn ∧ neg = true) ∨ (r = .rup ∧ neg = false)

/-- A magnitude rounds, as if the exponent range were unbounded, to below the smallest normal number (R91). -/
def BinaryFormat.Tiny (b : BinaryFormat) (r : Rnd) (neg : Bool) (v : Rat) : Prop :=
  ∃ (q : Int) (k : Nat), pow2 (q + b.fb) ≤ v ∧ v < pow2 (q + b.fb + 1) ∧ Selects r neg (v * pow2 (-q)) k ∧ k * pow2 q < pow2 (b.qmin + b.fb)

/-- The pattern and the flags that a binary format gives a non-zero number (R91, R100 to R102). -/
def BinaryFormat.Delivers (b : BinaryFormat) (r : Rnd) (sat neg : Bool) (v : Rat) (p : Nat × Flags) : Prop :=
  ∃ (q : Int) (k : Nat), b.qmin ≤ q ∧ v < pow2 (q + b.fb + 1) ∧ (q = b.qmin ∨ pow2 (q + b.fb) ≤ v) ∧ Selects r neg (v * pow2 (-q)) k
    ∧ (k * pow2 q ≤ b.largest → (∃ n ≤ b.top, b.valueOf n = k * pow2 q ∧ p.1 = b.signed neg n)
        ∧ (v = k * pow2 q → p.2 = Flags.none)
        ∧ (v ≠ k * pow2 q → (b.Tiny r neg v → p.2 = Flags.inx ||| Flags.ufl) ∧ (¬ b.Tiny r neg v → p.2 = Flags.inx)))
    ∧ (b.largest < k * pow2 q → (sat = true → p = (b.signed neg b.top, Flags.sat ||| Flags.inx))
        ∧ (sat = false → p.2 = Flags.ofl ||| Flags.inx ∧ (Overflows r neg → p.1 = b.signed neg b.inf) ∧ (¬ Overflows r neg → p.1 = b.signed neg b.top)))

/-- The number of a positive tapered pattern: 0 for the pattern 0. -/
def taperValue (f : Fmt) (n : Nat) : Rat := (f.decode n).mag.value

/-- The pattern and the flags that T8 or T6, with `n` magnitude bits, gives a non-zero number (R91, R95, R100 to R102). -/
def TaperDelivers (f : Fmt) (n : Nat) (r : Rnd) (sat neg : Bool) (v : Rat) (p : Nat × Flags) : Prop :=
  let top := 2 ^ n - 1
  let signed (k : Nat) : Nat := if k = 0 then 0 else if neg = true then 2 ^ n + k else k
  (taperValue f top < v → p = (signed top, if sat = true then Flags.sat ||| Flags.inx else Flags.ofl ||| Flags.inx))
  ∧ (v ≤ taperValue f top → ∃ k ≤ top, p.1 = signed k
      ∧ ((taperValue f k = v ∧ p.2 = Flags.none)
        ∨ (p.2 = (Flags.inx ||| if v < taperValue f 1 then Flags.ufl else Flags.none)
          ∧ ∃ l < top, taperValue f l < v ∧ v < taperValue f (l + 1)
            ∧ match r with
              | .rtz => k = l
              | .rdn => k = if neg = true then l + 1 else l
              | .rup => k = if neg = true then l else l + 1
              | .rne =>
                let mid := taperValue f l + taperValue f (l + 1)
                (2 * v < mid → k = l) ∧ (mid < 2 * v → k = l + 1) ∧ (2 * v = mid → (k = l ∨ k = l + 1) ∧ k % 2 = 0)
              | .dyn => False)))

/-! ## Sums of the matrix engine (R164, R165) -/

/-- A real number, an infinity or no number. -/
inductive Ext where
  | nan
  | inf (neg : Bool)
  | fin (v : Rat)
  deriving DecidableEq, Repr

/-- The real number of a decoded value. -/
def FVal.ext : FVal → Ext
  | .nan _ => .nan
  | .inf neg => .inf neg
  | .num neg x => .fin (if neg = true then -x.value else x.value)

/-- The exact product; infinity times zero is no number. -/
def Ext.mul : Ext → Ext → Ext
  | .nan, _ => .nan
  | _, .nan => .nan
  | .inf m, .inf n => .inf (m != n)
  | .inf m, .fin v => if v = 0 then .nan else .inf (m != decide (v < 0))
  | .fin v, .inf n => if v = 0 then .nan else .inf (decide (v < 0) != n)
  | .fin u, .fin v => .fin (u * v)

/-- The exact sum; infinities of unlike sign have none. -/
def Ext.add : Ext → Ext → Ext
  | .nan, _ => .nan
  | _, .nan => .nan
  | .inf m, .inf n => if m = n then .inf m else .nan
  | .inf m, .fin _ => .inf m
  | .fin _, .inf n => .inf n
  | .fin u, .fin v => .fin (u + v)

/-- One number lies below another. -/
def Ext.Less : Ext → Ext → Prop
  | .nan, _ => False
  | _, .nan => False
  | .inf m, .inf n => m = true ∧ n = false
  | .inf m, .fin _ => m = true
  | .fin _, .inf n => n = false
  | .fin u, .fin v => u < v

/-- A condition of Table 3.13 on floating-point numbers (R64, R131). -/
def FloatCond (k : Nat) (x y : Ext) : Prop :=
  let nan : Prop := x = .nan ∨ y = .nan
  if k = 0 then ¬ nan ∧ x = y else if k = 1 then nan ∨ x ≠ y else if k = 2 then x.Less y else if k = 3 then ¬ nan ∧ ¬ y.Less x
  else if k = 4 then y.Less x else if k = 5 then ¬ nan ∧ ¬ x.Less y else if k = 6 then ¬ nan else nan

/-- A value is exact: nothing lies beyond its digits. -/
def FVal.Exact (a : FVal) : Prop := ∀ neg x, a = .num neg x → x.sticky = false

/-- An operation gives a number, with the sign `zero` where that is zero, and flags; what it gives is exact, or stands for a number between two
multiples of a power of two that are close enough for every rounding. -/
def Gives (y : FVal × Flags) (zero : Bool) (x : Ext) (fl : Flags) : Prop :=
  y.2 = fl ∧ match x with
    | .nan => y.1.isNan = true
    | .inf neg => y.1 = .inf neg
    | .fin v => ∃ m : Mag, y.1 = .num (if v = 0 then zero else decide (v < 0)) m ∧ m.Holds (if v < 0 then -v else v)
        ∧ (m.sticky = true → 60 ≤ m.m.log2)

/-- A term times the scale of an E8M0 byte (R99, R152). -/
def Ext.scaled (x : Ext) (byte : Nat) : Ext :=
  if byte = 255 then .nan
  else match x with
    | .fin v => .fin (v * pow2 ((byte : Int) - 127))
    | x => x

/-- The exact sum of the real numbers of a list. -/
def Ext.total (ts : List Ext) : Rat :=
  (ts.map fun t => match t with
    | .fin v => v
    | _ => 0).sum

/-- A word is the rounded sum of terms: the rules of R165, in their order. -/
def RoundedSum (ts : List Ext) (w : Nat) : Prop :=
  let s := Ext.total ts
  (.nan ∈ ts → w = 0x7FC00000)
  ∧ (.nan ∉ ts → (.inf true ∈ ts → .inf false ∈ ts → w = 0x7FC00000) ∧ (.inf true ∈ ts → .inf false ∉ ts → w = 0xFF800000)
      ∧ (.inf false ∈ ts → .inf true ∉ ts → w = 0x7F800000)
      ∧ (.inf true ∉ ts → .inf false ∉ ts → (s = 0 → w = 0)
          ∧ (s ≠ 0 → ∀ b ∈ binaryFormats, b.fmt = Fmt.f32 → ∃ fl, b.Delivers .rne false (decide (s < 0)) (if s < 0 then -s else s) (w, fl))))

/-- A word of the table, with its latch, its sources and the names that it writes. -/
structure LaneGate where
  instr : Instr
  h : LaneHead
  latch : Bool
  us : List SrcUse
  ds : List Nat

/-- Every lane word that R110 to R112 gate. -/
def gatedWords (w : ArithOps) (v : MemOps) : List LaneGate :=
  (List.map (fun (x : LaneForm) => (⟨x.instr, w.h, true, arithUses w x.ta x.tb x.tc, destNames w.h x.rt⟩ : LaneGate))
    (intForms w ++ widenForms w ++ bitForms w ++ floatForms w ++ functionForms w ++ convertForms w))
  ++ [⟨.isetp w, w.h, false, [(w.a, tyNames w.ty), (w.b, tyNames w.ty)], []⟩, ⟨.fsetp w, w.h, false, [(w.a, tyNames w.ty), (w.b, tyNames w.ty)], []⟩,
      ⟨.sel w, w.h, true, [(w.a, tyNames w.ty), (w.b, tyNames w.ty)], destNames w.h w.ty⟩,
      ⟨.shfl w, w.h, true, [(w.a, tyNames w.ty), (w.b, tyNames w.ty)], destNames w.h w.ty⟩, ⟨.plane w, w.h, true, [], destNames w.h w.ty⟩,
      ⟨.qnt w, w.h, true, [(w.a, 1)], destNames w.h w.ty ++ [bits w.imm.toNat 8 0]⟩,
      ⟨.dqnt w, w.h, true, [(w.a, tyNames w.ty), (w.b, 1)], destNames w.h .f32⟩,
      ⟨.lscan w, w.h, true, [(w.a, tyNames w.ty)], destNames w.h w.ty⟩,
      ⟨.vld v, v.h, v.width != .w128, addrUses v, loadNames v⟩, ⟨.vst v, v.h, false, addrUses v ++ [(v.c, storeNames v)], []⟩,
      ⟨.vldn v, v.h, false, [(v.a, 1)], upTo v.h.name.val (v.h.name.val + rowCount v)⟩, ⟨.vstn v, v.h, false, [(v.a, 1), (v.c, rowCount v)], []⟩,
      ⟨.atom v, v.h, true, addrUses v ++ [(v.c, tyNames v.ty)], destNames v.h v.ty⟩,
      ⟨.acas v, v.h, true, addrUses v ++ [(v.c, tyNames v.ty), (.vec v.h.name, tyNames v.ty)], destNames v.h v.ty⟩,
      ⟨.red v, v.h, false, addrUses v ++ [(v.c, tyNames v.ty)], []⟩]

/-- Names that receive results one after another. -/
def NamesWrote (tag : BitVec 4) (act : Mask) : List (Nat × (Nat → Nat)) → State → State → Prop
  | [], s, u => u = s
  | (n, v) :: r, s, u => ∃ w, NameWrote n tag act v s w ∧ NamesWrote tag act r w u

/-- A number of the type `t6` loses its two spare bits (R96). -/
def t6Cut (t : Ty) (x : Nat) : Nat := if t = .t6 then x % 2 ^ 30 else x

/-- The comparison of Table 3.13 with a code on integers. -/
def intCondSpec (k : Nat) (x y : Int) : Bool :=
  if k = 0 then decide (x = y) else if k = 1 then decide (x ≠ y) else if k = 2 then decide (x < y) else if k = 3 then decide (x ≤ y)
  else if k = 4 then decide (x > y) else decide (x ≥ y)

/-- A lane predicate has been written in the active lanes, and nothing else. -/
def PredWrote (d : Fin 8) (act : Mask) (f : Nat → Bool) (s u : State) : Prop :=
  u = { s with ag := { s.ag with p := u.ag.p } }
  ∧ (∀ n, n ≠ d → u.ag.getP n = s.ag.getP n)
  ∧ ∀ l, l < 64 → (u.ag.getP d).getLsbD l
      = if d.val = 7 then true else if act.getLsbD l = true then f l else (s.ag.getP d).getLsbD l

/-- A g register or a q predicate has been written by a lane word, in the files and in the snapshots of later regions (R350); nothing else. -/
def QueueWrote (gs : List (Fin 64)) (qs : List (Fin 8)) (s u : State) : Prop :=
  OnlyRegs gs qs s { u with ag := { u.ag with reg := s.ag.reg, olds := s.ag.olds } }

/-- The accesses of a lane memory word (R201). -/
def State.accsOf (s : State) (w : MemOps) : List LaneAcc :=
  (List.range 64).filterMap fun l =>
    if (s.active w.h).getLsbD l = true then
      let base := ofNat64 (s.laneVal .u64 w.imm w.a l)
      let p := if w.uni = true then base + ofInt64 (intOf true 32 (s.laneVal .s32 w.imm w.b l)) else base
      some { lane := l, ptr := p, ok := w.uni = false || bits p.toNat 63 58 == bits base.toNat 63 58 }
    else none

/-- An access that may go on: its checks have passed and its memory is not fenced. -/
def AccessReady (s : State) (sp : AccSpec) (as : List LaneAcc) : Prop :=
  s.checkAccesses s.tm s.who sp as = none ∧ s.accessFenced s.who sp as = false

/-- The accesses of a lane memory word may be made: they are under way, since some lane has made its own (R217), or they may go on. -/
def AccessGoes (s : State) (sp : AccSpec) (as : List LaneAcc) : Prop := s.ag.cur.early.isSome = true ∨ AccessReady s sp as

/-- A lane word whose accesses have not begun takes the fault of the first phase that fails, with LANE set, and does nothing else; or it waits for a
fenced domain, before a fault of its pages or of poison and before its effect (R187, R201, R371). -/
def AccessStops (i : Instr) (sp : AccSpec) (as : List LaneAcc) (s : State) : Prop :=
  let late (e : Fail) : Prop := e.code ∈ [0x11#8, 0x12, 0x21]
  s.ag.cur.early = none →
    (∀ e, s.checkAccesses s.tm s.who sp as = some e → (late e → s.accessFenced s.who sp as = false) → exec i s = .next (s.memFault e true))
    ∧ ((∀ e, s.checkAccesses s.tm s.who sp as = some e → late e) → s.accessFenced s.who sp as = true → exec i s = .next s)

/-- The host write path stands empty before accesses to host space (R194). -/
def State.hostFirstOf (s : State) (as : List LaneAcc) : State :=
  if as.any (fun a => decide (bits a.ptr.toNat 63 61 = 4)) = true then s.drainHost else s

/-- The pieces of a lane's access. -/
def State.piecesOf (s : State) (acc : Acc) (n : Nat) (a : LaneAcc) : List Piece := goodPieces (s.pieces s.who acc a.ptr n a.lane)

/-- Where the bytes of every lane's access lie: as the word found when its accesses began (R187, R217). -/
def State.planOf (s : State) (acc : Acc) (n : Nat) (as : List LaneAcc) : List (Nat × List Piece) :=
  match s.ag.cur.early with
  | some e => e.plan
  | none => as.map fun a => (a.lane, s.piecesOf acc n a)

/-- What a lane has read that has made its access already (R217). -/
def State.aheadOf (s : State) (l : Nat) : Option Nat := s.ag.cur.early.bind fun e => (e.done.find? fun x => x.1 == l).map (·.2)

/-- What a lane's load gives: what it has read already, or what its bytes hold. -/
def State.laneGives (s : State) (warpScope : Bool) (plan : List (Nat × List Piece)) (l : Nat) : Nat :=
  ((plan.find? fun x => x.1 == l).map fun x => (s.aheadOf l).getD (ofBytes (x.2.flatMap (s.readPiece s.who warpScope)))).getD 0

/-- What a lane atomic makes of the old value and the operand (R204). -/
def atomSpecOp (op : Nat) (t : Ty) (o c : Nat) : Nat :=
  if isFloatTy t = true then
    (byElems t (fun x y _ => (fmtOf t).deliverF .rne false (FVal.add .rne ((fmtOf t).decode x) ((fmtOf t).decode y))) o c 0).1
  else
    let x := intOf (tySigned t) (elemBits t) o
    let y := intOf (tySigned t) (elemBits t) c
    if op = 0 then ((x + y) % 2 ^ elemBits t).toNat else if op = 1 then o &&& c else if op = 2 then o ||| c else if op = 3 then o ^^^ c
    else if op = 4 then (if y < x then c else o) else if op = 5 then (if x < y then c else o) else c

/-! ## Commands at their end, drops at their start -/

/-- A command has ended: its one arrival on its barrier, if it names one, with bytes and an error; it leaves its engine, and its team may end
(R255, R291). -/
def CmdEnded (c : Cmd) (bytes : Nat) (err : Byte) (v t : State) : Prop :=
  ∃ u : State, (c.bar = none → u = v) ∧ (∀ p, c.bar = some p → u = v.arrive (barLoc (v.whoCmd c) p) 1 bytes err)
    ∧ t = State.checkTeamEnd { u with cmds := u.cmds.filter fun x => decide (x.id ≠ c.id) } c.team

/-- Rows whose command has dropped its holds: one that nothing refers to any more has joined the rows being zeroed (R159, R315). -/
def HoldsDropped (reads : List Nat) (r y : Rank) : Prop :=
  y = { r with accum := y.accum, live := y.live, zeroing := y.zeroing }
  ∧ (∀ n, y.live.find? n = (r.live.find? n).bind fun x =>
      if reads.count n ≠ 0 ∧ x.refs = 0 ∧ x.readHolds ≤ reads.count n ∧ x.writeHolds = 0 then none
      else some { x with readHolds := x.readHolds - reads.count n })
  ∧ ∃ l, y.zeroing = r.zeroing ++ l ∧ l.Nodup ∧ ∀ n, n ∈ l ↔ (r.live.find? n).isSome ∧ y.live.find? n = none

/-- A command by number has become another; nothing else has changed. -/
def CmdNow (id : Nat) (c : Cmd) (s t : State) : Prop :=
  t = { s with cmds := t.cmds } ∧ t.getCmd id = some c ∧ ∀ n, n ≠ id → t.getCmd n = s.getCmd n

/-- A drop at its start (R296, R297): its g registers from g1 on, its rows as names from 0 on, and everything else clear. -/
def DropIs (t : Team) (rank entry : Nat) (o : Origin) (gs rows : List Nat) (a : Agent) : Prop :=
  a.id = .drop t.id t.nextDrop ∧ a.rank = rank ∧ a.role = .cpy ∧ a.origin = some o ∧ a.spc = t.pkt.sbase + ofNat64 entry
  ∧ (∀ i : Fin 64, a.getG i = if 1 ≤ i.val ∧ i.val ≤ gs.length then ofNat64 (gs.getD (i.val - 1) 0) else 0)
  ∧ (∀ n, a.vmap.find? n = (rows[n]?).map fun r => { row := r, tag := 0 })
  ∧ a.trapMode = false ∧ a.queue = [] ∧ a.status = .running ∧ a.p = [] ∧ a.q = 0 ∧ a.fpmode = 0 ∧ a.fpflags = 0 ∧ a.issued = 0

/-- A resident team has become another, and nothing else of the teams has changed. -/
def TeamNow (id : Nat) (x : Team) (s t : State) : Prop := t.getTeam id = some x ∧ ∀ n, n ≠ id → t.getTeam n = s.getTeam n

/-- A row holds some bytes, four to a lane, and zeros after them (R295). -/
def RowHolds (bs : List Byte) (x : Row) : Prop :=
  x.data.length = 64 ∧ (∀ l, l < 64 → x.data.getD l 0 = BitVec.ofNat 32 (ofBytes ((List.range 4).map fun j => bs.getD (4 * l + j) 0)))
  ∧ x.refs = 1 ∧ x.readHolds = 0 ∧ x.writeHolds = 0

/-! ## Ports -/

/-- The registers of a port have become others; nothing else has changed. -/
def PortNow (p : Port) (f : PortRegs → PortRegs) (s t : State) : Prop :=
  t = { s with host := { s.host with portA := t.host.portA, portB := t.host.portB } }
  ∧ t.port p = f (s.port p) ∧ t.port (otherPort p) = s.port (otherPort p)

/-- The operands of the command that a port starts: its registers, or those kept of a command that has waited (R340). -/
def State.opsOf (s : State) (p : Port) : List Word := if (s.port p).waits = none then (s.port p).cmd else (s.port p).held

/-- Operand `i` of the command that a port starts. -/
def State.opOf (s : State) (p : Port) (i : Nat) : Nat := ((s.opsOf p).getD i 0).toNat

/-- A command of a port waits for its turn (R340): the other port's command, which reached the unit before it, names the same context, or needs
semaphore 0 as it does. -/
def State.waitsFor (s : State) (p : Port) (sem0 names : Bool) : Prop :=
  (s.port (otherPort p)).busy = true
  ∧ ((s.port (otherPort p)).waits = none ∨ (s.port p).waits = none ∨ (s.port (otherPort p)).reached < (s.port p).reached)
  ∧ ((names = true ∧ (s.port (otherPort p)).code ∈ [0x01#8, 0x02, 0x03, 0x04]
        ∧ ((s.port (otherPort p)).held.getD 0 0).toNat % 65536 = s.opOf p 0 % 65536)
    ∨ (sem0 = true ∧ (s.port (otherPort p)).code ∈ [0x10#8, 0x11, 0x12]))

/-- A command of a port may run (R340): the port is idle, its turn has come, the module is neither wiping nor tripped, and the command's
conditions hold. -/
def PortReady (p : Port) (deployed sem0 names : Bool) (s : State) : Prop :=
  (s.port p).busy = false ∧ s.host.wiping = false ∧ s.pow.tripped = false ∧ (deployed = true → s.host.life = .deployed)
  ∧ (sem0 = true → (s.sem 0).owner = some p) ∧ ¬ s.waitsFor p sem0 names

/-- A command of a port has ended with a result. -/
def Answers (p : Port) (code : Byte) (s t : State) : Prop :=
  PortNow p (fun r => { r with busy := false, waits := none, result := code }) s t

/-- A command of a port is under way. -/
def UnderWay (p : Port) (code : Byte) (s t : State) : Prop :=
  PortNow p (fun r => { r with busy := true, code := code, held := s.opsOf p, waits := none }) s t


/-- An image carries the digest of its body, and a signature of digest and version under the fused key (R343). -/
def Firmware.Signed (f : Firmware) : Prop :=
  f.digest = sha384 f.body ∧ sha384 f.key = Config.fusedHash ∧ ecdsaVerify f.key (sha384 (f.digest ++ toBytes 8 f.version)) f.signature = true

/-! ## Events of the module -/

/-- The state after an entry's error has been taken off the list of those that wait (R367). -/
def State.spent (s : State) (e : ErrorPlace) : State := { s with latent := s.latent.filter (· != e) }

/-- A notice has been posted, with the next sequence number, and MSI-X vector 0 raised on both ports (R377); nothing else has changed. -/
def Noticed (kind code : Byte) (ctx : BitVec 16) (domain : BitVec 32) (flags : Byte) (s t : State) : Prop :=
  t = { s with host := { s.host with
          lastSeq := s.host.lastSeq + 1, notices := t.host.notices
          portA := { s.host.portA with raised := s.host.portA.raised + 1 }, portB := { s.host.portB with raised := s.host.portB.raised + 1 } } }
  ∧ ∃ n, t.host.notices.getLast? = some n ∧ n.seq = s.host.lastSeq + 1 ∧ n.kind = kind ∧ n.code = code ∧ n.ctx = ctx ∧ n.domain = domain
      ∧ n.flags = flags ∧ n.time = s.now

/-- The host driver has been told of a fault of the focused agent's context at an address (R188, R331); nothing else has changed. -/
def Told (kind code : Byte) (va : Word) (s t : State) : Prop :=
  Noticed kind code s.tm.ctx 0xFFFFFFFF 0 s t ∧ ∃ n, t.host.notices.getLast? = some n ∧ n.vaddr = va

/-- The host driver has been told of a fault of which it is to be told. -/
def ToldIf (p : Pending) (s t : State) : Prop := (p.tell = false → t = s) ∧ (p.tell = true → Told 2 p.code p.page s t)

/-- A cluster has become another, and nothing else has changed. -/
def ClusterNow (c : Nat) (x : Cluster) (s t : State) : Prop :=
  t = { s with pow := { s.pow with clusters := t.pow.clusters } } ∧ t.cluster c = x ∧ ∀ n, n ≠ c → t.cluster n = s.cluster n

/-- A warp as it starts (R26 to R28, R249): at an address, with every register, predicate and name clear. -/
def WarpStarts (id : AgentId) (rank : Nat) (role : Role) (spc : Word) (a : Agent) : Prop :=
  a.id = id ∧ a.rank = rank ∧ a.role = role ∧ a.spc = spc ∧ a.origin = none ∧ a.g = [] ∧ a.trapG = [] ∧ a.q = 0 ∧ a.p = [] ∧ a.vmap = []
  ∧ a.trapMode = false ∧ a.fpmode = 0 ∧ a.fpflags = 0 ∧ a.fault = 0 ∧ a.faultaddr = 0 ∧ a.queue = [] ∧ a.status = .running ∧ a.reg.ctr = 0

/-- A team as it starts on a cluster for a frame slot of a grid, with its warps in their order (R21, R249, R255). -/
def TeamStarts (g : Grid) (index : Nat) (j : Nat) (f : FrameSlot) (x : Team) (as : List Agent) : Prop :=
  x.grid = g.id ∧ x.index = index ∧ x.frameSlot = j ∧ x.ctx = g.ctx ∧ x.depth = g.depth ∧ x.ptr = g.ptr ∧ x.pkt = g.pkt
  ∧ x.cluster = 12 * (g.oy + f.dy) + g.ox + f.dx ∧ x.tasks = [] ∧ x.handoff = [] ∧ x.landings = [] ∧ x.vote = none
  ∧ as.length = g.pkt.roles.length
  ∧ ∀ (i : Nat) (r : Role), g.pkt.roles[i]? = some r → ∃ a, as[i]? = some a
      ∧ WarpStarts (.warp x.id i) (i / g.pkt.perRank) r (g.pkt.sbase + ofNat64 (g.pkt.entry r)) a

/-! ## The machine as a whole -/

/-- The module's memory and the memories behind the ports keep their canonical form. -/
def State.MemoryCanonical (s : State) : Prop :=
  Memory.wf s.mem = true ∧ Memory.wf s.hostA = true ∧ Memory.wf s.hostB = true

/-- The state in which an input acts: it is taken from the list, and the step has fresh free values and a new age. -/
def State.taking (s : State) (rest : List Input) : State :=
  { s with inputs := rest, fresh := s.fresh + 65536, stamp := s.stamp + 1, atQueue := false }

/-- An agent has been chosen to act. -/
def State.chosen (s : State) (id : AgentId) (u : State) : Prop :=
  ∃ v : State, s.focus id = some v ∧ u = { v with ag := { v.ag with lastIssue := s.stamp } }

/-- The entry at the head of a host ring (R251): an 8-byte packet pointer and a 2-byte context id. -/
def ringEntry (s : State) (port : Port) (n : Fin 64) : QueueItem :=
  let at_ := ((s.port port).qbase.getD n.val 0).toNat + 16 * ((s.port port).qhead.getD n.val 0).toNat
  { ptr := ofNat64 ((s.hostMem port).readNat at_ 8), ctx := BitVec.ofNat 16 ((s.hostMem port).readNat (at_ + 8) 2), depth := 0, parent := 0
    bar := none }

/-- The entry at the head of a host ring has been taken (R251): the head index has moved on, and the discarded entries are one nearer. -/
def EntryTaken (s : State) (port : Port) (n : Fin 64) (u : State) : Prop :=
  let mine (x : Purge) : Prop := x.port = port ∧ x.queue = n.val
  ∃ v : State, v = { s with host := { s.host with purges := v.host.purges } }
    ∧ (∀ x, x ∈ v.host.purges ↔ x.left ≠ 0 ∧ ((x ∈ s.host.purges ∧ ¬ mine x) ∨ ∃ y ∈ s.host.purges, mine y ∧ x = { y with left := y.left - 1 }))
    ∧ PortNow port (fun r => { r with qhead := (u.port port).qhead }) v u
    ∧ ∀ m, (u.port port).qhead.getD m 0 = (s.port port).qhead.getD m 0 + if m = n.val then 1 else 0

/-- The completion record of a host launch is written (R254, R256, R195): after every earlier write towards the host the code stands in byte 8, and
the counter in bytes 0 to 7 is one more. Where the host table does not let the device write, a notice of kind 9 stands for it. -/
def Recorded (s t : State) (ctx : BitVec 16) (hdone ptr : Word) (code flags : Byte) : Prop :=
  match s.hostPlace ctx hdone with
  | some (port, a) => t = { s.drainHost with hostA := t.hostA, hostB := t.hostB } ∧ t.hostMem (otherPort port) = s.drainHost.hostMem (otherPort port)
      ∧ (t.hostMem port).readNat a 8 = ((s.drainHost.hostMem port).readNat a 8 + 1) % 2 ^ 64 ∧ (t.hostMem port).read (a + 8) = code
      ∧ ∀ x, (x < a ∨ a + 8 < x) → (t.hostMem port).read x = (s.drainHost.hostMem port).read x
  | none => Noticed 9 code ctx 0xFFFFFFFF flags s t ∧ ∃ n, t.host.notices.getLast? = some n ∧ n.vaddr = ptr

/-- What the save of a team reserves (R363, R365): the slot and the generation reserved for it by the save that it belongs to; or, where it begins
a save, the lowest free slots of its context, one for itself and one for each other team of its grid that is to be saved with it, all with one
generation, which is one more than any of those slots has had. -/
def SaveReserves (s : State) (x : Team) (g : Grid) (c : Ctx) : Prop :=
  let had (n : Nat) : Nat := ((c.slots.find? n).map (·.generation)).getD 0
  let busy (n : Nat) : Prop := ∃ y, c.slots.find? n = some y ∧ y.busy = true
  (∀ k, (g.tickets.find? fun z => z.team == x.id) = some k → s.saveTickets x g c = [k])
  ∧ ((g.tickets.find? fun z => z.team == x.id) = none →
      let ts := s.savedWith x g
      let ks := s.saveTickets x g c
      ts[0]? = some x
      ∧ (∀ y, y ∈ ts ↔ y = x ∨ (y ∈ s.allTeams ∧ y.grid = g.id ∧ y.id ≠ x.id ∧ (g.pkt.coop = true ∨ y.saveReq ≠ none) ∧ ∀ k ∈ g.tickets, k.team ≠ y.id))
      ∧ (∀ (i : Nat) (k : SaveTicket), ks[i]? = some k → (∃ y, ts[i]? = some y ∧ k.team = y.id) ∧ k.slot < 65536 ∧ ¬ busy k.slot
          ∧ (∀ n, n < k.slot → busy n ∨ ∃ k' ∈ ks.take i, k'.slot = n)
          ∧ had k.slot < k.generation ∧ ∀ k' ∈ ks, k'.generation = k.generation)
      ∧ (ks.length < ts.length → ∀ n, n < 65536 → busy n ∨ ∃ k ∈ ks, k.slot = n)
      ∧ (ks ≠ [] → ∃ k ∈ ks, k.generation = had k.slot + 1))

end Sys2Proof.Machine
end

