-- ==== Sys2Proof/Certificates/Slice0/Obligations.lean ====
section
/-! DEFINITION. The statements about the Exmer 9 that the provers prove: each formalises rules of the spec, or follows from them. -/

section Slice0Statements
open Sys2Proof Sys2Proof.Machine

/-- The operations of Table 6.1 write gd as the table says, wrap modulo 2^64, and change nothing else; a word of a bit count whose gb field is not
zero is no instruction. -/
def Claims.AluResults : Prop :=
  (∀ w bm, bits w 31 26 = 0 → bits w 7 0 ∈ [0x28, 0x29, 0x2A] → bits w 13 8 ≠ 0 → ∃ e, decodeScalar w bm = .error e)
  ∧ ∀ (s : State) (d a b : Fin 64),
    (s.ag.hazard (gBit a ||| gBit b) (gBit d) 0 0 = false →
      ∀ p ∈ aluTable, ∃ t, exec (p.1 d a b) s = .next t ∧ Went (s.ag.spc + 4) [d] [] s t
        ∧ t.gIs d (p.2 (s.ag.getG a) (s.ag.getG b)))
    ∧ (s.ag.hazard (gBit a) (gBit d) 0 0 = false →
      ∀ p ∈ countTable, ∃ t, exec (p.1 d a) s = .next t ∧ Went (s.ag.spc + 4) [d] [] s t
        ∧ t.gIs d (ofNat64 (p.2 (s.ag.getG a))))

/-- Division never faults and raises nothing: by zero the quotient is all ones and the remainder ga; the most negative number divided by -1 gives
itself and the remainder 0. -/
def Claims.DivisionEdges : Prop :=
  ∀ (s : State) (d a b : Fin 64),
    (s.ag.hazard (gBit a ||| gBit b) (gBit d) 0 0 = true →
      ∀ i ∈ [Instr.sdiv d a b, .sdivu d a b, .srem d a b, .sremu d a b], exec i s = .next s)
    ∧ (s.ag.hazard (gBit a ||| gBit b) (gBit d) 0 0 = false →
    (∀ i ∈ [Instr.sdiv d a b, .sdivu d a b, .srem d a b, .sremu d a b],
      ∃ t, exec i s = .next t ∧ Went (s.ag.spc + 4) [d] [] s t ∧ t.ag.fpflags = s.ag.fpflags)
    ∧ (s.ag.getG b = 0 →
        (∀ i ∈ [Instr.sdiv d a b, .sdivu d a b], ∃ t, exec i s = .next t ∧ t.gIs d (ofInt64 (-1)))
        ∧ ∀ i ∈ [Instr.srem d a b, .sremu d a b], ∃ t, exec i s = .next t ∧ t.gIs d (s.ag.getG a))
    ∧ (s.ag.getG a = ofInt64 (-2 ^ 63) → s.ag.getG b = ofInt64 (-1) →
        (∃ t, exec (.sdiv d a b) s = .next t ∧ t.gIs d (ofInt64 (-2 ^ 63))) ∧ ∃ t, exec (.srem d a b) s = .next t ∧ t.gIs d 0))

/-- The operations of Table 6.1 write gd with their results and change nothing else; division never faults. -/
def Obligations.AluResults : Prop :=
  Claims.AluResults ∧ Claims.DivisionEdges

/-- The immediate forms of Table 6.2, SLUI and SLPC write gd and change nothing else; a shift word with a bit of imm14[13:6] set is no instruction. -/
def Obligations.ImmediateResults : Prop :=
  (∀ w bm, bits w 31 26 ∈ [5, 6, 7] → bits w 13 6 ≠ 0 → ∃ e, decodeScalar w bm = .error e)
  ∧ ∀ (s : State) (d a n : Fin 64) (i : BitVec 14) (j : BitVec 20),
    (s.ag.hazard (gBit a) (gBit d) 0 0 = false →
      (∀ p ∈ immTable, ∃ t, exec (p.1 d a i) s = .next t ∧ Went (s.ag.spc + 4) [d] [] s t ∧ t.gIs d (p.2 (s.ag.getG a) i))
      ∧ ∀ p ∈ immShiftTable, ∃ t, exec (p.1 d a n) s = .next t ∧ Went (s.ag.spc + 4) [d] [] s t
          ∧ t.gIs d (p.2 (s.ag.getG a) n.val))
    ∧ (s.ag.hazard 0 (gBit d) 0 0 = false →
      (∃ t, exec (.slui d j) s = .next t ∧ Went (s.ag.spc + 4) [d] [] s t ∧ t.gIs d (ofInt64 (j.toInt * 4096)))
      ∧ ∃ t, exec (.slpc d j) s = .next t ∧ Went (s.ag.spc + 4) [d] [] s t ∧ t.gIs d (s.ag.spc + ofInt64 (4 * j.toInt)))

/-- SCMP, SCMPI and QLOG write one predicate, SSEL one register, and nothing else changes. -/
def Claims.CompareAndSelect : Prop :=
  ∀ (s : State) (q qa qb p : Fin 8) (c : Cond) (d a b : Fin 64) (i : BitVec 14),
    (s.ag.hazard (gBit a ||| gBit b) 0 0 (qBit q) = false →
      ∃ t, exec (.scmp q c a b) s = .next t ∧ Went (s.ag.spc + 4) [] [q] s t
        ∧ t.qIs q (condSpec c (s.ag.getG a) (s.ag.getG b)))
    ∧ (s.ag.hazard (gBit a) 0 0 (qBit q) = false →
      ∃ t, exec (.scmpi q c a i) s = .next t ∧ Went (s.ag.spc + 4) [] [q] s t
        ∧ t.qIs q (condSpec c (s.ag.getG a) (ofInt64 i.toInt)))
    ∧ (s.ag.hazard (gBit a ||| gBit b) (gBit d) (qBit p) 0 = false →
      ∃ t, exec (.ssel d a b p) s = .next t ∧ Went (s.ag.spc + 4) [d] [] s t
        ∧ t.gIs d (if s.ag.getQ p = true then s.ag.getG a else s.ag.getG b))
    ∧ (s.ag.hazard 0 0 (qBit qa ||| qBit qb) (qBit q) = false →
      ∀ x ∈ [(QOp.and, fun x y => x && y), (.or, fun x y => x || y), (.xor, fun x y => x != y), (.andn, fun x y => x && !y),
          (.not, fun x (_ : Bool) => !x)],
        ∃ t, exec (.qlog q qa qb x.1) s = .next t ∧ Went (s.ag.spc + 4) [] [q] s t
          ∧ t.qIs q (x.2 (s.ag.getQ qa) (s.ag.getQ qb)))

/-- BR, CALL, JR and NOP: where the scalar stream goes, and what CALL and JR link; a JR to another space or rank takes 0x10. -/
def Claims.ScalarControl : Prop :=
  ∀ (s : State) (q : Fin 8) (n : Bool) (o : BitVec 22) (d a : Fin 64),
    (s.ag.hazard 0 0 (qBit q) 0 = false →
      ∃ t, exec (.br q n o) s = .next t
        ∧ Went (s.ag.spc + (if (s.ag.getQ q).xor n = true then ofInt64 (4 * o.toInt) else 4)) [] [] s t)
    ∧ (s.ag.hazard 0 (gBit 62) 0 0 = false →
      ∃ t, exec (.call o) s = .next t ∧ Went (s.ag.spc + ofInt64 (4 * o.toInt)) [62] [] s t ∧ t.gIs 62 (s.ag.spc + 4))
    ∧ (s.ag.hazard (gBit a) (gBit d) 0 0 = false →
      if (s.ag.getG a).toNat < 2 ^ 58 then
        ∃ t, exec (.jr d a) s = .next t ∧ Went (ofNat64 ((s.ag.getG a).toNat / 4 * 4)) [d] [] s t ∧ t.gIs d (s.ag.spc + 4)
      else exec (.jr d a) s = fault s 0x10 (s.ag.getG a))
    ∧ ∃ t, exec .nop s = .next t ∧ Went (s.ag.spc + 4) [] [] s t

/-- Comparisons, predicate logic, SSEL, BR, CALL, JR and NOP: what they write and where the stream goes. -/
def Obligations.ScalarSelectsAndBranches : Prop :=
  Claims.CompareAndSelect ∧ Claims.ScalarControl

/-- REGION, PHINT and every commit of the scalar stream make a region entry at the next word; PHINT then stops a warp whose team is to be saved, waits
for the lane queue, and in a drop takes 0x08; a commit that stood in the lane queue leaves it. -/
def Claims.RegionEntries : Prop :=
  (∀ s : State, (∀ e ∈ s.ag.queue.head?, s.ag.reg.rid < e.rid + 4) →
    ∃ t, exec .region s = .next t ∧ OnlyEntered (s.ag.spc + 4) s t)
  ∧ (∀ (s : State) (a : Fin 64) (b : BitVec 64), s.ag.isDrop = false → s.ag.queue = [] →
    ∃ t, exec (.phint a b) s = .next t ∧ EntersRegion (s.ag.spc + 12) s.ag t.ag
      ∧ t.ag.status = (if s.tm.saveReq.isSome then
          .stopped (.atHint (if a.val = 0 then none else some (s.ag.getG a)) b) else s.ag.status)
      ∧ OnlyEntered (s.ag.spc + 12) s { t with ag := { t.ag with status := s.ag.status } })
  ∧ (∀ (s : State) (a : Fin 64) (b : BitVec 64),
    (s.ag.isDrop = false → s.ag.queue ≠ [] → exec (.phint a b) s = .next s)
    ∧ (s.ag.isDrop = true → exec (.phint a b) s = fault s 0x08 s.ag.spc))
  ∧ (∀ s : State, s.atQueue = false → OnlyEntered (s.ag.spc + 4) s s.commit ∧ Went (s.ag.spc + 4) [] [] s s.finish)
  ∧ ∀ s : State, s.atQueue = true →
    ∀ u ∈ [s.commit, s.finish], u.ag.queue = s.ag.queue.drop 1 ∧ u = { s with ag := { s.ag with queue := u.ag.queue, olds := u.ag.olds } }

/-- LRUN places its block in the lane queue where its predicate holds, and does nothing otherwise. -/
def Claims.LrunEnqueues : Prop :=
  ∀ (s : State) (q : Fin 8) (n : Bool) (o : BitVec 22), s.ag.hazard 0 0 (qBit q) 0 = false →
    ((s.ag.getQ q).xor n = false → ∃ t, exec (.lrun q n o) s = .next t ∧ Went (s.ag.spc + 4) [] [] s t)
    ∧ ((s.ag.getQ q).xor n = true → s.ag.queue.length < 16 →
      ∃ t e, exec (.lrun q n o) s = .next t ∧ e.kind = .block (s.tm.pkt.lbase + ofNat64 (12 * o.toNat)) ∧ e.addr = s.ag.spc
        ∧ e.rid = s.ag.reg.rid ∧ e.mode = s.ag.fpmode
        ∧ Went (s.ag.spc + 4) [] [] { s with ag := { s.ag with queue := s.ag.queue ++ [e] } } t)
    ∧ ((s.ag.getQ q).xor n = true → 16 ≤ s.ag.queue.length → exec (.lrun q n o) s = .next s)

/-- LSYNC ends at once with an empty lane queue, and otherwise waits in the queue until everything before it has taken effect; a drop takes 0x08. -/
def Claims.LsyncWaits : Prop :=
  ∀ s : State,
    (s.atQueue = false → s.ag.isDrop = true → exec .lsync s = fault s 0x08 s.ag.spc)
    ∧ (s.atQueue = false → s.ag.isDrop = false → s.ag.queue = [] →
        ∃ t, exec .lsync s = .next t ∧ Went (s.ag.spc + 4) [] [] s t)
    ∧ (s.atQueue = false → s.ag.isDrop = false → s.ag.queue ≠ [] → s.ag.queue.length < 16 →
        ∃ t e, exec .lsync s = .next t ∧ e.kind = .instr .lsync ∧ e.rid = s.ag.reg.rid ∧ e.addr = s.ag.spc
          ∧ Went (s.ag.spc + 4) [] [] { s with ag := { s.ag with queue := s.ag.queue ++ [e], status := .lsync } } t)
    ∧ (s.atQueue = true →
        ∃ t, exec .lsync s = .next t ∧ t.ag.status = .running ∧ t.ag.queue = s.ag.queue.drop 1
          ∧ t = { s with ag := { s.ag with queue := t.ag.queue, olds := t.ag.olds, status := .running } })

/-- The other instructions of Table 2.4 (R32, R43, R348): with entries in the lane queue they are not executed where the scalar stream reaches them,
but take a place at its end, with the mode and the region of that moment; all but MQRY are commits, so that a region entry follows. They wait while
the queue holds 16 entries or the region is four ahead of the oldest entry's. The role of an engine command is checked first, at its scalar position.
-/
def Claims.LaneQueuePlaces : Prop :=
  ∀ (s : State) (a b : Fin 512) (c d : Fin 512) (k : Fin 32) (t : BitVec 4) (r : Fin 64) (e : EngOps), s.atQueue = false → s.ag.queue ≠ [] →
    let full := 16 ≤ s.ag.queue.length
    let far := ∃ x ∈ s.ag.queue.head?, x.rid + 4 ≤ s.ag.reg.rid
    let command (n : Nat) : List Nat := e.b.val :: (List.range n).map fun j => (e.a.val + j) % 64
    let entry (i : Instr) (reads writes preds : List Nat) (x : QEntry) : Prop :=
      x = { kind := .instr i, addr := s.ag.spc, rid := s.ag.reg.rid, mode := s.ag.fpmode, gRead := x.gRead, gWrite := x.gWrite, qWrite := x.qWrite }
      ∧ ∀ n, n < 64 → (x.gRead.getLsbD n = true ↔ n ≠ 0 ∧ n ∈ reads) ∧ (x.gWrite.getLsbD n = true ↔ n ≠ 0 ∧ n ∈ writes)
          ∧ (n < 8 → (x.qWrite.getLsbD n = true ↔ n ≠ 7 ∧ n ∈ preds))
    let placed (x : QEntry) : State := { s with ag := { s.ag with queue := s.ag.queue ++ [x] } }
    (∀ y ∈ ([(.mswap a b, []), (.mrot a k, []), (.mfree a k, []), (.malias a b, []), (.mmove a b, []), (.mtag a t k, []), (.mgive a k, []),
          (.mtake a k, []), (.mplace c d k, [k.val])] : List (Instr × List Nat)),
        (full ∨ far → exec y.1 s = .next s)
        ∧ (¬ full → ¬ far → ∃ u x, exec y.1 s = .next u ∧ entry y.1 y.2 [] [] x ∧ OnlyEntered (s.ag.spc + 4) (placed x) u))
    ∧ (∀ y ∈ ([(.hread e, 4), (.mmac e, 3), (.azero e, 1), (.ard e, 2), (.awr e, 2)] : List (Instr × Nat)),
        let mine := if y.1 = .hread e then Role.cpy else Role.mtx
        (y.1 = .hread e → s.ag.isDrop = true → exec y.1 s = fault s 0x08 s.ag.spc)
        ∧ ((y.1 = .hread e → s.ag.isDrop = false) →
            (s.ag.role ≠ mine → exec y.1 s = fault s 0x07 s.ag.spc)
            ∧ (s.ag.role = mine → (full ∨ far → exec y.1 s = .next s)
              ∧ (¬ full → ¬ far → ∃ u x, exec y.1 s = .next u ∧ entry y.1 (command y.2) [] [e.q.val] x ∧ OnlyEntered (s.ag.spc + 4) (placed x) u))))
    ∧ (full → exec (.mqry r a) s = .next s)
    ∧ (¬ full → ∃ u x, exec (.mqry r a) s = .next u ∧ entry (.mqry r a) [] [r.val] [] x ∧ Went (s.ag.spc + 4) [] [] (placed x) u)

/-- REGION, PHINT, LRUN, LSYNC and the instructions of Table 2.4: region entries, the lane queue and its limits. Where the spec leaves a point open
this follows the model's own choice or reading: log 61. -/
def Obligations.RegionsAndBlocks : Prop :=
  Claims.RegionEntries ∧ Claims.LrunEnqueues ∧ Claims.LsyncWaits ∧ Claims.LaneQueuePlaces

/-- TRAP and BRK of a warp outside trap mode enter the trap handler after a region entry at the next word; in a team without one they terminate the
team with their code. -/
def Obligations.TrapAndBreak : Prop :=
  ∀ (s : State) (b : Fin 64), s.atQueue = false → s.ag.queue = [] → s.ag.isDrop = false → s.ag.trapMode = false →
    ∀ x ∈ [(Instr.trap b, 0x30#8, s.ag.getG b), (.brk, 0x31#8, s.ag.spc)],
      (s.tm.pkt.trapv = true →
        ∃ t, exec x.1 s = .next t ∧ TookTrap x.2.1 x.2.2 false false (s.ag.spc + 4) (s.ag.reg.ctr + 1) s t)
      ∧ (s.tm.pkt.trapv = false →
        ∃ u : State, exec x.1 s = .next (u.terminateTeam s.tm.id x.2.1) ∧ u = { s with ag := u.ag } ∧ u.ag.faultaddr = x.2.2)

/-- ERET returns from a trap handler to the region that sr.fault names; where that region cannot be re-executed the team ends with the code; outside
trap mode it takes 0x12. -/
def Obligations.ReturnFromTrap : Prop :=
  ∀ s : State,
    (s.ag.trapMode = false → exec .eret s = fault s 0x12 s.ag.spc)
    ∧ (s.ag.trapMode = true → s.ag.queue ≠ [] → exec .eret s = .next s)
    ∧ (s.ag.trapMode = true → s.ag.queue = [] → bit s.ag.fault.toNat 9 = true →
        exec .eret s = .next (s.terminateTeam s.tm.id (BitVec.ofNat 8 (bits s.ag.fault.toNat 7 0))))
    ∧ (s.ag.trapMode = true → s.ag.queue = [] → bit s.ag.fault.toNat 9 = false →
        ∃ t, exec .eret s = .next t ∧ t.ag.trapMode = false ∧ t.ag.spc = s.tm.pkt.sbase + ofNat64 (bits s.ag.fault.toNat 63 16)
          ∧ t.ag.reg.ctr = s.ag.reg.ctr ∧ t.ag.reg.entry = t.ag.spc ∧ t.ag.reg.nr = false
          ∧ t = { s with ag := { s.ag with
                  trapMode := false, spc := t.ag.spc, reg := t.ag.reg, issued := s.ag.issued + 1, atEntry := false } })

/-- Delivering a fault (R352): a warp outside trap mode enters the trap handler, with the registers as they stood at the entry of the region after the
faulting one where the scalar stream had passed it; the host driver is told first of a fault of which it is to be told (R331). -/
def Claims.FaultDelivery : Prop :=
  ∀ (s : State) (p : Pending), s.ag.isDrop = false → s.ag.trapMode = false → s.tm.pkt.trapv = true →
    let r := s.ag.region p.rid
    (p.code ≠ 0x11 ∨ r.nr = true) →
    ∃ u, ToldIf p s u
      ∧ TookTrap p.code p.addr p.lane r.nr r.entry r.ctr { u with ag := s.ag.registersAt p.rid } (s.deliver p)

/-- A translation fault of a region that can be re-executed parks the agent at its region's entry and tells the driver; a drop that takes any other
fault ends; in trap mode, or without a handler, any other fault terminates the team. -/
def Claims.FaultParksOrEnds : Prop :=
  ∀ (s : State) (p : Pending),
    let r := s.ag.region p.rid
    let b := s.ag.registersAt p.rid
    let t := s.deliver p
    ∃ u, ToldIf p s u
      ∧ (p.code = 0x11 → r.nr = false →
        t.ag.status = .parked p.addr p.page p.lane ∧ t.ag.spc = r.entry ∧ t.ag.queue = [] ∧ t.ag.trapMode = s.ag.trapMode
          ∧ t.ag.g = b.g ∧ t.ag.trapG = b.trapG ∧ t.ag.q = b.q ∧ t.ag.fpmode = b.fpmode
          ∧ (s.ag.trapMode = true → t.ag.fault = s.ag.fault ∧ t.ag.faultaddr = s.ag.faultaddr)
          ∧ (s.ag.trapMode = false → t.ag.faultaddr = p.addr ∧ FaultIs t.ag.fault ((r.entry - s.tm.pkt.sbase).toNat % 2 ^ 48) false p.lane 0x11)
          ∧ Told 1 0x11 p.page { u with ag := t.ag } t)
      ∧ ((p.code ≠ 0x11 ∨ r.nr = true) → s.ag.isDrop = true →
        ∃ a, t = u.endDrop a p.code ∧ a.id = s.ag.id ∧ a.vmap = s.ag.vmap ∧ a.origin = s.ag.origin ∧ a.rank = s.ag.rank)
      ∧ ((p.code ≠ 0x11 ∨ r.nr = true) → s.ag.isDrop = false → (s.ag.trapMode = true ∨ s.tm.pkt.trapv = false) →
        ∃ v : State, t = v.terminateTeam s.tm.id p.code ∧ v = { u with ag := v.ag })

/-- Delivering a fault: the trap of a warp, parking, the end of a drop, the end of a team. Where the spec leaves a point open this follows the model's
own choice or reading: log 39. -/
def Obligations.FaultsDelivered : Prop :=
  Claims.FaultDelivery ∧ Claims.FaultParksOrEnds

/-- SRD reads every system register of Table 3.15 into gd; SWR writes the two that can be written, refuses a reserved bit with 0x01 and every other
register with 0x12 and its number. -/
def Claims.SystemRegisters : Prop :=
  (∀ (s : State) (d : Fin 64), s.ag.queue = [] → s.ag.hazard 0 (gBit d) 0 0 = false →
    ∀ x ∈ sregTable, ∃ t, exec (.srd d x.1) s = .next t ∧ Went (s.ag.spc + 4) [d] [] s t ∧ t.gIs d (x.2 s))
  ∧ ∀ (s : State) (d : Fin 64), s.ag.queue = [] → s.ag.hazard (gBit d) 0 0 0 = false →
    ((s.ag.getG d).toNat ≤ 3 → ∃ t, exec (.swr d 0x020) s = .next t
        ∧ Went (s.ag.spc + 4) [] [] { s with ag := { s.ag with fpmode := (s.ag.getG d).setWidth 3 } } t)
    ∧ (3 < (s.ag.getG d).toNat → exec (.swr d 0x020) s = fault s 0x01 s.ag.spc)
    ∧ ((s.ag.getG d).toNat ≤ 63 → ∃ t, exec (.swr d 0x021) s = .next t
        ∧ Went (s.ag.spc + 4) [] [] { s with ag := { s.ag with fpflags := (s.ag.getG d).setWidth 6 } } t)
    ∧ (63 < (s.ag.getG d).toNat → exec (.swr d 0x021) s = fault s 0x01 s.ag.spc)
    ∧ ∀ x ∈ sregTable, x.1 ≠ 0x020 → x.1 ≠ 0x021 → exec (.swr d x.1) s = fault s 0x12 (ofNat64 x.1.toNat)

/-- PLVL gives the team's vote, where its context may vote, and reads the level now granted (R383): the greatest vote of a permitted team of the
cluster, or L1 without votes, under the cap of the governor and of the heat. -/
def Claims.LevelVote : Prop :=
  (∀ (s : State) (c : Nat),
    let votes (x : Team) : Option Nat := if x.cluster = c ∧ s.permitted x.ctx = true then x.vote else none
    let heat := s.heat (regionOf c)
    let cap := min (s.cluster c).cap (if heat.hot.on = true ∨ heat.spent.on = true then 0 else if heat.worn.on = true then 1 else 2)
    ((∀ x ∈ s.allTeams, votes x = none) → s.granted c = min 1 cap)
    ∧ ∀ x ∈ s.allTeams, ∀ v, votes x = some v → (∀ y ∈ s.allTeams, ∀ u, votes y = some u → u ≤ v) → s.granted c = min v cap)
  ∧ ∀ (s : State) (d a : Fin 64), s.ag.hazard (gBit a) (gBit d) 0 0 = false →
    let v := (s.ag.getG a).toNat
    let vote := if s.permitted s.tm.ctx = true then (if v ≤ 2 then some v else none) else s.tm.vote
    ∃ u t : State, exec (.plvl d a) s = .next t ∧ u = { s with tm := { s.tm with vote := vote } }.regrant s.tm.cluster
      ∧ u = { s with tm := { s.tm with vote := vote }, pow := u.pow } ∧ Went (s.ag.spc + 4) [d] [] u t ∧ t.gIs d (ofNat64 (t.granted s.tm.cluster))

/-- SRD, SWR and PLVL: what each system register reads as, what may be written, and the level vote. Where the spec leaves a point open this follows
the model's own choice or reading: log 51. -/
def Obligations.SystemRegisters : Prop :=
  Claims.SystemRegisters ∧ Claims.LevelVote

/-- A scalar access whose checks fail takes the fault of the first check that fails, and does nothing else; an access that needs a fenced domain, for
its walk or for its bytes, waits before a fault of its pages or of poison and before its effect (R187, R371). -/
def Claims.ScalarAccessFaults : Prop :=
  ∀ (s : State) (d a b : Fin 64) (i : BitVec 14) (sc : Scope) (o : Order) (f : SatomOp), s.ag.queue = [] →
    let at0 (p : Word) : LaneAcc := { lane := 0, ptr := p, ok := true }
    let ld (n : Nat) : AccSpec := { spaces := [0, 1, 2, 3, 4], size := n, align := 1, acc := .load }
    let st (n : Nat) : AccSpec := { spaces := [0, 1, 2, 3, 4], size := n, align := 1, acc := .store }
    let rmw : AccSpec := { spaces := [0, 1, 2], size := 8, align := 8, acc := .atomic }
    let pub : AccSpec := { spaces := [4], size := 8, align := 8, acc := .publish }
    let x := scalarAt (s.ag.getG a) i
    let y := at0 (s.ag.getG a)
    ∀ z ∈ [(Instr.sld64 d a i, ld 8, x), (.sld32 d a i, ld 4, x), (.sst64 d a i, st 8, x), (.sst32 d a i, st 4, x), (.satom d a b sc o f, rmw, y),
        (.scas d a b sc o, rmw, y), (.publ a, pub, y)],
      let fenced := s.accessFenced s.who z.2.1 [z.2.2]
      let late (e : Fail) : Prop := e.code ∈ [0x11#8, 0x12, 0x21]
      (∀ e, s.checkAccesses s.tm s.who z.2.1 [z.2.2] = some e → (late e → fenced = false) → exec z.1 s = .next (s.memFault e false))
      ∧ ((∀ e, s.checkAccesses s.tm s.who z.2.1 [z.2.2] = some e → late e) → fenced = true → exec z.1 s = .next s)

/-- The five phases of R187: an access takes the fault of the first phase that any lane fails; in each of the first three, its address is the pointer
of the lowest lane that fails there; a permission fault comes before an absent page, and poison last. -/
def Claims.AccessPhases : Prop :=
  ∀ (s : State) (t : Team) (w : Who) (sp : AccSpec) (xs ys : List LaneAcc) (x : LaneAcc),
    let space : LaneAcc → Prop := fun a => a.ok = true ∧ spaceOk sp.spaces a.ptr sp.size = true
    let window : LaneAcc → Prop := fun a => windowOk t w a.ptr sp.size = true
    let aligned : LaneAcc → Prop := fun a => bits a.ptr.toNat 57 0 % sp.align = 0
    let fails : LaneAcc → List Fail := fun a => badPieces (s.pieces w sp.acc a.ptr sp.size a.lane)
    let all := xs ++ x :: ys
    ((∀ a ∈ xs, space a) → ¬ space x → s.checkAccesses t w sp all = some { code := 0x10, addr := x.ptr })
    ∧ ((∀ a ∈ all, space a) → (∀ a ∈ xs, window a) → ¬ window x → s.checkAccesses t w sp all = some { code := 0x14, addr := x.ptr })
    ∧ ((∀ a ∈ all, space a ∧ window a) → (∀ a ∈ xs, aligned a) → ¬ aligned x →
        s.checkAccesses t w sp all = some { code := 0x13, addr := x.ptr })
    ∧ ((∀ a ∈ all, space a ∧ window a ∧ aligned a) →
        (∀ f fs gs, fails x = fs ++ f :: gs → f.code = 0x12 → (∀ a ∈ xs, ∀ g ∈ fails a, g.code ≠ 0x12) → (∀ g ∈ fs, g.code ≠ 0x12) →
          s.checkAccesses t w sp all = some f)
        ∧ (∀ f gs, fails x = f :: gs → (∀ a ∈ xs, fails a = []) → (∀ a ∈ all, ∀ g ∈ fails a, g.code ≠ 0x12) →
          s.checkAccesses t w sp all = some f)
        ∧ ((∀ a ∈ all, fails a = []) →
            ((sp.acc = .store ∨ sp.acc = .publish ∨ ∀ a ∈ all, ∀ p ∈ goodPieces (s.pieces w sp.acc a.ptr sp.size a.lane), s.piecePoison p = none) →
              s.checkAccesses t w sp all = none)
            ∧ ∀ p q ps qs, (sp.acc = .load ∨ sp.acc = .atomic) →
                (∀ a ∈ xs, ∀ p ∈ goodPieces (s.pieces w sp.acc a.ptr sp.size a.lane), s.piecePoison p = none) →
                goodPieces (s.pieces w sp.acc x.ptr sp.size x.lane) = ps ++ p :: qs → (∀ r ∈ ps, s.piecePoison r = none) →
                s.piecePoison p = some q → s.checkAccesses t w sp all = some { code := 0x21, addr := q }))

/-- The space and window checks (Tables 4.3 and 8.2, R175, R176): an open space that exists, no rank where the space has none, every byte within the
space, and in a team window the rank of a core of the team and every byte within the team's allocation there. -/
def Claims.AccessLimits : Prop :=
  ∀ (p : Word) (n : Nat), 0 < n →
    let space := bits p.toNat 63 61
    let rank := bits p.toNat 60 58
    let last (w : Nat) := bits p.toNat (w - 1) 0 + n
    (∀ spaces : List Nat, spaceOk spaces p n = true
      ↔ space ∈ spaces ∧ space ≤ 5 ∧ (space ∈ [0, 1, 4, 5] → rank = 0) ∧ (space = 0 → last 58 ≤ 2 ^ 57) ∧ (space = 5 → last 46 ≤ 2 ^ 46)
        ∧ (space ∈ [1, 2, 3, 4] → last 58 ≤ 2 ^ 58))
    ∧ ∀ (t : Team) (w : Who), windowOk t w p n = true
      ↔ (space ∈ [1, 2] → (if space = 1 then w.rank else rank) < t.pkt.cores ∧ t.pkt.local16 ≠ 0 ∧ last 58 ≤ 16 * t.pkt.local16)
        ∧ (space = 3 → rank < t.pkt.cores ∧ t.pkt.accum256 ≠ 0 ∧ last 58 ≤ 256 * t.pkt.accum256)

/-- The page walk (R329 to R331, Tables 14.1 and 14.2), from the root of a context's global or host table: an entry that is not valid is absent, 0x11;
one with a zero field set, a misaligned address, a leaf at level 0 or a pointer at level 3 is malformed, 0x12; a leaf maps its page. -/
def Claims.PageWalks : Prop :=
  ∀ (s : State) (ctx : BitVec 16) (c : Ctx) (host : Bool) (va : Nat), s.ctxs.find? ctx.toNat = some c →
    let o := s.walkCtx ctx host va
    let entry (t low width : Nat) : Nat := s.mem.readNat (t + 8 * (va / 2 ^ low % 2 ^ width)) 8
    let table (e align t : Nat) : Prop := e % 4 = 1 ∧ e / 4 % 64 = 0 ∧ e / 2 ^ 52 = 0 ∧ t = e / 256 * 256 ∧ t % align = 0
    let leaf (e size : Nat) (l : Leaf) : Prop := e % 4 = 3 ∧ e / 32 % 8 = 0 ∧ e / 2 ^ 52 % 1024 = 0 ∧ (if host then e.testBit 63 else e.testBit 62) = false
      ∧ l = { base := e / 256 % 2 ^ 44 * 256, size := size, x := e.testBit 4, w := e.testBit 3, r := e.testBit 2, shr := e.testBit 63,
              port := if e.testBit 62 then .b else .a }
      ∧ l.base % size = 0
    let answers (e align size : Nat) (goOn : Nat → Prop) : Prop :=
      (e % 2 = 0 → o = .error 0x11) ∧ (∀ l, size ≠ 0 → leaf e size l → o = .ok l) ∧ (∀ t, align ≠ 0 → table e align t → goOn t)
      ∧ (e % 2 = 1 → (∀ l, size ≠ 0 → ¬ leaf e size l) → (∀ t, align ≠ 0 → ¬ table e align t) → o = .error 0x12)
    answers (entry (if host then c.hroot else c.groot) 44 13) 0x20000 0 fun t1 =>
      answers (entry t1 30 14) 0x1000 (2 ^ 30) fun t2 =>
        answers (entry t2 21 9) 0x100 (2 ^ 21) fun t3 =>
          answers (entry t3 16 5) 0 (2 ^ 16) fun _ => True

/-- The access is checked against the leaf (the access table of R331): a permission that is missing is 0x12 at the pointer, as is what a walk of the
page answers (here with no walk cached). -/
def Claims.PagePermissions : Prop :=
  (∀ (acc : Acc) (l : Leaf), acc.allowed l = true
    ↔ (acc = .load → l.r = true) ∧ (acc = .store → l.w = true) ∧ (acc = .atomic ∨ acc = .publish → l.r = true ∧ l.w = true)
      ∧ (acc = .fetch → l.x = true))
  ∧ ∀ (s : State) (w : Who) (acc : Acc) (p : Word) (n k : Nat) (host : Bool), s.tlb = [] → 0 < n → bits p.toNat 63 57 = (if host then 64 else 0) →
      let va := bits p.toNat 56 0
      (∀ c, s.walkCtx w.ctx host va = .error c → (s.pieces w acc p n k).head? = some (.error { code := c, addr := p }))
      ∧ (∀ l, s.walkCtx w.ctx host va = .ok l → acc.allowed l = false → (s.pieces w acc p n k).head? = some (.error { code := 0x12, addr := p }))
      ∧ ∀ l, s.walkCtx w.ctx host va = .ok l → acc.allowed l = true → va % 65536 + n ≤ 65536 → ∃ x, s.pieces w acc p n k = [.ok x]
          ∧ x.place = (if host then .host l.port else .phys) ∧ x.addr = l.base + va % l.size ∧ x.len = n

/-- Where the bytes of an access lie: in a window at the pointer's offset, on its rank; in global and host space behind the walk of each byte's own
address (here with no walk cached). -/
def Claims.BytesOfAccess : Prop :=
  ∀ (s : State) (w : Who) (acc : Acc) (p : Word) (n k i : Nat), badPieces (s.pieces w acc p n i) = [] → k < n →
    (∀ r ∈ [1, 2, 3], bits p.toNat 63 61 = r →
      locOf (goodPieces (s.pieces w acc p n i)) k
        = some ((if r = 1 then .scratch w.rank else if r = 2 then .scratch (bits p.toNat 60 58) else .accum (bits p.toNat 60 58)),
            bits p.toNat 57 0 + k))
    ∧ (∀ host : Bool, bits p.toNat 63 61 = (if host then 4 else 0) → s.tlb = [] →
      ∃ l, s.walkCtx w.ctx host (bits p.toNat 57 0 + k) = .ok l ∧ acc.allowed l = true
        ∧ locOf (goodPieces (s.pieces w acc p n i)) k
            = some ((if host then .host l.port else .phys), l.base + (bits p.toNat 57 0 + k) % l.size))

/-- Scalar accesses: their faults, their phases, the page walk and its codes, and where their bytes lie. That a walk takes its offset modulo 2^57 is
the model's choice (log 81). Where the spec leaves a point open this follows the model's own choice or reading: log 77. -/
def Obligations.ScalarAccesses : Prop :=
  Claims.ScalarAccessFaults ∧ Claims.AccessPhases ∧ Claims.AccessLimits ∧ Claims.PageWalks ∧ Claims.PagePermissions ∧ Claims.BytesOfAccess

/-- SLD64 and SLD32 load little-endian bytes into gd, at any alignment, and change nothing else. -/
def Claims.ScalarLoads : Prop :=
  ∀ (s : State) (d a : Fin 64) (i : BitVec 14), s.ag.queue = [] →
    ∀ x ∈ [(Instr.sld64 d a i, 8), (.sld32 d a i, 4)],
      let sp : AccSpec := { spaces := [0, 1, 2, 3, 4], size := x.2, align := 1, acc := .load }
      let p := scalarAt (s.ag.getG a) i
      s.checkAccesses s.tm s.who sp [p] = none → s.accessFenced s.who sp [p] = false →
      let u := s.hostFirst p.ptr
      let ps := goodPieces (u.pieces u.who .load p.ptr x.2 0)
      ∃ v t, exec x.1 s = .next t ∧ Cached u.who.core false ps u v ∧ Went (s.ag.spc + 4) [d] [] v t ∧ t.gIs d (ofNat64 (u.accNat ps x.2))

/-- SST64 and SST32 store the low bytes of gd, little-endian, at any alignment; every other byte reads as before, poison and the ownership of lines
change as R372 and R192 say, and a store within one line makes it dirty. -/
def Claims.ScalarStores : Prop :=
  ∀ (s : State) (d a : Fin 64) (i : BitVec 14), s.ag.queue = [] →
    ∀ x ∈ [(Instr.sst64 d a i, 8), (.sst32 d a i, 4)],
      let sp : AccSpec := { spaces := [0, 1, 2, 3, 4], size := x.2, align := 1, acc := .store }
      let p := scalarAt (s.ag.getG a) i
      s.checkAccesses s.tm s.who sp [p] = none → s.accessFenced s.who sp [p] = false →
      let ps := goodPieces (s.pieces s.who .store p.ptr x.2 0)
      let bs := toBytes x.2 (s.ag.getG d).toNat
      ∃ v t, exec x.1 s = .next t ∧ OnlyBytes s v ∧ Stored ps bs s v ∧ v.poison = s.poison ∧ TrackedAfter s.who.core ps s v
        ∧ (∀ y, ps = [y] → y.place = .phys → y.addr % 128 + y.len ≤ 128 → LineStored y bs s v)
        ∧ t = { v with ag := { s.ag with spc := s.ag.spc + 4, issued := s.ag.issued + 1, atEntry := false } }

/-- SLD64, SLD32, SST64 and SST32: the bytes loaded and stored, and that every other byte reads as before. That a load from host space first lets the
whole host write path drain is the model's choice (log 83). Where the spec leaves a point open this follows the model's own choice or reading: log 94.
-/
def Obligations.ScalarLoadsAndStores : Prop :=
  Claims.ScalarLoads ∧ Claims.ScalarStores

/-- SATOM and SCAS give the old value to gd and write the new one, which a compare that fails does not; the contention predictor takes the request;
they acquire as their order says, and commit. That the contention counter is judged before the access's own update, and what line a grant brings, is
the model's choice (log 82). Where the spec leaves a point open this follows the model's own choice or reading: log 4, 65. -/
def Obligations.ScalarAtomics : Prop :=
  ∀ (s : State) (d a b : Fin 64) (sc : Scope) (o : Order), s.ag.queue = [] →
    let p := s.ag.getG a
    let sp : AccSpec := { spaces := [0, 1, 2], size := 8, align := 8, acc := .atomic }
    s.checkAccesses s.tm s.who sp [{ lane := 0, ptr := p, ok := true }] = none →
    s.accessFenced s.who sp [{ lane := 0, ptr := p, ok := true }] = false →
    (s.gangPending s.tm = false ∨ sc ≠ .gang ∨ o = .relaxed ∨ o = .release) →
    let ps := goodPieces (s.pieces s.who .atomic p 8 0)
    let old := ofNat64 (s.accNat ps 8)
    let y := s.ag.getG b
    ∀ x ∈ [(Instr.satom d a b sc o .add, some (ofNat64 (old.toNat + y.toNat))), (.satom d a b sc o .and, some (old &&& y)),
        (.satom d a b sc o .or, some (old ||| y)), (.satom d a b sc o .xor, some (old ^^^ y)),
        (.satom d a b sc o .smin, some (ofInt64 (min old.toInt y.toInt))), (.satom d a b sc o .smax, some (ofInt64 (max old.toInt y.toInt))),
        (.satom d a b sc o .swap, some y), (.scas d a b sc o, if old = s.ag.getG d then some y else none)],
      ∃ q c u v, exec x.1 s = .next u.commit ∧ Predicted 0 ps s q ∧ Cached s.who.core false ps q c
        ∧ (match x.2 with
           | some new => OnlyBytes c v ∧ Stored ps (toBytes 8 new.toNat) c v ∧ v.poison = c.poison ∧ TrackedAfter s.who.core ps c v
           | none => v = c)
        ∧ OnlyRegs [d] [] { v with l1 := u.l1 } u ∧ u.gIs d old
        ∧ Acquired s.who.core (if o = .acquire ∨ o = .acqRel then sc else .warp) v { v with l1 := u.l1 }

/-- FENCE acquires or not as its kind says, and is no commit; PUBL performs every pending host write and then raises its counter by one. -/
def Claims.FencesAndPublish : Prop :=
  (∀ (s : State) (sc : Scope) (k : FenceKind), s.ag.queue = [] → (s.gangPending s.tm = false ∨ sc ≠ .gang ∨ k = .release) →
    ∃ u t, exec (.fence sc k) s = .next t ∧ Acquired s.who.core (if k = .release then .warp else sc) s u ∧ Went (s.ag.spc + 4) [] [] u t)
  ∧ (∀ (s : State) (a : Fin 64) (x : Piece) (port : Port), s.ag.queue = [] →
      let p := s.ag.getG a
      let sp : AccSpec := { spaces := [4], size := 8, align := 8, acc := .publish }
      s.checkAccesses s.tm s.who sp [{ lane := 0, ptr := p, ok := true }] = none →
      s.accessFenced s.who sp [{ lane := 0, ptr := p, ok := true }] = false →
      goodPieces (s.pieces s.who .publish p 8 0) = [x] → x.place = .host port →
      ∃ u : State, exec (.publ a) s = .next u.commit
        ∧ u = { s.drainHost with hostA := u.hostA, hostB := u.hostB }
        ∧ (u.hostMem port).readNat x.addr 8 = ((s.drainHost.hostMem port).readNat x.addr 8 + 1) % 2 ^ 64
        ∧ ∀ q n, (q ≠ port ∨ n < x.addr ∨ x.addr + 8 ≤ n) → (u.hostMem q).read n = (s.drainHost.hostMem q).read n)
  ∧ ∀ (s : State) (xs : List HostWrite) (x : HostWrite),
      { s with hostPath := [] }.drainHost = { s with hostPath := [] }
      ∧ (let u := { s with hostPath := xs }.drainHost
         let t := { s with hostPath := xs ++ [x] }.drainHost
         t = { s with hostPath := [], hostA := t.hostA, hostB := t.hostB }
         ∧ ∀ q n, (t.hostMem q).read n
             = if q = x.port ∧ x.addr ≤ n ∧ n < x.addr + x.data.length then x.data.getD (n - x.addr) 0 else (u.hostMem q).read n)

/-- A store that other agents do not see yet (R209, R216, R230): it becomes visible with all its bytes at once, and with what its command has stored
in the same aligned word, but not before an earlier one of its owner that shares a byte with it, nor in a fenced domain (R371). An atomic that waits
reads and writes its bytes then, and gives its old value then. -/
def Claims.LateStores : Prop :=
  ∀ (s : State) (k : Nat) (rest : List Input) (x : LateStore), s.inputs = .land k :: rest → s.late[k]? = some x →
    let first := ∃ y ∈ s.late.take k, y.owner.same x.owner = true ∧ y.place = x.place
      ∧ (y.place = .phys ∨ y.team = x.team) ∧ y.addr < x.addr + x.data.length ∧ x.addr < y.addr + y.data.length
    let held := first ∨ ∃ l ∈ x.lines, s.lineFenced l = true
    let tied (y : LateStore) : Prop := (∃ c, x.owner = .cmd c ∧ y.owner = .cmd c) ∧ y.place = x.place ∧ y.addr / 4 = x.addr / 4
    let alone := ∀ j y, s.late[j]? = some y → j ≠ k → y ≠ x ∧ ¬ tied y
    (held → step s = .next (s.taking rest))
    ∧ (¬ held → ∃ t : State, step s = .next t ∧ ∀ y ∈ t.late, y ∈ s.late ∧ y ≠ x ∧ ¬ tied y)
    ∧ (¬ held → alone → x.op = none → ∃ t : State, step s = .next t ∧ t.late = s.late.eraseIdx k
      ∧ (x.place = .phys → ∀ a, t.mem.read a
          = if x.addr ≤ a ∧ a < x.addr + x.data.length then x.data.getD (a - x.addr) 0 else s.mem.read a)
      ∧ ((∃ r, x.place = .scratch r ∨ x.place = .accum r) → t.mem = s.mem ∧ t.hostA = s.hostA ∧ t.hostB = s.hostB))
    ∧ ∀ op, ¬ held → alone → x.op = some op → op.piece.place = .phys →
        let w : Who := { team := x.team, ctx := op.ctx, rank := op.rank, core := x.core }
        let v := ({ s.taking rest with late := s.late.eraseIdx k } : State).predict w op.hint (op.piece.addr / 128)
        let old := v.readPiece w false op.piece
        ∃ t : State, step s = .next t ∧ t.late = s.late.eraseIdx k
          ∧ (∀ new, op.new (ofBytes old) = some new → ∀ a, t.mem.read a
              = if op.piece.addr ≤ a ∧ a < op.piece.addr + op.piece.len then (toBytes op.piece.len new).getD (a - op.piece.addr) 0 else v.mem.read a)
          ∧ (op.new (ofBytes old) = none → t.mem = v.mem)
          ∧ ∀ (m : Mask) (d : Fin 64), x.owner = .agent s.ag.id m → d.val ≠ 0 → op.trap = s.ag.trapMode →
              teamOf s.ag.id ≠ 0 → ((∃ a b sc o f, op.instr = .satom d a b sc o f) ∨ ∃ a b sc o, op.instr = .scas d a b sc o) → t.ag.getG d = BitVec.ofNat 64 (ofBytes old)

/-- Releases and acquires (R198, R208, R209, R210, R211): a fence of kind REL marks with its scope the stores of its agent that others do not see yet,
and its loads and atomics that are still open; one of kind ACQ closes those, and makes visible the stores whose release is scope-compatible with it
(Table 9.1); where there are none it makes nothing visible. -/
def Claims.ReleasesAndAcquires : Prop :=
  ∀ (s : State) (sc : Scope),
    let reach (c : Scope) (team : Nat) (id : AgentId) (core : Nat) : Prop :=
      c = .device ∨ c = .gang ∨ c = .system ∨ (c = .team ∧ ((∃ n, id = .warp team n ∨ id = .drop team n)
        ∨ ∃ o n t, id = .drop o n ∧ s.getTeam team = some t ∧ ∃ r ∈ t.ranks, r.core = core))
    let sees (x : LateStore) : Prop := ∃ id m r, x.owner = .agent id m ∧ x.released = some r ∧ reach r x.team s.ag.id s.who.core
      ∧ reach sc s.who.team id x.core
    let own (x : LateStore) : Prop := ∃ m, x.owner = .agent s.ag.id m ∧ m ≠ 0
    (∀ x ∈ s.late, sees x → x ∉ (s.acquireStores sc).late)
    ∧ ((∀ x ∈ s.late, ¬ sees x) → s.acquireStores sc = s)
    ∧ (s.latent = [] → s.ag.owes = none → ∀ pick,
        ((∀ x ∈ s.late, own x → x.op = none) → ∀ v t : State, v = { s with ag := { s.ag with loads := [], ahead := [] } } →
          exec (.fence sc .acquire) v = .next t → t.ag.id = s.ag.id →
          (t.ag.issued = s.ag.issued + 1 → ∃ u : State, performLate pick (.fence sc .acquire) s = .next u
            ∧ u = { t.acquireStores sc with ag := { (t.acquireStores sc).ag with ahead := [] } })
          ∧ (t.ag.issued = s.ag.issued → performLate pick (.fence sc .acquire) s = .next t))
        ∧ ∃ u : State, u = { s with ag := { s.ag with loads := s.ag.loads.map fun l => { l with fenced := true } }, late := u.late }
          ∧ (∀ t, exec (.fence sc .release) u = .next t → ∃ xs, xs.Sublist t.ag.ahead
              ∧ performLate pick (.fence sc .release) s = .next { t with ag := { t.ag with ahead := xs } })
          ∧ u.late.length = s.late.length
          ∧ ∀ (k : Nat) (x : LateStore), s.late[k]? = some x → ∃ y, u.late[k]? = some y
            ∧ (¬ own x → y = x)
            ∧ (own x → y = { x with released := y.released, op := x.op.map fun op => { op with fenced := true } }
                ∧ (x.released = none ∨ x.released = some .warp → y.released = some sc)
                ∧ (x.released = some .team → sc ≠ .warp → y.released = some sc) ∧ (x.released = some .system → y.released = some .system)))

/-- FENCE and PUBL: what they wait for and what they discard; and when a store that is not yet seen becomes visible. The order in which the host write
path drains, and that all of it does, is the model's choice (log 83). Where the spec leaves a point open this follows the model's own choice or
reading: log 65, 76, 103. -/
def Obligations.FencesAndPublish : Prop :=
  Claims.FencesAndPublish ∧ Claims.LateStores ∧ Claims.ReleasesAndAcquires

/-- MSWAP, MROT and MFREE: each name's entry after the edit, and that no row but those freed changes. -/
def Claims.MapShuffles : Prop :=
  ∀ (s : State) (a b : Fin 512) (k : Fin 32), (s.atQueue = true ∨ s.ag.queue = []) →
    (∃ u : State, exec (.mswap a b) s = .next u.commit ∧ OnlyMap s u ∧ RowsKept s u
      ∧ u.entry a.val = s.entry b.val ∧ u.entry b.val = s.entry a.val
      ∧ ∀ n, n ≠ a.val → n ≠ b.val → u.entry n = s.entry n)
    ∧ (∃ u : State, exec (.mrot a k) s = .next u.commit ∧ OnlyMap s u ∧ RowsKept s u
      ∧ (∀ i, i < k.val → u.entry (a.val + i) = s.entry (a.val + (i + (k.val - 1)) % k.val))
      ∧ ∀ n, n < a.val ∨ a.val + k.val ≤ n → u.entry n = s.entry n)
    ∧ ∃ u : State, exec (.mfree a k) s = .next u.commit ∧ OnlyMap s u
      ∧ (∀ i, i < k.val → u.entry (a.val + i) = none)
      ∧ (∀ n, n < a.val ∨ a.val + k.val ≤ n → u.entry n = s.entry n)
      ∧ ∀ n x, s.liveRow n = some x → u.liveRow n = x.less (s.namesOf a.val k.val n)

/-- MTAG gives mapped names that are not aliased a tag; the lowest name that is not mapped takes 0x03, and then the lowest aliased one 0x04. -/
def Claims.TagEdits : Prop :=
  ∀ (s : State) (a : Fin 512) (g : BitVec 4) (k : Fin 32), (s.atQueue = true ∨ s.ag.queue = []) →
    let mapped : Nat → Prop := fun i => (s.entry (a.val + i)).isSome = true
    let single : Nat → Prop := fun i => ∀ e, s.entry (a.val + i) = some e → (s.myRank.row e.row).refs ≤ 1
    (∀ i, i < k.val → ¬ mapped i → (∀ j, j < i → mapped j) → exec (.mtag a g k) s = fault s 0x03 (ofNat64 (a.val + i)))
    ∧ ((∀ i, i < k.val → mapped i) →
      (∀ i, i < k.val → ¬ single i → (∀ j, j < i → single j) → exec (.mtag a g k) s = fault s 0x04 (ofNat64 (a.val + i)))
      ∧ ((∀ i, i < k.val → single i) →
          ∃ u : State, exec (.mtag a g k) s = .next u.commit ∧ OnlyMap s u ∧ RowsKept s u
            ∧ (∀ i, i < k.val → u.entry (a.val + i) = (s.entry (a.val + i)).map fun e => { e with tag := g })
            ∧ ∀ n, n < a.val ∨ a.val + k.val ≤ n → u.entry n = s.entry n))

/-- MQRY reports a name in the fields of Table 13.4; a name that is not mapped reports zero. -/
def Claims.MapQuery : Prop :=
  ∀ (s : State) (d : Fin 64) (n : Fin 512), (s.atQueue = true ∨ s.ag.queue = []) →
    ∃ u : State, exec (.mqry d n) s = .next u.finish
      ∧ OnlyRegs [d] [] s { u with ag := { u.ag with reg := s.ag.reg, olds := s.ag.olds } }
      ∧ (s.entry n.val = none → u.gIs d 0)
      ∧ ∀ e, s.entry n.val = some e →
        let x := s.myRank.row e.row
        u.gIs d (ofNat64 (x.refs * 2 ^ 20 + e.row * 2 ^ 8 + e.tag.toNat * 2 ^ 4
          + (if x.readHolds = 0 ∧ x.writeHolds = 0 then 0 else 2) + 1))

/-- MSWAP, MROT, MFREE, MTAG and MQRY: the entries of the register map after each. -/
def Obligations.MapShuffles : Prop :=
  Claims.MapShuffles ∧ Claims.TagEdits ∧ Claims.MapQuery

/-- MALIAS and MMOVE map a name to another's row, MALIAS with one reference more; the old row of the name loses its reference; a source that is not
mapped takes 0x03, and a held old row makes the edit wait. -/
def Obligations.AliasAndMove : Prop :=
  ∀ (s : State) (a b : Fin 512), (s.atQueue = true ∨ s.ag.queue = []) →
    (s.entry a.val = none → ∀ i ∈ [Instr.malias a b, .mmove a b], exec i s = fault s 0x03 (ofNat64 a.val))
    ∧ ∀ e, s.entry a.val = some e →
      (∀ o, s.entry b.val = some o → o.row = e.row → ∀ i ∈ [Instr.malias a b, .mmove a b], exec i s = .next s.commit)
      ∧ (∀ o, s.entry b.val = some o → o.row ≠ e.row → s.held o.row = true →
          ∀ i ∈ [Instr.malias a b, .mmove a b], exec i s = .next s)
      ∧ (s.yields b.val e.row →
          (∃ u : State, exec (.malias a b) s = .next u.commit ∧ OnlyMap s u
            ∧ u.entry b.val = some e ∧ (∀ n, n ≠ b.val → u.entry n = s.entry n)
            ∧ (∀ x, s.liveRow e.row = some x → u.liveRow e.row = some { x with refs := x.refs + 1 })
            ∧ ∀ n, n ≠ e.row → u.liveRow n = s.rowAfter b.val n)
          ∧ ∃ u : State, exec (.mmove a b) s = .next u.commit ∧ OnlyMap s u
            ∧ u.entry b.val = some e ∧ (a ≠ b → u.entry a.val = none) ∧ (∀ n, n ≠ a.val → n ≠ b.val → u.entry n = s.entry n)
            ∧ ∀ n, u.liveRow n = s.rowAfter b.val n)

/-- MGIVE and MTAKE move a row with its tag through a handoff slot, and each stops with the code of R321 where it may not; an MTAKE onto a name whose
old row is held waits (R317). -/
def Claims.Handoffs : Prop :=
  ∀ (s : State) (n : Fin 512) (k : Fin 32), (s.atQueue = true ∨ s.ag.queue = []) →
    (s.entry n.val = none → exec (.mgive n k) s = fault s 0x03 (ofNat64 n.val))
    ∧ (∀ e, s.entry n.val = some e →
      (1 < (s.myRank.row e.row).refs → exec (.mgive n k) s = fault s 0x04 (ofNat64 n.val))
      ∧ ((s.myRank.row e.row).refs ≤ 1 →
        ((s.tm.handoff.find? k.val).isSome = true → exec (.mgive n k) s = fault s 0x04 (ofNat64 k.val))
        ∧ (s.tm.handoff.find? k.val = none →
          ∃ u v : State, exec (.mgive n k) s = .next u.commit
            ∧ v = { s with tm := { s.tm with handoff := u.tm.handoff } } ∧ OnlyMap v u ∧ RowsKept s u
            ∧ u.tm.handoff.find? k.val = some { row := e.row, tag := e.tag, rank := s.ag.rank } ∧ u.entry n.val = none
            ∧ (∀ m, m ≠ n.val → u.entry m = s.entry m)
            ∧ ∀ j, j ≠ k.val → u.tm.handoff.find? j = s.tm.handoff.find? j)))
    ∧ (s.tm.handoff.find? k.val = none → exec (.mtake n k) s = fault s 0x03 (ofNat64 k.val))
    ∧ ∀ h, s.tm.handoff.find? k.val = some h →
      (h.rank ≠ s.ag.rank → exec (.mtake n k) s = fault s 0x14 (ofNat64 k.val))
      ∧ (h.rank = s.ag.rank → ∀ o, s.entry n.val = some o → o.row ≠ h.row → s.held o.row = true → exec (.mtake n k) s = .next s)
      ∧ (h.rank = s.ag.rank → s.yields n.val h.row →
        ∃ u v : State, exec (.mtake n k) s = .next u.commit
          ∧ v = { s with tm := { s.tm with handoff := u.tm.handoff }, l1 := u.l1 } ∧ OnlyMap v u
          ∧ Acquired s.who.core .team s { s with l1 := u.l1 }
          ∧ u.tm.handoff.find? k.val = none ∧ (∀ j, j ≠ k.val → u.tm.handoff.find? j = s.tm.handoff.find? j)
          ∧ u.entry n.val = some { row := h.row, tag := h.tag } ∧ (∀ m, m ≠ n.val → u.entry m = s.entry m)
          ∧ ∀ m, u.liveRow m = s.rowAfter n.val m)

/-- MPLACE gives a row to a name of a resident warp of the same core, which must be free; otherwise 0x03, 0x04 or 0x14 (R321, R323). Another warp that
receives it has not touched the name yet. -/
def Claims.PlaceInWarp : Prop :=
  ∀ (s : State) (a b : Fin 512) (k : Fin 32), (s.atQueue = true ∨ s.ag.queue = []) →
    let w := (s.ag.getG (Fin.ofNat 64 k.val)).toNat
    (s.entry a.val = none → exec (.mplace a b k) s = fault s 0x03 (ofNat64 a.val))
    ∧ ∀ e, s.entry a.val = some e →
      (1 < (s.myRank.row e.row).refs → exec (.mplace a b k) s = fault s 0x04 (ofNat64 a.val))
      ∧ ((s.myRank.row e.row).refs ≤ 1 →
        (s.receiver w = none → exec (.mplace a b k) s = fault s 0x14 (ofNat64 w))
        ∧ ∀ x, s.receiver w = some x →
          ((x.vmap.find? b.val).isSome = true → exec (.mplace a b k) s = fault s 0x04 (ofNat64 w))
          ∧ (x.vmap.find? b.val = none →
            ∃ (u y : State) (z : Agent), exec (.mplace a b k) s = .next u.commit
              ∧ z = { x with vmap := x.vmap.insert b.val e, placed := z.placed } ∧ y = s.setAgent z
              ∧ (x.id = s.ag.id → z.placed = x.placed) ∧ (x.id ≠ s.ag.id → ∀ n, n ∈ z.placed ↔ n = b.val ∨ n ∈ x.placed)
              ∧ OnlyMap y u ∧ RowsKept s u ∧ u.entry a.val = none ∧ ∀ n, n ≠ a.val → u.entry n = y.entry n))

/-- The first instruction that reads, writes, edits or queries a placed name acquires at team scope before it acts (R220, R323); every name that a
lane word reads or writes is among those that it touches. -/
def Claims.PlacedNames : Prop :=
  (∀ (s : State) (i : Instr),
    let touches (n : Nat) : Prop := ∀ ns, touchedNames i = some ns → n ∈ ns
    ((∀ n ∈ s.ag.placed, ¬ touches n) → s.touch i = s)
    ∧ ((∃ n ∈ s.ag.placed, touches n) →
      ∃ (u : State) (l : List Nat), Acquired s.who.core .team (s.acquireStores .team) u ∧ s.touch i = { u with ag := { u.ag with placed := l, ahead := [] } }
        ∧ ∀ n, n ∈ l ↔ n ∈ s.ag.placed ∧ ¬ touches n))
  ∧ ∀ (w : ArithOps) (v : MemOps), ∀ x ∈ gatedWords w v, ∃ ns, touchedNames x.instr = some ns
      ∧ (∀ u ∈ x.us, ∀ n i, u.1 = .vec n → i < u.2 → n.val + i ∈ ns) ∧ ∀ d ∈ x.ds, d ∈ ns

/-- MGIVE, MTAKE and MPLACE move a row through a slot or into another warp, which acquires when it first touches it. Where the spec leaves a point
open this follows the model's own choice or reading: log 89. -/
def Obligations.RowTransfers : Prop :=
  Claims.Handoffs ∧ Claims.PlaceInWarp ∧ Claims.PlacedNames

/-- The barrier instructions check the pointer first: space, window, alignment, and, but for BINIT and BPHASE, that the object is in use (R277); a
drop may not wait. -/
def Claims.BarrierChecks : Prop :=
  ∀ (s : State) (q : Fin 8) (a b : Fin 64) (sc : Scope), s.ag.queue = [] →
    let p := s.ag.getG a
    let space := spaceOk [1, 2] p 16 = true
    let window := windowOk s.tm s.who p 16 = true
    let aligned := bits p.toNat 57 0 % 16 = 0
    (∀ i ∈ [Instr.binit a b sc, .barr a b sc, .bexp a b sc, .bwait a b sc, .btest q a b sc, .bclr a sc, .bphase a b sc],
      ((∀ c d e, i = .bwait c d e → s.ag.isDrop = false) →
        (¬ space → exec i s = fault s 0x10 p)
        ∧ (space → ¬ window → exec i s = fault s 0x14 p)
        ∧ (space → window → ¬ aligned → exec i s = fault s 0x13 p)))
    ∧ (∀ i ∈ [Instr.barr a b sc, .bexp a b sc, .bwait a b sc, .btest q a b sc, .bclr a sc],
        (∀ c d e, i = .bwait c d e → s.ag.isDrop = false) → space → window → aligned →
        (s.tm.bar (barLoc s.who p)).init = false → exec i s = fault s 0x18 p)
    ∧ (s.ag.isDrop = true → exec (.bwait a b sc) s = fault s 0x08 s.ag.spc)

/-- BINIT, BARR, BEXP and BCLR change the object whole, as R278 and R282 say, end the waits that it satisfies, and commit. -/
def Claims.BarrierUpdates : Prop :=
  ∀ (s : State) (a b : Fin 64) (sc : Scope), s.ag.queue = [] → s.tm.id ≠ 0 →
    let p := s.ag.getG a
    let l := barLoc s.who p
    let o := s.tm.bar l
    let n := bits (s.ag.getG b).toNat 15 0
    let m := bits (s.ag.getG b).toNat 31 0
    let set := s.tm.perSet l
    (checkBarrier s.tm s.who p false = none →
      ∃ (u : State) (x : Bar), exec (.binit a b sc) s = .next u.commit ∧ BarNow l x s u
        ∧ x.expected = n ∧ x.arrived = 0 ∧ x.landed = 0 ∧ x.err = 0 ∧ x.phase = o.phase
        ∧ (∀ i, i < 8 → x.flags.getLsbD i = if i = 0 then decide (n ≠ 0) else o.flags.getLsbD i)
        ∧ x.target = if n ≠ 0 ∧ o.land = true then set else 0)
    ∧ (checkBarrier s.tm s.who p true = none →
      (∃ u : State, exec (.barr a b sc) s = .next u.commit ∧ BarNow l (o.arrive 1 m 0 set) s u)
      ∧ (∃ u : State, exec (.bexp a b sc) s = .next u.commit ∧ BarNow l ({ o with target := (o.target + m) % 2 ^ 32 }.complete set) s u)
      ∧ ∃ u : State, exec (.bclr a sc) s = .next u.commit ∧ BarNow l { o with err := 0 } s u)

/-- Barrier instructions: their checks, and the object after BINIT, BARR, BEXP and BCLR. Where the spec leaves a point open this follows the model's
own choice or reading: log 52, 116. -/
def Obligations.BarrierUpdates : Prop :=
  Claims.BarrierChecks ∧ Claims.BarrierUpdates

/-- BWAIT goes on where the phase awaited is past, and acquires; otherwise it blocks the warp. BTEST tells in a predicate; BPHASE reads the phase, the
error code and the flags. None of them changes the object. Where the spec leaves a point open this follows the model's own choice or reading: log 52.
-/
def Obligations.BarrierWaits : Prop :=
  ∀ (s : State) (q : Fin 8) (a b : Fin 64) (sc : Scope), s.ag.queue = [] → s.tm.id ≠ 0 → (s.gangPending s.tm = false ∨ sc ≠ .gang) →
    let p := s.ag.getG a
    let l := barLoc s.who p
    let o := s.tm.bar l
    let f := bits (s.ag.getG b).toNat 15 0
    let past := ∃ k, 1 ≤ k ∧ k ≤ 32767 ∧ o.phase = (f + k) % 65536
    (checkBarrier s.tm s.who p true = none →
      (past → s.ag.isDrop = false → ∃ u v t : State, exec (.bwait a b sc) s = .next t ∧ BarNow l o s u
          ∧ Acquired (u.tm.rank u.ag.rank).core sc u v ∧ Went (v.ag.spc + 4) [] [] v t)
      ∧ (¬ past → s.ag.isDrop = false → ∃ u t : State, exec (.bwait a b sc) s = .next t ∧ BarNow l o s u
          ∧ t = { u with ag := { u.ag with status := .waiting p (BitVec.ofNat 16 f) sc } })
      ∧ ∃ u v t : State, exec (.btest q a b sc) s = .next t ∧ BarNow l o s u
          ∧ (past → Acquired (u.tm.rank u.ag.rank).core sc u v ∧ t.qIs q true) ∧ (¬ past → v = u ∧ t.qIs q false)
          ∧ Went (v.ag.spc + 4) [] [q] v t)
    ∧ (checkBarrier s.tm s.who p false = none →
      ∃ u t : State, exec (.bphase a b sc) s = .next t ∧ BarNow l o s u ∧ Went (u.ag.spc + 4) [b] [] u t
        ∧ t.gIs b (ofNat64 (o.phase + o.err.toNat * 2 ^ 16 + o.flags.toNat * 2 ^ 24)))

/-- `arrive` (R278) on an object in use: the first error stands, an arrival too many posts 0x1C, and when both counts are full the phase advances and
the counts start again. An object not in use takes no arrival. The object of a resident team is changed whole, and the waits that its new phase
satisfies end. Where the spec leaves a point open this follows the model's own choice or reading: log 52, 116. -/
def Obligations.ArrivalRule : Prop :=
  (∀ (s : State) (l : BarLoc) (n bytes : Nat) (err : Byte), s.tm.id ≠ 0 → l.team = s.tm.id →
    BarNow l ((s.tm.bar l).arrive n bytes err (s.tm.perSet l)) s (s.arrive l n bytes err))
  ∧ ∀ (o : Bar) (n bytes set : Nat) (err : Byte),
    (o.init = false → o.arrive n bytes err set = o)
    ∧ (o.init = true →
      let past := o.expected < o.arrived + n
      let arrived := min o.expected (o.arrived + n)
      let landed := (o.landed + bytes) % 2 ^ 32
      let first := if o.err ≠ 0 then o.err else if err ≠ 0 then err else if past then 0x1C else 0
      (arrived < o.expected ∨ landed < o.target →
        o.arrive n bytes err set = { o with arrived := arrived, landed := landed, err := first })
      ∧ (arrived = o.expected → o.target ≤ landed →
        o.arrive n bytes err set = { o with
          arrived := 0, landed := 0, phase := (o.phase + 1) % 65536, target := if o.land = true then set else 0,
          err := if first = 0 ∧ o.target < landed then 0x1C else first }))

/-- TDEF defines a task slot; a number beyond 63 takes 0x14, a reserved bit 0x01. -/
def Claims.TaskDefinition : Prop :=
  ∀ (s : State) (a b : Fin 64), s.ag.queue = [] →
    let n := s.ag.getG b
    let w := s.ag.getG a
    (63 < n.toNat → exec (.tdef a b) s = fault s 0x14 n)
    ∧ (n.toNat ≤ 63 → 2 ^ 62 ≤ w.toNat → exec (.tdef a b) s = fault s 0x01 s.ag.spc)
    ∧ (n.toNat ≤ 63 → w.toNat < 2 ^ 62 →
      ∃ u x, exec (.tdef a b) s = .next (u : State).commit ∧ u.tm.tasks.find? n.toNat = some x
        ∧ x = { state := if bits w.toNat 31 24 = 0 then TaskState.ready else .waiting, counter := bits w.toNat 31 24, word := w,
                arg := s.ag.getGAt a 1, stamp := s.stamp }
        ∧ u = { s with tm := { s.tm with tasks := u.tm.tasks } }
        ∧ ∀ m, m ≠ n.toNat → u.tm.tasks.find? m = s.tm.tasks.find? m)

/-- TSUB: a slot becomes DONE and each valid successor's counter falls by one for each time that it is named, a WAITING one that reaches zero becoming
READY; where a counter would fall below zero it takes 0x19 and changes nothing. -/
def Claims.TaskCompletion : Prop :=
  ∀ (s : State) (b : Fin 64), s.ag.queue = [] →
    let n := s.ag.getG b
    (63 < n.toNat → exec (.tsub b) s = fault s 0x14 n)
    ∧ (n.toNat ≤ 63 → s.tm.tasks.find? n.toNat = none → exec (.tsub b) s = .next s.commit)
    ∧ ∀ t, n.toNat ≤ 63 → s.tm.tasks.find? n.toNat = some t →
      let named : Nat → Nat := fun m => t.succs.countP (· == m)
      let count : Nat → Nat := fun m => match s.tm.tasks.find? m with
        | some x => x.counter
        | none => 0
      ((∃ m, count m < named m) → ∃ m, count m < named m ∧ exec (.tsub b) s = fault s 0x19 (ofNat64 m))
      ∧ ((∀ m, named m ≤ count m) →
        ∃ u : State, exec (.tsub b) s = .next u.commit ∧ u = { s with tm := { s.tm with tasks := u.tm.tasks } }
          ∧ ∀ m, u.tm.tasks.find? m = (s.tm.tasks.find? m).map fun x =>
              let ready := decide (named m ≠ 0 ∧ x.counter = named m ∧ x.state = .waiting)
              { x with
                counter := x.counter - named m
                state := if m = n.toNat then .done else if ready = true then .ready else x.state
                stamp := if ready = true then s.stamp else x.stamp })

/-- TGET pops a READY slot of the highest priority, of these the one READY the longest, of these the lowest number; with none it writes false and is
no commit. -/
def Claims.TaskPop : Prop :=
  ∀ (s : State) (q : Fin 8) (a : Fin 64), s.ag.queue = [] →
    ((∀ x ∈ s.tm.tasks, x.2.state ≠ .ready) →
      ∃ t, exec (.tget q a) s = .next t ∧ Went (s.ag.spc + 4) [] [q] s t ∧ t.qIs q false)
    ∧ ∀ n t, (n, t) ∈ s.tm.tasks → t.state = .ready →
      (∀ x ∈ s.tm.tasks, x.2.state = .ready → x ≠ (n, t) →
        x.2.prio < t.prio ∨ (x.2.prio = t.prio ∧ (t.stamp < x.2.stamp ∨ (t.stamp = x.2.stamp ∧ n < x.1)))) →
      ∃ u v : State, exec (.tget q a) s = .next u.commit
        ∧ v = { s with tm := { s.tm with tasks := u.tm.tasks }, l1 := u.l1 } ∧ OnlyRegs [a, Fin.ofNat 64 (a.val + 1)] [q] v u
        ∧ Acquired s.who.core .team s { s with l1 := u.l1 }
        ∧ u.tm.tasks.find? n = some { t with state := .running } ∧ (∀ m, m ≠ n → u.tm.tasks.find? m = s.tm.tasks.find? m)
        ∧ u.qIs q true ∧ u.gIs (Fin.ofNat 64 (a.val + 1)) t.arg
        ∧ (a.val < 63 → u.gIs a (ofNat64 (bits t.word.toNat 23 0 * 2 ^ 32 + n)))

/-- TDEF, TSUB and TGET: slots, counters and the order in which READY slots are taken. -/
def Obligations.TaskPool : Prop :=
  Claims.TaskDefinition ∧ Claims.TaskCompletion ∧ Claims.TaskPop

/-- HALT ends a warp; a drop takes 0x08. The team ends with its last warp, drop and command (R255). -/
def Obligations.HaltAndTeamEnd : Prop :=
  (∀ s : State,
    (s.ag.isDrop = true → exec .halt s = fault s 0x08 s.ag.spc)
    ∧ (s.ag.isDrop = false → s.ag.queue = [] →
        exec .halt s = .next (State.checkTeamEnd { s with ag := { s.ag with status := .halted, issued := s.ag.issued + 1 } } s.tm.id)))
  ∧ (∀ (s : State) (t : Team), s.getTeam t.id = some t →
      let live := (∃ a ∈ s.allAgents, teamOf a.id = t.id ∧ (a.status ≠ .halted ∨ a.isDrop = true)) ∨ ∃ c ∈ s.cmds, c.team = t.id
      (live → s.checkTeamEnd t.id = s)
      ∧ (¬ live → s.checkTeamEnd t.id = (s.removeTeam t).checkRetire t.grid)
      ∧ (s.removeTeam t).getTeam t.id = none ∧ (∀ a ∈ (s.removeTeam t).allAgents, a ∈ s.allAgents ∧ teamOf a.id ≠ t.id)
      ∧ (∀ c, c ∈ (s.removeTeam t).cmds ↔ c ∈ s.cmds ∧ c.team ≠ t.id)
      ∧ (s.removeTeam t).grids = s.grids.map fun g =>
          if g.id = t.grid then { g with ended := g.ended + 1, tickets := g.tickets.filter fun k => decide (k.team ≠ t.id) } else g)
  ∧ (∀ (s : State) (t : Team) (g : Grid) (k : SaveTicket) (c : Ctx), s.getGrid t.grid = some g → k ∈ g.tickets → k.team = t.id →
      (∀ j ∈ g.tickets, j.team = t.id → j = k) → s.ctxs.find? t.ctx.toNat = some c →
      ∃ x y, (s.removeTeam t).ctxs.find? t.ctx.toNat = some x ∧ x = { c with slots := x.slots } ∧ x.slots.find? k.slot = some y ∧ y.busy = false
        ∧ y.generation = ((c.slots.find? k.slot).map fun z => z.generation).getD 0 ∧ ∀ n, n ≠ k.slot → x.slots.find? n = c.slots.find? n)
  ∧ ∀ (s : State) (t : Team) (code : Byte), s.getTeam t.id = some t →
      ∃ u : State, s.terminateTeam t.id code = (u.removeTeam t).checkRetire t.grid
        ∧ u = { s with grids := s.grids.map fun g => if g.id = t.grid ∧ g.code = 0 then { g with code := code } else g }

/-- Each engine takes its commands only from the role of Table 2.2, and HREAD and HEND only from a warp and a drop. -/
def Obligations.EngineRoles : Prop :=
  ∀ (s : State) (e : EngOps) (kt : KeyType) (col bot : Bool) (t : Fin 16) (n : Fin 4),
    (s.atQueue = false → s.ag.queue = [] →
      (s.ag.role ≠ .gen → exec (.topk e kt col bot) s = fault s 0x07 s.ag.spc)
      ∧ (s.ag.role = .gen ∨ s.ag.role = .mtx → exec (.cpy e t n) s = fault s 0x07 s.ag.spc)
      ∧ (s.ag.role ≠ .cpy → exec (.hland e) s = fault s 0x07 s.ag.spc)
      ∧ (s.ag.role ≠ .com → ∀ i ∈ [Instr.fput e, .fputh e, .fcoll e, .fcont e], exec i s = fault s 0x07 s.ag.spc))
    ∧ (s.atQueue = false → s.ag.role ≠ .mtx → ∀ i ∈ [Instr.mmac e, .azero e, .ard e, .awr e], exec i s = fault s 0x07 s.ag.spc)
    ∧ (s.atQueue = false → s.ag.isDrop = false → s.ag.role ≠ .cpy → exec (.hread e) s = fault s 0x07 s.ag.spc)
    ∧ (s.atQueue = false → s.ag.isDrop = true → exec (.hread e) s = fault s 0x08 s.ag.spc)
    ∧ (s.ag.isDrop = false → exec .hend s = fault s 0x01 s.ag.spc)

/-- CPY: reserved fields and a full engine answer false, a failed check takes its fault, and otherwise the command joins the engine and the answer is
true. A peer pointer belongs to a COM warp alone. -/
def Claims.CopyAcceptance : Prop :=
  ∀ (s : State) (e : EngOps) (t : Fin 16) (n : Fin 4), s.ag.queue = [] →
    let d := s.descOf e.a 5
    let c := Copy.ofDesc d t.val n.val
    let peer (p : Word) : Prop := bits p.toNat 63 61 = 5
    let odd (p : Word) (x y : Nat) : Option Fail := if p.toNat % c.u ≠ 0 ∨ x % c.u ≠ 0 ∨ y % c.u ≠ 0 then some { code := 0x13, addr := p } else none
    let spaces := [0, 1, 2, 3, 4, 5]
    let checks := [extentFail s.tm s.who [{ spaces := spaces, ptr := c.src, size := c.srcSpan }, { spaces := spaces, ptr := c.dst, size := c.dstSpan }],
      odd c.src c.srs c.sps, odd c.dst c.drs c.dps, s.barFail e.b]
    (s.ag.role = .cpy →
      (peer c.src → exec (.cpy e t n) s = fault s 0x10 c.src) ∧ (¬ peer c.src → peer c.dst → exec (.cpy e t n) s = fault s 0x10 c.dst))
    ∧ (s.ag.role = .com → ¬ peer c.src → ¬ peer c.dst → exec (.cpy e t n) s = fault s 0x07 s.ag.spc)
    ∧ ((s.ag.role = .cpy ∧ ¬ peer c.src ∧ ¬ peer c.dst) ∨ (s.ag.role = .com ∧ (peer c.src ∨ peer c.dst)) →
      (copyReserved d n.val = true ∨ c.b % c.u ≠ 0 → Answered e.q false s (exec (.cpy e t n) s))
      ∧ (copyReserved d n.val = false → c.b % c.u = 0 →
        (∀ f, FirstOf checks (some f) → exec (.cpy e t n) s = fault s f.code f.addr)
        ∧ (FirstOf checks none →
          (1024 ≤ s.loadOn s.who.core [.cpy, .hread] → Answered e.q false s (exec (.cpy e t n) s))
          ∧ (s.loadOn s.who.core [.cpy, .hread] < 1024 → GangReady s (e.acq = true ∧ e.s = .gang) →
            ∃ k u v, CmdIs .cpy (.cpy e t n) e d s k ∧ Acquired s.who.core (if e.acq = true then e.s else .warp) s u ∧ Joined k u v
              ∧ Answered e.q true v (exec (.cpy e t n) s)))))

/-- HREAD: accepted where the engine, the handler slots and the free rows have room, it takes its W·(1+E) rows from the pool; without room it answers
false. -/
def Claims.ReadAcceptance : Prop :=
  ∀ (s : State) (e : EngOps), (s.atQueue = true ∨ s.ag.queue = []) → s.ag.isDrop = false → s.ag.role = .cpy →
    let d := s.descOf e.a 4
    let shape := descNat d 1
    let size := if bits shape 63 48 = 0 ∨ bits shape 47 32 = 0 ∨ bits shape 31 0 = 0 then 0
      else (bits shape 63 48 - 1) * bits (descNat d 2) 63 32 + (bits shape 47 32 - 1) * bits (descNat d 2) 31 0 + bits shape 31 0
    let w := bits (descNat d 3) 35 32 + 1
    let rows := w * (1 + bits (descNat d 3) 39 36)
    let checks := [extentFail s.tm s.who [{ spaces := [0, 1, 2, 3, 4], ptr := d.getD 0 0, size := size }], s.barFail e.b]
    let room := s.loadOn s.who.core [.cpy, .hread] < 1024 ∧ s.handlersUsed s.tm s.ag.rank + w ≤ s.tm.pkt.handlers
      ∧ rows ≤ s.myRank.pool.length + s.myRank.zeroing.length
    (bits (descNat d 3) 63 45 ≠ 0 ∨ bits (descNat d 3) 31 0 % 4 ≠ 0 → Answered e.q false s (exec (.hread e) s))
    ∧ (bits (descNat d 3) 63 45 = 0 → bits (descNat d 3) 31 0 % 4 = 0 →
      (∀ f, FirstOf checks (some f) → exec (.hread e) s = fault s f.code f.addr)
      ∧ (FirstOf checks none →
        (¬ room → Answered e.q false s (exec (.hread e) s))
        ∧ (room → GangReady s (e.acq = true ∧ e.s = .gang) →
          ∃ (k : Cmd) (u v x : State), CmdIs .hread (.hread e) e d s k ∧ k.window = w ∧ k.reserved = rows ∧ k.rows.length = rows
            ∧ k.final = (if bit (descNat d 3) 44 = true then .due else .none)
            ∧ u = { s with tm := { s.tm with ranks := u.tm.ranks } }
            ∧ u.myRank = { s.myRank with pool := u.myRank.pool, zeroing := u.myRank.zeroing }
            ∧ (∀ r, r ≠ s.ag.rank → u.tm.rank r = s.tm.rank r)
            ∧ k.rows ++ u.myRank.pool ++ u.myRank.zeroing = s.myRank.pool ++ s.myRank.zeroing
            ∧ Acquired s.who.core (if e.acq = true then e.s else .warp) u v ∧ Joined k v x ∧ Answered e.q true x (exec (.hread e) s))))

/-- HLAND: it binds a landing number on the issuing core, with W rows from the pool, and gives the barrier its target and LAND; it answers false where
a field is reserved, another team of the gang's grid holds the number, or there is no room. -/
def Claims.LandingBinding : Prop :=
  ∀ (s : State) (e : EngOps), s.ag.queue = [] → s.ag.role = .cpy →
    let d := s.descOf e.a 3
    let n := descNat d 0
    let w := bits (descNat d 1) 35 32 + 1
    let good := n < 8 ∧ descNat d 1 < 2 ^ 36 ∧ descNat d 1 % 2 ^ 32 % 4 = 0 ∧ descNat d 2 < 2 ^ 32
    (¬ good → Answered e.q false s (exec (.hland e) s))
    ∧ (good → (∀ f, s.barFail e.b = some f → exec (.hland e) s = fault s f.code f.addr)
      ∧ (s.barFail e.b = none →
        (s.slotTaken n = true → Answered e.q false s (exec (.hland e) s))
        ∧ (s.tm.id ≠ 0 → e.b.val ≠ 0 → s.slotTaken n = false → s.tm.landings.find? n = none →
          ((s.tm.pkt.handlers < s.handlersUsed s.tm s.ag.rank + w ∨ s.myRank.pool.length + s.myRank.zeroing.length < w) →
            Answered e.q false s (exec (.hland e) s))
          ∧ (s.handlersUsed s.tm s.ag.rank + w ≤ s.tm.pkt.handlers → w ≤ s.myRank.pool.length + s.myRank.zeroing.length →
            let p := s.ag.getG e.b
            let l := barLoc s.who p
            let o := s.tm.bar l
            ∃ (u v : State) (x : Landing), Answered e.q true v (exec (.hland e) s)
              ∧ x.bar = p ∧ x.barRank = l.rank ∧ x.entry = descNat d 1 % 2 ^ 32 ∧ x.window = w ∧ x.perSet.toNat = descNat d 2
              ∧ x.rank = s.ag.rank ∧ x.rows.length = w ∧ x.running = 0 ∧ x.waiting = []
              ∧ u = { s with tm := { s.tm with landings := s.tm.landings.insert n x, ranks := u.tm.ranks } }
              ∧ u.myRank = { s.myRank with pool := u.myRank.pool, zeroing := u.myRank.zeroing }
              ∧ (∀ r, r ≠ s.ag.rank → u.tm.rank r = s.tm.rank r)
              ∧ x.rows ++ u.myRank.pool ++ u.myRank.zeroing = s.myRank.pool ++ s.myRank.zeroing
              ∧ BarNow l { o with flags := o.flags ||| 2, target := (o.target + descNat d 2) % 2 ^ 32 } u v))
        ∧ (s.tm.id ≠ 0 → s.slotTaken n = false → ∀ o, s.tm.landings.find? n = some o →
          let same := o.rank = s.ag.rank
          let used := s.handlersUsed s.tm s.ag.rank + w - (if same then o.window else 0)
          let free := s.myRank.pool.length + s.myRank.zeroing.length + if same then o.rows.length else 0
          (s.tm.pkt.handlers < used ∨ free < w → Answered e.q false s (exec (.hland e) s))
          ∧ (used ≤ s.tm.pkt.handlers → w ≤ free →
            ∃ (v : State) (x : Landing), Answered e.q true v (exec (.hland e) s) ∧ v.tm.landings.find? n = some x
              ∧ x.bar = s.ag.getG e.b ∧ x.entry = descNat d 1 % 2 ^ 32 ∧ x.window = w ∧ x.rows.length = w ∧ x.waiting = o.waiting
              ∧ (∀ m, m ≠ n → v.tm.landings.find? m = s.tm.landings.find? m)
              ∧ (v.tm.bar (barLoc s.who x.bar)).land = true))))

/-- CPY, HREAD and HLAND: their checks in order, their answer, and the command or binding accepted. Where the spec leaves a point open this follows
the model's own choice or reading: log 20, 23, 27, 52. -/
def Obligations.TransferAcceptance : Prop :=
  Claims.CopyAcceptance ∧ Claims.ReadAcceptance ∧ Claims.LandingBinding

/-- MMAC: reserved bits answer false, a shape that is too large takes 0x0A, an empty one only joins the queue; otherwise the checks of R162 decide,
and the command holds the rows that its names map. -/
def Claims.MatrixMultiplyAcceptance : Prop :=
  ∀ (s : State) (e : EngOps), (s.atQueue = true ∨ s.ag.queue = []) → s.ag.role = .mtx →
    let d := s.descOf e.a 3
    let x := Mmac.ofDesc d
    let deep (col : Bool) (n : Nat) : Nat := if col = true then 64 else 64 * ((tagTy (s.nameTag n)).map Ty.count).getD 0
    let shape : Fail := { code := 0x0A, addr := s.instrAddr }
    let checks := [if x.names.any (fun n => decide (512 ≤ n)) = true then some shape else none, s.unmappedFail x.names, s.tagChecks x,
      if deep x.colA x.a < x.k ∨ deep x.colB x.b < x.k then some shape else none, s.windowFail x.off x.ld x.m x.n]
    let o := exec (.mmac e) s
    (x.reserved = true ∨ 1 < x.accType → Answered e.q false s o)
    ∧ (x.reserved = false → x.accType ≤ 1 →
      (64 < x.m ∨ 64 < x.n ∨ 320 < x.k → o = fault s 0x0A s.instrAddr)
      ∧ (x.m ≤ 64 → x.n ≤ 64 → x.k ≤ 320 →
        (x.m = 0 ∨ x.n = 0 ∨ x.k = 0 →
          MatrixTaken e s o fun o => ∃ k v, CmdIs .mmac (.mmac e) e d s k ∧ k.rows = [] ∧ Joined k s v ∧ Answered e.q true v o)
        ∧ (x.m ≠ 0 → x.n ≠ 0 → x.k ≠ 0 →
          (∀ f, FirstOf checks (some f) → o = fault s f.code f.addr)
          ∧ (FirstOf checks none → MatrixTaken e s o fun o =>
            ∃ k u v, CmdIs .mmac (.mmac e) e d s k ∧ k.rows = s.rowsNamed x.names ∧ k.tags = [s.nameTag x.a, s.nameTag x.b]
              ∧ HeldMore k.rows [] s u ∧ Joined k u v ∧ Answered e.q true v o))))

/-- AZERO, AWR and ARD: reserved bits answer false; the checks of R168 come in order; an accepted AWR holds the rows of its names for reading, an ARD
for writing, and gives its names the tag RAW and rows of the pool where they have none. -/
def Claims.AccumulatorMoves : Prop :=
  ∀ (s : State) (e : EngOps), (s.atQueue = true ∨ s.ag.queue = []) → s.ag.role = .mtx →
    (let d := s.descOf e.a 1
     let off := bits (descNat d 0) 17 0
     let n := bits (descNat d 0) 35 18
     let o := exec (.azero e) s
     (2 ^ 36 ≤ descNat d 0 → Answered e.q false s o)
     ∧ (descNat d 0 < 2 ^ 36 →
      (off % 4 ≠ 0 ∨ n % 4 ≠ 0 → o = fault s 0x0A s.instrAddr)
      ∧ (off % 4 = 0 → n % 4 = 0 → n ≠ 0 → s.tm.accumSize < off + n → o = fault s 0x14 (s.accPtr off))
      ∧ (off % 4 = 0 → n % 4 = 0 → (n = 0 ∨ off + n ≤ s.tm.accumSize) → MatrixTaken e s o fun o =>
          ∃ k v, CmdIs .azero (.azero e) e d s k ∧ Joined k s v ∧ Answered e.q true v o)))
    ∧ (let d := s.descOf e.a 2
       let x := AccMove.ofDesc d
       let names := upTo x.first (x.first + x.rows)
       let shared : Nat → Bool := fun n => (s.entry n).any fun e => decide (1 < (s.myRank.row e.row).refs)
       let unmapped := names.filter fun n => (s.entry n).isNone
       let full : Option Fail := (unmapped[s.myRank.pool.length + s.myRank.zeroing.length]?).map fun n => { code := 0x05, addr := ofNat64 n }
       let aliased : Option Fail := (names.find? shared).map fun n => { code := 0x04, addr := ofNat64 n }
       let window := s.windowFail x.off x.ld x.rows x.cols
       let reserved := bits (descNat d 0) 63 43 ≠ 0 ∨ 2 ^ 32 ≤ descNat d 1
       let large := 64 < x.rows ∨ 64 < x.cols ∨ 512 < x.first + x.rows
       (∀ i ∈ [Instr.ard e, .awr e],
         (reserved → Answered e.q false s (exec i s)) ∧ (¬ reserved → large → exec i s = fault s 0x0A s.instrAddr))
       ∧ (¬ reserved → ¬ large →
         (x.rows = 0 ∨ x.cols = 0 → ∀ p ∈ [(CmdKind.ard, Instr.ard e), (.awr, .awr e)],
           MatrixTaken e s (exec p.2 s) fun o => ∃ k v, CmdIs p.1 p.2 e d s k ∧ k.rows = [] ∧ Joined k s v ∧ Answered e.q true v o)
         ∧ (x.rows ≠ 0 → x.cols ≠ 0 →
           (∀ f, FirstOf [s.unmappedFail names, window] (some f) → exec (.awr e) s = fault s f.code f.addr)
           ∧ (FirstOf [s.unmappedFail names, window] none → MatrixTaken e s (exec (.awr e) s) fun o =>
               ∃ k u v, CmdIs .awr (.awr e) e d s k ∧ k.rows = s.rowsNamed names ∧ HeldMore k.rows [] s u ∧ Joined k u v ∧ Answered e.q true v o)
           ∧ (∀ f, FirstOf [aliased, full, window] (some f) → exec (.ard e) s = fault s f.code f.addr)
           ∧ (FirstOf [aliased, full, window] none → MatrixTaken e s (exec (.ard e) s) fun o =>
               (s.myRank.pool.length < unmapped.length → o = .next s)
               ∧ (unmapped.length ≤ s.myRank.pool.length →
                 ∃ k u v w, CmdIs .ard (.ard e) e d s k ∧ k.rows = u.rowsNamed names
                   ∧ u = { s with ag := { s.ag with vmap := u.ag.vmap }, tm := { s.tm with ranks := u.tm.ranks } }
                   ∧ (∀ r, r ≠ s.ag.rank → u.tm.rank r = s.tm.rank r)
                   ∧ u.myRank = { s.myRank with pool := s.myRank.pool.drop unmapped.length, live := u.myRank.live }
                   ∧ (∀ n, n ∉ s.myRank.pool → u.liveRow n = s.liveRow n)
                   ∧ (∀ n, n ∉ names → u.entry n = s.entry n)
                   ∧ (∀ n ∈ names, ∃ y, u.entry n = some y ∧ y.tag = 0 ∧ (∀ z, s.entry n = some z → y.row = z.row)
                        ∧ (s.entry n = none → y.row ∈ s.myRank.pool))
                   ∧ HeldMore [] k.rows u v ∧ Joined k v w ∧ Answered e.q true w o)))))

/-- MMAC, AZERO, ARD and AWR: their checks in order, their answer, and the command accepted. Where the spec leaves a point open this follows the
model's own choice or reading: log 20, 21, 80, 85. -/
def Obligations.MatrixAcceptance : Prop :=
  Claims.MatrixMultiplyAcceptance ∧ Claims.AccumulatorMoves

/-- TOPK: accepted by a GEN warp's select engine, while it has fewer than 8 searches and the counts, extents, alignments and the barrier pass. Where
the spec leaves a point open this follows the model's own choice or reading: log 20. -/
def Obligations.SelectAcceptance : Prop :=
  ∀ (s : State) (e : EngOps) (kt : KeyType) (col bot : Bool), s.ag.queue = [] → s.ag.role = .gen →
    let d := s.descOf e.a 3
    let y := descNat d 1
    let rows := bits y 12 0
    let cols := bits y 25 13
    let k := bits y 33 26
    let stride := bits y 63 48
    let legal := bits y 47 34 = 0 ∧ 1 ≤ rows ∧ rows ≤ 4096 ∧ 1 ≤ cols ∧ cols ≤ 4096 ∧ 1 ≤ k ∧ cols ≤ stride
    let keys : Extent := { spaces := [1, 2], ptr := d.getD 0 0, size := 4 * ((rows - 1) * stride + cols) }
    let out : Extent := { spaces := [1, 2], ptr := d.getD 2 0, size := 2 * (if col = true then cols else rows) * k }
    let odd (p : Word) (n : Nat) : Option Fail := if p.toNat % n ≠ 0 then some { code := 0x13, addr := p } else none
    let checks := [extentFail s.tm s.who [keys, out], odd keys.ptr 4, odd out.ptr 2, s.barFail e.b]
    let o := exec (.topk e kt col bot) s
    (¬ legal → Answered e.q false s o)
    ∧ (legal → (∀ f, FirstOf checks (some f) → o = fault s f.code f.addr)
      ∧ (FirstOf checks none →
        (8 ≤ s.loadOn s.who.core [.topk] → Answered e.q false s o)
        ∧ (s.loadOn s.who.core [.topk] < 8 → GangReady s (e.acq = true ∧ e.s = .gang) →
          ∃ k u v, CmdIs .topk (.topk e kt col bot) e d s k ∧ Acquired s.who.core (if e.acq = true then e.s else .warp) s u ∧ Joined k u v
            ∧ Answered e.q true v o)))

/-- The fabric commands: an access failure takes its fault; reserved fields, ranks that the gang lacks and illegal routes answer false; an encrypted
route that leaves the gang takes 0x24; an accepted command joins the send queue, and an FCONT opens its collective entry. Where the spec leaves a
point open this follows the model's own choice or reading: log 20, 30, 31, 32, 36, 84, 87, 97, 113. -/
def Obligations.FabricAcceptance : Prop :=
  ∀ (s : State) (e : EngOps), s.ag.queue = [] → s.ag.role = .com →
    ∀ p ∈ [(Instr.fput e, CmdKind.fput, 4), (.fputh e, .fputh, 4), (.fcoll e, .fcoll, 4), (.fcont e, .fcont, 3)],
      let d := s.descOf e.a p.2.2
      let f := fabricForm p.1 d
      let o := exec p.1 s
      let gang := s.tm.pkt.gangid
      let outside (r : Route) : Prop := s.tm.pkt.enc = true ∧ Route.inGang gang (Config.coords gang s.tm.pkt.grank) r.hops r.ops = false
      let noRank := ∃ r, f.rank = some r ∧ (s.tm.pkt.gang = false ∨ Config.gangSize gang ≤ r)
      let full := 4096 ≤ s.cmds.countP (fun c => decide (c.kind ∈ [.fput, .fputh, .fcoll, .fcont])) ∨ (p.2.1 = .fcont ∧ 256 ≤ s.fab.table.length)
      f.kind = p.2.1
      ∧ (∀ x, s.fabricPtrFail f d = some x → o = .next (s.memFault x false))
      ∧ (s.fabricPtrFail f d = none →
        (f.reserved = true ∨ noRank ∨ s.recordRoute f d = .error () → Answered e.q false s o)
        ∧ ∀ r, f.reserved = false → ¬ noRank → s.recordRoute f d = .ok r →
          (∀ x, r = some x → outside x → o = fault s 0x24 (s.ag.getG e.a))
          ∧ ((∀ x, r = some x → ¬ outside x) →
            (∀ x, s.barFail e.b = some x → o = fault s x.code x.addr)
            ∧ (s.barFail e.b = none →
              (full → Answered e.q false s o)
              ∧ (¬ full → s.gangPending s.tm = false →
                ∃ k u v w, (∃ l, CmdIs p.2.1 p.1 e (d ++ l) s k) ∧ Acquired s.who.core (if e.acq = true then e.s else .warp) s u
                  ∧ (p.2.1 ≠ .fcont → v = u)
                  ∧ (p.2.1 = .fcont → ∃ y, v = { u with fab := { u.fab with table := u.fab.table ++ [y] } } ∧ y.cmd = some s.nextId
                      ∧ y.gang = gang ∧ y.team = s.tm.id ∧ y.coll.toNat = bits (descNat d 1) 15 0 ∧ y.fanin = bits (descNat d 1) 19 16
                      ∧ y.slot.val = bits (descNat d 1) 22 20 ∧ y.parts = [] ∧ y.links = [])
                  ∧ Joined k v w ∧ Answered e.q true w o))))

/-- LAUNCH: only warp 0 of a team launches, to a depth of 10; after the checks of the packet's pointer and of the barrier, the launch joins the queue
of its die and priority, or answers false where the die holds 4,096. A packet of which a byte is poisoned is no fault of the leader's, and one in a
fenced domain waits. That the 4,096 of a die are the entries of its four queues is the model's choice (DESIGN CHOICE, log 107). -/
def Obligations.DeviceLaunch : Prop :=
  ∀ (s : State) (q : Fin 8) (a b : Fin 64), s.ag.queue = [] →
    let p := s.ag.getG a
    let o := exec (.launch q a b) s
    let sp : AccSpec := { spaces := [0], size := 192, align := 64, acc := .load }
    let access := s.checkAccesses s.tm s.who sp [{ lane := 0, ptr := p, ok := true }]
    let fenced := s.accessFenced s.who sp [{ lane := 0, ptr := p, ok := true }]
    let late (f : Fail) : Prop := f.code ∈ [0x11#8, 0x12, 0x21]
    let die := 2 * (s.tm.cluster / 12 / 4) + s.tm.cluster % 12 / 6
    let queue (n : Nat) : List QueueItem := s.devq.getD (4 * die + n) []
    (s.ag.id ≠ .warp s.tm.id 0 → o = fault s 0x07 s.ag.spc)
    ∧ (s.ag.id = .warp s.tm.id 0 → s.tm.depth = 10 → o = fault s 0x1B p)
    ∧ (s.ag.id = .warp s.tm.id 0 → s.tm.depth ≠ 10 →
      (∀ f, access = some f → f.code ≠ 0x21 → (late f → fenced = false) → o = .next (s.memFault f false))
      ∧ ((∀ f, access = some f → late f) → fenced = true → o = .next s)
      ∧ (access = none ∨ (∃ f, access = some f ∧ f.code = 0x21) → fenced = false →
        (∀ f, s.barFail b = some f → o = fault s f.code f.addr)
        ∧ (s.barFail b = none →
          (4096 ≤ (queue 0).length + (queue 1).length + (queue 2).length + (queue 3).length → Answered q false s o)
          ∧ ((queue 0).length + (queue 1).length + (queue 2).length + (queue 3).length < 4096 →
            ∃ v n x, Answered q true v o ∧ n < 4 ∧ n = bits (s.accNat (goodPieces (s.pieces s.who .load p 8 0)) 8) 11 10
              ∧ v = { s with devq := v.devq } ∧ v.devq.getD (4 * die + n) [] = queue n ++ [x]
              ∧ (∀ m, m ≠ 4 * die + n → v.devq.find? m = s.devq.find? m)
              ∧ x = { ptr := p, ctx := s.tm.ctx, depth := s.tm.depth + 1, parent := s.tm.grid,
                      bar := if b.val = 0 then none else some { team := s.tm.id, rank := s.ag.rank, ptr := s.ag.getG b } }))))

/-- What gates a lane word: a latch that no earlier word of its chain named takes 0x06; with no active lane it only goes on, its latch reading zero,
but for an aliased destination, where it may take 0x04 (the model's choice, log 86); an unmapped source takes 0x03, an aliased destination 0x04, a
destination beyond the free rows 0x05; a row in use makes it wait. Where the spec leaves a point open this follows the model's own choice or reading:
log 18, 21, 79. -/
def Obligations.LaneGating : Prop :=
  ∀ (w : ArithOps) (v : MemOps) (s : State), ∀ x ∈ gatedWords w v,
    let o := exec x.instr s
    let names := srcNames x.us
    let single : Nat → Prop := fun n => ∀ e, s.entry n = some e → (s.myRank.row e.row).refs ≤ 1
    let unmapped := x.ds.filter fun n => (s.entry n).isNone
    let mapped : Nat → Prop := fun n => (s.entry n).isSome = true
    (s.staleLatch x.us = true → o = laneFault s 0x06 s.ag.cur.lpc)
    ∧ (s.staleLatch x.us = false → s.active x.h = 0 →
      let goes : Prop := ∃ t, o = .next t ∧ LaneWent x.h x.latch 0 (fun _ => 0) 0 s t
      ((∀ n ∈ x.ds, single n) → goes)
      ∧ ∀ l n r, x.ds = l ++ n :: r → ¬ single n → (∀ m ∈ l, single m) → goes ∨ o = laneFault s 0x04 (ofNat64 n))
    ∧ (s.staleLatch x.us = false → s.active x.h ≠ 0 →
      (∀ l n r, names = l ++ n :: r → ¬ mapped n → (∀ m ∈ l, mapped m) → o = laneFault s 0x03 (ofNat64 n))
      ∧ ((∀ n ∈ names, mapped n) →
        (∀ l n r, x.ds = l ++ n :: r → ¬ single n → (∀ m ∈ l, single m) → o = laneFault s 0x04 (ofNat64 n))
        ∧ ((∀ n ∈ x.ds, single n) →
          (∀ n, unmapped[s.myRank.pool.length + s.myRank.zeroing.length]? = some n → o = laneFault s 0x05 (ofNat64 n))
          ∧ (unmapped.length ≤ s.myRank.pool.length + s.myRank.zeroing.length → s.laneWaits x.us x.ds = true → o = .next s))))

/-- The lane integer instructions of Table 6.4 on every element, IMADW and IDP4 among them. -/
def Claims.LaneIntegers : Prop :=
∀ (w : ArithOps) (s : State), ∀ x ∈ intForms w ++ widenForms w, LaneComputes w s x

/-- The lane instructions on bit patterns, MOV, PACK and UNPK among them. -/
def Claims.LaneBits : Prop :=
∀ (w : ArithOps) (s : State), ∀ x ∈ bitForms w, LaneComputes w s x

/-- Integer and bit operations of lane words: the value of every lane, the flags, and the frame. Where the spec leaves a point open this follows the
model's own choice or reading: log 13, 18. -/
def Obligations.LaneIntegers : Prop :=
  Claims.LaneIntegers ∧ Claims.LaneBits

/-- The lane floating-point instructions: operands modified, one exact result, one delivery. -/
def Claims.LaneFloats : Prop :=
∀ (w : ArithOps) (s : State), ∀ x ∈ floatForms w ++ functionForms w ++ convertForms w, LaneComputes w s x

/-- What the floating-point operations deliver (R129, R133, R135): the exact sum, product, quotient and root, the signs of zero, the infinities, and
the invalid and divide-by-zero flags; FSCALE delivers its exact product with a power of two. -/
def Claims.FloatOperations : Prop :=
  (∀ (r : Rnd) (a b c : FVal), a.Exact → b.Exact → c.Exact →
    let inv (p : Bool) : Flags := if p = true then Flags.inv else Flags.none
    let opposed (u v : Ext) : Bool := match u, v with
      | .inf m, .inf n => m != n
      | _, _ => false
    let vague (u v : Ext) : Bool := match u, v with
      | .inf _, .fin q | .fin q, .inf _ => decide (q = 0)
      | _, _ => false
    let sum (m n : Bool) : Bool := if m = n then m else r == .rdn
    let unlike := a.neg != b.neg
    Gives (FVal.add r a b) (sum a.neg b.neg) (a.ext.add b.ext) (inv (a.signals || b.signals || opposed a.ext b.ext))
    ∧ Gives (FVal.mul a b) unlike (a.ext.mul b.ext) (inv (a.signals || b.signals || vague a.ext b.ext))
    ∧ Gives (FVal.fma r a b c) (sum unlike c.neg) ((a.ext.mul b.ext).add c.ext)
        (inv (a.signals || b.signals || c.signals || vague a.ext b.ext || opposed (a.ext.mul b.ext) c.ext))
    ∧ (match a.ext, b.ext with
      | .nan, _ | _, .nan => Gives (FVal.div a b) false .nan (inv (a.signals || b.signals))
      | .inf _, .inf _ => Gives (FVal.div a b) false .nan Flags.inv
      | .inf _, .fin _ => Gives (FVal.div a b) false (.inf unlike) Flags.none
      | .fin _, .inf _ => Gives (FVal.div a b) unlike (.fin 0) Flags.none
      | .fin u, .fin v =>
        if v ≠ 0 then Gives (FVal.div a b) unlike (.fin (u / v)) Flags.none
        else if u = 0 then Gives (FVal.div a b) false .nan Flags.inv else Gives (FVal.div a b) false (.inf unlike) Flags.dz)
    ∧ match a.ext with
      | .nan => Gives (FVal.sqrt a) false .nan (inv a.signals)
      | .inf neg => if neg = true then Gives (FVal.sqrt a) false .nan Flags.inv else Gives (FVal.sqrt a) false (.inf false) Flags.none
      | .fin v =>
        if v < 0 then Gives (FVal.sqrt a) false .nan Flags.inv
        else if v = 0 then Gives (FVal.sqrt a) a.neg (.fin 0) Flags.none
        else ∃ m : Mag, FVal.sqrt a = (.num false m, Flags.none) ∧ (m.sticky = true → 60 ≤ m.m.log2)
          ∧ if m.sticky = true then m.value ^ 2 < v ∧ v < ((m.m + 1 : Nat) * pow2 m.e) ^ 2 else m.value ^ 2 = v)
  ∧ ∀ f ∈ binaryFormats, f.fb ∈ [52, 23] → ∀ (r : Rnd) (sat neg : Bool) (n : Nat) (k : Int), r ≠ .dyn →
    let scaled (p : Nat) : Nat × Flags := f.fmt.deliverF r sat (FVal.scale (f.fmt.decode p) k)
    (0 < n → n ≤ f.top → f.Delivers r sat neg (f.valueOf n * pow2 k) (scaled (f.signed neg n)))
    ∧ scaled (f.signed neg 0) = (f.signed neg 0, Flags.none) ∧ scaled (f.signed neg f.inf) = (f.signed neg f.inf, Flags.none)
    ∧ (f.inf < n → n < f.sign → (scaled (f.signed neg n)).1 = f.nan)

/-- FMIN, FMAX, FCLASS and the conversions (R130, R132, R136, R139): the operand that lies lower or higher, -0 below +0, and the other one of a NaN;
the class of a pattern; an integer by the mode, in range or the nearest extreme; and the conversions between the types. -/
def Claims.FloatConversions : Prop :=
  (∀ f ∈ binaryFormats, f.fb ∈ [52, 23, 10, 7] →
    (∀ (isMax : Bool) (p q : Nat), p < 2 * f.sign → q < 2 * f.sign →
      let a := f.fmt.decode p
      let b := f.fmt.decode q
      let o := f.fmt.minMax isMax p q
      let below (x y : FVal) : Prop := x.ext.Less y.ext ∨ (x.ext = y.ext ∧ x.neg = true ∧ y.neg = false)
      o.2 = (if (a.signals || b.signals) = true then Flags.inv else Flags.none)
      ∧ (a.isNan = true → b.isNan = true → o.1 = f.nan) ∧ (a.isNan = true → b.isNan = false → o.1 = q) ∧ (a.isNan = false → b.isNan = true → o.1 = p)
      ∧ (a.isNan = false → b.isNan = false →
          (o.1 = p ∨ o.1 = q) ∧ (below a b → o.1 = if isMax = true then q else p) ∧ (below b a → o.1 = if isMax = true then p else q)))
    ∧ ∀ (neg : Bool) (n : Nat), n < f.sign →
      let cls (minus plus : Nat) : Nat := 2 ^ (if neg = true then minus else plus)
      f.fmt.classMask (f.signed neg n)
        = if n = 0 then cls 3 4 else if n < 2 ^ f.fb then cls 2 5 else if n ≤ f.top then cls 1 6 else if n = f.inf then cls 0 7
          else if bit n (f.fb - 1) = true then 2 ^ 9 else 2 ^ 8)
  ∧ (∀ (r : Rnd) (sat : Bool) (lo hi : Int), r ≠ .dyn →
      let out := if sat = true then Flags.sat ||| Flags.inx else Flags.inv
      (∀ sig, (FVal.nan sig).toRange r sat lo hi = (0, Flags.inv))
      ∧ (∀ neg, (FVal.inf neg).toRange r sat lo hi = (if neg = true then lo else hi, Flags.inv))
      ∧ ∀ (neg : Bool) (x : Mag), x.sticky = false → ∃ k : Nat, Selects r neg x.value k
          ∧ let i : Int := if neg = true then -(k : Int) else k
            let o := (FVal.num neg x).toRange r sat lo hi
            (i < lo → o = (lo, out)) ∧ (lo ≤ i → hi < i → o = (hi, out))
            ∧ (lo ≤ i → i ≤ hi → o = (i, if (k : Rat) = x.value then Flags.none else Flags.inx)))
  ∧ ∀ (src dst : Ty) (r : Rnd) (sat abs neg : Bool) (n : Nat),
    let o := convElem src dst r sat abs neg n
    let b := elemBits dst
    let x := intOf (tySigned src) (elemBits src) n
    let y : Int := if abs = true ∧ x < 0 then -x else x
    let i : Int := if neg = true then -y else y
    (∀ s d, tyFmt src = some s → tyFmt dst = some d →
      ∃ v, (let unsigned := (src = .t8 ∨ src = .t6) ∧ ∃ m z, s.decode n = .num m z ∧ z.m = 0
            (unsigned → v = s.decode n) ∧ (¬ unsigned → v = (s.decode n).modify abs neg))
        ∧ o = ((d.deliver r sat v).1, (match v with
            | .nan sig => if sig = true then Flags.inv else Flags.none
            | .inf _ => if dst = .e4 ∨ dst = .t8 ∨ dst = .t6 then Flags.inv else Flags.none
            | .num .. => Flags.none) ||| (d.deliver r sat v).2))
    ∧ (∀ s, tyFmt src = some s → tyFmt dst = none →
        let p := ((s.decode n).modify abs neg).toRange r sat (leastInt (tySigned dst) b) (greatestInt (tySigned dst) b)
        o = ((p.1 % 2 ^ b).toNat, p.2))
    ∧ (∀ d, tyFmt src = none → tyFmt dst = some d → o = d.deliver r sat (FVal.ofInt i))
    ∧ (tyFmt src = none → tyFmt dst = none → o = clampInt (tySigned dst) b sat i)

/-- The functions of Table 6.6 where the table lists their value (R134): NaNs, infinities, zeros, numbers below zero, FRCP and FRSQ of every number,
FEXP2 of integers and of large numbers, FLOG2 of powers of two, and FTANH from 9 on. -/
def Claims.FloatFunctions : Prop :=
  ∀ n : Nat,
    let a := Fmt.f32.decode n
    let inv (p : Bool) : Flags := if p = true then Flags.inv else Flags.none
    let bad (f : FVal → FVal × Flags) : Prop := Gives (f a) false .nan Flags.inv
    let unit (neg : Bool) : Ext := .fin (if neg = true then -1 else 1)
    (a.isNan = true → ∀ f ∈ [FVal.recip, FVal.rsqrt, FVal.exp2, FVal.log2, FVal.sin, FVal.cos, FVal.tanh], Gives (f a) false .nan (inv a.signals))
    ∧ (∀ neg, a = .inf neg →
      Gives (FVal.recip a) neg (.fin 0) Flags.none ∧ Gives (FVal.tanh a) false (unit neg) Flags.none ∧ bad FVal.sin ∧ bad FVal.cos
      ∧ (neg = false → Gives (FVal.rsqrt a) false (.fin 0) Flags.none ∧ Gives (FVal.exp2 a) false (.inf false) Flags.none
          ∧ Gives (FVal.log2 a) false (.inf false) Flags.none)
      ∧ (neg = true → bad FVal.rsqrt ∧ Gives (FVal.exp2 a) false (.fin 0) Flags.none ∧ bad FVal.log2))
    ∧ ∀ v, a.ext = .fin v →
      (v = 0 → Gives (FVal.recip a) false (.inf a.neg) Flags.dz ∧ Gives (FVal.rsqrt a) false (.inf a.neg) Flags.dz
        ∧ Gives (FVal.exp2 a) false (.fin 1) Flags.none ∧ Gives (FVal.log2 a) false (.inf true) Flags.dz
        ∧ Gives (FVal.sin a) a.neg (.fin 0) Flags.none ∧ Gives (FVal.cos a) false (.fin 1) Flags.none ∧ Gives (FVal.tanh a) a.neg (.fin 0) Flags.none)
      ∧ (v ≠ 0 → Gives (FVal.recip a) false (.fin (1 / v)) Flags.none)
      ∧ (v < 0 → bad FVal.rsqrt ∧ bad FVal.log2)
      ∧ (0 < v → ∃ m : Mag, FVal.rsqrt a = (.num false m, Flags.none) ∧ (m.sticky = true → 60 ≤ m.m.log2)
          ∧ if m.sticky = true then m.value ^ 2 * v < 1 ∧ 1 < ((m.m + 1 : Nat) * pow2 m.e) ^ 2 * v else m.value ^ 2 * v = 1)
      ∧ (∀ k : Int, -149 ≤ k → k ≤ 127 → v = k → Gives (FVal.exp2 a) false (.fin (pow2 k)) Flags.none)
      ∧ (128 ≤ v → Gives (FVal.exp2 a) false (.inf false) (Flags.ofl ||| Flags.inx))
      ∧ (∀ k : Int, v = pow2 k → Gives (FVal.log2 a) false (.fin k) Flags.none)
      ∧ (9 ≤ v ∨ v ≤ -9 → Gives (FVal.tanh a) false (unit a.neg) Flags.inx)

/-- Floating-point operations, functions and conversions of lane words: the value of every lane, the flags, and the frame. Where the spec leaves a
point open this follows the model's own choice or reading: log 12, 16, 18. -/
def Obligations.LaneFloats : Prop :=
  Claims.LaneFloats ∧ Claims.FloatOperations ∧ Claims.FloatConversions ∧ Claims.FloatFunctions

/-- Delivery of floating-point results (R91 to R95, R100 to R102): in every binary format the mode selects one of the two nearest numbers, ties go to
even, overflow follows Table 5.5 or saturates, underflow is found after rounding, and NaNs and infinities have their patterns; and every pattern
decodes to its number. T8 and T6 round between neighbouring patterns, and their patterns decode by regime, exponent and fraction. -/
def Obligations.FloatDelivery : Prop :=
  (∀ b ∈ binaryFormats, ∀ (r : Rnd) (sat neg : Bool), r ≠ .dyn →
    (∀ (x : Mag) (v : Rat), x.m ≠ 0 → x.Holds v → (x.sticky = true → 60 ≤ x.m.log2) → b.Delivers r sat neg v (b.fmt.deliver r sat (.num neg x)))
    ∧ (∀ e st, b.fmt.deliver r sat (.num neg ⟨0, e, st⟩) = (b.signed neg 0, Flags.none))
    ∧ (∀ sig, b.fmt.deliver r sat (.nan sig) = (b.nan, Flags.none)) ∧ b.fmt.deliver r sat (.inf neg) = (b.signed neg b.inf, Flags.none)
    ∧ (∀ n ≤ b.top, ∃ x : Mag, b.fmt.decode (b.signed neg n) = .num neg x ∧ x.sticky = false ∧ x.value = b.valueOf n)
    ∧ (b.inf ≠ b.nan → b.fmt.decode (b.signed neg b.inf) = .inf neg)
    ∧ ∀ n, b.top < n → n < b.sign → (b.inf ≠ b.nan → n ≠ b.inf) → ∃ sig, b.fmt.decode (b.signed neg n) = .nan sig)
  ∧ ∀ f ∈ ([(7, 1), (5, 0)] : List (Nat × Nat)), ∀ (r : Rnd) (sat neg : Bool), r ≠ .dyn →
    let n := f.1
    let fmt : Fmt := .taper n f.2
    (∀ (x : Mag) (v : Rat), x.m ≠ 0 → x.Holds v → (x.sticky = true → 60 ≤ x.m.log2) → TaperDelivers fmt n r sat neg v (fmt.deliver r sat (.num neg x)))
    ∧ (∀ e st, fmt.deliver r sat (.num neg ⟨0, e, st⟩) = (0, Flags.none))
    ∧ (∀ sig, fmt.deliver r sat (.nan sig) = (2 ^ n, Flags.none)) ∧ fmt.deliver r sat (.inf neg) = (2 ^ n, Flags.none)
    ∧ fmt.decode 0 = .num false (Mag.exact 0 0) ∧ fmt.decode (2 ^ n) = .nan false ∧ taperValue fmt (2 ^ n - 1) = pow2 ((n - 1 : Nat) * 2 ^ f.2)
    ∧ ∀ k < n, ∀ t < 2 ^ (n - k - 1), ∀ ones : Bool, 0 < k →
        let p := if ones = true then (2 ^ k - 1) * 2 ^ (n - k) + t else 2 ^ (n - k - 1) + t
        let rest := n - k - 1
        let eb := min f.2 rest
        let fr := rest - eb
        let regime : Int := if ones = true then (k : Int) - 1 else -(k : Int)
        let e : Int := (t / 2 ^ fr * 2 ^ (f.2 - eb) : Nat)
        ∃ x : Mag, fmt.decode (if neg = true then 2 ^ n + p else p) = .num neg x ∧ x.sticky = false
          ∧ x.value = pow2 (regime * 2 ^ f.2 + e) * (1 + ((t % 2 ^ fr : Nat) : Rat) / ((2 ^ fr : Nat) : Rat))

/-- ISETP and FSETP write a lane predicate in the active lanes by the conditions of Table 3.13; FSETP raises the flags of R131. -/
def Claims.LanePredicates : Prop :=
  ∀ (w : ArithOps) (s : State),
    let t := w.ty
    let d := Fin.ofNat 8 w.h.name.val
    let act := s.active w.h
    let a (l : Nat) : Nat := s.laneVal t w.imm w.a l
    let b (l : Nat) : Nat := s.laneVal t w.imm w.b l
    let int (l : Nat) : Bool := intCondSpec w.imm.toNat (intOf (tySigned t) (elemBits t) (a l)) (intOf (tySigned t) (elemBits t) (b l))
    let fa (l : Nat) : FVal := ((fmtOf t).decode (a l)).modify w.m.absA w.m.negA
    let fb (l : Nat) : FVal := ((fmtOf t).decode (b l)).modify w.m.absB w.m.negB
    let k := w.imm.toNat
    let invalid (l : Nat) : Bool := if 2 ≤ k ∧ k ≤ 5 then (fa l).isNan || (fb l).isNan else (fa l).signals || (fb l).signals
    LaneReady s w.h [(w.a, tyNames t), (w.b, tyNames t)] [] →
      (∃ u v, exec (.isetp w) s = .next v ∧ PredWrote d act int s u ∧ LaneWent w.h false act (fun _ => 0) 0 u v)
      ∧ ∃ u v f, exec (.fsetp w) s = .next v ∧ (∀ l, f l = true ↔ FloatCond k (fa l).ext (fb l).ext) ∧ PredWrote d act f s u
          ∧ LaneWent w.h false act (fun _ => 0) (flagsOf act fun l => if invalid l = true then Flags.inv else Flags.none) u v

/-- BALLOT and VOTE read a predicate of the active lanes into a g register and a q predicate; with no active lane BALLOT gives 0, VOTE true for ALL
and NONE. -/
def Claims.LaneVotes : Prop :=
  ∀ (w : ArithOps) (s : State),
    let act := s.active w.h
    let p := s.ag.getP (Fin.ofNat 8 (bits w.imm.toNat 2 0))
    let some' := ∃ l, l < 64 ∧ act.getLsbD l = true ∧ p.getLsbD l = true
    let every := ∀ l, l < 64 → act.getLsbD l = true → p.getLsbD l = true
    let mode := bits w.imm.toNat 4 3
    (∃ u v, exec (.ballot w) s = .next v ∧ QueueWrote [Fin.ofNat 64 w.h.name.val] [] s u ∧ u.gIs (Fin.ofNat 64 w.h.name.val) (act &&& p)
      ∧ LaneWent w.h false act (fun _ => 0) 0 u v)
    ∧ ∃ u v r, exec (.vote w) s = .next v ∧ QueueWrote [] [Fin.ofNat 8 w.h.name.val] s u ∧ u.qIs (Fin.ofNat 8 w.h.name.val) r
        ∧ (mode = 0 → (r = true ↔ every)) ∧ (mode = 1 → (r = true ↔ some')) ∧ (mode = 2 → (r = true ↔ ¬ some'))
        ∧ LaneWent w.h false act (fun _ => 0) 0 u v

/-- ISETP, FSETP, BALLOT and VOTE: the predicates and masks written. -/
def Obligations.LanePredicates : Prop :=
  Claims.LanePredicates ∧ Claims.LaneVotes

/-- SEL and SHFL move whole lane values, the source lane of a SHFL active or not; PLANE turns a predicate into lanes. Where the spec leaves a point
open this follows the model's own choice or reading: log 13, 14, 18. -/
def Obligations.LaneMoves : Prop :=
  ∀ (w : ArithOps) (s : State),
    let t := w.ty
    let act := s.active w.h
    let p := s.ag.getP (Fin.ofNat 8 (bits w.imm.toNat 2 0))
    let a (l : Nat) : Nat := s.laneVal t w.imm w.a l
    let b (l : Nat) : Nat := s.laneVal t w.imm w.b l
    let from' (l : Nat) : Nat :=
      let k := b l % 2 ^ 32
      let mode := bits w.imm.toNat 1 0
      if mode = 0 then k % 64 else if mode = 1 then (if k ≤ l then l - k else l)
      else if mode = 2 then (if l + k ≤ 63 then l + k else l) else l ^^^ (k % 64)
    let uses : List SrcUse := [(w.a, tyNames t), (w.b, tyNames t)]
    (LaneReady s w.h uses (destNames w.h t) →
      (∃ u, exec (.sel w) s = .next u
        ∧ LaneResult w.h t.wide (tyTag t) act (fun l => t6Cut t (if p.getLsbD l = bit w.imm.toNat 3 then b l else a l)) 0 s u)
      ∧ ∃ u, exec (.shfl w) s = .next u ∧ LaneResult w.h t.wide (tyTag t) act (fun l => t6Cut t (a (from' l))) 0 s u)
    ∧ (LaneReady s w.h [] (destNames w.h t) →
      ∃ u, exec (.plane w) s = .next u
        ∧ LaneResult w.h t.wide (tyTag t) act (fun l => if p.getLsbD l = true then 1 else 0) 0 s u)

/-- LRED combines the active lanes in the tree of R145 into a g register; an empty set gives the identity of Table 6.7. -/
def Claims.LaneReduction : Prop :=
  ∀ (w : ArithOps) (s : State),
    let act := s.active w.h
    let op := bits w.imm.toNat 2 0
    let d := Fin.ofNat 64 w.h.name.val
    let extend (x : Nat) : Word := if w.ty = .s32 then ofInt64 (intOf true 32 x) else ofNat64 x
    let r := redTree op w.ty (roundMode w.m.rnd s.blockMode) act (s.operand w.ty w.imm w.a)
    (s.staleLatch [(w.a, tyNames w.ty)] = false → act = 0 →
      ∃ u v, exec (.lred w) s = .next v ∧ QueueWrote [d] [] s u ∧ u.gIs d (extend (redIdentity op w.ty))
        ∧ LaneWent w.h false act (fun _ => 0) 0 u v)
    ∧ (LaneReady s w.h [(w.a, tyNames w.ty)] [] →
      ∃ u v x, exec (.lred w) s = .next v ∧ r.1 = some x ∧ QueueWrote [d] [] s u ∧ u.gIs d (extend x)
        ∧ LaneWent w.h false act (fun _ => 0) r.2 u v)

/-- LSCAN gives each active lane the left fold of the active lanes up to it, with its own value or, exclusive, without it. -/
def Claims.LaneScan : Prop :=
  ∀ (w : ArithOps) (s : State), LaneReady s w.h [(w.a, tyNames w.ty)] (destNames w.h w.ty) →
    let t := w.ty
    let act := s.active w.h
    let op := bits w.imm.toNat 2 0
    let r := roundMode w.m.rnd s.blockMode
    let excl := bit w.imm.toNat 3
    let v (l : Nat) : Nat := s.laneVal t w.imm w.a l
    let fold (ls : List Nat) : Option Nat × Flags :=
      ls.foldl (fun acc l => match acc.1 with
        | none => (some (v l), acc.2)
        | some x => (some (redOp op t r x (v l)).1, acc.2 ||| (redOp op t r x (v l)).2)) (none, 0)
    let upTo' (n : Nat) : List Nat := (List.range n).filter fun l => act.getLsbD l
    let last := ((upTo' 64).getLast?).getD 0
    let out (l : Nat) : Nat := if excl = true then (fold (upTo' l)).1.getD (redIdentity op t) else (fold (upTo' (l + 1))).1.getD 0
    let flags : Flags := if excl = true then (fold (upTo' last)).2 else (fold (upTo' 64)).2
    ∃ u, exec (.lscan w) s = .next u ∧ LaneResult w.h t.wide (tyTag t) act (fun l => t6Cut t (out l)) flags s u

/-- The result of LRED for an empty set of lanes, and the first of an exclusive LSCAN (Table 6.7). -/
def Claims.ReductionIdentities : Prop :=
  (∀ x ∈ ([(.s32, 2 ^ 31 - 1, 2 ^ 31, 2 ^ 32 - 1), (.s64, 2 ^ 63 - 1, 2 ^ 63, 2 ^ 64 - 1), (.u32, 2 ^ 32 - 1, 0, 2 ^ 32 - 1),
      (.u64, 2 ^ 64 - 1, 0, 2 ^ 64 - 1)] : List (Ty × Nat × Nat × Nat)),
    redIdentity 0 x.1 = 0 ∧ redIdentity 1 x.1 = x.2.1 ∧ redIdentity 2 x.1 = x.2.2.1 ∧ redIdentity 3 x.1 = x.2.2.2 ∧ redIdentity 4 x.1 = 0
    ∧ redIdentity 5 x.1 = 0)
  ∧ ∀ x ∈ ([(.f32, 0x7F800000, 0xFF800000), (.f64, 0x7FF0000000000000, 0xFFF0000000000000)] : List (Ty × Nat × Nat)),
    redIdentity 0 x.1 = 0 ∧ redIdentity 1 x.1 = x.2.1 ∧ redIdentity 2 x.1 = x.2.2

/-- LRED and LSCAN: what is written and the frame. Where the spec leaves a point open this follows the model's own choice or reading: log 18, 114. -/
def Obligations.LaneReductions : Prop :=
  Claims.LaneReduction ∧ Claims.LaneScan ∧ Claims.ReductionIdentities

/-- The tree of LRED on integers: ADD gives the sum of the active lanes modulo the width; MIN and MAX give an active lane's value that bounds the
others; AND, OR and XOR work bit by bit; no flag is raised (R145). -/
def Obligations.IntegerReductions : Prop :=
  ∀ (t : Ty) (r : Rnd) (act : Mask) (vals : List Nat), t ∈ [Ty.s32, .u32, .s64, .u64] → act ≠ 0 → (∀ x ∈ vals, x < 2 ^ elemBits t) →
    let on := (List.range 64).filter fun l => act.getLsbD l
    let v (l : Nat) : Nat := vals.getD l 0
    let num (x : Nat) : Int := intOf (tySigned t) (elemBits t) x
    let tree (op : Nat) : Option Nat × Flags := redTree op t r act vals
    (∀ op, op < 6 → (tree op).2 = 0 ∧ (tree op).1.isSome = true)
    ∧ tree 0 = (some ((on.map fun l => num (v l)).sum % 2 ^ elemBits t).toNat, 0)
    ∧ (∀ x, (tree 1).1 = some x → (∃ l ∈ on, v l = x) ∧ ∀ l ∈ on, num x ≤ num (v l))
    ∧ (∀ x, (tree 2).1 = some x → (∃ l ∈ on, v l = x) ∧ ∀ l ∈ on, num (v l) ≤ num x)
    ∧ (∀ x i, (tree 3).1 = some x → (bit x i = true ↔ ∀ l ∈ on, bit (v l) i = true))
    ∧ (∀ x i, (tree 4).1 = some x → (bit x i = true ↔ ∃ l ∈ on, bit (v l) i = true))
    ∧ ∀ x i, (tree 5).1 = some x → (bit x i = true ↔ on.countP (fun l => bit (v l) i) % 2 = 1)

/-- QNT writes a row of elements and a row of scale bytes, whole, and its latch in the active lanes; DQNT gives each lane its element times its
block's scale. -/
def Claims.LaneQuantization : Prop :=
  ∀ (w : ArithOps) (s : State),
    let t := w.ty
    let act := s.active w.h
    let r := roundMode w.m.rnd s.blockMode
    let sc := bits w.imm.toNat 8 0
    let xs := (List.range 64).map fun l => if act.getLsbD l = true then Fmt.f32.decode (s.laneVal .f32 0 w.a l) else FVal.ofInt 0
    let q := quantize t r xs
    let scale (l : Nat) : Nat := s.laneVal .u32 w.imm w.b 0 / 2 ^ (8 * (l / 32)) % 256
    let d (l : Nat) : Nat × Flags := dequant (fmtOf t) r (scale l) (elemOf t (s.laneVal t w.imm w.a (l / t.count)) (l % t.count))
    (t.wide = false → LaneReady s w.h [(w.a, 1)] (destNames w.h t ++ [sc]) →
      ∃ u v y, exec (.qnt w) s = .next y
        ∧ (if w.h.nowb = true then u = s else NameWrote w.h.name.val (tyTag t) allLanes (fun l => t6Cut t (q.1.getD l 0)) s u)
        ∧ NameWrote sc 0xB allLanes (fun l => q.2.1.getD l 0) u v ∧ LaneWent w.h true act (fun l => t6Cut t (q.1.getD l 0)) q.2.2 v y)
    ∧ (LaneReady s w.h [(w.a, tyNames t), (w.b, 1)] (destNames w.h .f32) →
      ∃ y, exec (.dqnt w) s = .next y ∧ LaneResult w.h false 1 act (fun l => (d l).1) (flagsOf act fun l => (d l).2) s y)

/-- What QNT makes of a block of 32 values (R137): its scale byte is the least power of two that brings the largest finite magnitude down to the
largest value of the type, clamped with the flag of saturation; its elements are the values divided by that scale, rounded and saturated; NaNs and
infinities go by R92. Every place past element 63 and every scale word past the first is zero, and the flags are those of the blocks and elements. -/
def Claims.QuantizationScale : Prop :=
  (∀ (f : Fmt) (m : Mag), m.m ≠ 0 → f.largestMag.m ≠ 0 →
    let l := f.largestMag
    let t := scaleExp f m
    let fits (k : Int) : Prop :=
      let e := min m.e (l.e + k)
      m.m * 2 ^ (m.e - e).toNat ≤ l.m * 2 ^ (l.e + k - e).toNat
    fits t ∧ ¬ fits (t - 1))
  ∧ ∀ x ∈ ([(.e4, 448, 0x7F, 0x7F, 0xFF, Flags.inv), (.e5, 57344, 0x7E, 0x7C, 0xFC, Flags.none), (.t8, 4096, 0x80, 0x80, 0x80, Flags.inv),
      (.t6, 16, 0x20, 0x20, 0x20, Flags.inv)] : List (Ty × Rat × Nat × Nat × Nat × Flags)), ∀ (r : Rnd) (xs : List FVal), xs.length = 64 →
    (∀ neg m, .num neg m ∈ xs → m.sticky = false) →
    let ty := x.1
    let q := quantize ty r xs
    let val (j i : Nat) : FVal := xs.getD (32 * j + i) (.nan false)
    let scaleOf (j : Nat) (t : Int) (clamped : Bool) : Prop :=
      ((∀ i < 32, ∀ neg m, val j i = .num neg m → m.m = 0) ∧ t = -127 ∧ clamped = false)
      ∨ ∃ i < 32, ∃ neg m u, val j i = .num neg m ∧ m.m ≠ 0 ∧ (∀ i' < 32, ∀ neg' m', val j i' = .num neg' m' → m'.value ≤ m.value)
        ∧ m.value ≤ x.2.1 * pow2 u ∧ x.2.1 * pow2 (u - 1) < m.value ∧ t = max (-127) (min 127 u) ∧ clamped = decide (u < -127 ∨ 127 < u)
    let el (t : Int) (v : FVal) : Nat × Flags := match v with
      | .nan sig => (x.2.2.1, Flags.when sig Flags.inv)
      | .inf neg => (if neg = true then x.2.2.2.2.1 else x.2.2.2.1, x.2.2.2.2.2)
      | .num neg m => (fmtOf ty).deliver r true (.num neg { m with e := m.e - t })
    ∃ t : Nat → Int, ∃ clamped : Nat → Bool, (∀ j < 2, scaleOf j (t j) (clamped j))
      ∧ q.2.1.getD 0 0 = (t 0 + 127).toNat + 256 * (t 1 + 127).toNat ∧ (∀ l, q.2.1.getD (l + 1) 0 = 0)
      ∧ (∀ k, elemOf ty (q.1.getD (k / ty.count) 0) (k % ty.count) = if k < 64 then (el (t (k / 32)) (val (k / 32) (k % 32))).1 else 0)
      ∧ q.2.2 = flagsOf allLanes fun l => (el (t (l / 32)) (val (l / 32) (l % 32))).2 ||| if clamped (l / 32) = true then Flags.sat else Flags.none

/-- What DQNT makes of an element and a scale byte (R138): their product, delivered in F32; a NaN for the scale 0xFF or a NaN element, an infinity for
an infinite one. -/
def Claims.ScaledElements : Prop :=
  ∀ (f : Fmt) (r : Rnd) (scale q : Nat),
    let v := f.decode q
    let o := dequant f r scale q
    (scale = 255 ∨ v.isNan = true → o.1 = 0x7FC00000 ∧ o.2 = if v.signals = true then Flags.inv else Flags.none)
    ∧ (scale ≠ 255 → (∀ neg, v = .inf neg → o = (if neg = true then 0xFF800000 else 0x7F800000, Flags.none))
      ∧ ∀ neg x, v = .num neg x → x.sticky = false →
          (x.m = 0 → o = (if neg = true then 0x80000000 else 0, Flags.none))
          ∧ (x.m ≠ 0 → r ≠ .dyn → ∀ b ∈ binaryFormats, b.fmt = Fmt.f32 → b.Delivers r false neg (x.value * pow2 ((scale : Int) - 127)) o))

/-- QNT and DQNT: the scale, the narrow values and their expansion. Where the spec leaves a point open this follows the model's own choice or reading:
log 18, 21, 79. -/
def Obligations.Quantization : Prop :=
  Claims.LaneQuantization ∧ Claims.QuantizationScale ∧ Claims.ScaledElements

/-- VLD and VLDN load little-endian bytes, narrow signed ones sign-extended, into the names of the active lanes; a lane that went ahead gives what it
has read. VPREF only brings clean lines into L2 and, unless its hint is 3, tracked lines into L1. An access that fails faults. -/
def Claims.LaneLoads : Prop :=
  ∀ (w : MemOps) (s : State),
    let t := w.ty
    let act := s.active w.h
    let n := Width.bytes w.width
    let as := s.accsOf w
    let u := s.hostFirstOf as
    let plan := u.planOf .load n as
    let spec : AccSpec := { spaces := [0, 1, 2, 3, 4], size := n, align := 1, acc := .load }
    let x (l : Nat) : Nat := u.laneGives (w.scope == .warp) plan l
    let v (l : Nat) : Nat := if t = .s32 ∧ n < 4 then (intOf true (8 * n) (x l) % 2 ^ 32).toNat else x l
    let acquired : Scope := if w.order = .acquire ∨ w.order = .acqRel then w.scope else .warp
    (LaneReady s w.h (addrUses w) (loadNames w) → AccessStops (.vld w) spec as s)
    ∧ (LaneReady s w.h (addrUses w) (loadNames w) → AccessGoes s spec as →
      GangReady s (w.scope = .gang ∧ (w.order = .acquire ∨ w.order = .acqRel)) →
      ∃ q, Cached u.who.core (w.scope == .warp) (plan.flatMap (·.2)) u q ∧ (w.hint = 3 → ∀ y ∈ q.l1, y ∈ u.l1)
        ∧ (w.width = .w128 → ∃ y z r, exec (.vld w) s = .next r
          ∧ NamesWrote 0 act ((List.range 4).map fun i => (w.h.name.val + i, fun l => x l / 2 ^ (32 * i))) q y
          ∧ Acquired u.who.core acquired y z ∧ LaneWent w.h false act (fun _ => 0) 0 z r)
        ∧ (w.width ≠ .w128 → ∃ y r, exec (.vld w) s = .next r ∧ LaneResult w.h t.wide (tyTag t) act (fun l => t6Cut t (v l)) 0 q y
            ∧ Acquired u.who.core acquired y r))
    ∧ (let k := bits w.imm.toNat 5 0 + 1
       let p := ofNat64 (s.laneVal .u64 w.imm w.a 0)
       let one : List LaneAcc := [{ lane := 0, ptr := p, ok := true }]
       let u := s.hostFirstOf one
       let ps := goodPieces (u.pieces u.who .load p (256 * k) 0)
       let rows : AccSpec := { spaces := [1, 2], size := 256 * k, align := 4, acc := .load }
       let word (i l : Nat) : Nat := match u.ag.cur.early with
         | none => ofBytes ((List.range 4).map fun j => u.accByte ps (256 * i + 4 * l + j))
         | some e => u.laneGives false e.plan l / 2 ^ (32 * i) % 2 ^ 32
       LaneReady s w.h [(w.a, 1)] (upTo w.h.name.val (w.h.name.val + k)) → s.tm.id ≠ 0 →
       AccessStops (.vldn w) rows one s
       ∧ (AccessGoes s rows one → ∃ y r, exec (.vldn w) s = .next r
         ∧ NamesWrote (tyTag t) act ((List.range k).map fun i => (w.h.name.val + i, fun l => t6Cut t (word i l))) u y
         ∧ LaneWent w.h false act (fun _ => 0) 0 y r))
    ∧ (s.staleLatch (addrUses w) = false → ∃ q r, exec (.vpref w) s = .next r ∧ q = { s with l1 := q.l1, l2 := q.l2 }
        ∧ (∀ y ∈ q.l1, y ∈ s.l1 ∨ (Touches (as.flatMap (s.piecesOf .load 1)) y.line ∧ FilledLine s.who.core false s y))
        ∧ (∀ y ∈ s.l1, y.core ≠ s.who.core → y ∈ q.l1 ∨ (y.kind = .owned ∧ { y with kind := .shared, dirty := none } ∈ q.l1))
        ∧ (w.hint = 3 → q.l1 = s.l1)
        ∧ (∀ y ∈ q.l2, y ∈ s.l2 ∨ (Touches (as.flatMap (s.piecesOf .load 1)) y.1 ∧ y.2.dirty = none)) ∧ LaneWent w.h false 0 (fun _ => 0) 0 q r)

/-- A load reads its pieces in turn. One at a scope wider than the warp reads the bytes of memory; at warp scope a byte of the module's memory comes
from the core's untracked copy of its line, where there is one (R181). -/
def Claims.LoadedBytes : Prop :=
  ∀ (s : State) (n k : Nat) (p : Word), badPieces (s.pieces s.who .load p n k) = [] → n ≤ 16 → s.tm.id ≠ 0 →
    let ps := goodPieces (s.pieces s.who .load p n k)
    (∀ ws, s.load s.who ws p n k = ps.flatMap (s.readPiece s.who ws))
    ∧ ofBytes (s.load s.who false p n k) = s.accNat ps n
    ∧ (s.load s.who true p n k).length = n
    ∧ ∀ j, j < n → ∀ pl a, locOf ps j = some (pl, a) →
        (s.load s.who true p n k).getD j 0 = s.seenByte s.who.core true pl a

/-- VLD, VLDN and VPREF: what every lane loads and the frame. That a load from host space first lets the whole host write path drain is the model's
choice (log 83). Where the spec leaves a point open this follows the model's own choice or reading: log 13, 18, 94, 98. -/
def Obligations.LaneLoads : Prop :=
  Claims.LaneLoads ∧ Claims.LoadedBytes

/-- VST and VSTN store the values of the active lanes; a byte that several lanes of a VST store holds the byte of one of them, and aligned stores of
one size do not mix (R184); what lies in host memory is sent there; every other byte reads as before; poison and the ownership of lines change as R372
and R192 say. An access that fails faults. Where the spec leaves a point open this follows the model's own choice or reading: log 1, 22, 94. -/
def Obligations.LaneStores : Prop :=
  ∀ (w : MemOps) (s : State),
    let act := s.active w.h
    let n := Width.bytes w.width
    let as := s.accsOf w
    let ps (x : LaneAcc) : List Piece := s.piecesOf .store n x
    let c (l : Nat) : Nat := t6Cut w.ty
      (if w.width = .w128 then
        match w.c with
        | .vec m => (List.range 4).foldl (fun x i => x + (s.nameRow (m.val + i)).getD l 0 * 2 ^ (32 * i)) 0
        | src => (List.range 4).foldl (fun x i => x + s.laneVal .u32 w.imm src l * 2 ^ (32 * i)) 0
      else s.laneVal w.ty w.imm w.c l)
    let bs (x : LaneAcc) : List Byte := toBytes n (c x.lane)
    let apart (p q : Piece) : Prop := p.place ≠ q.place ∨ p.addr + p.len ≤ q.addr ∨ q.addr + q.len ≤ p.addr
    let spec : AccSpec := { spaces := [0, 1, 2, 3, 4], size := n, align := 1, acc := .store }
    let uses := addrUses w ++ [(w.c, if w.width = .w128 then 4 else tyNames w.ty)]
    (LaneReady s w.h uses [] → AccessStops (.vst w) spec as s)
    ∧ (LaneReady s w.h uses [] → AccessReady s spec as →
      ∃ y r, exec (.vst w) s = .next r ∧ OnlyBytes s y ∧ PoisonAfter (as.flatMap ps) s y ∧ TrackedAfter s.who.core (as.flatMap ps) s y
        ∧ (∀ pl a, (∀ x ∈ as, ¬ Covers (ps x) pl a) → y.byteAt pl a = s.byteAt pl a)
        ∧ (∀ pl a, s.holds pl → (∃ x ∈ as, Covers (ps x) pl a) →
            ∃ x ∈ as, ∃ j, j < n ∧ locOf (ps x) j = some (pl, a) ∧ y.byteAt pl a = (bs x).getD j 0)
        ∧ (n ≤ 8 → (∀ x ∈ as, ∃ p, ps x = [p] ∧ p.addr % n = 0) → ∀ x ∈ as, ∀ p, ps x = [p] → s.holds p.place →
            ∃ z ∈ as, ∃ q, ps z = [q] ∧ q.place = p.place ∧ q.addr = p.addr ∧ ∀ j, j < n → y.byteAt p.place (p.addr + j) = (bs z).getD j 0)
        ∧ (∃ l, y.hostPath = s.hostPath ++ l
          ∧ ((as.flatMap ps).Pairwise apart → l = as.flatMap fun x => hostWrites s.tm.ctx (ps x) (bs x))
          ∧ (∀ h ∈ l, h.ctx = s.tm.ctx ∧ ∀ j, j < h.data.length →
              ∃ x ∈ as, ∃ i, i < n ∧ locOf (ps x) i = some (.host h.port, h.addr + j) ∧ h.data.getD j 0 = (bs x).getD i 0)
          ∧ ∀ x ∈ as, ∀ i port a, i < n → locOf (ps x) i = some (.host port, a) →
              ∃ h ∈ l, h.port = port ∧ h.addr ≤ a ∧ a < h.addr + h.data.length ∧ h.data.getD (a - h.addr) 0 = (bs x).getD i 0)
        ∧ LaneWent w.h false act (fun _ => 0) 0 y r)
    ∧ (let k := bits w.imm.toNat 5 0 + 1
       let p := ofNat64 (s.laneVal .u64 w.imm w.a 0)
       let off := bits p.toNat 57 0
       let rank := if bits p.toNat 63 61 = 1 then s.ag.rank else bits p.toNat 60 58
       let first := match w.c with
         | .vec m => m.val
         | _ => 0
       let one : List LaneAcc := [{ lane := 0, ptr := p, ok := true }]
       let rows : AccSpec := { spaces := [1, 2], size := 256 * k, align := 4, acc := .store }
       LaneReady s w.h [(w.a, 1), (w.c, k)] [] → s.tm.id ≠ 0 → AccessStops (.vstn w) rows one s
       ∧ (AccessReady s rows one → ∃ y r, exec (.vstn w) s = .next r ∧ y = { s with tm := { s.tm with ranks := y.tm.ranks } } ∧ OnlyBytes s y
         ∧ (∀ pl a, (∀ i l j, i < k → l < 64 → act.getLsbD l = true → j < 4 → (pl, a) ≠ (Place.scratch rank, off + 256 * i + 4 * l + j)) →
             y.byteAt pl a = s.byteAt pl a)
         ∧ (∀ i l j, i < k → l < 64 → act.getLsbD l = true → j < 4 →
             y.byteAt (.scratch rank) (off + 256 * i + 4 * l + j) = (toBytes 4 ((s.nameRow (first + i)).getD l 0)).getD j 0)
         ∧ LaneWent w.h false act (fun _ => 0) 0 y r))

/-- ATOM, ACAS and RED perform one atomic for each active lane that has not made its own already, one after another, in an order that is free where
they meet; ATOM and ACAS give the old values; the region cannot be re-executed any more. An access that fails faults. -/
def Claims.LaneAtomics : Prop :=
  ∀ (w : MemOps) (s : State),
    let t := w.ty
    let act := s.active w.h
    let n := Width.bytes w.width
    let as := s.accsOf w
    let u := s.hostFirstOf as
    let ps := (u.planOf .atomic n as).filter fun x => decide (u.aheadOf x.1 = none)
    let c (l : Nat) : Nat := s.laneVal t w.imm w.c l
    let old (l : Nat) : Nat := s.laneVal t w.imm (.vec w.h.name) l
    let acquired : Scope := if w.order = .acquire ∨ w.order = .acqRel then w.scope else .warp
    let spec : AccSpec := { spaces := [0, 1, 2], size := n, align := n, acc := .atomic }
    let rid := match u.ag.queue with
      | e :: _ => e.rid
      | [] => u.ag.reg.rid
    let go (i : Instr) (latch : Bool) (f : Nat → Nat → Option Nat) : Prop :=
      ∃ order y, order.Perm ps ∧ y = u.runAtomics n w.hint f order
        ∧ let z : State := { y.1 with ag := y.1.ag.setNr rid }
          let got (l : Nat) : Nat := (u.aheadOf l).getD (((y.2.find? fun x => x.1 == l).map (·.2)).getD 0)
          (latch = true → ∃ a b r, exec i s = .next r ∧ LaneResult w.h t.wide (tyTag t) act (fun l => t6Cut t (got l)) 0 z a
              ∧ Acquired b acquired a r ∧ b = (a.tm.rank a.ag.rank).core)
          ∧ (latch = false → ∃ a r, exec i s = .next r ∧ Acquired z.who.core acquired z a ∧ LaneWent w.h false act (fun _ => 0) 0 a r)
    let uses := addrUses w ++ [(w.c, tyNames t)]
    (LaneReady s w.h uses (destNames w.h t) → AccessStops (.atom w) spec as s)
    ∧ (LaneReady s w.h (uses ++ [(.vec w.h.name, tyNames t)]) (destNames w.h t) → AccessStops (.acas w) spec as s)
    ∧ (LaneReady s w.h uses [] → AccessStops (.red w) spec as s)
    ∧ (AccessGoes s spec as → GangReady s (w.scope = .gang ∧ (w.order = .acquire ∨ w.order = .acqRel)) →
    (LaneReady s w.h uses (destNames w.h t) →
      go (.atom w) true fun l o => some (atomSpecOp w.imm.toNat t o (c l)))
    ∧ (LaneReady s w.h (uses ++ [(.vec w.h.name, tyNames t)]) (destNames w.h t) →
      go (.acas w) true fun l o => if o = old l then some (c l) else none)
    ∧ (LaneReady s w.h uses [] → go (.red w) false fun l o => some (atomSpecOp w.imm.toNat t o (c l))))

/-- One atomic of a run: the contention predictor takes its request, it reads the old value whole, and writes the new one where there is one (R189,
R190, R192). -/
def Claims.AtomicSteps : Prop :=
  ∀ (s : State) (n : Nat) (hint : Fin 4) (f : Nat → Nat → Option Nat) (l : Nat) (p : Piece) (rest : List (Nat × List Piece)), p.len = n → n ≤ 8 → s.tm.id ≠ 0 →
    (∃ r, p.place = .scratch r) ∨ p.place = .phys →
    let old := s.accNat [p] n
    ∃ q c v : State, Predicted hint [p] s q ∧ Cached s.who.core false [p] q c
      ∧ (∀ new, f l old = some new → OnlyBytes c v ∧ Stored [p] (toBytes n new) c v ∧ v.poison = c.poison ∧ TrackedAfter s.who.core [p] c v)
      ∧ (f l old = none → v = c)
      ∧ s.runAtomics n hint f ((l, [p]) :: rest) = ((v.runAtomics n hint f rest).1, (l, old) :: (v.runAtomics n hint f rest).2)

/-- ATOM, ACAS and RED: lane after lane, the old values and the new bytes. That the contention counter is judged before the access's own update, and
which lines an L1 owns at first, are the model's choice (logs 82 and 4). Where the spec leaves a point open this follows the model's own choice or
reading: log 1, 18, 19, 98. -/
def Obligations.LaneAtomics : Prop :=
  Claims.LaneAtomics ∧ Claims.AtomicSteps

/-- BRD, JMARK, LJMP and LNOP: where the fragments go. A ninth fragment and a seventeenth entry take 0x09. -/
def Claims.LaneBranches : Prop :=
  ∀ (w : CtlOps) (s : State),
    let c := s.ag.cur
    let next := c.lpc + 12
    let target := c.lpc + ofInt64 (12 * w.imm.toInt)
    let q := s.ag.getP w.pred
    let taken := c.mask &&& (if w.pneg = true then ~~~q else q)
    let went (f : Frag) : State :=
      { s with ag := { s.ag with cur := f, issued := s.ag.issued + 1, chain := 0, latches := [] } }
    (taken = 0 → exec (.brd w) s = .next (went { c with lpc := next }))
    ∧ (taken ≠ 0 → taken = c.mask → exec (.brd w) s = .next (went { c with lpc := target }))
    ∧ (taken ≠ 0 → taken ≠ c.mask → 7 ≤ s.ag.others.length → exec (.brd w) s = laneFault s 0x09 c.lpc)
    ∧ (taken ≠ 0 → taken ≠ c.mask → s.ag.others.length < 7 →
        let t := went { c with mask := c.mask &&& ~~~taken, lpc := next }
        exec (.brd w) s = .next { t with ag := { t.ag with others := { mask := taken, lpc := target, wait := .no } :: s.ag.others } })
    ∧ (16 ≤ s.ag.stack.length → exec (.jmark w) s = laneFault s 0x09 c.lpc)
    ∧ (s.ag.stack.length < 16 →
        let t := went { c with lpc := next }
        exec (.jmark w) s = .next { t with ag := { t.ag with stack := { addr := target, mask := c.mask } :: s.ag.stack } })
    ∧ exec (.ljmp w) s = .next (went { c with lpc := target })
    ∧ exec (.lnop w) s = .next (went { c with lpc := next })

/-- JOIN, LEND and LTRAP: fragments wait for one another at the address of a JMARK and at the end of the block, which then leaves the queue; LTRAP
traps where some lane is active. -/
def Claims.LaneJoins : Prop :=
  ∀ (w : CtlOps) (s : State),
    let c := s.ag.cur
    let went (f : Frag) : State := { s with ag := { s.ag with cur := f, issued := s.ag.issued + 1, chain := 0, latches := [] } }
    let inside (m e : Mask) : Prop := m &&& ~~~e = 0
    (∀ e xs ys, s.ag.stack = xs ++ e :: ys → (∀ x ∈ xs, ¬ inside c.mask x.mask) → inside c.mask e.mask →
      (e.addr ≠ c.lpc → exec (.join w) s = laneFault s 0x09 c.lpc)
      ∧ (e.addr = c.lpc →
        let t := went { c with wait := .atJoin }
        let here : Frag → Prop := fun f => f.wait = .atJoin ∧ f.lpc = c.lpc ∧ inside f.mask e.mask
        let all := ∀ l, l < 64 → e.mask.getLsbD l = true → c.mask.getLsbD l = true ∨ ∃ f ∈ s.ag.others, here f ∧ f.mask.getLsbD l = true
        (¬ all → exec (.join w) s = .next t)
        ∧ (all → ∃ y, exec (.join w) s = .next y
            ∧ y = { t with ag := { t.ag with
                cur := { mask := e.mask, lpc := c.lpc + 12, wait := .no }, others := y.ag.others, stack := s.ag.stack.erase e } }
            ∧ ∀ f, f ∈ y.ag.others ↔ f ∈ s.ag.others ∧ ¬ here f)))
    ∧ ((∀ e ∈ s.ag.stack, ¬ inside c.mask e.mask) → exec (.join w) s = laneFault s 0x09 c.lpc)
    ∧ ((∃ e ∈ s.ag.stack, e.mask &&& c.mask ≠ 0) → exec (.lend w) s = laneFault s 0x09 c.lpc)
    ∧ ((∀ e ∈ s.ag.stack, e.mask &&& c.mask = 0) →
      let t := went { c with wait := .atLend }
      ((∃ f ∈ s.ag.others, f.wait ≠ .atLend) → exec (.lend w) s = .next t)
      ∧ ((∀ f ∈ s.ag.others, f.wait = .atLend) → ∃ y, exec (.lend w) s = .next y
          ∧ y = { t with ag := { t.ag with
              queue := s.ag.queue.drop 1, olds := y.ag.olds, running := false, cur := y.ag.cur, others := [], stack := [],
              lphase := s.ag.lphase + 1 } }))
    ∧ (s.active w.h = 0 → ∃ t, exec (.ltrap w) s = .next t ∧ LaneWent w.h false 0 (fun _ => 0) 0 s t)
    ∧ (s.active w.h ≠ 0 → exec (.ltrap w) s = laneFault s 0x30 (ofNat64 (w.imm.toNat % 256)))

/-- BRD, LJMP, JMARK, JOIN, LEND, LNOP and LTRAP: fragments, rejoining and the end of a block. -/
def Obligations.LaneControl : Prop :=
  Claims.LaneBranches ∧ Claims.LaneJoins

/-- MATRIX_COMPLETE: the oldest command of a core's queue takes effect in its team's part of the core, after its acquire, and makes its arrival. -/
def Claims.MatrixCompletion : Prop :=
  ∀ (s : State) (core : Nat) (c : Cmd) (t : Team) (xs ys : List Cmd),
    let kinds := [CmdKind.mmac, .azero, .ard, .awr]
    s.cmds = xs ++ c :: ys → c.core = core → c.kind ∈ kinds → (∀ x ∈ xs, x.core = core → x.kind ∉ kinds) → s.getTeam c.team = some t →
    ∃ u v r, exec (.matrixComplete core) s = .next r ∧ Acquired core (if c.acq = true then c.scope else .warp) s u
      ∧ TeamNow c.team (t.setRank c.rank (c.matrixEffect (t.rank c.rank))) u v ∧ CmdEnded c 0 0 v r

/-- What the matrix commands leave, with what they have read ahead (R227): AZERO zeros bytes, AWR writes and MMAC forms the words of its window, ARD
fills the lanes of its rows; the holds of the command drop, a row that nothing refers to any more is freed, and every other byte and row is as before.
An empty shape does nothing. -/
def Claims.MatrixEffects : Prop :=
  ∀ (c : Cmd) (r : Rank),
    let y := c.matrixEffect r
    let word (m : Memory) (a : Nat) : Nat := m.readNat a 4
    let seen := c.accumSeen r.accum
    let lanes := c.rows.map fun n => (r.row n).data.map fun v => v.toNat
    (c.kind = .azero →
      let off := bits (descNat c.desc 0) 17 0
      let n := bits (descNat c.desc 0) 35 18
      y = { r with accum := y.accum } ∧ ∀ a, y.accum.read a = if off ≤ a ∧ a < off + n then 0 else r.accum.read a)
    ∧ (let x := Mmac.ofDesc c.desc
       let o := x.operands c.tags lanes
       c.kind = .mmac → (∀ u ∈ c.early, ∀ k, k < u.data.length → ∃ i j n, i < x.m ∧ j < x.n ∧ n < 4 ∧ u.addr + k = x.off + 4 * (i * x.ld + j) + n) →
        (x.m = 0 ∨ x.n = 0 ∨ x.k = 0 → y = r) ∧ (x.m ≠ 0 → x.n ≠ 0 → x.k ≠ 0 → (x.n ≤ x.ld ∨ x.m = 1) →
        (∀ i j, i < x.m → j < x.n →
          word y.accum (x.off + 4 * (i * x.ld + j)) = x.word o (word seen (x.off + 4 * (i * x.ld + j))) i j % 2 ^ 32)
        ∧ (∀ a, (∀ i j k, i < x.m → j < x.n → k < 4 → a ≠ x.off + 4 * (i * x.ld + j) + k) → y.accum.read a = r.accum.read a)
        ∧ HoldsDropped c.rows r y))
    ∧ (let x := AccMove.ofDesc c.desc
       c.kind = .awr → (x.rows = 0 ∨ x.cols = 0 → y = r) ∧ (x.rows ≠ 0 → x.cols ≠ 0 → (x.cols ≤ x.ld ∨ x.rows = 1) →
        (∀ i l, i < x.rows → l < x.cols → word y.accum (x.off + 4 * (i * x.ld + l)) = ((lanes.getD i []).getD l 0) % 2 ^ 32)
        ∧ (∀ a, (∀ i l k, i < x.rows → l < x.cols → k < 4 → a ≠ x.off + 4 * (i * x.ld + l) + k) → y.accum.read a = r.accum.read a)
        ∧ HoldsDropped c.rows r y))
    ∧ (let x := AccMove.ofDesc c.desc
       c.kind = .ard → (x.rows = 0 ∨ x.cols = 0 → y = r) ∧ (x.rows ≠ 0 → x.cols ≠ 0 → c.rows.Nodup → c.rows.length = x.rows →
        y = { r with live := y.live, zeroing := y.zeroing } ∧ (∀ n, n ∉ c.rows → y.live.find? n = r.live.find? n)
        ∧ (∃ l, y.zeroing = r.zeroing ++ l ∧ l.Nodup ∧ ∀ n, n ∈ l ↔ (r.live.find? n).isSome ∧ y.live.find? n = none)
        ∧ ∀ i n z, c.rows[i]? = some n → r.live.find? n = some z → (z.refs ≠ 0 ∨ z.readHolds ≠ 0 ∨ z.writeHolds ≠ 0) →
            (z.refs = 0 ∧ z.readHolds = 0 ∧ z.writeHolds ≤ 1 → y.live.find? n = none)
            ∧ (¬ (z.refs = 0 ∧ z.readHolds = 0 ∧ z.writeHolds ≤ 1) →
              ∃ q, y.live.find? n = some q ∧ q = { z with data := q.data, writeHolds := z.writeHolds - 1 }
                ∧ (z.data.length = 64 → ∀ l, l < 64 → q.data.getD l 0
                  = if l < x.cols then BitVec.ofNat 32 (word seen (x.off + 4 * (i * x.ld + l))) else z.data.getD l 0))))

/-- MATRIX_COMPLETE runs the commands of a core in order, each with its effect. Where the spec leaves a point open this follows the model's own choice
or reading: log 1, 99. -/
def Obligations.MatrixCommands : Prop :=
  Claims.MatrixCompletion ∧ Claims.MatrixEffects

/-- The words of an integer MMAC: the exact sum of products of the elements of A's and B's rows, with or without the old word, modulo 2^32 (R166);
operands lie by rows or by columns (R148, R149). -/
def Claims.MatrixIntegers : Prop :=
  ∀ (x : Mmac) (o : Operands) (old i j : Nat), x.accType ≠ 0 →
    let a (k : Nat) : Nat := if x.colA = true then (o.a.getD k []).getD (i / o.ta.count) 0 / 2 ^ (i % o.ta.count * elemBits o.ta) % 2 ^ elemBits o.ta
      else (o.a.getD i []).getD (k / o.ta.count) 0 / 2 ^ (k % o.ta.count * elemBits o.ta) % 2 ^ elemBits o.ta
    let b (k : Nat) : Nat := if x.colB = true then (o.b.getD k []).getD (j / o.tb.count) 0 / 2 ^ (j % o.tb.count * elemBits o.tb) % 2 ^ elemBits o.tb
      else (o.b.getD j []).getD (k / o.tb.count) 0 / 2 ^ (k % o.tb.count * elemBits o.tb) % 2 ^ elemBits o.tb
    let sum : Int := ((List.range x.k).map fun k =>
      intOf (tySigned o.ta) (elemBits o.ta) (a k) * intOf (tySigned o.tb) (elemBits o.tb) (b k)).sum
    x.word o old i j = ((sum + if x.accumulate = true then (old : Int) else 0) % 2 ^ 32).toNat

/-- The words of a float MMAC: each block of 32 products, or of one where an operand is F32, is summed exactly and rounded once, the blocks are added
in ascending order with one rounding each, and the old word is added where the command accumulates (R152, R164, R165). -/
def Claims.MatrixFloats : Prop :=
  ∀ (x : Mmac) (o : Operands) (old i j : Nat) (fa fb : Fmt), x.accType = 0 → x.k ≠ 0 → tyFmt o.ta = some fa → tyFmt o.tb = some fb →
    let a (k : Nat) : Nat := if x.colA = true then (o.a.getD k []).getD (i / o.ta.count) 0 / 2 ^ (i % o.ta.count * elemBits o.ta) % 2 ^ elemBits o.ta
      else (o.a.getD i []).getD (k / o.ta.count) 0 / 2 ^ (k % o.ta.count * elemBits o.ta) % 2 ^ elemBits o.ta
    let b (k : Nat) : Nat := if x.colB = true then (o.b.getD k []).getD (j / o.tb.count) 0 / 2 ^ (j % o.tb.count * elemBits o.tb) % 2 ^ elemBits o.tb
      else (o.b.getD j []).getD (k / o.tb.count) 0 / 2 ^ (k % o.tb.count * elemBits o.tb) % 2 ^ elemBits o.tb
    let byte (rows : List (List Nat)) (outer blk : Nat) : Nat := (rows.getD (blk / 4) []).getD outer 0 / 2 ^ (8 * (blk % 4)) % 256
    let term (k : Nat) : Ext :=
      let p := (fa.decode (a k)).ext.mul (fb.decode (b k)).ext
      if x.scaled = true then (p.scaled (byte o.sa i (k / 32))).scaled (byte o.sb j (k / 32)) else p
    let bs := if o.ta = .f32 ∨ o.tb = .f32 then 1 else 32
    let n := (x.k + bs - 1) / bs
    let word (w : Nat) : Ext := (Fmt.f32.decode w).ext
    ∃ blk tot : Nat → Nat, (∀ m < n, RoundedSum (((List.range bs).filter fun k => bs * m + k < x.k).map fun k => term (bs * m + k)) (blk m))
      ∧ tot 0 = blk 0 ∧ (∀ m, m + 1 < n → RoundedSum [word (tot m), word (blk (m + 1))] (tot (m + 1)))
      ∧ (x.accumulate = false → x.word o old i j = tot (n - 1))
      ∧ (x.accumulate = true → RoundedSum [word old, word (tot (n - 1))] (x.word o old i j))

/-- The words that an MMAC writes: integer sums modulo 2^32, and float sums rounded block by block. -/
def Obligations.MatrixSums : Prop :=
  Claims.MatrixIntegers ∧ Claims.MatrixFloats

/-- CPY_BURST delivers a burst whose pages are there and which waits for nothing: the bytes of its sources, zeros where a transform pads, go to its
place in the destination, in the module's memory, in a window or behind a port; CPY_COMPLETE, with every burst delivered or the copy stopped, and no
packet of it under way, makes the arrival with the counted bytes. -/
def Claims.CopyProgress : Prop :=
  ∀ (s : State) (id : Nat) (c : Cmd), s.getCmd id = some c → c.kind = .cpy →
    let cp := c.copy
    let w := s.whoCmd c
    let ws := c.scope == .warp
    let u := s.hostFirst cp.src
    (∀ n, c.cursor ≤ n → n < cp.total → c.stopped = false → s.frozen c.team = false →
      bits cp.src.toNat 63 61 ≠ 5 → bits cp.dst.toNat 63 61 ≠ 5 → cp.overlap w = none → (c.team = s.tm.id ∨ bits cp.dst.toNat 63 61 ∈ [0, 4]) →
      let x := cp.burst n
      let runs := joinRuns (cp.sources x)
      let touched := runs.zipIdx.flatMap fun r => u.runPieces w cp.src r.1 r.2
      let out := (joinSegs (x.map fun g => (g.z * cp.dps + g.y * cp.drs + g.off, g.len))).zipIdx.flatMap fun r =>
        u.pieces w .store (cp.dst + ofNat64 r.1.1) r.1.2 (255 + r.2)
      let got := u.gatherRuns w ws (c.ahead n) cp.src runs 0
      got.stop = none → got.bytes.length = x.len → badPieces out = [] → u.transferWaits c (touched ++ out) = false →
      ∃ q v t, exec (.cpyBurst id n) s = .next t ∧ Cached w.core ws (goodPieces touched) u q
        ∧ CmdNow id { c with
            cursor := n + 1, pending := (c.pending ++ upTo c.cursor (n + 1)).erase n, early := c.early.filter fun e => decide (e.burst ≠ n) } q v
        ∧ OnlyBytes v t ∧ StoredBy w.ctx (goodPieces out) got.bytes v t ∧ PoisonLeft (goodPieces out) v t
        ∧ TrackedAfter w.core (goodPieces out) v t)
    ∧ ((c.stopped = true ∨ cp.total ≤ c.cursor) → c.pending = [] → c.arrived = false → s.underWay c = false →
      ∃ t, exec (.cpyComplete id) s = .next t ∧ CmdEnded c cp.counted c.err s t)

/-- The transforms of Table 12.5: where each destination byte of a copy comes from, and that BLOCK and UNBLOCK lay elements out alike. -/
def Claims.CopyGeometry : Prop :=
  ∀ (c : Copy) (y b : Nat), c.u ≠ 0 →
    let k := b / c.u
    let j := b % c.u
    let elem (i col : Nat) : Option Nat := if i < c.r ∧ col < c.b / c.u then some (i * c.srs + col * c.u + j) else none
    (c.shape = .plain → c.srcAt y b = some (y * c.srs + b))
    ∧ (c.shape = .transpose → c.srcAt y b = elem k y)
    ∧ (c.shape = .pad → c.srcAt y b = elem y k)
    ∧ (∀ i col, i < (c.r + 63) / 64 * 64 → col < (c.b / c.u + 63) / 64 * 64 →
        (c.shape = .block → k * c.u = c.blockOff i col → c.srcAt y b = elem i col)
        ∧ (c.shape = .unblock → y = i → k = col → c.srcAt y b = some (c.blockOff i col + j))
        ∧ c.blockElem (c.blockOff i col / c.u) = (i, col))

/-- The bytes that a transfer reads: for each byte of its source, what it has read ahead, or the byte behind that pointer (here with no walk cached),
and zero where nothing is read; of a source that fails, the bytes before the failure (R289, R290). -/
def Claims.TransferredBytes : Prop :=
  ∀ (s : State) (w : Who) (ws : Bool) (es : List EarlyUnit),
    let whole (ps : List (Except Fail Piece)) : Prop := badPieces ps = [] ∧ ∀ p ∈ goodPieces ps, s.piecePoison p = none
    let own (ps : List (Except Fail Piece)) : Prop :=
      ∀ p ∈ goodPieces ps, (∃ r, p.place = .scratch r ∨ p.place = .accum r) → w.team = s.tm.id ∧ s.tm.id ≠ 0
    (∀ ps, own ps → whole ps →
      (s.gather w ws es ps).stop = none ∧ (s.gather w ws es ps).bytes.length = ((goodPieces ps).map (·.len)).sum
      ∧ ∀ k pl a, locOf (goodPieces ps) k = some (pl, a) →
          (s.gather w ws es ps).bytes.getD k 0 = (earlyByte es pl a).getD (s.seenByte w.core ws pl a))
    ∧ (∀ ps f qs, whole ps →
      s.gather w ws es (ps ++ .error f :: qs) = { bytes := (s.gather w ws es ps).bytes, stop := some f })
    ∧ (∀ ps p a qs, whole ps → s.piecePoison p = some a →
      s.gather w ws es (ps ++ .ok p :: qs)
        = { bytes := (s.gather w ws es ps).bytes ++ (s.engineBytes w ws es p).take (a - p.ptr).toNat, stop := some { code := 0x21, addr := a } })
    ∧ ∀ (src : Word) (os : List (Option Nat)), s.tlb = [] → (∀ o, some o ∈ os → bits src.toNat 57 0 + o < 2 ^ 58) →
      let runs := joinRuns os
      let touched := runs.zipIdx.flatMap fun r => s.runPieces w src r.1 r.2
      let got := s.gatherRuns w ws es src runs 0
      own touched → whole touched →
      got.stop = none ∧ got.bytes.length = os.length
      ∧ ∀ i, (os[i]? = some none → got.bytes.getD i 0 = 0)
          ∧ ∀ o, os[i]? = some (some o) → ∃ pl a, locOf (goodPieces (s.pieces w .load (src + ofNat64 o) 1 0)) 0 = some (pl, a)
              ∧ got.bytes.getD i 0 = (earlyByte es pl a).getD (s.seenByte w.core ws pl a)

/-- CPY_BURST and CPY_COMPLETE: what a burst moves, and the one arrival at the end. That a read of host space first lets the whole host write path
drain is the model's choice (log 83). Where the spec leaves a point open this follows the model's own choice or reading: log 24, 25, 26, 99. -/
def Obligations.CopyCommands : Prop :=
  Claims.CopyProgress ∧ Claims.CopyGeometry ∧ Claims.TransferredBytes

/-- HREAD_BURST_LAND puts a requested burst into a reserved row; LAST_BURST, with every drop ended, makes the arrival with X·Y·Z bytes and returns the
rows to the pool. -/
def Obligations.ReadCommands : Prop :=
  ∀ (s : State) (id : Nat) (c : Cmd) (t : Team), s.getCmd id = some c → c.kind = .hread → s.getTeam c.team = some t →
    let shape := descNat c.desc 1
    let x := bits shape 31 0
    let y := bits shape 47 32
    let z := bits shape 63 48
    let per := (x + 255) / 256
    let w := s.whoCmd c
    let ws := c.scope == .warp
    (∀ n row rows, c.cursor ≤ n → n < per * y * z → c.stopped = false → s.frozen c.team = false →
      c.landed.length + c.running < c.window → c.rows = row :: rows →
      let off := n % per * 256
      let p := c.desc.getD 0 0 + ofNat64 (n / per / y * bits (descNat c.desc 2) 63 32 + n / per % y * bits (descNat c.desc 2) 31 0 + off)
      let f := s.hostFirst p
      let ps := f.pieces w .load p (min 256 (x - off)) 0
      let got := f.gather w ws (c.ahead n) ps
      got.stop = none → f.transferWaits c ps = false →
      ∃ k u v r, exec (.hreadBurstLand id n) s = .next v ∧ Cached w.core ws (goodPieces ps) f k
        ∧ CmdNow id { c with
            cursor := n + 1, pending := (c.pending ++ upTo c.cursor (n + 1)).erase n, rows := rows, early := c.early.filter fun e => decide (e.burst ≠ n),
            landed := c.landed ++ [{ burst := n, row := row }] } k u
        ∧ v = { u with tm := v.tm, teams := v.teams } ∧ TeamNow c.team (t.setRank c.rank r) u v
        ∧ r = { t.rank c.rank with live := r.live } ∧ (∀ m, m ≠ row → r.live.find? m = (t.rank c.rank).live.find? m)
        ∧ ∃ q, r.live.find? row = some q ∧ RowHolds got.bytes q)
    ∧ ((c.stopped = true ∨ per * y * z ≤ c.cursor) → c.pending = [] → c.landed = [] → c.running = 0 → (c.final = .none ∨ c.final = .ended) →
      ∃ u v k : State, (c.bar = none → u = s) ∧ (∀ p, c.bar = some p → u = s.arrive (barLoc w p) 1 (x * y * z) c.err)
        ∧ v = u.modRank c.team c.rank (fun r => { r with zeroing := r.zeroing ++ c.rows })
        ∧ k = { v with cmds := v.cmds.filter fun m => decide (m.id ≠ id) }
        ∧ exec (.lastBurst id) s = .next (k.checkTeamEnd c.team))

/-- DROP_START and FINAL_DROP_START: a drop starts with its coordinates in g1 to g5 and its rows as names, and no access of its core is served from an
untracked line any more; HEND ends it. -/
def Claims.DropStarts : Prop :=
  (∀ (s : State) (id n row : Nat) (c : Cmd) (t : Team) (xs ys : List Landed),
    s.getCmd id = some c → s.getTeam c.team = some t → c.kind = .hread → c.landed = xs ++ { burst := n, row := row } :: ys →
    (∀ l ∈ xs, l.burst ≠ n) → c.running < c.window →
    let shape := descNat c.desc 1
    let per := (bits shape 31 0 + 255) / 256
    let off := n % per * 256
    let extra := bits (descNat c.desc 3) 39 36
    extra ≤ c.rows.length →
    let rows := row :: c.rows.take extra
    ∃ v a, exec (.dropStart (.burst id n)) s = .next v ∧ v.agents = s.agents ++ [a] ∧ v.ag = s.ag
      ∧ Acquired (t.rank c.rank).core .team s { s with l1 := v.l1 }
      ∧ DropIs t c.rank (bits (descNat c.desc 3) 31 0) (.burst id)
          [off, n / per % bits shape 47 32, n / per / bits shape 47 32, min 256 (bits shape 31 0 - off), bits (descNat c.desc 3) 43 40] rows a
      ∧ v.getCmd id = some { c with
          rows := c.rows.drop extra, landed := xs ++ ys, running := c.running + 1, started := c.started + 1,
          delivered := c.delivered + min 256 (bits shape 31 0 - off) })
  ∧ (∀ (s : State) (id : Nat) (c : Cmd) (t : Team),
    s.getCmd id = some c → s.getTeam c.team = some t → c.kind = .hread → c.readOver = true → c.final = .due →
    let want := 1 + bits (descNat c.desc 3) 39 36
    want ≤ c.rows.length →
    ∃ v a, exec (.finalDropStart id) s = .next v ∧ v.agents = s.agents ++ [a] ∧ v.ag = s.ag
      ∧ Acquired (t.rank c.rank).core .team s { s with l1 := v.l1 }
      ∧ DropIs t c.rank (bits (descNat c.desc 3) 31 0) (.finalOf id)
          [0, 0, 0, c.delivered, bits (descNat c.desc 3) 43 40 + 2 ^ 16] (c.rows.take want) a
      ∧ v.getCmd id = some { c with rows := c.rows.drop want, final := .runs })
  ∧ (∀ (s : State) (n : Fin 8) (t : Team) (l : Landing) (x : LandBurst) (xs ys : List LandBurst) (row : Nat) (rows : List Nat),
    s.getTeam t.id = some t → t.landings.find? n.val = some l → l.waiting = xs ++ x :: ys → (∀ y ∈ xs, y.counted = false) → x.counted = true →
    l.rows = row :: rows → l.running < l.window → s.frozen t.id = false →
    ∃ v a, exec (.dropStart (.landing t.id n)) s = .next v ∧ v.agents = s.agents ++ [a] ∧ v.ag = s.ag
      ∧ Acquired (t.rank l.rank).core .team s { s with l1 := v.l1 }
      ∧ DropIs t l.rank l.entry (.landing n)
          [x.offset, x.srcRank.toNat, (if x.overflow = true then 1 else 0) + (if x.encrypted = true then 2 else 0), x.data.length,
           x.coll.toNat + 2 ^ 16 * n.val] [row] a
      ∧ ∃ y, v.getTeam t.id = some y ∧ y.landings.find? n.val = some { l with rows := rows, running := l.running + 1, waiting := xs ++ ys }
          ∧ ∃ q, (y.rank l.rank).live.find? row = some q ∧ RowHolds x.data q)
  ∧ ∀ s : State, s.ag.isDrop = true → s.ag.queue = [] → exec .hend s = .next (s.endDrop s.ag 0)

/-- The end of a drop (R298 to R300): it is gone, and its names give up their rows; the rows that fall free go to its HREAD or landing slot until the
reservation is whole, the pool making up for missing ones, and then to the pool; the command keeps the first error and has one drop less, and where
its window has shrunk to nothing it fails with 0x05 and discards its bursts; the final drop leaves its rows to the command. -/
def Claims.DropEnds : Prop :=
  ∀ (s : State) (a : Agent) (err : Byte) (t : Team), a.isDrop = true → s.getTeam (teamOf a.id) = some t →
    let v := s.endDrop a err
    let r := t.rank a.rank
    let free := r.pool.length + r.zeroing.length
    let gone (u : State) : Prop := ∀ x ∈ u.allAgents, x ∈ s.allAgents ∧ x.id ≠ a.id
    ∃ (freed : List Nat) (q : Rank), freed.Nodup ∧ q = { r with live := q.live }
      ∧ (∀ n, q.live.find? n = (r.live.find? n).bind fun x => x.less (a.vmap.countP fun e => e.2.row == n))
      ∧ (∀ n, n ∈ freed ↔ (r.live.find? n).isSome ∧ q.live.find? n = none)
      ∧ (let refill (want : Nat) (more : List Nat) (w : Rank) : Prop :=
           w = { q with pool := w.pool, zeroing := w.zeroing } ∧ more.length = min (want - freed.length) free
           ∧ more ++ w.pool ++ w.zeroing = r.pool ++ r.zeroing ++ freed.drop want
         (∀ id c, a.origin = some (.burst id) → s.getCmd id = some c →
           let want := c.reserved - (1 + bits (descNat c.desc 3) 39 36) * (c.running - 1) - c.landed.length - c.rows.length
           let left := (c.stopped = false ∧ c.cursor < hreadBursts c.desc) ∨ c.pending ≠ [] ∨ c.landed ≠ []
           ∃ more w k, refill want more w ∧ gone v
             ∧ (let short := want - freed.length - more.length
                k = { c with
                  running := c.running - 1, err := if c.err = 0 then err else c.err, rows := c.rows ++ freed.take want ++ more,
                  reserved := c.reserved - short, window := c.window - short })
             ∧ (¬ (k.window = 0 ∧ left) → v.getCmd id = some k ∧ v.getTeam t.id = some (t.setRank a.rank w))
             ∧ (k.window = 0 ∧ left →
                 v.getCmd id = some { k with err := if k.err = 0 then 0x05 else k.err, stopped := true, pending := [], landed := [] }
                 ∧ ∃ z, v.getTeam t.id = some (t.setRank a.rank z)
                     ∧ z = { w with live := z.live, zeroing := w.zeroing ++ c.landed.map (·.row) }
                     ∧ ∀ n, z.live.find? n = if n ∈ c.landed.map (·.row) then none else w.live.find? n))
         ∧ (∀ id c, a.origin = some (.finalOf id) → s.getCmd id = some c →
           gone v ∧ v.getTeam t.id = some (t.setRank a.rank q)
             ∧ v.getCmd id = some { c with final := .ended, err := if c.err = 0 then err else c.err, rows := c.rows ++ freed })
         ∧ ∀ n l, a.origin = some (.landing n) → t.landings.find? n.val = some l →
           let want := l.window - l.rows.length - (l.running - 1)
           ∃ more w u, refill want more w ∧ gone u
             ∧ u.getTeam t.id = some { t.setRank a.rank w with
                 landings := t.landings.insert n.val { l with running := l.running - 1, rows := l.rows ++ freed.take want ++ more } }
             ∧ (∀ m, m ≠ t.id → u.getTeam m = s.getTeam m)
             ∧ v = (if err = 0 then u else u.arrive { team := t.id, rank := l.barRank, off := bits l.bar.toNat 57 0 } 0 0 err).checkTeamEnd t.id)

/-- DROP_START, FINAL_DROP_START and HEND: the registers and rows of a drop, and what its end gives back. Where the spec leaves a point open this
follows the model's own choice or reading: log 60, 91, 101. -/
def Obligations.Drops : Prop :=
  Claims.DropStarts ∧ Claims.DropEnds

/-- TOPK_COMPLETE writes the entries of its sets, 16 bits each, and makes its arrival. -/
def Claims.SelectCompletion : Prop :=
  ∀ (s : State) (id : Nat) (c : Cmd) (e : EngOps) (kt : KeyType) (col bot : Bool), s.getCmd id = some c → c.instr = .topk e kt col bot →
    c.team = s.tm.id → s.tm.id ≠ 0 →
    let x := Search.ofDesc c.desc
    let w := s.whoCmd c
    let n := x.sets col * x.k
    let p := x.out
    bits p.toNat 63 61 ∈ [1, 2] →
    let rank := if bits p.toNat 63 61 = 1 then c.rank else bits p.toNat 60 58
    ∃ v t, exec (.topkComplete id) s = .next t ∧ CmdEnded c 0 0 v t ∧ v = { s with fresh := v.fresh, tm := { s.tm with ranks := v.tm.ranks } }
      ∧ (∀ pl a, (pl ≠ .scratch rank ∨ a < bits p.toNat 57 0 ∨ bits p.toNat 57 0 + 2 * n ≤ a) → v.byteAt pl a = s.byteAt pl a)
      ∧ (x.overlaps w col = false → ∀ i k, i < x.sets col → k < x.k →
          (v.tm.rank rank).scratch.readNat (bits p.toNat 57 0 + 2 * (i * x.k + k)) 2 = ((s.setEntries w x kt c.keys col bot i).getD k 0) % 65536)

/-- The order of TOPK (R308, R309): the indices come best first, a lower index before a higher one of an equal key, each once; entry t of a set is the
index of the key that ranks t-th by the keys' values, as they have been read already or stand in memory, and 0xFFFF beyond the last. -/
def Claims.SelectionOrder : Prop :=
  ∀ bot : Bool, (∀ ks : List Int,
    let r := rankKeys bot ks
    r.Perm (List.range ks.length)
    ∧ ∀ i j, i < j → j < r.length →
        let x := ks.getD (r.getD i 0) 0
        let y := ks.getD (r.getD j 0) 0
        (if bot = true then x < y else y < x) ∨ (x = y ∧ r.getD i 0 < r.getD j 0))
    ∧ ∀ (s : State) (w : Who) (x : Search) (kt : KeyType) (early : Sparse Nat) (col : Bool) (u t : Nat), t < x.k →
        let n := if col = true then x.rows else x.cols
        let place (j : Nat) : Nat := if col = true then j * x.stride + u else u * x.stride + j
        let word (j : Nat) : Nat := (early.find? (place j)).getD (ofBytes (s.load w false (x.keys + ofNat64 (4 * place j)) 4 0))
        let value (m : Nat) : Int := match kt with
          | .s32 => intOf true 32 m
          | .u32 => m
          | .f32 => if 0x7F800000 < m % 2 ^ 31 then -2 ^ 32 else if 2 ^ 31 ≤ m % 2 ^ 32 then -((m % 2 ^ 31 : Nat) : Int) - 1 else (m % 2 ^ 31 : Nat)
        (s.setEntries w x kt early col bot u)[t]?
          = some (if t < n then (rankKeys bot ((List.range n).map fun j => value (word j))).getD t 0 else 0xFFFF)

/-- TOPK_COMPLETE writes the greatest or least keys in order. Where the spec leaves a point open this follows the model's own choice or reading: log
28, 95. -/
def Obligations.SelectCommands : Prop :=
  Claims.SelectCompletion ∧ Claims.SelectionOrder

/-- Packets at this module: a transit goes on over its next link, a put is written in the exported window, a notice waits in its landing slot, a
packet of no gang here is lost, and a combine gathers until its last contribution, whose result goes up; the last offset of a collective that ends in
DLV closes its entry. A packet waits while what it needs here is fenced. -/
def Claims.PacketHops : Prop :=
  ∀ (s : State) (pk : Packet) (l : Fin 18), pk.payload.length ≤ 1024 →
    let q : Packet := { pk with cmd := 0 }
    let o := exec (.fabricPacketArrive pk (some l)) s
    let popped : Packet := { q with route := pk.route.drop 1, ops := pk.ops.drop 1 }
    let b : State := { s with fab := { s.fab with combine := s.fab.combine.erase (pk, some l) } }
    let known (g : Gang) : Prop := s.gang pk.gang = some g
    ((s.pow.tripped = true ∨ s.packetWaits pk = true) → o = .next s)
    ∧ (s.pow.tripped = false → s.packetWaits pk = false →
    (∀ ops l2 route, pk.ops = .fwd :: ops → pk.kind ≠ .collective → pk.route.drop 1 = some l2 :: route → b.linkDown l2.val = false →
      o = .next { b with fab := { b.fab with out := (popped, some l2) :: b.fab.out } })
    ∧ (∀ op ops, pk.ops = op :: ops → op ≠ .fwd → b.gang pk.gang = none →
        (pk.encrypted = true → (∀ g ∈ b.fab.gangs, g.gang ≠ pk.gang) → o = .next (b.failCmd 0 0x24))
        ∧ (pk.encrypted = false ∨ (∃ g ∈ b.fab.gangs, g.gang = pk.gang) → o = .next (b.failCmd 0 0x22)))
    ∧ (∀ ops g c, pk.ops = .dlv :: ops → pk.kind = .put → known g → b.ctxs.find? g.ctx.toNat = some c →
        pk.offset + pk.payload.length ≤ c.expSize →
        let p := mkPtr 0 0 ((c.expBase + pk.offset) % 2 ^ 57)
        let w : Who := { team := 0, ctx := g.ctx, rank := 0, core := 768 }
        badPieces (b.pieces w .store p pk.payload.length 0) = [] →
        let ps := goodPieces (b.pieces w .store p pk.payload.length 0)
        ∃ v : State, o = .next v ∧ OnlyBytes b v ∧ StoredBy g.ctx ps pk.payload b v ∧ v.hostPath = b.hostPath ∧ PoisonLeft ps b v
          ∧ TrackedAfter 768 ps b v)
    ∧ (∀ ops g t z, pk.ops = .dlv :: ops → pk.kind = .notice → known g → b.holder pk.gang pk.slot = some (t, z) → b.getTeam t ≠ none →
        ∃ v y, o = .next v ∧ v.getTeam t = some y
          ∧ ∃ more, y.landings.find? pk.slot.val = some { z with waiting := z.waiting ++ more }
            ∧ more.length = (pk.payload.length + 255) / 256 ∧ (more.map (·.data)).flatten = pk.payload
            ∧ ∀ x ∈ more, x.srcRank = pk.srcRank ∧ x.counted = false ∧ x.overflow = pk.overflow ∧ x.encrypted = pk.encrypted
                ∧ x.coll = pk.coll ∧ x.data.length ≤ 256)
    ∧ (∀ op ops e id, pk.ops = op :: ops → (combineTy op).isSome = true → b.gang pk.gang ≠ none →
        b.entryOf q = some e → e.cmd = some id → b.fab.table = [e] →
        let old := e.at pk.offset
        (old.length + 1 < e.fanin →
          ∃ v y, o = .next v ∧ v = { b with fab := { b.fab with table := [y] } } ∧ y.at pk.offset = old ++ [q] ∧ some l ∈ y.links
            ∧ y.combined = e.combined)
        ∧ (e.fanin ≤ old.length + 1 → ∀ c, b.getCmd id = some c →
          let n := min 1024 (bits (descNat c.desc 2) 31 0 - pk.offset)
          let ps := b.pieces (b.whoCmd c) .load (c.desc.getD 0 0 + ofNat64 pk.offset) n 0
          let got := b.gather (b.whoCmd c) (c.scope == .warp) (c.ahead (pk.offset / 1024)) ps
          n ≠ 0 → badPieces ps = [] → (∀ x ∈ goodPieces ps, b.piecePoison x = none) →
          ∃ (v u : State) (x : List Byte × Bool) (r : Packet), o = .next v ∧ v = u.send r
            ∧ u = { b with cmds := u.cmds, fab := { b.fab with table := u.fab.table } }
            ∧ (pk.ops.getLast? = some .dlv ∧ pk.total ≤ e.combined + 1 → u.fab.table = [])
            ∧ (¬ (pk.ops.getLast? = some .dlv ∧ pk.total ≤ e.combined + 1) →
                ∃ y, u.fab.table = [y] ∧ y.combined = e.combined + 1 ∧ y.at pk.offset = [] ∧ y.fanin = e.fanin ∧ y.cmd = e.cmd)
            ∧ u.getCmd id = some { c with cursor := c.cursor + 1 } ∧ (∀ m, m ≠ id → u.getCmd m = b.getCmd m)
            ∧ x = (old ++ [q]).foldl (fun (x : List Byte × Bool) p =>
                ((combineBytes op x.1 p.payload).1, x.2 || (combineBytes op x.1 p.payload).2 || p.overflow))
                (got.bytes, false)
            ∧ r.payload = x.1 ∧ r.overflow = x.2 ∧ (∃ p ∈ old ++ [q], r.srcRank = p.srcRank ∧ r.route = p.route.drop 1 ∧ r.ops = p.ops.drop 1)
            ∧ ∀ p ∈ old ++ [q], r.srcRank.toNat ≤ p.srcRank.toNat)))

/-- What a combine makes of two payloads (R238): element by element, integers wrapping, floats rounded to nearest with their overflow told, the
greater of two numbers for MAX; the bytes that one of them lacks are those of the identity. -/
def Claims.CombinedBytes : Prop :=
  ∀ (op : HopOp) (size : Nat) (isFloat : Bool) (xs ys : List Byte), combineTy op = some (size, isFloat) →
    let o := combineBytes op xs ys
    let n := max xs.length ys.length
    let lack (j : Nat) : Byte := match op with
      | .maxS64 => if j = 7 then 0x80 else 0
      | .maxS32 => if j = 3 then 0x80 else 0
      | .maxF32 => if j = 3 then 0xFF else if j = 2 then 0x80 else 0
      | _ => 0
    let elem (bs : List Byte) (k : Nat) : Nat := ofBytes ((List.range size).map fun j => bs.getD (size * k + j) (lack j))
    let most (b x y : Nat) : Nat := if intOf true b x < intOf true b y then y else x
    let sum (f : Fmt) (x y : Nat) : Nat × Bool :=
      let p := f.deliverF .rne false (FVal.add .rne (f.decode x) (f.decode y))
      (p.1, decide (p.2 &&& Flags.ofl ≠ 0))
    let of (x y : Nat) : Nat × Bool := match op with
      | .addS64 => ((x + y) % 2 ^ 64, false)
      | .addS32 => ((x + y) % 2 ^ 32, false)
      | .addF32 => sum Fmt.f32 x y
      | .addB2 => sum Fmt.b2 x y
      | .maxS64 => (most 64 x y, false)
      | .maxS32 => (most 32 x y, false)
      | .maxF32 => ((Fmt.f32.minMax true x y).1, false)
      | _ => (x, false)
    o.1.length = n
    ∧ (∀ i, i < n → o.1.getD i 0 = (toBytes size (of (elem xs (i / size)) (elem ys (i / size))).1).getD (i % size) 0)
    ∧ (o.2 = true ↔ ∃ k, size * k < n ∧ (of (elem xs k) (elem ys k)).2 = true)

/-- FABRIC_COMPLETE: a command reads the source of its next packet, of up to 1,024 bytes, and sends it, unless its source waits for the driver or for
a fenced domain; when all have left, and those of a collective that comes back have reached it, it makes its arrival with what its peers answered; an
FCONT completes with its last offset. -/
def Claims.FabricProgress : Prop :=
  ∀ (s : State) (id : Nat) (c : Cmd) (t : Team) (ans : FabricAnswer), s.getCmd id = some c → s.getTeam c.team = some t →
    ans.err ∈ [0x00#8, 0x14, 0x22, 0x23, 0x24] →
    let n := bits (descNat c.desc 2) 31 0
    let count := max 1 ((n + 1023) / 1024)
    let o := exec (.fabricComplete id ans) s
    (c.kind ∈ [CmdKind.fput, .fputh, .fcoll] →
      (c.stopped = false → c.cursor < count →
        let w := s.whoCmd c
        let off := 1024 * c.cursor
        let m := min 1024 (n - off)
        let ps := if m = 0 then [] else s.pieces w .load (c.desc.getD 0 0 + ofNat64 off) m 0
        let got := s.gather w (c.scope == .warp) (c.ahead c.cursor) ps
        (s.transferWaits c ps = true → o = .next s)
        ∧ (s.transferWaits c ps = false → got.stop = none →
          ∃ (q u : State) (pk : Packet), o = .next (u.send pk) ∧ Cached w.core (c.scope == .warp) (goodPieces ps) s q
            ∧ CmdNow id { c with cursor := c.cursor + 1 } q u
            ∧ pk.payload = got.bytes ∧ pk.cmd = c.id ∧ pk.gang = t.pkt.gangid ∧ pk.encrypted = t.pkt.enc ∧ pk.overflow = false
            ∧ pk.total = count ∧ pk.offset = off + (if c.kind = .fput then bits (descNat c.desc 1) 45 0 else 0)
            ∧ pk.kind = (if c.kind = .fput then .put else if c.kind = .fputh then .notice else .collective)))
      ∧ ((c.stopped = true ∨ count ≤ c.cursor) → (∀ x ∈ s.fab.out ++ s.fab.combine, x.2 = none → x.1.cmd ≠ c.id) →
        (∀ e ∈ s.fab.table, ∀ y ∈ e.parts, ∀ q ∈ y.packets, q.cmd ≠ c.id) → (∀ x ∈ s.fab.links, ∀ f, x.2.flit = some f → f.1.cmd ≠ c.id) →
        (c.comesBack = true → c.err ≠ 0 ∨ ans.err ≠ 0 ∨ count ≤ c.leaves) →
        ∃ v, o = .next v ∧ CmdEnded c n (if c.err = 0 then ans.err else c.err) s v))
    ∧ (c.kind = .fcont → count ≤ c.cursor → ∃ v, o = .next v ∧ CmdEnded c n c.err s v)

/-- FABRIC_PACKET_ARRIVE and FABRIC_COMPLETE: what a packet does here, and how a command sends and ends. That packets change nothing while a trip
holds the module in reset is the model's reading (log 62). Where the spec leaves a point open this follows the model's own choice or reading: log 29,
33, 34, 35, 67, 97, 104, 115, 118. -/
def Obligations.FabricTraffic : Prop :=
  Claims.PacketHops ∧ Claims.CombinedBytes ∧ Claims.FabricProgress

/-- The links and the gangs: a flit that has failed its eight retries takes its link down until it is retrained, and its packet with it, whose command
fails with 0x23; ranks register, also before the gang's grid is launched here; a watchdog that expires with ranks missing ends the gang's context and
names them. That link events change nothing while a trip holds the module in reset is the model's reading (log 62). Where the spec leaves a point open
this follows the model's own choice or reading: log 60, 96. -/
def Obligations.LinksAndGangs : Prop :=
  ∀ (s : State) (l : Fin 18) (gang : BitVec 16) (rank : Nat),
    (let o := exec (.flitRetry l) s
      let x := s.link l
      let linkNow (x : Link) (v : State) : Prop := v.link l = x ∧ ∀ m, m ≠ l → v.link m = s.link m
      ((s.pow.tripped = true ∨ x.down = true ∨ x.flit = none) → o = .next s)
      ∧ ∀ (pk : Packet) (k : Nat), s.pow.tripped = false → x.down = false → x.flit = some (pk, k) →
        (x.failures < 8 → ∃ v : State, o = .next v ∧ v = { s with fab := { s.fab with links := v.fab.links } }
          ∧ linkNow { down := false, flit := some (pk, k), failures := x.failures + 1 } v)
        ∧ (8 ≤ x.failures → ∃ v : State, o = .next (v.failCmd pk.cmd 0x23)
          ∧ v = { s with fab := { s.fab with links := v.fab.links, out := s.fab.out.erase (pk, some l) } }
          ∧ linkNow { down := true, flit := none, failures := 0 } v))
    ∧ (∃ v : State, exec (.linkRetrainDone l) s = .next v ∧ v = { s with fab := { s.fab with links := v.fab.links } }
      ∧ (∀ k, k ≠ l → v.link k = s.link k) ∧ v.link l = { down := false, flit := none, failures := 0 })
    ∧ (s.pow.tripped = true → exec (.gangRegister gang rank) s = .next s)
    ∧ (s.pow.tripped = false → ∃ v : State, exec (.gangRegister gang rank) s = .next v
      ∧ v = { s with fab := { s.fab with gangs := v.fab.gangs, early := v.fab.early } } ∧ v.fab.gangs.length = s.fab.gangs.length
      ∧ (∀ x, x ∈ v.fab.early ↔ x ∈ s.fab.early ∨ (x = (gang, rank) ∧ ∀ g ∈ s.fab.gangs, g.gang ≠ gang))
      ∧ ∀ (i : Nat) (g : Gang), s.fab.gangs[i]? = some g →
          (g.gang ≠ gang → v.fab.gangs[i]? = some g)
          ∧ (g.gang = gang → ∃ x : Gang, v.fab.gangs[i]? = some x ∧ x = { g with registered := x.registered }
              ∧ ∀ k, k ∈ x.registered ↔ k = rank ∨ k ∈ g.registered))
    ∧ (∀ g, s.gang gang = some g → g.deadline ≤ s.now → (∃ k, k < Config.gangSize g.gang ∧ k ∉ g.registered) →
      ∃ u : State, exec (.gangWatchdog gang) s
          = .next ((u.terminateContext g.ctx 0x22).notice 8 0x22 g.ctx 0xFFFFFFFF 0 0 (if 11 < g.absent.length then 1 else 0) g.absent)
        ∧ u = { s with fab := { s.fab with gangs := u.fab.gangs } } ∧ (∀ x ∈ u.fab.gangs, x.gang = gang → x.retired = true) ∧ ∀ x, x.gang ≠ gang →
          (x ∈ u.fab.gangs ↔ x ∈ s.fab.gangs))
    ∧ ∀ (t : Team) (n : Fin 8) (b : Landing) (xs ys : List LandBurst) (x : LandBurst), s.getTeam t.id = some t →
        t.landings.find? n.val = some b → b.waiting = xs ++ x :: ys → (∀ y ∈ xs, y.counted = true) → x.counted = false →
        s.frozen t.id = false →
        ∃ u y, exec (.landing t.id n) s = .next (State.arrive u { team := t.id, rank := b.barRank, off := bits b.bar.toNat 57 0 } 0 x.data.length 0)
          ∧ TeamNow t.id y s u ∧ y = { t with landings := y.landings }
          ∧ y.landings.find? n.val = some { b with waiting := xs ++ { x with counted := true } :: ys }

/-- The registers of a port, as they are written and read (R339), and its link of up to 16 lanes of 128 GT/s, the semaphores (R341) and the power
limit that SMBus sets. While a trip holds the module in reset nothing is written (R390). -/
def Claims.HostRegisters : Prop :=
  ∀ (s : State) (p : Port) (q : Fin 64) (v : Word) (off : Nat) (n : Fin 32) (lim : BitVec 16),
    let agreed (xs : List Nat) (offer y : Nat) : Prop := y ∈ xs ∧ (∀ x ∈ xs, x ≤ offer → x ≤ y) ∧ (y ≤ offer ∨ ∀ x ∈ xs, offer < x ∧ y ≤ x)
    (s.pow.tripped = true → ∀ k lanes rate atomics,
      ∀ i ∈ [Instr.qtailWrite p q v, .qbaseWrite p q v, .porterrWrite p v, .hostRegWrite p off v, .portLinkUp p lanes rate atomics, .semtake n k,
        .semrel n p, .smbusPowerLimit lim], exec i s = .next s)
    ∧ (s.pow.tripped = false →
    (∃ t : State, exec (.qtailWrite p q v) s = .next t ∧ PortNow p (fun r => { r with qtail := (t.port p).qtail }) s t
      ∧ ∀ m, (t.port p).qtail.getD m 0 = if m = q.val then v.setWidth 8 else (s.port p).qtail.getD m 0)
    ∧ (∃ t : State, exec (.qbaseWrite p q v) s = .next t ∧ PortNow p (fun r => { r with qbase := (t.port p).qbase }) s t
      ∧ ∀ m, (t.port p).qbase.getD m 0
          = if m = q.val ∧ (s.port p).qhead.getD m 0 = (s.port p).qtail.getD m 0 then ofNat64 (v.toNat / 4096 * 4096)
            else (s.port p).qbase.getD m 0)
    ∧ (∃ t : State, exec (.porterrWrite p v) s = .next t ∧ PortNow p (fun r => { r with err := r.err &&& ~~~v }) s t)
    ∧ (∃ t : State, exec (.hostRegWrite p off v) s = .next t ∧ PortNow p (fun r => { r with cmd := (t.port p).cmd }) s t
      ∧ ((∃ i, i < 5 ∧ off = 0x100 + 8 * i ∧ (t.port p).cmd = (s.port p).cmd.set i v)
          ∨ ((∀ i, i < 5 → off ≠ 0x100 + 8 * i) ∧ (t.port p).cmd = (s.port p).cmd)))
    ∧ (∀ lanes rate atomics, ∃ t : State, exec (.portLinkUp p lanes rate atomics) s = .next t
        ∧ PortNow p (fun r => { r with up := true, lanes := (t.port p).lanes, rate := (t.port p).rate, atomicOp := atomics }) s t
        ∧ agreed [16, 8, 4, 2, 1] lanes (t.port p).lanes ∧ agreed [1280, 640, 320, 160, 80, 50, 25] rate (t.port p).rate)
    ∧ ((s.sem n).owner = none →
        (∃ t : State, exec (.semtake n (.one p)) s = .next t ∧ t = { s with host := { s.host with sems := t.host.sems } }
          ∧ t.sem n = { s.sem n with owner := some p } ∧ ∀ m, m ≠ n → t.sem m = s.sem m)
        ∧ ∃ t : State, exec (.semtake n .both) s = .next t ∧ t = { s with host := { s.host with sems := t.host.sems } }
            ∧ (t.sem n).owner = some (s.sem n).lost ∧ (t.sem n).lost = otherPort (s.sem n).lost
            ∧ ∀ m, m ≠ n → t.sem m = s.sem m)
    ∧ ((s.sem n).owner ≠ none → ∀ k, exec (.semtake n k) s = .next s)
    ∧ ((s.sem n).owner = some p →
        ∃ t : State, exec (.semrel n p) s = .next t ∧ t = { s with host := { s.host with sems := t.host.sems } }
          ∧ t.sem n = { s.sem n with owner := none } ∧ ∀ m, m ≠ n → t.sem m = s.sem m)
    ∧ ((s.sem n).owner ≠ some p →
        ∃ t : State, exec (.semrel n p) s = .next t ∧ PortNow p (fun r => { r with err := r.err ||| 1 }) s t))
    ∧ (∃ t u : State, exec (.portLinkDown p) s = .next t ∧ u = { s with host := { s.host with sems := u.host.sems } }
        ∧ PortNow p (fun r => { r with up := false }) u t
        ∧ ∀ m y, s.host.sems.find? m.val = some y → s.host.sems.rising = true →
            t.sem m = if y.owner = some p then { y with owner := none } else y)
    ∧ (s.portRead p 0x10 = (s.port p).err ∧ s.portRead p (0x2000 + 32 * q.val) = (s.port p).qbase.getD q.val 0
      ∧ s.portRead p (0x2000 + 32 * q.val + 8) = ofNat64 ((s.port p).qtail.getD q.val 0).toNat
      ∧ s.portRead p (0x2000 + 32 * q.val + 16) = ofNat64 ((s.port p).qhead.getD q.val 0).toNat
      ∧ s.portRead p 0x130 = ofNat64 ((if (s.port p).busy = true then 1 else 0) + 256 * (s.port p).result.toNat)
      ∧ s.portRead p (0x1000 + 8 * n.val) = (if (s.sem n).owner = none then 0 else if (s.sem n).owner = some .a then 1 else 2)
      ∧ s.portRead p (0x1100 + 8 * n.val) = (if (s.sem n).owner = none ∨ (s.sem n).owner = some p then 1 else 0)
      ∧ ∀ i, i < 5 → s.portRead p (0x100 + 8 * i) = (s.port p).cmd.getD i 0)
    ∧ (s.pow.tripped = false → exec (.smbusPowerLimit lim) s
        = .next { s with pow := { s.pow with limit := if lim.toNat < 1000 then 1000 else if 6400 < lim.toNat then 6400 else lim.toNat } })

/-- The conditions that a command of a port meets before it runs (R340), in their order: a busy port sets PORTERR[1]; a command waits behind one of
the other port that names its context or needs semaphore 0 as it does, in the order in which they reached the unit; a refused command changes nothing
but its result, and a tripped module starts none. -/
def Claims.HostGate : Prop :=
  ∀ (s : State) (p : Port) (x : Byte) (i : Instr) (code : Byte) (deployed sem0 names : Bool),
    (i, code, deployed, sem0, names) ∈ [(Instr.ctxcreate p, 0x01#8, true, false, true), (.ctxdestroy p, 0x02, true, false, true),
        (.inval p, 0x03, true, false, true), (.faultreply p, 0x04, false, false, true), (.domreset p, 0x10, false, true, false),
        (.lcchange p, 0x11, false, true, false), (.fwupdate p, 0x12, false, true, false), (.attest p, 0x13, false, false, false),
        (.hostCmdUnknown p x, x, false, false, false)] →
      let waits := s.waitsFor p sem0 names
      let shut := s.host.wiping = true ∨ (s.pow.tripped = false ∧ deployed = true ∧ s.host.life ≠ .deployed)
      let waited := (s.port p).waits.isSome
      ((s.port p).busy = true → ∃ t : State, exec i s = .next t ∧ PortNow p (fun r => { r with err := r.err ||| 2 }) s t)
      ∧ ((s.port p).busy = false → waits → ∃ t : State, exec i s = .next t
          ∧ PortNow p (fun r => { r with
              busy := true, code := code, held := s.opsOf p, waits := some i, reached := if waited = true then r.reached else s.stamp }) s t)
      ∧ ((s.port p).busy = false → ¬ waits → shut → ∃ t : State, exec i s = .next t ∧ Answers p 5 s t)
      ∧ ((s.port p).busy = false → ¬ waits → s.host.wiping = false → s.pow.tripped = true → exec i s = .next s)
      ∧ ((s.port p).busy = false → ¬ waits → s.pow.tripped = false → ¬ shut → sem0 = true → (s.sem 0).owner ≠ some p →
        ∃ t : State, exec i s = .next t ∧ Answers p 3 s t)

/-- Port registers, links, semaphores, the power limit, and the conditions of every port command. That a tripped module takes no register write and
starts no command, and answers 0x05 only while the wipe of the trip runs, is the model's reading (log 62). Where the spec leaves a point open this
follows the model's own choice or reading: log 40, 41, 63, 90, 93, 110. -/
def Obligations.HostPorts : Prop :=
  Claims.HostRegisters ∧ Claims.HostGate

/-- CTXCREATE, CTXDESTROY, INVAL and their completions: a context comes into being, and leaves nothing behind, its unread entries in the host rings
among it; its cached walks go, once no store through one is on its way to the host and no lane word that has begun through one is left to end. That a
created context has no save slot in use, each with generation 0, is the model's choice (log 17). Where the spec leaves a point open this follows the
model's own choice or reading: log 40, 42, 81, 88, 117. -/
def Obligations.ContextCommands : Prop :=
  ∀ (s : State) (p : Port),
    let op (i : Nat) : Nat := s.opOf p i
    let c := op 0 % 65536
    let illegal := c ∈ [0, 0xFFFE, 0xFFFF] ∨ (∃ i ∈ [1, 2, 3, 4], op i % 65536 ≠ 0) ∨ 2 ^ 46 < op 4
    (PortReady p true false true s →
      (illegal → ∃ t : State, exec (.ctxcreate p) s = .next t ∧ Answers p 2 s t)
      ∧ (¬ illegal → (s.ctxs.find? c).isSome = true → ∃ t : State, exec (.ctxcreate p) s = .next t ∧ Answers p 4 s t)
      ∧ (¬ illegal → s.ctxs.find? c = none → ∃ t u : State, exec (.ctxcreate p) s = .next t ∧ Answers p 0 u t ∧ u = { s with ctxs := u.ctxs }
          ∧ u.ctxs.find? c = some { perf := bit (op 0) 16, groot := op 1 % 2 ^ 52, hroot := op 2 % 2 ^ 52, expBase := op 3, expSize := op 4,
                                    slots := [], destroying := false }
          ∧ ∀ m, m ≠ c → u.ctxs.find? m = s.ctxs.find? m)
      ∧ (s.ctxs.find? c = none → ∀ i ∈ [Instr.ctxdestroy p, .inval p], ∃ t : State, exec i s = .next t ∧ Answers p 4 s t)
      ∧ (∀ x, s.ctxs.find? c = some x →
        (∃ t : State, exec (.inval p) s = .next t ∧ UnderWay p 3 s t)
        ∧ ∃ t u : State, exec (.ctxdestroy p) s = .next t ∧ UnderWay p 2 u t ∧ u.opsOf p = s.opsOf p ∧ u.mem = s.mem ∧ u.hostPath = []
            ∧ u.ctxs.find? c = some { x with destroying := true }
            ∧ (∀ g ∈ u.grids, g.ctx.toNat ≠ c) ∧ (∀ y ∈ u.allTeams, y.ctx.toNat ≠ c) ∧ (∀ y ∈ u.saved, y.ctx.toNat ≠ c)
            ∧ (∀ h ∈ u.heads, h.item.ctx.toNat ≠ c) ∧ (∀ y ∈ u.devq, ∀ i ∈ y.2, i.ctx.toNat ≠ c)
            ∧ ∀ (q : Port) (n : Nat), n < 64 → (s.port q).qhead.getD n 0 ≠ (s.port q).qtail.getD n 0 →
                ∃ y ∈ u.host.purges, y = { port := q, queue := n, ctx := BitVec.ofNat 16 c
                                           left := ((s.port q).qtail.getD n 0 - (s.port q).qhead.getD n 0).toNat }))
    ∧ (let held (i : Nat) : Nat := ((s.port p).held.getD i 0).toNat
       let ctx := held 0 % 65536
       let host := bit (held 0) 16
       (s.port p).busy = true → (s.port p).waits = none →
        ((s.port p).code = 2 → (∀ e ∈ s.latent, s.dirtyError (BitVec.ofNat 16 ctx) e = false) →
          ∃ t u : State, exec (.ctxdestroyComplete p) s = .next t ∧ Answers p 0 u t ∧ u.mem = s.mem
          ∧ u.ctxs.find? ctx = none ∧ (∀ m, m ≠ ctx → u.ctxs.find? m = s.ctxs.find? m)
          ∧ (∀ e ∈ u.tlb, e.ctx.toNat ≠ ctx) ∧ (∀ e ∈ u.l2, (e.2.dirty.getD e.2.filler).toNat ≠ ctx)
          ∧ (∀ e ∈ u.l1, (e.dirty.getD e.ctx).toNat ≠ ctx) ∧ (∀ n, ErrorPlace.tagged (BitVec.ofNat 16 ctx) n ∉ u.latent)
          ∧ (∀ g ∈ u.fab.gangs, g.ctx.toNat ≠ ctx)
          ∧ ∀ (q : Port) (n : Nat), n < 64 → (s.port q).qhead.getD n 0 ≠ (s.port q).qtail.getD n 0 →
              ∃ y ∈ u.host.purges, y = { port := q, queue := n, ctx := BitVec.ofNat 16 ctx
                                         left := ((s.port q).qtail.getD n 0 - (s.port q).qhead.getD n 0).toNat })
        ∧ ((s.port p).code = 3 →
          let way := (host = true ∧ ∃ x ∈ s.hostPath, x.ctx.toNat = ctx)
            ∨ ∃ a ∈ s.allAgents, (∃ f, (f = a.cur ∨ f ∈ a.others) ∧ f.early.isSome = true) ∧ ∃ t, s.getTeam (teamOf a.id) = some t ∧ t.ctx.toNat = ctx
          (way → exec (.invalComplete p) s = .next s)
          ∧ (¬ way → ∃ t u : State, exec (.invalComplete p) s = .next t ∧ Answers p 0 u t ∧ u = { s with tlb := u.tlb }
              ∧ ∀ e, e ∈ u.tlb ↔ e ∈ s.tlb ∧ ¬ (e.ctx.toNat = ctx ∧ e.host = host
                  ∧ (held 2 = 0 ∨ (held 1 % 2 ^ 57 < e.va + e.leaf.size ∧ e.va < held 1 % 2 ^ 57 + held 2))))))

/-- FAULTREPLY: agents parked on the page go on at their region's entry and commands suspended on it try again; a page declared invalid fails the
commands with 0x12, and an agent parked on it takes 0x12. -/
def Claims.FaultReplies : Prop :=
  ∀ (s : State) (p : Port), PortReady p false false true s →
    let c := s.opOf p 0 % 65536
    let ctx := BitVec.ofNat 16 c
    let page := (s.opsOf p).getD 1 0
    let bad := bit (s.opOf p 0) 16
    let size := if bad = true then 65536 else s.replySize ctx page
    let here (a : Word) : Prop := a.toNat / size = page.toNat / size
    let refused (v : State) : Prop :=
      ∀ (i : Nat) (y : Cmd), s.cmds[i]? = some y → ∃ k, v.cmds[i]? = some k
        ∧ ((s.whoCmd y).ctx = ctx → (∃ a ∈ y.suspended, here a) →
            k = { y with err := if y.err = 0 then 0x12 else y.err, stopped := k.stopped, suspended := k.suspended, refused := k.refused }
            ∧ (y.kind ≠ .fcont → k.stopped = true) ∧ (∀ a ∈ k.suspended, ¬ here a) ∧ ∀ a ∈ y.suspended, here a → a ∈ k.refused)
        ∧ (((s.whoCmd y).ctx ≠ ctx ∨ ∀ a ∈ y.suspended, ¬ here a) → k = y)
    (s.ctxs.find? c = none → ∃ t : State, exec (.faultreply p) s = .next t ∧ Answers p 4 s t)
    ∧ ((s.ctxs.find? c).isSome = true →
      (bad = false → ∃ t : State, exec (.faultreply p) s = .next t ∧ (t.port p).result = 0 ∧ t.mem = s.mem
        ∧ (∀ a ∈ s.allAgents, s.parkedOn ctx page size a = true → ∃ b, t.getAgent a.id = some b ∧ b.status = .running)
        ∧ (∀ id, (∀ a ∈ s.allAgents, a.id = id → s.parkedOn ctx page size a = false) → t.getAgent id = s.getAgent id)
        ∧ ∀ k ∈ t.cmds, ∃ y ∈ s.cmds, k = { y with suspended := k.suspended }
            ∧ ((s.whoCmd y).ctx = ctx → ∀ a, a ∈ k.suspended ↔ a ∈ y.suspended ∧ ¬ here a))
      ∧ (bad = true → (∀ a ∈ s.allAgents, s.parkedOn ctx page size a = false) →
        ∃ t v : State, exec (.faultreply p) s = .next t ∧ v = { s with cmds := v.cmds } ∧ Answers p 0 v t ∧ refused v)
      ∧ (bad = true → ∀ (a : Agent) (u : State) (x pg : Word) (lane : Bool), s.allAgents.filter (s.parkedOn ctx page size) = [a] →
        s.focus a.id = some u → u.ag.status = .parked x pg lane →
        ∃ t v : State, exec (.faultreply p) s = .next t ∧ v = { u with cmds := v.cmds } ∧ refused v
          ∧ Answers p 0 (v.deliver { rid := u.ag.reg.rid, code := 0x12, addr := x, page := pg, lane := lane, tell := false }) t))

/-- DOMRESET, LCCHANGE, FWUPDATE, ATTEST and unknown commands: their checks, their results and what they leave; a life-cycle transition destroys every
context and wipes the module. -/
def Claims.DeviceCommands : Prop :=
  ∀ (s : State) (p : Port) (x : Byte),
    let op (i : Nat) : Nat := s.opOf p i
    let operand := (s.hostMem p).readN (op 1) (op 2)
    (PortReady p false true false s →
      (1138 ≤ op 0 → ∃ t : State, exec (.domreset p) s = .next t ∧ Answers p 2 s t)
      ∧ (op 0 < 1138 → ∃ t : State, exec (.domreset p) s = .next t ∧ UnderWay p 0x10 (s.fenceDomain (op 0)) t)
      ∧ (let target := op 0 % 4
         let life := s.host.life
         let legal (y : LifeState) : Prop := (life = .manufacture ∧ target = 1 ∧ y = .provisioned) ∨ (life = .deployed ∧ target = 1 ∧ y = .provisioned)
           ∨ (life = .provisioned ∧ target = 2 ∧ y = .deployed) ∨ (life = .provisioned ∧ target = 3 ∧ y = .decommissioned)
           ∨ (life = .deployed ∧ target = 3 ∧ y = .decommissioned)
         let message := toBytes 8 Config.serial.toNat ++ [BitVec.ofNat 8 life.code, BitVec.ofNat 8 target]
         let auth := Config.parseAuth operand
         let signed := sha384 auth.1 = Config.fusedHash ∧ ecdsaVerify auth.1 (sha384 message) auth.2 = true
         ((∀ y, ¬ legal y) → ∃ t : State, exec (.lcchange p) s = .next t ∧ Answers p 5 s t)
         ∧ ∀ y, legal y → (¬ signed → ∃ t : State, exec (.lcchange p) s = .next t ∧ Answers p 6 s t)
           ∧ (signed → ∃ t u : State, exec (.lcchange p) s = .next t ∧ Answers p 0 u t ∧ u.host.life = y ∧ u.host.wiping = true ∧ u.mem = []
               ∧ (y = .decommissioned → u.host.identity = false) ∧ (life = .manufacture → u.host.identity = true)
               ∧ (∀ k, k < 65536 → u.ctxs.find? k = none) ∧ (∀ g ∈ u.grids, s.ctxs.find? g.ctx.toNat = none)
               ∧ (∀ z ∈ u.allTeams, s.ctxs.find? z.ctx.toNat = none) ∧ (∀ z ∈ u.saved, s.ctxs.find? z.ctx.toNat = none)
               ∧ u.tlb = [] ∧ u.l1 = [] ∧ u.l2 = [] ∧ u.poison = [] ∧ u.late = [] ∧ u.fab.combine = [] ∧ u.fab.table = [] ∧ u.host.notices = []))
      ∧ (let f := Config.parseImage operand
         let image : Firmware := { version := f.1, body := f.2.1, digest := f.2.2.1, key := f.2.2.2.1, signature := f.2.2.2.2 }
         (¬ image.Signed → ∃ t : State, exec (.fwupdate p) s = .next t ∧ Answers p 6 s t)
         ∧ (image.Signed → image.version < s.host.floor → ∃ t : State, exec (.fwupdate p) s = .next t ∧ Answers p 7 s t)
         ∧ (image.Signed → s.host.floor ≤ image.version → ∃ t u : State, exec (.fwupdate p) s = .next t ∧ Answers p 0 u t
             ∧ u = { s with host := { s.host with staged := some image } })))
    ∧ (PortReady p false false false s →
      (∃ t : State, exec (.hostCmdUnknown p x) s = .next t ∧ Answers p 1 s t)
      ∧ ((s.host.life = .manufacture ∨ s.host.life = .decommissioned) → ∃ t : State, exec (.attest p) s = .next t ∧ Answers p 5 s t)
      ∧ (s.host.life = .provisioned ∨ s.host.life = .deployed →
        let n := Config.certChain.length
        let body := toBytes 4 1 ++ toBytes 4 (if s.host.life = .provisioned then 1 else 2) ++ toBytes 8 Config.serial.toNat
          ++ toBytes 8 s.host.firmware.version ++ sha384 s.host.firmware.body ++ (s.hostMem p).readN (op 1) 48
        let out := if bit (op 0) 0 = true then toBytes 4 n ++ Config.certChain else body ++ identitySign body
        let at_ := if bit (op 0) 0 = true then op 1 else op 1 + 48
        ∃ t u : State, exec (.attest p) s = .next t ∧ Answers p 0 u t ∧ u = { s with hostA := u.hostA, hostB := u.hostB }
          ∧ ∀ q a, (u.hostMem q).read a = if q = p ∧ at_ ≤ a ∧ a < at_ + out.length then out.getD (a - at_) 0 else (s.hostMem q).read a))

/-- FAULTREPLY, DOMRESET, LCCHANGE, FWUPDATE, ATTEST and unknown commands. That a warp which has stopped for a save stays stopped where its page is
supplied is the model's reading (log 52). Where the spec leaves a point open this follows the model's own choice or reading: log 7, 37, 39, 40, 53,
100, 119. -/
def Obligations.ModuleCommands : Prop :=
  Claims.FaultReplies ∧ Claims.DeviceCommands

/-- MODULE_RESET and WIPE_DONE (R338, R343): a reset empties the module, keeps its life cycle and what lies outside it, boots the staged firmware
where that passes its checks again, and wipes; the wipe ends. -/
def Claims.ModuleResets : Prop :=
  ∀ s : State,
    (∃ t : State, exec .moduleReset s = .next t ∧ t.mem = [] ∧ t.ctxs = [] ∧ t.grids = [] ∧ t.teams = [] ∧ t.agents = [] ∧ t.tm.id = 0
      ∧ t.cmds = [] ∧ t.saved = [] ∧ t.heads = [] ∧ t.devq = [] ∧ t.tlb = [] ∧ t.l1 = [] ∧ t.l2 = [] ∧ t.late = [] ∧ t.latent = []
      ∧ t.fenced = [] ∧ t.poison = [] ∧ t.hostPath = []
      ∧ t.host.wiping = true ∧ t.host.life = s.host.life ∧ t.host.identity = s.host.identity ∧ t.host.notices = [] ∧ t.host.sems = []
      ∧ (∀ p, t.hostMem p = s.hostMem p) ∧ (∀ p, (t.port p).busy = false) ∧ t.pow.tripped = s.pow.tripped
      ∧ (∀ f, s.host.staged = some f → f.Signed → s.host.floor ≤ f.version →
          t.host.firmware = f ∧ t.host.floor = f.version ∧ t.host.staged = none)
      ∧ ((∀ f, s.host.staged = some f → f.Signed → f.version < s.host.floor) →
          t.host.firmware = s.host.firmware ∧ t.host.floor = s.host.floor ∧ t.host.staged = none))
    ∧ exec .wipeDone s = .next { s with host := { s.host with wiping := false } }

/-- UE_CONSUMED (R367 to R372): an error that strikes an entry waits until it is consumed; what it costs at the place where it is consumed. A module
that is held in reset takes none. -/
def Claims.ErrorsConsumed : Prop :=
  ∀ s : State,
    let o (e : ErrorPlace) := exec (.ueConsumed e) s
    let live (ctx : BitVec 16) : Prop := ∃ c, s.ctxs.find? ctx.toNat = some c ∧ c.destroying = false
    let done := ∀ x ∈ s.late, x.op = none
    (s.pow.tripped = true → (∀ e, o e = .next s) ∧ ∀ e rest, s.inputs = .strike e :: rest → step s = .next (s.taking rest))
    ∧ (s.pow.tripped = false →
    (∀ e rest, done → s.inputs = .strike e :: rest →
        step s = .next { s.taking rest with latent := s.latent ++ [e] })
    ∧ (∀ d, o (.freeEntry d) = .next (s.spent (.freeEntry d)))
    ∧ o .noDomain = exec .moduleReset s
    ∧ (∀ x, done → ∃ t : State, o (.sector x) = .next t ∧ t = { s.spent (.sector x) with poison := t.poison } ∧ ∀ y, y ∈ t.poison ↔ y = x ∨ y ∈ s.poison)
    ∧ (∀ p x, ∃ t : State, o (.hostSector p x) = .next t ∧ t = { s.spent (.hostSector p x) with hostPoison := t.hostPoison }
        ∧ ∀ y, y ∈ t.hostPoison ↔ y = 2 * x + (if p = .a then 0 else 1) ∨ y ∈ s.hostPoison)
    ∧ (∀ line lost, done → let clean := ∀ l, s.l2.find? line = some l → l.dirty = none
        ∃ t : State, o (.cleanLine line lost) = .next t ∧ t = { s.spent (.cleanLine line lost) with l1 := t.l1, l2 := t.l2, poison := t.poison }
        ∧ (∀ x, x ∈ t.l1 ↔ x ∈ s.l1 ∧ x.line ≠ line) ∧ (clean → t.l2.find? line = none) ∧ (¬ clean → t.l2.find? line = s.l2.find? line)
        ∧ (∀ m, m ≠ line → t.l2.find? m = s.l2.find? m) ∧ ∀ y, y ∈ t.poison ↔ y ∈ s.poison ∨ (clean ∧ ∃ k ∈ lost, y = 4 * line + k.val))
    ∧ (∀ line sectors,
      let e := ErrorPlace.sharedLine line sectors
      let dirty := (s.l2.find? line).bind fun l => l.dirty
      (dirty = none → o e = .next (s.spent e))
      ∧ (dirty = some 0xFFFE → done → ∃ t u : State, o e = .next t ∧ Noticed 4 0 0xFFFF 0xFFFFFFFF 0 u t
          ∧ (∃ n, t.host.notices.getLast? = some n ∧ n.paddr = ofNat64 (line * 128 / 65536 * 65536))
          ∧ u = { s.spent e with poison := u.poison, l2 := u.l2 } ∧ (∀ m, u.l2.find? m = if m = line then none else s.l2.find? m)
          ∧ ∀ y, y ∈ u.poison ↔ y ∈ s.poison ∨ ∃ k ∈ sectors, y = 4 * line + k.val)
      ∧ (∀ ctx, dirty = some ctx → ctx ≠ 0xFFFE → live ctx → ∃ t v : State, o e = .next t
          ∧ Noticed 3 0x20 ctx (BitVec.ofNat 32 (sliceDomain line)) 0 ((s.spent e).terminateContext ctx 0x20) v
          ∧ t = { v with mem := t.mem, l1 := t.l1, l2 := t.l2 } ∧ (∀ m, t.l2.find? m = if m = line then none else v.l2.find? m)
          ∧ (∀ y, y ∈ t.l1 ↔ y ∈ v.l1 ∧ y.line ≠ line) ∧ ∀ a, t.mem.read a = if a / 128 = line then 0 else v.mem.read a))
    ∧ (∀ d, 1138 ≤ d → o (.device d) = .next (s.spent (.device d)))
    ∧ (∀ d, d < 1138 → o (.device d) = .next ((s.spent (.device d)).fenceDomain d))
    ∧ (∀ (team rank n : Nat), (∀ x, s.getTeam team = some x → (x.rank rank).live.find? n = none ∧ n ∉ (x.rank rank).zeroing ∧ (∀ y ∈ x.landings, n ∉ y.2.rows)
          ∧ ∀ c ∈ s.cmds, n ∉ c.rows) → o (.row team rank n) = .next (s.spent (.row team rank n)))
    ∧ (∀ (x : Team) (rank n : Nat), s.getTeam x.id = some x → live x.ctx →
        ∀ e, (e = ErrorPlace.row x.id rank n ∧ ((x.rank rank).live.find? n ≠ none ∨ n ∈ (x.rank rank).zeroing) ∧ x.ctx ≠ 0)
          ∨ e = .scratch x.id rank n ∨ e = .accum x.id rank n →
          ∃ t : State, o e = .next t ∧ Noticed 3 0x20 x.ctx (BitVec.ofNat 32 (x.rank rank).core) 0 ((s.spent e).terminateContext x.ctx 0x20) t
            ∧ (∀ y ∈ t.allTeams, y.ctx ≠ x.ctx) ∧ ∀ y ∈ t.saved, y.ctx ≠ x.ctx)
    ∧ (∀ (q k : Nat) (i : QueueItem), (s.devq.getD q [])[k]? = some i → live i.ctx →
        ∃ t v : State, o (.launchEntry q k) = .next (t.checkRetire i.parent)
          ∧ Noticed 3 0x20 i.ctx 0xFFFFFFFF 0 (v.terminateContext i.ctx 0x20) t
          ∧ v = { s.spent (.launchEntry q k) with devq := v.devq, latent := v.latent }
          ∧ (v.latent = (s.spent (.launchEntry q k)).latent.map fun e => match e with
              | .launchEntry m p => if m = q ∧ k < p then .launchEntry m (p - 1) else e
              | _ => e) ∧ v.devq.getD q [] = (s.devq.getD q []).eraseIdx k
          ∧ ∀ m, m ≠ q → v.devq.getD m [] = s.devq.getD m [])
    ∧ (∀ (k : Nat) (x : HostWrite), s.hostPath[k]? = some x → live x.ctx →
        ∃ t v : State, o (.hostWrite k) = .next t ∧ Noticed 3 0x20 x.ctx 0xFFFFFFFF 0 (v.terminateContext x.ctx 0x20) t
          ∧ v = { s.spent (.hostWrite k) with hostPath := s.hostPath.eraseIdx k, latent := v.latent }
          ∧ v.latent = (s.spent (.hostWrite k)).latent.map fun e => match e with
              | .hostWrite p => if k < p then .hostWrite (p - 1) else e
              | _ => e)
    ∧ (∀ (q : QueueId) (h : Head), (s.heads.find? fun h => h.queue == q) = some h → live h.item.ctx →
        ∃ t v : State, o (.head q) = .next (t.checkRetire h.item.parent)
          ∧ Noticed 3 0x20 h.item.ctx 0xFFFFFFFF 0 (v.terminateContext h.item.ctx 0x20) t
          ∧ v = { s.spent (.head q) with heads := v.heads } ∧ ∀ x, x ∈ v.heads ↔ x ∈ s.heads ∧ x.queue ≠ q)
    ∧ (∀ (level : TlbLevel) (ctx : BitVec 16) (host : Bool) (va : Nat),
        let e := ErrorPlace.walk level ctx host va
        let struck (x : TlbEntry) : Prop := x.level = level ∧ x.ctx = ctx ∧ x.host = host ∧ x.va = va
        ((∀ x ∈ s.tlb, ¬ struck x) → o e = .next (s.spent e))
        ∧ ((∃ x ∈ s.tlb, struck x) → live ctx → ∃ t v : State, o e = .next t
          ∧ Noticed 3 0x20 ctx (match level with | .core n => BitVec.ofNat 32 n | .cluster n => BitVec.ofNat 32 (768 + n) | .die _ => 0xFFFFFFFF) 0
              (v.terminateContext ctx 0x20) t
          ∧ v = { s.spent e with tlb := v.tlb } ∧ ∀ x, x ∈ v.tlb ↔ x ∈ s.tlb ∧ ¬ struck x))
    ∧ ∀ (ctx : BitVec 16) (d : Nat) (c : Ctx), s.ctxs.find? ctx.toNat = some c →
        ∃ t : State, o (.tagged ctx d) = .next t
          ∧ Noticed 3 0x20 ctx (BitVec.ofNat 32 d) 0
              (if c.destroying = true then s.spent (.tagged ctx d) else (s.spent (.tagged ctx d)).terminateContext ctx 0x20) t)

/-- A domain is fenced and loses what it holds; DOMAIN_READMIT, PATROL_SCRUB and CORRECTABLE_THRESHOLD (R371, R373, R376). -/
def Claims.DomainEvents : Prop :=
  ∀ (s : State) (d : Nat),
    let kept (x : Nat) : Prop := s.now ≤ x + 1000000000
    let quiet := ∀ x ∈ s.late, ∀ l ∈ x.lines, sliceDomain l ≠ d ∧ Config.lineMemory l ≠ some d
    (d ∈ s.fenced → s.fenceDomain d = s)
    ∧ (d ∉ s.fenced → quiet → (∀ c ∈ s.tagsIn d, s.ctxs.find? c.toNat = none) →
      ∃ u : State, Noticed 5 0 0xFFFF (BitVec.ofNat 32 d) 0 u (s.fenceDomain d) ∧ (∀ y, y ∈ u.fenced ↔ y = d ∨ y ∈ s.fenced)
        ∧ (d < 768 → u = { s with fenced := u.fenced, l1 := u.l1, tlb := u.tlb }
            ∧ (∀ x, x ∈ u.l1 ↔ x ∈ s.l1 ∧ x.core ≠ d) ∧ ∀ e, e ∈ u.tlb ↔ e ∈ s.tlb ∧ e.level ≠ .core d)
        ∧ (768 ≤ d → d < 864 → u = { s with fenced := u.fenced, tlb := u.tlb } ∧ ∀ e, e ∈ u.tlb ↔ e ∈ s.tlb ∧ e.level ≠ .cluster (d - 768))
        ∧ (864 ≤ d → d < 1056 → (∀ x ∈ u.l2, x ∈ s.l2 ∧ sliceDomain x.1 ≠ d) ∧ (∀ x ∈ s.l2, sliceDomain x.1 ≠ d → x ∈ u.l2)
            ∧ (∀ x, x ∈ u.l1 ↔ x ∈ s.l1 ∧ (x.kind = .untracked ∨ sliceDomain x.line ≠ d))
            ∧ (∀ x, x ∈ u.predictor ↔ x ∈ s.predictor ∧ x.1 / 4096 ≠ d - 864) ∧ ∀ a, sliceDomain (a / 128) ≠ d → u.mem.read a = s.mem.read a)
        ∧ (1056 ≤ d → d < 1120 → u = { s with fenced := u.fenced })
        ∧ (1120 ≤ d → u = { s with fenced := u.fenced, fab := { s.fab with links := u.fab.links } }
            ∧ ∀ m, u.fab.links.getD m Link.reset = if m = d - 1120 then { s.fab.links.getD m Link.reset with flit := none, failures := 0 }
                else s.fab.links.getD m Link.reset))
    ∧ (∀ (c : BitVec 16) (x : Ctx), d ∉ s.fenced → quiet → s.tagsIn d = [c] → s.ctxs.find? c.toNat = some x → x.destroying = false → 1120 ≤ d →
      ∃ v u : State, Noticed 3 0x20 c (BitVec.ofNat 32 d) 0 (s.terminateContext c 0x20) v
        ∧ u = { v with fenced := u.fenced, fab := { v.fab with links := u.fab.links } } ∧ (u.fab.links.getD (d - 1120) Link.reset).flit = none
        ∧ (∀ y, y ∈ u.fenced ↔ y = d ∨ y ∈ v.fenced) ∧ Noticed 5 0 c (BitVec.ofNat 32 d) 0 u (s.fenceDomain d))
    ∧ (d ∉ s.fenced → exec (.domainReadmit d) s = .next s)
    ∧ (d ∈ s.fenced → ∃ t u : State, exec (.domainReadmit d) s = .next t.retireWaiting ∧ Noticed 5 0 0xFFFF (BitVec.ofNat 32 d) 1 u t
        ∧ u = { s with fenced := s.fenced.erase d, host := { s.host with portA := u.host.portA, portB := u.host.portB } }
        ∧ ∀ p, u.port p = if (s.port p).busy = true ∧ (s.port p).waits = none ∧ (s.port p).code = 0x10 ∧ ((s.port p).held.getD 0 0).toNat = d
            then { s.port p with busy := false, result := 0 } else s.port p)
    ∧ (∀ e, exec (.patrolScrub (some e) d) s = exec (.ueConsumed e) s)
    ∧ (1138 ≤ d → exec (.patrolScrub none d) s = .next s)
    ∧ (s.pow.tripped = true → exec (.patrolScrub none d) s = .next s)
    ∧ (s.pow.tripped = false → d < 1138 → ∃ t : State, exec (.patrolScrub none d) s = .next t ∧ t = { s with corrected := t.corrected }
        ∧ (∀ m, m ≠ d → t.corrected.getD m [] = s.corrected.getD m [])
        ∧ let old := s.corrected.getD d []
          let new := t.corrected.getD d []
          (256 < old.length → new = old) ∧ (old.length ≤ 256 → ∃ xs, new = s.now :: xs ∧ xs.Sublist old ∧ ∀ x, x ∈ xs ↔ x ∈ old ∧ kept x))
    ∧ ((s.corrected.getD d []).length ≤ 256 → exec (.correctableThreshold d) s = .next s)
    ∧ (256 < (s.corrected.getD d []).length → ∃ t u : State, exec (.correctableThreshold d) s = .next t
        ∧ Noticed 6 0 0xFFFF (BitVec.ofNat 32 d) 0 u t
        ∧ u = { s with corrected := u.corrected } ∧ ∀ m, u.corrected.getD m [] = if m = d then [] else s.corrected.getD m [])

/-- Resets, wipes, consumed errors, and the events of containment domains. That a reset keeps the life cycle and the key (log 6), how a boot checks an
image (log 7), and that a tripped module stays so and takes no error (log 62) are the model's. Where the spec leaves a point open this follows the
model's own choice or reading: log 43, 44, 45, 50, 72, 73, 75, 100. -/
def Obligations.ErrorsAndResets : Prop :=
  Claims.ModuleResets ∧ Claims.ErrorsConsumed ∧ Claims.DomainEvents

/-- TIMING_REPEAT, REPLAY_THRESHOLD and PREDICTOR_DECAY (R374, R192): repeats count for 1 ms. -/
def Claims.RepeatEvents : Prop :=
  ∀ (s : State) (c : Fin 96),
    let x := s.cluster c.val
    (s.pow.tripped = true → exec (.timingRepeat c) s = .next s)
    ∧ (s.pow.tripped = false → ∃ (t : State) (new : List Nat), exec (.timingRepeat c) s = .next t ∧ ClusterNow c.val { x with repeats := new } s t
      ∧ (4096 < x.repeats.length → new = x.repeats)
      ∧ (x.repeats.length ≤ 4096 → ∃ xs, new = s.now :: xs ∧ xs.Sublist x.repeats ∧ ∀ y, y ∈ xs ↔ y ∈ x.repeats ∧ s.now ≤ y + 1000000))
    ∧ (x.repeats.length ≤ 4096 → exec (.replayThreshold c) s = .next s)
    ∧ (4096 < x.repeats.length → ∃ t u : State, exec (.replayThreshold c) s = .next t
        ∧ Noticed 7 0 0xFFFF (BitVec.ofNat 32 (768 + c.val)) 0 (u.regrant c.val) t
        ∧ ClusterNow c.val { x with held := min (x.held + 1) (levelTop x.level - levelLow x.level), repeats := [] } s u)
    ∧ ∃ t : State, exec .predictorDecay s = .next t ∧ t = { s with predictor := t.predictor }
        ∧ (s.predictor.rising = true → ∀ k, t.predictor.getD k 0 = s.predictor.getD k 0 - 1)

/-- The caps, the current readings, the pass counts and the level changes of a cluster (R381, R383, R385, R387, R391). -/
def Claims.ClusterEvents : Prop :=
  ∀ (s : State) (c : Fin 96),
    let x := s.cluster c.val
    (s.pow.tripped = true → exec (.capLower c) s = .next s ∧ ∀ mA rest, s.inputs = .current c mA :: rest → step s = .next (s.taking rest))
    ∧ (∀ t0, s.pow.tripped = false → x.lowSince = some t0 → t0 + 1000000 ≤ s.now → ∃ u : State, exec (.capLower c) s = .next (u.regrant c.val)
      ∧ ClusterNow c.val { x with cap := x.cap - 1, lowSince := some s.now, highSince := none } s u)
    ∧ ((∀ t0, x.lowSince = some t0 → s.now < t0 + 1000000) → exec (.capLower c) s = .next s)
    ∧ (∀ t0, x.highSince = some t0 → t0 + 1000000 ≤ s.now → x.cap < 2 → ∃ u : State, exec (.capRaise c) s = .next (u.regrant c.val)
        ∧ ClusterNow c.val { x with cap := x.cap + 1, highSince := none } s u)
    ∧ (((∀ t0, x.highSince = some t0 → s.now < t0 + 1000000) ∨ 2 ≤ x.cap) → exec (.capRaise c) s = .next s)
    ∧ (x.passHold ≤ s.now → ∃ t : State, exec (.passHoldExpire c) s = .next t ∧ ClusterNow c.val { x with passHold := 0 } s t)
    ∧ (s.now < x.passHold → exec (.passHoldExpire c) s = .next s)
    ∧ (∀ mA rest, s.pow.tripped = false → s.inputs = .current c mA :: rest →
        let v := if mA < 0 ∨ 36001 + (Config.currentSpan : Int) < mA then 36001 + Config.currentSpan else mA.toNat
        ∃ t : State, step s = .next t ∧ ClusterNow c.val { x with
          current := v, overSince := if 36000 < v then some (x.overSince.getD s.now) else none
          underSince := if v < 28800 then some (x.underSince.getD s.now) else none } (s.taking rest) t)
    ∧ (∀ t0, x.overSince = some t0 → t0 + 200 ≤ s.now → ∃ t : State, exec (.passDouble c) s = .next t
        ∧ ClusterNow c.val { x with passes := min 4 (2 * s.passes c.val), overSince := some s.now } s t)
    ∧ ((∀ t0, x.overSince = some t0 → s.now < t0 + 200) → exec (.passDouble c) s = .next s)
    ∧ (∀ t0, x.underSince = some t0 → t0 + 10000 ≤ s.now → ∃ t : State, exec (.passHalve c) s = .next t
        ∧ ClusterNow c.val { x with passes := max 1 (x.passes / 2), underSince := some s.now } s t)
    ∧ ((∀ t0, x.underSince = some t0 → s.now < t0 + 10000) → exec (.passHalve c) s = .next s)
    ∧ (x.target = none → exec (.levelChangeDone c) s = .next s)
    ∧ (∀ w, x.target = some w → ∃ u : State, exec (.levelChangeDone c) s = .next (u.regrant c.val)
        ∧ ClusterNow c.val (if w = x.level
            then { x with target := none, freq := s.freqAt c.val w, clkAt := x.clkAt + (s.now - x.clkFrom) * x.freq, clkFrom := s.now }
            else { x with target := none, level := w }) s u)
    ∧ s.wanted c.val = (if (∀ y ∈ s.allTeams, y.cluster ≠ c.val) then 0 else s.granted c.val)
    ∧ let w := s.wanted c.val
      let y : Cluster := { x with freq := s.freqAt c.val w, clkAt := x.clkAt + (s.now - x.clkFrom) * x.freq, clkFrom := s.now }
      (x.target ≠ none → s.regrant c.val = s)
      ∧ (x.target = none →
          ClusterNow c.val (if w = x.level then y else if x.level < w then { x with level := w, target := some w } else { y with target := some w })
            s (s.regrant c.val))

/-- Timing repeats, predictor decay, caps, pass counts and level changes of a cluster. Where the spec leaves a point open this follows the model's own
choice or reading: log 47, 51, 74, 109. -/
def Obligations.ClusterEvents : Prop :=
  Claims.RepeatEvents ∧ Claims.ClusterEvents

/-- GOVERNOR_STEP (R387): every consumer gets its demand where the tokens reach, its floor where they do not reach the floors, and otherwise its floor
and its share of the rest, rounded down, with the tokens left over one each in ascending order, so that all are given; where the floors are not met
the pass counts are held for 10 µs. -/
def Claims.GovernorSteps : Prop :=
  ∀ (s : State) (g : GovInput),
    let cs := s.consumers g
    let n : Int := (490 * (s.pow.limit : Int) - g.draw) / 500
    let demands := (cs.map Consumer.demand).sum
    let floors := (cs.map Consumer.floor).sum
    let spare : Nat := (n - floors).toNat
    let share (x : Consumer) : Nat := spare * (x.demand - x.floor) / (cs.map fun y => y.demand - y.floor).sum
    let base (x : Consumer) : Nat := x.floor + share x
    let left : Nat := spare - (cs.map share).sum
    (s.pow.tripped = true → exec (.governorStep g) s = .next s)
    ∧ (s.pow.tripped = false → ∃ t : State, exec (.governorStep g) s = .next t ∧ t = { s with pow := { s.pow with grants := t.pow.grants, clusters := t.pow.clusters } }
      ∧ (∀ (i : Nat) (x : Consumer), cs[i]? = some x → ∃ k, t.pow.grants.find? i = some k
          ∧ ((demands : Int) ≤ n → k = x.demand) ∧ (n < demands → n ≤ floors → k = x.floor)
          ∧ (n < demands → (floors : Int) < n →
              k = base x + if base x < x.demand ∧ ((cs.take i).countP fun y => decide (base y < y.demand)) < left then 1 else 0))
      ∧ (n < demands → (floors : Int) < n → ((((List.range cs.length).map fun i => t.pow.grants.getD i 0).sum : Nat) : Int) = n)
      ∧ (∀ c, c < 96 → ∃ y : Cluster, t.cluster c = y
          ∧ y = { s.cluster c with
                  lowSince := y.lowSince, highSince := y.highSince, held := y.held,
                  passHold := if n < floors then s.now + 10000 else (s.cluster c).passHold }
          ∧ (y.held = (s.cluster c).held ∨ y.held = 0)
          ∧ ∀ x k, cs[18 + c]? = some x → t.pow.grants.find? (18 + c) = some k →
              (y.lowSince = if 2 * k < x.need then some ((s.cluster c).lowSince.getD s.now) else none)
              ∧ y.highSince =
                  if (s.cluster c).cap < 2
                    ∧ (demands : Int) - x.demand + clusterNeed ((s.cluster c).cap + 1) (levelTop ((s.cluster c).cap + 1)) ≤ n
                  then some ((s.cluster c).highSince.getD s.now) else none)
      ∧ ∀ c, 96 ≤ c → t.cluster c = s.cluster c)

/-- SENSOR_SAMPLE, DAMAGE_UPDATE, THERMAL_CAP_LIFT and TRIP_RELEASE (R389 to R391): each condition of Table 17.2 acts at once, and is lifted by itself
once it has been clear for 10 ms. -/
def Claims.HeatEvents : Prop :=
  ∀ s : State,
    let sees (h y : HeatHold) (holds : Prop) : Prop :=
      (y.on = true ↔ h.on = true ∨ holds) ∧ (holds → y.clear = none) ∧ (¬ holds → y.clear = some (h.clear.getD s.now))
    let lifts (h y : HeatHold) : Prop :=
      (∀ t0, h.clear = some t0 → t0 + 10000000 ≤ s.now → y = { h with on := false })
      ∧ ((∀ t0, h.clear = some t0 → s.now < t0 + 10000000) → y = h)
    (∀ raw : List Int, ∃ t : State, exec (.sensorSample raw) s = .next t
      ∧ (∀ i, i < 256 → (t.sensor i).readings = (raw.getD i 0 :: (s.sensor i).readings).take 11)
      ∧ ((∀ i, i < 256 → (s.sensor i).suspect = false ∧ (s.sensor i).readings.length < 10 ∧ -400 ≤ raw.getD i 0 ∧ raw.getD i 0 ≤ 1300
            ∧ raw.getD i 0 - median ((neighbours i).map fun j => raw.getD j 0) ≤ 150
            ∧ median ((neighbours i).map fun j => raw.getD j 0) - raw.getD i 0 ≤ 150) →
        (s.pow.tripped = true → t = { s with pow := { s.pow with sensors := t.pow.sensors } })
        ∧ let hot := ∃ r j k, r < 64 ∧ j < k ∧ k < 4 ∧ 1250 < raw.getD (4 * r + j) 0 ∧ 1250 < raw.getD (4 * r + k) 0
        (s.pow.tripped = false → ¬ hot →
          t = { s with pow := t.pow } ∧ t.pow.tripped = s.pow.tripped
          ∧ ∀ r, r < 64 → (t.heat r).damage = (s.heat r).damage
              ∧ (∀ k, k < 4 → raw.getD (4 * r + k) 0 ≤ (t.heat r).temp) ∧ (∃ k, k < 4 ∧ (t.heat r).temp = raw.getD (4 * r + k) 0)
              ∧ (t.heat r).tempMax = max (s.heat r).tempMax (t.heat r).temp
              ∧ sees (s.heat r).hot (t.heat r).hot (1100 < (t.heat r).temp))
        ∧ (s.pow.tripped = false → hot →
          t.pow.tripped = true ∧ t.host.wiping = true ∧ t.mem = [] ∧ t.ctxs = [] ∧ t.agents = [] ∧ ∀ r, (t.heat r).damage = 0)))
    ∧ (s.pow.tripped = true → exec .damageUpdate s = .next s)
    ∧ (s.pow.tripped = false → ∃ t : State, exec .damageUpdate s = .next t ∧ t = { s with pow := { s.pow with regions := t.pow.regions, clusters := t.pow.clusters } }
        ∧ ∀ r, r < 64 → (t.heat r).temp = (s.heat r).temp ∧ (t.heat r).tempMax = (s.heat r).temp
            ∧ sees (s.heat r).worn (t.heat r).worn (750 < (t.heat r).damage) ∧ sees (s.heat r).spent (t.heat r).spent (1000 < (t.heat r).damage)
            ∧ ∀ k : Nat, (s.heat r).tempMax = 950 + 100 * (k : Int) → (t.heat r).damage = max 0 ((s.heat r).damage + (2 ^ k : Nat) - 1))
    ∧ (∀ r : Fin 64, ∃ t : State, exec (.thermalCapLift r) s = .next t
        ∧ t = { s with pow := { s.pow with regions := t.pow.regions, clusters := t.pow.clusters } } ∧ (∀ m, m ≠ r.val → t.heat m = s.heat m)
        ∧ t.heat r.val = { s.heat r.val with worn := (t.heat r.val).worn, spent := (t.heat r.val).spent, hot := (t.heat r.val).hot }
        ∧ lifts (s.heat r.val).worn (t.heat r.val).worn ∧ lifts (s.heat r.val).spent (t.heat r.val).spent
        ∧ lifts (s.heat r.val).hot (t.heat r.val).hot)
    ∧ (∀ x : HeatRegion, x.cap = (if x.hot.on = true ∨ x.spent.on = true then 0 else if x.worn.on = true then 1 else 2)
        ∧ x.passes = if x.hot.on = true then 4 else 1)
    ∧ (s.pow.tripped = true → (∀ i, i < 256 → (s.sensor i).accepted < 1000) →
        exec .tripRelease s = .next { s with pow := { s.pow with tripped := false } })
    ∧ ((s.pow.tripped = false ∨ ∃ i, i < 256 ∧ 1000 ≤ (s.sensor i).accepted) → exec .tripRelease s = .next s)

/-- GOVERNOR_STEP divides the tokens; sensors, damage, caps and trips of the thermal regions. When the next level counts as granted (log 47), that the
last eleven readings are kept (log 10), and what a tripped module leaves undone (log 62) are the model's. Where the spec leaves a point open this
follows the model's own choice or reading: log 46, 48, 49, 74, 109. -/
def Obligations.PowerAndHeat : Prop :=
  Claims.GovernorSteps ∧ Claims.HeatEvents

/-- The fields of a packet (R248, Table 11.1), from its first 192 bytes and its placement map. -/
def Claims.PacketFields : Prop :=
  ∀ bs map : List Byte,
    let w (k : Nat) : Nat := ofBytes ((bs.drop (8 * k)).take 8)
    let f (k hi lo : Nat) : Nat := w k / 2 ^ lo % 2 ^ (hi + 1 - lo)
    let m (j : Nat) : Nat := ofBytes ((map.drop (4 * j)).take 4)
    let roles := ofBytes ((bs.drop 80).take 48)
    let p := LaunchPacket.parse bs map
    p.version = f 0 7 0 ∧ (p.coop = true ↔ f 0 8 8 = 1) ∧ (p.fixed = true ↔ f 0 9 9 = 1) ∧ p.prio = f 0 11 10 ∧ (p.gang = true ↔ f 0 12 12 = 1)
    ∧ (p.enc = true ↔ f 0 13 13 = 1) ∧ p.ox = f 0 19 16 ∧ p.oy = f 0 22 20 ∧ p.wm1 = f 0 27 24 ∧ p.hm1 = f 0 30 28 ∧ p.frame = f 0 47 32
    ∧ p.teams = f 1 31 0 ∧ p.wdog = f 1 47 32 ∧ p.gangid.toNat = f 1 63 48
    ∧ p.warps = f 2 7 0 ∧ p.cores = f 2 11 8 ∧ p.handlers = f 2 16 12 ∧ p.rows = f 2 29 17
    ∧ p.local16 = f 3 15 0 ∧ p.accum256 = f 3 31 16 ∧ p.grank = f 3 43 32 ∧ p.sbase = ofNat64 (w 4) ∧ p.lbase = ofNat64 (w 5)
    ∧ p.egen = f 6 31 0 ∧ p.ecpy = f 6 63 32 ∧ p.emtx = f 7 31 0 ∧ p.ecom = f 7 63 32 ∧ p.etrap = f 8 31 0 ∧ (p.trapv = true ↔ f 8 32 32 = 1)
    ∧ p.hdone = ofNat64 (w 9)
    ∧ p.roles.length = p.warps
    ∧ (∀ i, i < p.warps → p.roles[i]? = some (match roles / 4 ^ i % 4 with | 0 => .gen | 1 => .cpy | 2 => .mtx | _ => .com))
    ∧ p.slots.length = map.length / 4
    ∧ (∀ j, j < map.length / 4 → ∃ x, p.slots[j]? = some x ∧ x.dx = m j % 16 ∧ x.dy = m j / 16 % 8 ∧ x.mask = m j / 256 % 256)
    ∧ (p.reserved = false ↔ f 0 63 48 = 0 ∧ f 0 31 31 = 0 ∧ f 0 23 23 = 0 ∧ f 0 15 14 = 0 ∧ f 2 63 30 = 0 ∧ f 3 63 44 = 0 ∧ f 8 63 33 = 0
        ∧ roles / 4 ^ p.warps = 0 ∧ ∀ j, j < map.length / 4 → m j / 128 % 2 = 0 ∧ m j / 65536 = 0)

/-- Legality of a packet (R250, Table 11.2). -/
def Claims.PacketLegality : Prop :=
  ∀ (p : LaunchPacket) (host : Bool),
    let per := (p.warps + p.cores - 1) / p.cores
    let warpsOf (r : Nat) : Nat := min per (p.warps - r * per)
    let covers (f : FrameSlot) (dx dy k : Nat) : Prop := f.dx = dx ∧ f.dy = dy ∧ f.mask.testBit k = true
    let warpsAt (f : FrameSlot) (k : Nat) : Nat := warpsOf (((List.range k).filter fun j => f.mask.testBit j).length)
    p.legal host = true ↔
      p.version = 1 ∧ p.reserved = false ∧ (1 ≤ p.warps ∧ p.warps ≤ 192) ∧ (1 ≤ p.cores ∧ p.cores ≤ 8) ∧ per ≤ 48
      ∧ (p.roles.filter (· == .com)).length ≤ 1 ∧ 384 ≤ 16 * p.local16
      ∧ (∀ r ∈ p.roles, (match r with | .gen => p.egen | .cpy => p.ecpy | .mtx => p.emtx | .com => p.ecom) % 4 = 0)
      ∧ (p.trapv = true → p.etrap % 4 = 0)
      ∧ (isGlobal p.sbase = true ∧ p.sbase.toNat % 4 = 0) ∧ (isGlobal p.lbase = true ∧ p.lbase.toNat % 16 = 0)
      ∧ 1 ≤ p.teams ∧ (1 ≤ p.frame ∧ p.frame ≤ 4096) ∧ (p.coop = true → p.teams ≤ p.frame) ∧ p.slots.length = p.frame
      ∧ (∀ f ∈ p.slots, f.dx ≤ p.wm1 ∧ f.dy ≤ p.hm1 ∧ ((List.range 8).filter fun k => f.mask.testBit k).length = p.cores)
      ∧ (∀ dx dy k, k < 8 → (∃ f ∈ p.slots, covers f dx dy k) →
          let fs := p.slots.filter fun f => f.dx == dx && f.dy == dy && f.mask.testBit k
          (fs.map fun f => warpsAt f k).sum ≤ 48 ∧ fs.length * p.rows ≤ 4096 ∧ fs.length * (16 * p.local16) ≤ 524288
            ∧ fs.length * (256 * p.accum256) ≤ 262144 ∧ fs.length * p.handlers ≤ 16)
      ∧ (p.fixed = true → p.ox + p.wm1 ≤ 11 ∧ p.oy + p.hm1 ≤ 7)
      ∧ (p.gang = false → p.enc = false ∧ p.gangid = 0 ∧ p.wdog = 0 ∧ p.grank = 0)
      ∧ (p.hdone = 0 ∨ (host = true ∧ ptrSpace p.hdone = 4 ∧ ptrRank p.hdone = 0 ∧ p.hdone.toNat % 16 = 0))
      ∧ p.ox ≤ 11 ∧ p.oy ≤ 7 ∧ p.wm1 ≤ 11 ∧ p.hm1 ≤ 7 ∧ p.handlers ≤ 16 ∧ p.rows ≤ 4096 ∧ p.accum256 ≤ 1024 ∧ p.local16 ≤ 32768 ∧ p.grank ≤ 2047

/-- LAUNCH_ENTRY_TAKE and LAUNCH_HEAD_AGE (R251, R252, R254, R328): a legal packet of the next entry becomes the head of its queue; an entry of a host
ring that a destruction has discarded is only passed. A tripped module takes none, and a packet in a fenced domain waits. -/
def Claims.QueueHeads : Prop :=
  ∀ (s : State) (q : QueueId),
    let legal (host : Bool) (i : QueueItem) (p : LaunchPacket) : Prop :=
      isGlobal i.ptr = true ∧ i.ptr.toNat % 64 = 0 ∧ s.readPacket i = .ok p ∧ p.legal host = true ∧ s.gangRefused p = false
    let head (i : QueueItem) (p : LaunchPacket) : Head := { queue := q, item := i, pkt := p, since := s.now, aged := false }
    ((s.pow.tripped = true ∨ ∃ h ∈ s.heads, h.queue = q) → exec (.launchEntryTake q) s = .next s)
    ∧ (s.pow.tripped = false → (∀ h ∈ s.heads, h.queue ≠ q) →
      (∀ die prio i rest, q = .dev die prio → s.devq.getD (4 * die.val + prio.val) [] = i :: rest → s.packetFenced i = true →
        exec (.launchEntryTake q) s = .next s)
      ∧ (∀ die prio i rest p, q = .dev die prio → s.devq.getD (4 * die.val + prio.val) [] = i :: rest → s.launchable i.ctx = true →
        s.packetFenced i = false → legal false i p →
        ∃ t : State, exec (.launchEntryTake q) s = .next t ∧ t = { s with devq := t.devq, heads := s.heads ++ [head i p] }
          ∧ ∀ m, t.devq.getD m [] = if m = 4 * die.val + prio.val then rest else s.devq.getD m [])
      ∧ (∀ die prio, q = .dev die prio → s.devq.getD (4 * die.val + prio.val) [] = [] → exec (.launchEntryTake q) s = .next s)
      ∧ (∀ port n, q = .host port n → (s.port port).qhead.getD n.val 0 = (s.port port).qtail.getD n.val 0 → exec (.launchEntryTake q) s = .next s)
      ∧ (∀ port n, q = .host port n → (s.port port).qhead.getD n.val 0 ≠ (s.port port).qtail.getD n.val 0 →
        let i := ringEntry s port n
        let discarded := ∃ x ∈ s.host.purges, (x.port = port ∧ x.queue = n.val) ∧ x.ctx = i.ctx
        let taken (u : State) : Prop := EntryTaken s port n u
        (discarded ∨ (∃ c, s.ctxs.find? i.ctx.toNat = some c ∧ c.destroying = true) →
          ∃ t : State, exec (.launchEntryTake q) s = .next t ∧ taken t)
        ∧ (¬ discarded → s.launchable i.ctx = true → s.packetFenced i = true → exec (.launchEntryTake q) s = .next s)
        ∧ (¬ discarded → ∀ p, s.launchable i.ctx = true → s.packetFenced i = false → legal true i p →
          ∃ t u : State, exec (.launchEntryTake q) s = .next t ∧ t = { u with heads := s.heads ++ [head i p] } ∧ taken u)
        ∧ (¬ discarded → s.ctxs.find? i.ctx.toNat = none → ∃ t u : State, exec (.launchEntryTake q) s = .next t
            ∧ taken u ∧ PortNow port (fun r => { r with err := r.err ||| 4 }) u t)))
    ∧ ∃ t : State, exec (.launchHeadAge q) s = .next t ∧ t = { s with heads := t.heads } ∧ t.heads.length = s.heads.length
        ∧ ∀ (i : Nat) (h : Head), s.heads[i]? = some h →
            t.heads[i]? = some (if h.queue = q ∧ h.since + 1000000 ≤ s.now then { h with aged := true } else h)

/-- LAUNCH_ENTRY_TAKE of a launch that is rejected (R254): the code of its first failing check goes to the parent's completion barrier, to the
completion record, or into a notice. -/
def Claims.LaunchRejections : Prop :=
  ∀ (s : State) (q : QueueId) (i : QueueItem) (c : Byte),
    let fails (host : Bool) : Prop :=
      (isGlobal i.ptr = false ∧ c = 0x10) ∨ (isGlobal i.ptr = true ∧ i.ptr.toNat % 64 ≠ 0 ∧ c = 0x13)
      ∨ (isGlobal i.ptr = true ∧ i.ptr.toNat % 64 = 0 ∧ (s.readPacket i = .error c
          ∨ ∃ p, s.readPacket i = .ok p ∧ ((p.legal host = false ∧ c = 0x1A) ∨ (p.legal host = true ∧ s.gangRefused p = true ∧ c = 0x22))))
    let recorded (h : Word) : Prop := isGlobal i.ptr = true ∧ i.ptr.toNat % 64 = 0
      ∧ ∃ p, s.readPacket i = .ok p ∧ p.hdone = h ∧ h ≠ 0 ∧ ptrSpace h = 4 ∧ ptrRank h = 0 ∧ h.toNat % 16 = 0
    (∀ p, s.gangRefused p = true ↔ p.gang = true ∧ ∃ g ∈ s.fab.gangs, g.gang = p.gangid ∧ g.retired = true)
    ∧ (s.pow.tripped = false → (∀ h ∈ s.heads, h.queue ≠ q) → s.launchable i.ctx = true → s.packetFenced i = false →
      (∀ die prio rest, q = .dev die prio → s.devq.getD (4 * die.val + prio.val) [] = i :: rest → fails false →
        ∃ t u v : State, exec (.launchEntryTake q) s = .next t ∧ u = { s with devq := u.devq }
          ∧ (∀ m, u.devq.getD m [] = if m = 4 * die.val + prio.val then rest else s.devq.getD m []) ∧ t = v.checkRetire i.parent
          ∧ (i.bar = none → v = u)
          ∧ ∀ b, i.bar = some b → v = u.arrive { team := b.team, rank := if ptrSpace b.ptr = 1 then b.rank else ptrRank b.ptr, off := ptrOffset b.ptr } 1 0 c)
      ∧ ∀ port n, q = .host port n → i = ringEntry s port n → (s.port port).qhead.getD n.val 0 ≠ (s.port port).qtail.getD n.val 0 →
        (∀ x ∈ s.host.purges, ¬ ((x.port = port ∧ x.queue = n.val) ∧ x.ctx = i.ctx)) → fails true →
          (∀ h, recorded h → s.hostFenced i.ctx h = true → exec (.launchEntryTake q) s = .next s)
          ∧ (∀ h, recorded h → s.hostFenced i.ctx h = false →
              ∃ t u : State, exec (.launchEntryTake q) s = .next t ∧ EntryTaken s port n u ∧ Recorded u t i.ctx h i.ptr c 0)
          ∧ ((∀ h, ¬ recorded h) → ∃ t u : State, exec (.launchEntryTake q) s = .next t ∧ EntryTaken s port n u
              ∧ Noticed 9 c i.ctx 0xFFFFFFFF 0 u t ∧ ∃ n, t.host.notices.getLast? = some n ∧ n.vaddr = i.ptr))

/-- GRID_PLACE, FRAME_TEAM_START and ROW_ZEROED (R249, R252, R253, R255, R315): the chosen head becomes a grid whose first teams start at its origin;
a frame slot that has come free starts its next team, whose cores hold no untracked line then; a zeroed row joins its pool. -/
def Claims.GridsAndTeams : Prop :=
  ∀ (s : State) (b : Nat),
    (s.nextPlacement = none → exec (.gridPlace b) s = .next s)
    ∧ (∀ h ox oy, s.nextPlacement = some (h, ox, oy) →
        s.fitsAt h.pkt ox oy = true ∧ (h.pkt.fixed = true → ox = h.pkt.ox ∧ oy = h.pkt.oy)
        ∧ (h.pkt.fixed = false → ∀ c, c < 12 * oy + ox → s.fitsAt h.pkt (c % 12) (c / 12) = false)
        ∧ ((∀ x ∈ s.heads, x.aged = false ∧ s.now < x.since + 1000000) → ∀ x ∈ s.heads, (s.findOrigin x.pkt).isSome = true → x.pkt.prio ≤ h.pkt.prio)
        ∧ ∃ (t : State) (g : Grid) (xs : List Team) (as : List (List Agent)), exec (.gridPlace b) s = .next t
            ∧ t.grids = s.grids ++ [g] ∧ g.id = s.nextId ∧ g.ctx = h.item.ctx ∧ g.depth = h.item.depth ∧ g.ptr = h.item.ptr ∧ g.pkt = h.pkt
            ∧ g.ox = ox ∧ g.oy = oy ∧ g.bar = h.item.bar ∧ g.ended = 0 ∧ g.code = 0
            ∧ (∀ x, x ∈ t.heads ↔ x ∈ s.heads ∧ x.queue ≠ h.queue) ∧ t.mem = s.mem
            ∧ (∀ l ∈ t.l1, l ∈ s.l1 ∧ ∀ x ∈ xs, ∀ r ∈ x.ranks, l.core ≠ r.core)
            ∧ t.teams = s.teams ++ xs ∧ t.agents = s.agents ++ as.flatten ∧ xs.length = (h.pkt.slots.take h.pkt.teams).length ∧ as.length = xs.length
            ∧ ∀ (j : Nat) (f : FrameSlot), (h.pkt.slots.take h.pkt.teams)[j]? = some f →
                ∃ x a, xs[j]? = some x ∧ as[j]? = some a ∧ TeamStarts g j j f x a)
    ∧ (∀ (g : Grid) (j : Nat) (f : FrameSlot), s.getGrid g.id = some g → g.pkt.slots[j]? = some f → s.slotDue g j = true → s.slotFits g f = true →
        ∃ (t : State) (x : Team) (as : List Agent), exec (.frameTeamStart g.id j b) s = .next t ∧ t.teams = s.teams ++ [x] ∧ t.agents = s.agents ++ as
          ∧ (∀ l ∈ t.l1, l ∈ s.l1 ∧ ∀ r ∈ x.ranks, l.core ≠ r.core) ∧ x.id = s.nextId ∧ t.nextId = s.nextId + 1 ∧ t.mem = s.mem ∧ t.tm = s.tm ∧ t.ag = s.ag
          ∧ TeamStarts g (g.nextTeam.getD j 0) j f x as
          ∧ t.getGrid g.id = some { g with nextTeam := g.nextTeam.set j (g.nextTeam.getD j 0 + g.pkt.frame) })
    ∧ ∀ (x : Team) (r n : Nat), s.getTeam x.id = some x → n ∈ (x.rank r).zeroing →
        ∃ (t : State) (y : Team), exec (.rowZeroed x.id r n) s = .next t ∧ TeamNow x.id y s t ∧ t.mem = s.mem ∧ y = { x with ranks := y.ranks }
          ∧ y.rank r = { x.rank r with zeroing := (x.rank r).zeroing.erase n, pool := (x.rank r).pool ++ [n] }
          ∧ ∀ k, k ≠ r → y.rank k = x.rank k

/-- A grid that is done retires (R212, R247, R256): after all its accesses, an arrival on its parent's barrier or the host record gives the first code
of its teams; its gang has retired; then its parent may retire. It waits for a team, for a grid that it launched, for a launch of its that is queued,
and for a fenced domain that its record needs. -/
def Claims.GridRetirement : Prop :=
  ∀ (s : State) (g : Grid), s.getGrid g.id = some g →
    let busy := g.ended < g.pkt.teams ∨ (∃ c ∈ s.grids, c.parent = some g.id) ∨ (g.id ≠ 0 ∧ ∃ h ∈ s.heads, h.item.parent = g.id)
      ∨ (g.id ≠ 0 ∧ ∃ x ∈ s.devq, ∃ i ∈ x.2, i.parent = g.id)
    let waits := g.port ≠ none ∧ g.pkt.hdone ≠ 0 ∧ s.hostFenced g.ctx g.pkt.hdone = true
    (busy ∨ waits → s.checkRetire g.id = s)
    ∧ (¬ busy → ¬ waits → g.parent = none → ∃ u v : State, u = ({ s with grids := s.grids.filter fun x => x.id != g.id } : State).landGrid g.id
        ∧ s.checkRetire g.id = { v with fab := { v.fab with gangs := v.fab.gangs.map fun x =>
              if g.pkt.gang = true ∧ x.gang = g.pkt.gangid then { x with retired := true } else x } }
        ∧ (g.port = none → ∀ b, g.bar = some b →
            v = u.arrive { team := b.team, rank := if ptrSpace b.ptr = 1 then b.rank else ptrRank b.ptr, off := ptrOffset b.ptr } 1 0 g.code)
        ∧ (g.port = none → g.bar = none → v = u)
        ∧ (g.port ≠ none → g.pkt.hdone = 0 → v = u)
        ∧ (g.port ≠ none → g.pkt.hdone ≠ 0 → Recorded u v g.ctx g.pkt.hdone g.ptr g.code 1 ))

/-- Packets, their legality and rejection; queue entries become heads, heads grids; frames go on; grids retire. That a tripped module takes no entry
is the model's reading (log 62). Where the spec leaves a point open this follows the model's own choice or reading: log 42, 66, 91, 105 to 108, 112.
-/
def Obligations.LaunchesAndPlacement : Prop :=
  Claims.PacketFields ∧ Claims.PacketLegality ∧ Claims.QueueHeads ∧ Claims.LaunchRejections ∧ Claims.GridsAndTeams ∧ Claims.GridRetirement

/-- PREEMPT_REQUEST, PREEMPT_FORCE and FAULT_DELIVER (R259, R352, R359). -/
def Claims.PreemptionStarts : Prop :=
  ∀ s : State,
    (∀ die prio (h : Head), (s.heads.find? fun x => x.queue == .dev die prio) = some h →
      ((s.findOrigin h.pkt).isSome = true → exec (.preemptRequest (.dev die prio)) s = .next s)
      ∧ (s.findOrigin h.pkt = none → ∀ ids, s.chooseSave h = some ids →
          ((s.without ((s.allTeams.filter fun t => t.saveReq.isSome).map (·.id) ++ ids)).findOrigin h.pkt).isSome = true
          ∧ ∃ t : State, exec (.preemptRequest (.dev die prio)) s = .next t ∧ t = { s with tm := t.tm, teams := t.teams }
              ∧ ∀ (n : Nat) (x : Team), s.getTeam n = some x → t.getTeam n = some (if n ∈ ids then { x with saveReq := some s.now } else x)))
    ∧ (∀ x : Team, s.getTeam x.id = some x →
        (x.saveReq = none → exec (.preemptForce x.id) s = .next s)
        ∧ ∀ t0, x.saveReq = some t0 → t0 + 50000 ≤ s.now → s.frozen x.id = false →
            ∃ t : State, exec (.preemptForce x.id) s = .next t ∧ TeamNow x.id { x with forced := true } s t ∧ t = { s with tm := t.tm, teams := t.teams })
    ∧ ∀ (id : AgentId) (v : State) (p : Pending), s.focus id = some v → v.ag.pend = some p →
        ((∃ e ∈ v.ag.queue, e.rid < p.rid) → exec (.faultDeliver id) s = .next s)
        ∧ ((∀ e ∈ v.ag.queue, p.rid ≤ e.rid) → exec (.faultDeliver id) s = .next (v.deliver p))

/-- TEAM_SAVE and TEAM_RESTORE (R41, R359 to R367): a frozen, quiet team leaves its cores for the lowest free save slot of its context, where its
image is written; a restore brings it back on the chosen cluster, with the arrivals that waited for it, or refuses an image that fails its checks.
Both wait for a fenced domain. -/
def Claims.SavesAndRestores : Prop :=
  ∀ s : State,
    (∀ (x : Team) (g : Grid) (c : Ctx), s.getTeam x.id = some x → s.getGrid x.grid = some g → s.ctxs.find? x.ctx.toNat = some c →
      (s.saveReady x = false → exec (.teamSave x.id) s = .next s)
      ∧ (s.saveReady x = true → (∃ e ∈ s.latent, s.errorSaved x e = true) → exec (.teamSave x.id) s = .next (s.spendWhere (s.errorSaved x)))
      ∧ (s.saveReady x = true → (∀ e ∈ s.latent, s.errorSaved x e = false) → s.saveTickets x g c = [] → exec (.teamSave x.id) s = .next s)
      ∧ SaveReserves s x g c
      ∧ ∀ (k : SaveTicket) (ks : List SaveTicket), s.saveReady x = true → (∀ e ∈ s.latent, s.errorSaved x e = false) → s.saveTickets x g c = k :: ks →
          let w : Who := { team := 0, ctx := x.ctx, rank := 0, core := 768 }
          let at_ := ofNat64 (0x01FF000000000000 + 2 ^ 32 * k.slot)
          let image := buildImage k.generation x.ctx x.index x.ptr (s.teamRecords x)
          let ps := s.pieces w .store at_ image.length 0
          let fenced := s.deviceFenced w .store at_ image.length
          (fenced = true → exec (.teamSave x.id) s = .next s)
          ∧ (fenced = false → (∀ f, (badPieces ps)[0]? = some f → ∃ t : State, exec (.teamSave x.id) s = .next t
            ∧ TeamNow x.id { x with saveTold := some f.addr } s t
            ∧ t.mem = s.mem)
          ∧ (badPieces ps = [] →
              ∃ (t : State) (y : SavedTeam), exec (.teamSave x.id) s = .next t ∧ t.getTeam x.id = none ∧ t.saved = s.saved ++ [y] ∧ y.id = x.id
                ∧ y.grid = x.grid ∧ y.index = x.index ∧ y.ctx = x.ctx ∧ y.slot = k.slot ∧ y.generation = k.generation
                ∧ (∀ z, z ∈ y.cmds ↔ z ∈ s.cmds ∧ z.team = x.id) ∧ (∀ z, z ∈ t.cmds ↔ z ∈ s.cmds ∧ z.team ≠ x.id)
                ∧ (∀ a ∈ t.allAgents, teamOf a.id ≠ x.id)
                ∧ t.getGrid x.grid = some { g with tickets := (g.tickets.filter fun z => z.team != x.id) ++ ks }
                ∧ (∃ d, t.ctxs.find? x.ctx.toNat = some d ∧ ∀ z ∈ k :: ks, (∀ z' ∈ k :: ks, z'.slot = z.slot → z' = z) →
                    d.slots.find? z.slot = some { busy := true, generation := z.generation })
                ∧ ∀ n a, n < image.length → locOf (goodPieces ps) n = some (.phys, a) →
                    (∀ j, n < j → j < image.length → locOf (goodPieces ps) j ≠ some (.phys, a)) → t.mem.read a = image.getD n 0)))
    ∧ ∀ (x : SavedTeam) (g : Grid) (pl : RestorePlace) (f : FrameSlot),
        (s.saved.find? fun y => y.id == x.id) = some x → s.getGrid x.grid = some g → g.pkt.coop = false → pl.whole = false →
        g.pkt.slots[x.frameSlot]? = some f → s.roomAt g.pkt [(pl.cluster, f)] = true → s.engineRoom g [(x, pl.cluster)] = true →
        (s.imageFenced x = true → exec (.teamRestore x.id pl) s = .next s)
        ∧ (s.imageFenced x = false → (∀ image, s.readImage x = .ok (image, false) → imageOk image x = true →
          ∃ (t : State) (y : Team) (as : List Agent),
            exec (.teamRestore x.id pl) s
              = .next (x.held.foldl (fun u h => u.arrive { team := x.id, rank := h.rank, off := h.off } h.count h.bytes h.err) t)
            ∧ t.teams = s.teams ++ [y] ∧ t.agents = s.agents ++ as
            ∧ y.id = x.id ∧ y.grid = g.id ∧ y.index = x.index ∧ y.frameSlot = x.frameSlot ∧ y.ctx = x.ctx ∧ y.pkt = g.pkt ∧ y.cluster = pl.cluster
            ∧ (∀ l ∈ t.l1, l ∈ s.l1 ∧ ∀ r ∈ y.ranks, l.core ≠ r.core)
            ∧ (∀ z, z ∈ t.saved ↔ z ∈ s.saved ∧ z.id ≠ x.id) ∧ (∀ a ∈ as, teamOf a.id = x.id) ∧ t.mem = s.mem)
        ∧ (∀ image poisoned, s.readImage x = .ok (image, poisoned) → (poisoned = true ∨ imageOk image x = false) →
            ∃ u : State, exec (.teamRestore x.id pl) s = .next (u.checkRetire x.grid) ∧ u.teams = s.teams ∧ u.agents = s.agents ∧ u.mem = s.mem
              ∧ (∀ z, z ∈ u.saved ↔ z ∈ s.saved ∧ z.id ≠ x.id)
              ∧ u.grids = (s.grids.map fun g => if g.id = x.grid ∧ g.code = 0 then { g with code := 0x21 } else g).map fun g =>
                  if g.id = x.grid then { g with ended := g.ended + 1 } else g)
        ∧ (∀ e, s.readImage x = .error e → ∃ t : State, exec (.teamRestore x.id pl) s = .next t ∧ t.teams = s.teams ∧ t.agents = s.agents
            ∧ ∀ (i : Nat) (z : SavedTeam), s.saved[i]? = some z → t.saved[i]? = some (if z.id = x.id then { z with told := some e.addr } else z)))

/-- TEAM_RESTORE of a whole grid, as it always is for a cooperative one (R41, R257): all its saved teams come back at one origin, each at the offset
of its frame slot from it; nothing happens while a team of the grid is resident, or where its rectangle would leave the device. -/
def Claims.WholeRestores : Prop :=
  ∀ (s : State) (x : SavedTeam) (g : Grid) (pl : RestorePlace),
    (s.saved.find? fun y => y.id == x.id) = some x → s.getGrid x.grid = some g → (g.pkt.coop = true ∨ pl.whole = true) →
    let slot (y : SavedTeam) : FrameSlot := g.pkt.slots.getD y.frameSlot { dx := 0, dy := 0, mask := 0 }
    ((∃ t ∈ s.allTeams, t.grid = g.id) → exec (.teamRestore x.id pl) s = .next s)
    ∧ (pl.cluster % 12 < (slot x).dx ∨ 11 < pl.cluster % 12 - (slot x).dx + g.pkt.wm1
        ∨ pl.cluster / 12 < (slot x).dy ∨ 7 < pl.cluster / 12 - (slot x).dy + g.pkt.hm1 → exec (.teamRestore x.id pl) s = .next s)
    ∧ ∀ ox oy, ox + (slot x).dx < 12 → pl.cluster = 12 * (oy + (slot x).dy) + (ox + (slot x).dx) → ox + g.pkt.wm1 ≤ 11 → oy + g.pkt.hm1 ≤ 7 →
        (∀ t ∈ s.allTeams, t.grid ≠ g.id) → (∀ y ∈ s.saved, y.id = x.id → y = x) →
        let set := s.saved.filter fun y => y.grid == g.id
        let place (y : SavedTeam) : Nat := 12 * (oy + (slot y).dy) + (ox + (slot y).dx)
        s.roomAt g.pkt (set.map fun y => (place y, slot y)) = true → s.engineRoom g (set.map fun y => (y, place y)) = true →
        (∀ y ∈ set, s.imageFenced y = false) → (∀ y ∈ set, ∃ r, s.readImage y = .ok r) →
          exec (.teamRestore x.id pl) s
            = .next (set.foldl (fun u y => u.restoreOne g y (place y) pl.rowBase) (s.setGrid { g with ox := ox, oy := oy }))

/-- Requesting and forcing a save, saving and restoring a team, and the delivery of a fault that waited. That a restored team drops the untracked
lines of its cores is the model's choice (log 91). Where the spec leaves a point open this follows the model's own choice or reading: log 52 to 59,
92, 111. -/
def Obligations.Preemption : Prop :=
  Claims.PreemptionStarts ∧ Claims.SavesAndRestores ∧ Claims.WholeRestores

/-- The machine right after reset: no agent, no context, memory of zeros that is being wiped, every cluster at L0 and 0.8 GHz with one pass (the one
pass is the model's choice, DESIGN CHOICE, log 17), ports idle, semaphores free; its memories are in canonical form. -/
def Obligations.ResetState : Prop :=
  let s := State.reset
  s.allAgents = [] ∧ s.allTeams = [] ∧ s.grids = [] ∧ s.cmds = [] ∧ s.ctxs = [] ∧ s.heads = [] ∧ s.devq = [] ∧ s.tlb = [] ∧ s.l1 = [] ∧ s.l2 = []
  ∧ s.late = [] ∧ s.latent = [] ∧ s.fenced = [] ∧ s.hostPath = [] ∧ (∀ a, s.mem.read a = 0) ∧ s.MemoryCanonical ∧ s.host.wiping = true ∧ s.pow.tripped = false
  ∧ (∀ c, (s.cluster c).level = 0 ∧ (s.cluster c).freq = 8 ∧ (s.cluster c).passes = 1 ∧ (s.cluster c).target = none)
  ∧ (∀ r, (s.heat r).damage = 0) ∧ (∀ n, (s.sem n).owner = none)
  ∧ ∀ p, (s.port p).busy = false ∧ (s.port p).err = 0 ∧ ∀ n, (s.port p).qhead.getD n 0 = (s.port p).qtail.getD n 0

/-- Every step keeps the module's memory and the memories behind its ports in their canonical form: addresses rising, nothing listed that reads as an
unlisted address does. -/
def Obligations.StepKeepsMemoryCanonical : Prop :=
  ∀ s t : State, s.MemoryCanonical → step s = .next t → t.MemoryCanonical

/-- Every well-formed instruction that is no event has words; decoding the words of a well-formed instruction gives the instruction back, alone and
out of the bytes in which memory holds them. -/
def Obligations.DecodeEncode : Prop :=
  (∀ i : Instr, i.wf = true → i.isEvent = false → ∃ c, encode i = some c)
  ∧ ∀ (i : Instr) (c : Code), i.wf = true → encode i = some c →
    decode c = .ok i
    ∧ ∀ rest : List Byte, match c with
      | .lane _ => decodeLaneBytes (c.bytes ++ rest) = .ok (i, rest)
      | .hint .. => decodeScalarBytes (c.bytes ++ rest) = .ok (i, rest)
      | .scalar _ => 8 ≤ rest.length → decodeScalarBytes (c.bytes ++ rest) = .ok (i, rest)

/-- Words written out from the encoding tables of file 3 decode to the instructions that they stand for, and reserved words to none. -/
def Obligations.DecodeWords : Prop :=
  decodeScalar 0b000000_000011_000001_000010_00000000 0 = .ok (.sadd 3 1 2)
  ∧ decodeScalar 0b000000_000011_000001_000010_00000101 0 = .ok (.sdiv 3 1 2)
  ∧ decodeScalar 0b111111_00000000000000000000000011 0 = .ok .eret
  ∧ decodeScalar 0b000000_000011_000001_000010_11111111 0 = .error .unallocated
  ∧ (∀ w bm i, w < 2 ^ 32 → decodeScalar w bm = .ok i → i.wf = true) ∧ ∀ w i, decodeLane w = .ok i → i.wf = true

/-- A step runs what it fetches: the scalar word at the pc of the agent that an input names, the head of its lane queue, or a module event; a word
that does not decode takes 0x01 at its own address, and one of which some lanes have gone ahead is known already. What was left open comes first, and
where nothing was, running an instruction is exec. A word that some lanes have gone ahead of is known already, which is the model's form of R217 (log
98). Where the spec leaves a point open this follows the model's own choice or reading: log 2, 38, 76. -/
def Obligations.StepRunsDecoded : Prop :=
  ∀ (s u : State) (id : AgentId) (rest : List Input),
    (∀ e ∈ s.latent, isHostWrite e = false) →
    (s.inputs = .scalar id :: rest → (s.taking rest).chosen id u →
      (u.ag.status ≠ .running ∨ u.ag.pend ≠ none → step s = .next u)
      ∧ (u.ag.status = .running → u.ag.pend = none → (u.tm.forced = false ∨ u.ag.atEntry = false ∨ u.ag.isDrop = true) →
          (u.ag.isDrop = true → 4096 ≤ u.ag.issued → step s = fault u 0x0C u.ag.spc)
          ∧ ((u.ag.isDrop = true → u.ag.issued < 4096) → u.fetchFenced u.who u.ag.spc 4 = false → u.fetchEntries u.ag.spc 4 = u →
              (∀ f, u.fetch u.who u.ag.spc 4 = .error f → step s = .next (u.memFault f false))
              ∧ ∀ bs, u.fetch u.who u.ag.spc 4 = .ok bs →
                let w := ofBytes bs
                (∀ e, decodeScalar w 0 = .error e → step s = fault u 0x01 u.ag.spc)
                ∧ ∀ i, decodeScalar w 0 = .ok i →
                  (bits w 31 26 ≠ 0x3D → step s = perform i u)
                  ∧ (bits w 31 26 = 0x3D →
                      (∀ a, a = u.ag.spc + 4 ∨ a = u.ag.spc + 8 → u.fetchFenced u.who a 4 = false ∧ u.fetchEntries a 4 = u) →
                      (∀ f, u.fetch u.who (u.ag.spc + 4) 4 = .error f → step s = .next (u.memFault f false))
                      ∧ ∀ lo, u.fetch u.who (u.ag.spc + 4) 4 = .ok lo →
                        (∀ f, u.fetch u.who (u.ag.spc + 8) 4 = .error f → step s = .next (u.memFault f false))
                        ∧ ∀ hi, u.fetch u.who (u.ag.spc + 8) 4 = .ok hi →
                          (∀ j, decodeScalar w (ofBytes lo + 2 ^ 32 * ofBytes hi) = .ok j → step s = perform j u)
                          ∧ ∀ e, decodeScalar w (ofBytes lo + 2 ^ 32 * ofBytes hi) = .error e → step s = fault u 0x01 u.ag.spc))))
    ∧ (∀ k e q, s.inputs = .lane id k :: rest → (s.taking rest).chosen id u → u.ag.queue = e :: q →
        (u.ag.status = .running ∨ u.ag.status = .lsync ∨ ∃ p ph sc, u.ag.status = .waiting p ph sc) →
        (∀ i, e.kind = .instr i → step s = perform i { u with atQueue := true })
        ∧ (∀ addr, e.kind = .block addr →
            let v : State := { u with ag := (if u.ag.running = true then u.ag else u.ag.startBlock addr).pick k }
            (∀ x, v.ag.cur.early = some x → step s = perform x.instr v)
            ∧ (v.ag.cur.early = none → (v.ag.isDrop = true → v.ag.issued < 4096) → v.fetchEntries v.ag.cur.lpc 12 = v →
              v.fetchFenced v.who v.ag.cur.lpc 12 = false →
            ∀ bs, v.fetch v.who v.ag.cur.lpc 12 = .ok bs →
              (∀ i, decodeLane (ofBytes bs) = .ok i → step s = perform i v)
              ∧ ∀ x, decodeLane (ofBytes bs) = .error x → step s = .next (v.takeFault { code := 0x01, addr := v.ag.cur.lpc } true))))
    ∧ (∀ i, s.inputs = .event i :: rest → i.isEvent = true →
        let v := s.taking rest
        step s = runEvent i (if settlesAll i = true then v.settle else v.landWhere (v.eventFirst i)))
    ∧ (∀ i, s.inputs = [] → (s.taking []).settle.goEvents = [] → (s.taking []).settle.autoEvent = some i →
        step s = runEvent i (s.taking []).settle)
    ∧ (∀ (a : Agent) k, (a.others = [] → a.cur.wait = .no → a.pick k = a)
        ∧ ((∃ f ∈ a.cur :: a.others, f.wait = .no) → (a.pick k).cur ∈ a.cur :: a.others ∧ (a.pick k).cur.wait = .no))
    ∧ ∀ i, (s.latent = [] → runEvent i s = exec i s)
        ∧ (s.latent = [] → s.late = [] → s.ag.owes = none → s.ag.loads = [] → s.ag.ahead = [] → s.ag.placed = [] →
            (∀ t, exec i s = .next t → perform i s = .next (s.orderAfter t i) ∧ (t.late = [] → t.ag.loads = [] → t.ag.ahead = [] → s.orderAfter t i = t))
            ∧ ((∀ t, exec i s ≠ .next t) → perform i s = exec i s))
        ∧ (s.late = [] → (∀ f, s.landWhere f = s) ∧ (s.ag.loads = [] → s.ag.ahead = [] → (∀ a ∈ s.agents, a.loads = [] ∧ a.ahead = []) → s.settle = s))

end Slice0Statements
end

