-- ==== Sys2Proof/Laws/Memory.lean ====
section
/-! SUPPORT. What finite maps and byte memories answer after a change, and that every change keeps their canonical form. -/

namespace Sys2Proof.Machine

/-! ## Finite maps -/

@[simp] theorem Sparse.find?_nil {α : Type} (k : Nat) : Sparse.find? ([] : Sparse α) k = none := rfl

theorem Sparse.find?_cons {α : Type} (k' : Nat) (v : α) (m : Sparse α) (k : Nat) :
    Sparse.find? ((k', v) :: m) k = if k = k' then some v else Sparse.find? m k := rfl

@[simp] theorem Sparse.find?_insert {α : Type} (m : Sparse α) (k : Nat) (v : α) (j : Nat) :
    Sparse.find? (Sparse.insert m k v) j = if j = k then some v else Sparse.find? m j := by
  induction m with
  | nil => simp [Sparse.insert, Sparse.find?_cons]
  | cons e m ih =>
    obtain ⟨k', v'⟩ := e
    by_cases h1 : k < k'
    · simp [Sparse.insert, h1, Sparse.find?_cons]
    · by_cases h2 : k = k'
      · subst h2
        by_cases hj : j = k <;> simp [Sparse.insert, Sparse.find?_cons, hj]
      · rw [Sparse.insert, if_neg h1, if_neg h2, Sparse.find?_cons, Sparse.find?_cons, ih]
        by_cases hk : j = k'
        · have : j ≠ k := fun h => h2 (h.symm.trans hk)
          simp [hk, Ne.symm h2]
        · simp [hk]

@[simp] theorem Sparse.find?_erase {α : Type} (m : Sparse α) (k j : Nat) :
    Sparse.find? (Sparse.erase m k) j = if j = k then none else Sparse.find? m j := by
  induction m with
  | nil => simp [Sparse.erase]
  | cons e m ih =>
    obtain ⟨k', v'⟩ := e
    unfold Sparse.erase at ih ⊢
    by_cases h : k' = k
    · subst h
      by_cases hj : j = k'
      · simpa [hj, Sparse.find?_cons] using ih
      · simpa [hj, Sparse.find?_cons] using ih
    · have : (fun e : Nat × α => e.1 != k) (k', v') = true := by simp [h]
      rw [List.filter_cons_of_pos (p := fun e : Nat × α => e.1 != k) this, Sparse.find?_cons, Sparse.find?_cons, ih]
      by_cases hj : j = k'
      · simp [hj, h]
      · simp [hj]

@[simp] theorem Sparse.getD_nil {α : Type} (k : Nat) (d : α) : Sparse.getD ([] : Sparse α) k d = d := rfl

@[simp] theorem Sparse.getD_insert {α : Type} (m : Sparse α) (k : Nat) (v : α) (j : Nat) (d : α) :
    Sparse.getD (Sparse.insert m k v) j d = if j = k then v else Sparse.getD m j d := by
  unfold Sparse.getD
  rw [Sparse.find?_insert]
  split <;> rfl

@[simp] theorem Sparse.getD_erase {α : Type} (m : Sparse α) (k j : Nat) (d : α) :
    Sparse.getD (Sparse.erase m k) j d = if j = k then d else Sparse.getD m j d := by
  unfold Sparse.getD
  rw [Sparse.find?_erase]
  split <;> rfl

@[simp] theorem Sparse.getD_set {α : Type} [DecidableEq α] (m : Sparse α) (k : Nat) (v d : α) (j : Nat) :
    Sparse.getD (Sparse.set m k v d) j d = if j = k then v else Sparse.getD m j d := by
  unfold Sparse.set
  by_cases h : v = d
  · simp [h]
  · simp [h]

/-! ## Rising keys -/

/-- Every key of a map is above a bound. -/
def Sparse.above {α : Type} (b : Nat) (m : Sparse α) : Prop := ∀ e ∈ m, b < e.1

theorem Sparse.rising_cons {α : Type} (k : Nat) (v : α) (m : Sparse α) :
    Sparse.rising ((k, v) :: m) = true ↔ Sparse.above k m ∧ Sparse.rising m = true := by
  induction m generalizing k v with
  | nil => simp [Sparse.rising, Sparse.above]
  | cons e m ih =>
    obtain ⟨k', v'⟩ := e
    rw [Sparse.rising]
    simp only [Bool.and_eq_true, decide_eq_true_eq, Sparse.above, List.mem_cons, forall_eq_or_imp]
    constructor
    · rintro ⟨h, hr⟩
      exact ⟨⟨h, fun e he => Nat.lt_trans h (((ih k' v').1 hr).1 e he)⟩, hr⟩
    · rintro ⟨⟨h, -⟩, hr⟩
      exact ⟨h, hr⟩

theorem Sparse.above_insert {α : Type} (b : Nat) (m : Sparse α) (k : Nat) (v : α) (hb : b < k)
    (hm : Sparse.above b m) : Sparse.above b (Sparse.insert m k v) := by
  induction m with
  | nil => simpa [Sparse.insert, Sparse.above] using hb
  | cons e m ih =>
    obtain ⟨k', v'⟩ := e
    have hh : b < k' := hm _ (List.mem_cons_self ..)
    have ht : Sparse.above b m := fun e he => hm e (List.mem_cons_of_mem _ he)
    unfold Sparse.insert
    split
    · intro e he
      rcases List.mem_cons.1 he with rfl | he
      · exact hb
      · exact hm e he
    · split
      · intro e he
        rcases List.mem_cons.1 he with rfl | he
        · exact hb
        · exact ht e he
      · intro e he
        rcases List.mem_cons.1 he with rfl | he
        · exact hh
        · exact ih ht e he

theorem Sparse.rising_insert {α : Type} (m : Sparse α) (k : Nat) (v : α) (h : Sparse.rising m = true) :
    Sparse.rising (Sparse.insert m k v) = true := by
  induction m with
  | nil => rfl
  | cons e m ih =>
    obtain ⟨k', v'⟩ := e
    obtain ⟨ha, hr⟩ := (Sparse.rising_cons k' v' m).1 h
    unfold Sparse.insert
    split
    · next hk =>
      refine (Sparse.rising_cons _ _ _).2 ⟨?_, h⟩
      intro e he
      rcases List.mem_cons.1 he with rfl | he
      · exact hk
      · exact Nat.lt_trans hk (ha e he)
    · next hk =>
      split
      · next hk2 => exact (Sparse.rising_cons _ _ _).2 ⟨hk2 ▸ ha, hr⟩
      · next hk2 =>
        exact (Sparse.rising_cons _ _ _).2 ⟨Sparse.above_insert _ _ _ _ (by omega) ha, ih hr⟩

theorem Sparse.rising_filter {α : Type} (m : Sparse α) (p : Nat × α → Bool) (h : Sparse.rising m = true) :
    Sparse.rising (List.filter p m) = true := by
  induction m with
  | nil => rfl
  | cons e m ih =>
    obtain ⟨k, v⟩ := e
    obtain ⟨ha, hr⟩ := (Sparse.rising_cons k v m).1 h
    by_cases hp : p (k, v) = true
    · rw [List.filter_cons_of_pos hp]
      exact (Sparse.rising_cons _ _ _).2 ⟨fun e he => ha e (List.mem_filter.1 he).1, ih hr⟩
    · rw [List.filter_cons_of_neg hp]
      exact ih hr

theorem Sparse.mem_insert {α : Type} (m : Sparse α) (k : Nat) (v : α) (e : Nat × α)
    (h : e ∈ Sparse.insert m k v) : e = (k, v) ∨ e ∈ m := by
  induction m with
  | nil => simpa [Sparse.insert] using h
  | cons x m ih =>
    obtain ⟨k', v'⟩ := x
    unfold Sparse.insert at h
    split at h
    · exact List.mem_cons.1 h
    · split at h
      · rcases List.mem_cons.1 h with h | h
        · exact .inl h
        · exact .inr (List.mem_cons_of_mem _ h)
      · rcases List.mem_cons.1 h with h | h
        · exact .inr (h ▸ List.mem_cons_self ..)
        · rcases ih h with h | h
          · exact .inl h
          · exact .inr (List.mem_cons_of_mem _ h)

/-! ## Byte memories -/

@[simp] theorem Memory.read_nil (a : Nat) : Memory.read [] a = 0 := rfl

@[simp] theorem Memory.read_write (m : Memory) (a : Nat) (b : Byte) (j : Nat) :
    Memory.read (m.write a b) j = if j = a then b else Memory.read m j := by
  unfold Memory.read Memory.write
  exact Sparse.getD_set m a b Memory.unlisted j

@[simp] theorem Memory.wf_nil : Memory.wf [] = true := rfl

/-- Writing a byte keeps the canonical form. -/
theorem Memory.wf_write (m : Memory) (a : Nat) (b : Byte) (h : m.wf = true) : (m.write a b).wf = true := by
  unfold Memory.wf at h ⊢
  obtain ⟨hr, ha⟩ := Bool.and_eq_true_iff.1 h
  have ha' : ∀ c ∈ m, (c.2 != 0) = true := List.all_eq_true.1 ha
  unfold Memory.write Sparse.set
  by_cases hb : b = Memory.unlisted
  · rw [if_pos hb]
    refine Bool.and_eq_true_iff.2 ⟨Sparse.rising_filter m _ hr, List.all_eq_true.2 ?_⟩
    exact fun c hc => ha' c (List.mem_filter.1 hc).1
  · rw [if_neg hb]
    refine Bool.and_eq_true_iff.2 ⟨Sparse.rising_insert m a b hr, List.all_eq_true.2 ?_⟩
    intro c hc
    rcases Sparse.mem_insert m a b c hc with rfl | hc
    · simpa [Memory.unlisted] using hb
    · exact ha' c hc

/-- Writing consecutive bytes keeps the canonical form. -/
theorem Memory.wf_writeN (m : Memory) (a : Nat) (bs : List Byte) (h : m.wf = true) : (m.writeN a bs).wf = true := by
  induction bs generalizing m a with
  | nil => exact h
  | cons b bs ih => exact ih _ _ (Memory.wf_write m a b h)

/-- Writing a number keeps the canonical form. -/
theorem Memory.wf_writeNat (m : Memory) (a n x : Nat) (h : m.wf = true) : (m.writeNat a n x).wf = true :=
  Memory.wf_writeN m a _ h

/-- What a byte reads as after consecutive bytes were written. -/
theorem Memory.read_writeN (m : Memory) (a : Nat) (bs : List Byte) (j : Nat) :
    Memory.read (m.writeN a bs) j = if a ≤ j then (bs[j - a]?).getD (Memory.read m j) else Memory.read m j := by
  induction bs generalizing m a with
  | nil => simp [Memory.writeN]
  | cons b bs ih =>
    rw [Memory.writeN, ih, Memory.read_write]
    by_cases h : j = a
    · subst h
      rw [if_neg (by omega), if_pos rfl, if_pos (Nat.le_refl j), Nat.sub_self]
      rfl
    · by_cases h1 : a ≤ j
      · have h2 : a + 1 ≤ j := by omega
        have h3 : j - a = (j - (a + 1)) + 1 := by omega
        simp [h, h1, h2, h3]
      · have h2 : ¬ a + 1 ≤ j := by omega
        simp [h, h1, h2]

/-- A byte outside the bytes written reads as before. -/
theorem Memory.read_writeN_outside (m : Memory) (a : Nat) (bs : List Byte) (j : Nat) (h : j < a ∨ a + bs.length ≤ j) :
    Memory.read (m.writeN a bs) j = Memory.read m j := by
  rw [Memory.read_writeN]
  split
  · rw [List.getElem?_eq_none (by omega)]; rfl
  · rfl

@[simp] theorem Memory.length_readN (m : Memory) (a n : Nat) : (m.readN a n).length = n := by
  induction n generalizing a with
  | zero => rfl
  | succ n ih => simp [Memory.readN, ih]

theorem Memory.readN_congr (m m' : Memory) (a n : Nat) (h : ∀ j, a ≤ j → j < a + n → Memory.read m j = Memory.read m' j) :
    m.readN a n = m'.readN a n := by
  induction n generalizing a with
  | zero => rfl
  | succ n ih =>
    rw [Memory.readN, Memory.readN, h a (Nat.le_refl a) (by omega), ih (a + 1) (fun j h1 h2 => h j (by omega) (by omega))]

theorem Memory.readN_writeN (m : Memory) (a : Nat) (bs : List Byte) : (m.writeN a bs).readN a bs.length = bs := by
  induction bs generalizing m a with
  | nil => rfl
  | cons b bs ih =>
    rw [List.length_cons, Memory.readN, Memory.writeN, ih, Memory.read_writeN, if_neg (by omega), Memory.read_write, if_pos rfl]

/-! ## Bytes and numbers -/

@[simp] theorem length_toBytes (n x : Nat) : (toBytes n x).length = n := by
  induction n generalizing x with
  | zero => rfl
  | succ n ih => simp [toBytes, ih]

theorem ofBytes_toBytes (n x : Nat) : ofBytes (toBytes n x) = x % 256 ^ n := by
  induction n generalizing x with
  | zero => simp [toBytes, ofBytes, Nat.mod_one]
  | succ n ih =>
    simp only [toBytes, ofBytes, ih, BitVec.toNat_ofNat]
    rw [show (2 : Nat) ^ 8 = 256 from rfl, Nat.pow_succ, Nat.mul_comm (256 ^ n) 256, Nat.mod_mul]

theorem ofBytes_lt (bs : List Byte) : ofBytes bs < 256 ^ bs.length := by
  induction bs with
  | nil => simp [ofBytes]
  | cons b bs ih =>
    have hb := b.isLt
    simp only [ofBytes, List.length_cons, Nat.pow_succ]
    omega

/-- A number reads back as it was written. -/
theorem Memory.readNat_writeNat (m : Memory) (a n x : Nat) : (m.writeNat a n x).readNat a n = x % 256 ^ n := by
  have h := Memory.readN_writeN m a (toBytes n x)
  rw [length_toBytes] at h
  rw [Memory.readNat, Memory.writeNat, h, ofBytes_toBytes]

end Sys2Proof.Machine
end

