-- ==== Sys2Proof/Laws/Bytes.lean ====
section
/-! SUPPORT. Which shared operations leave the module's memory and the memories behind the ports alone, and that the others keep their canonical
form. -/

namespace Sys2Proof.Machine

/-- The three byte memories of the state. -/
def State.bytes (s : State) : Memory × Memory × Memory := (s.mem, s.hostA, s.hostB)

theorem State.canonical_of_bytes {s t : State} (h : t.bytes = s.bytes) (hs : s.MemoryCanonical) : t.MemoryCanonical := by
  simp only [State.bytes, Prod.mk.injEq] at h
  unfold State.MemoryCanonical at *
  rw [h.1, h.2.1, h.2.2]; exact hs

theorem State.canonical_reset : State.reset.MemoryCanonical := ⟨rfl, rfl, rfl⟩

/-- A fold keeps what each of its steps keeps. -/
theorem foldl_keeps {α β : Type} (P : α → Prop) (f : α → β → α) (hf : ∀ a b, P a → P (f a b)) (l : List β) :
    ∀ a, P a → P (l.foldl f a) := by
  induction l with
  | nil => exact fun a h => h
  | cons x l ih => exact fun a h => ih _ (hf a x h)

/-- A fold of steps that leave the bytes alone leaves them alone. -/
theorem foldl_bytes {β : Type} (f : State → β → State) (hf : ∀ s b, (f s b).bytes = s.bytes) (l : List β) (s : State) :
    (l.foldl f s).bytes = s.bytes :=
  foldl_keeps (fun t => t.bytes = s.bytes) f (fun a b h => (hf a b).trans h) l s rfl

/-! ## Operations that leave the bytes alone -/

@[simp] theorem State.bytes_modAg (s : State) (f : Agent → Agent) : (s.modAg f).bytes = s.bytes := rfl
@[simp] theorem State.bytes_goNext (s : State) : s.goNext.bytes = s.bytes := rfl
@[simp] theorem State.bytes_finish (s : State) : s.finish.bytes = s.bytes := by unfold State.finish; split <;> rfl
@[simp] theorem State.bytes_commit (s : State) : s.commit.bytes = s.bytes := by unfold State.commit; split <;> rfl
@[simp] theorem State.bytes_enqueue (s : State) (k : QKind) (gr gw : BitVec 64) (qw : BitVec 8) : (s.enqueue k gr gw qw).bytes = s.bytes := rfl
@[simp] theorem State.bytes_setTeam (s : State) (t : Team) : (s.setTeam t).bytes = s.bytes := by unfold State.setTeam; split <;> rfl
@[simp] theorem State.bytes_modTeam (s : State) (id : Nat) (f : Team → Team) : (s.modTeam id f).bytes = s.bytes := by
  unfold State.modTeam; split
  · exact State.bytes_setTeam _ _
  · rfl
@[simp] theorem State.bytes_modRank (s : State) (team r : Nat) (f : Rank → Rank) : (s.modRank team r f).bytes = s.bytes :=
  State.bytes_modTeam _ _ _
@[simp] theorem State.bytes_modMyRank (s : State) (f : Rank → Rank) : (s.modMyRank f).bytes = s.bytes := rfl
@[simp] theorem State.bytes_setAgent (s : State) (a : Agent) : (s.setAgent a).bytes = s.bytes := by unfold State.setAgent; split <;> rfl
@[simp] theorem State.bytes_addAgent (s : State) (a : Agent) : (s.addAgent a).bytes = s.bytes := rfl
@[simp] theorem State.bytes_addTeam (s : State) (t : Team) : (s.addTeam t).bytes = s.bytes := rfl
@[simp] theorem State.bytes_dropAgents (s : State) (f : Agent → Bool) : (s.dropAgents f).bytes = s.bytes := rfl
@[simp] theorem State.bytes_dropTeam (s : State) (id : Nat) : (s.dropTeam id).bytes = s.bytes := rfl
@[simp] theorem State.bytes_setCmd (s : State) (c : Cmd) : (s.setCmd c).bytes = s.bytes := rfl
@[simp] theorem State.bytes_dropCmd (s : State) (id : Nat) : (s.dropCmd id).bytes = s.bytes := rfl
@[simp] theorem State.bytes_addCmd (s : State) (c : Cmd) : (s.addCmd c).bytes = s.bytes := rfl
@[simp] theorem State.bytes_failCmd (s : State) (id : Nat) (code : Byte) : (s.failCmd id code).bytes = s.bytes := rfl
@[simp] theorem State.bytes_setGrid (s : State) (g : Grid) : (s.setGrid g).bytes = s.bytes := rfl
@[simp] theorem State.bytes_setGridCode (s : State) (id : Nat) (code : Byte) : (s.setGridCode id code).bytes = s.bytes := rfl
@[simp] theorem State.bytes_notice (s : State) (kind code : Byte) (ctx : BitVec 16) (domain : BitVec 32) (vaddr paddr : Word) (flags : Byte)
    (ranks : List (BitVec 16)) : (s.notice kind code ctx domain vaddr paddr flags ranks).bytes = s.bytes := by simp only [State.notice, State.bytes]
@[simp] theorem State.bytes_addrNotice (s : State) (kind code : Byte) (ctx : BitVec 16) (va : Word) :
    (s.addrNotice kind code ctx va).bytes = s.bytes := State.bytes_notice _ _ _ _ _ _ _ _ _
@[simp] theorem State.bytes_setCluster (s : State) (c : Nat) (x : Cluster) : (s.setCluster c x).bytes = s.bytes := rfl
@[simp] theorem State.bytes_regrant (s : State) (c : Nat) : (s.regrant c).bytes = s.bytes := by
  unfold State.regrant; dsimp only; split
  · rfl
  · split
    · rfl
    · split <;> rfl
@[simp] theorem State.bytes_setHeat (s : State) (r : Nat) (x : HeatRegion) : (s.setHeat r x).bytes = s.bytes :=
  foldl_bytes State.regrant State.bytes_regrant _ _
@[simp] theorem State.bytes_acquire (s : State) (core : Nat) (sc : Scope) : (s.acquire core sc).bytes = s.bytes := by
  unfold State.acquire; split <;> rfl
@[simp] theorem State.bytes_wakeWaits (s : State) (t : Team) (l : BarLoc) (phase : Nat) : (s.wakeWaits t l phase).bytes = s.bytes := rfl
@[simp] theorem State.bytes_barOp (s : State) (l : BarLoc) (f : Bar → Nat → Bar) : (s.barOp l f).bytes = s.bytes := by
  unfold State.barOp; split
  · rfl
  · rw [State.bytes_wakeWaits, State.bytes_setTeam]
@[simp] theorem State.bytes_arrive (s : State) (l : BarLoc) (n bytes : Nat) (err : Byte) : (s.arrive l n bytes err).bytes = s.bytes := by
  unfold State.arrive; split
  · exact State.bytes_barOp _ _ _
  · rfl
@[simp] theorem State.bytes_arriveCmd (s : State) (c : Cmd) (bytes : Nat) (err : Byte) : (s.arriveCmd c bytes err).bytes = s.bytes := by
  unfold State.arriveCmd; split
  · exact State.bytes_arrive _ _ _ _ _
  · rfl
@[simp] theorem State.bytes_freeTicket (s : State) (t : Team) : (s.freeTicket t).bytes = s.bytes := by unfold State.freeTicket; split <;> rfl
@[simp] theorem State.bytes_removeTeam (s : State) (t : Team) : (s.removeTeam t).bytes = s.bytes := by
  unfold State.removeTeam; rw [State.bytes_regrant]
  exact Eq.trans (b := State.bytes (((s.freeTicket t).dropAgents fun a => teamOf a.id == t.id).dropTeam t.id)) rfl (State.bytes_freeTicket s t)
@[simp] theorem State.bytes_retireGang (s : State) (g : Grid) : (s.retireGang g).bytes = s.bytes := by
  unfold State.retireGang; split <;> rfl
@[simp] theorem State.bytes_setPort (s : State) (p : Port) (x : PortRegs) : (s.setPort p x).bytes = s.bytes := by cases p <;> rfl
@[simp] theorem State.bytes_modPort (s : State) (p : Port) (f : PortRegs → PortRegs) : (s.modPort p f).bytes = s.bytes :=
  State.bytes_setPort _ _ _
@[simp] theorem State.bytes_setSem (s : State) (n : Fin 32) (x : Semaphore) : (s.setSem n x).bytes = s.bytes := rfl
@[simp] theorem State.bytes_setLink (s : State) (l : Fin 18) (x : Link) : (s.setLink l x).bytes = s.bytes := rfl
@[simp] theorem State.bytes_send (s : State) (pk : Packet) : (s.send pk).bytes = s.bytes := by
  unfold State.send
  cases (pk.route[0]?).getD none with
  | none => rfl
  | some l => dsimp only; split <;> rfl
@[simp] theorem State.bytes_suspend (s : State) (c : Cmd) (ctx : BitVec 16) (a : Word) : (s.suspend c ctx a).bytes = s.bytes := by
  unfold State.suspend; split <;> rfl
@[simp] theorem State.bytes_setLanding (s : State) (team : Nat) (slot : Fin 8) (l : Landing) : (s.setLanding team slot l).bytes = s.bytes :=
  State.bytes_modTeam _ _ _
@[simp] theorem State.bytes_fillL2 (s : State) (ctx : BitVec 16) (k : Keep) (line : Nat) : (s.fillL2 ctx k line).bytes = s.bytes := by
  unfold State.fillL2; split <;> rfl
@[simp] theorem State.bytes_meetLine (s : State) (w : Who) (hint : Fin 4) (line : Nat) : (s.meetLine w hint line).bytes = s.bytes :=
  State.bytes_fillL2 _ _ _ _
@[simp] theorem State.bytes_shareLine (s : State) (w : Who) (hint : Fin 4) (line : Nat) : (s.shareLine w hint line).bytes = s.bytes := by
  unfold State.shareLine; split <;> rfl
@[simp] theorem State.bytes_seenLine (s : State) (w : Who) (ws : Bool) (hint : Fin 4) (line : Nat) :
    (s.seenLine w ws hint line).bytes = s.bytes := by
  unfold State.seenLine
  dsimp only
  repeat' split
  all_goals first
    | exact State.bytes_fillL2 _ _ _ _
    | exact (State.bytes_shareLine _ _ _ _).trans (State.bytes_meetLine _ _ _ _)
@[simp] theorem State.bytes_seen (s : State) (w : Who) (ws : Bool) (hint : Fin 4) (ps : List Piece) : (s.seen w ws hint ps).bytes = s.bytes :=
  foldl_bytes _ (fun s l => State.bytes_seenLine s w ws hint l) _ _
@[simp] theorem State.bytes_tagLine (s : State) (core : Nat) (ctx : BitVec 16) (shr : Bool) (line : Nat) :
    (s.tagLine core ctx shr line).bytes = s.bytes := by
  unfold State.tagLine
  dsimp only
  split <;> exact State.bytes_fillL2 s ctx .normal line
@[simp] theorem State.bytes_dropTraffic (s : State) (ctx : BitVec 16) : (s.dropTraffic ctx).bytes = s.bytes := rfl
@[simp] theorem State.bytes_clearL1 (s : State) (cores : List Nat) : (s.clearL1 cores).bytes = s.bytes := rfl
@[simp] theorem State.bytes_tellFail (s : State) (ctx : BitVec 16) (f : Option Fail) : (s.tellFail ctx f).bytes = s.bytes := by
  unfold State.tellFail
  repeat' split
  all_goals first
    | exact State.bytes_addrNotice _ _ _ _ _
    | rfl
@[simp] theorem State.bytes_markDirty (s : State) (core : Nat) (ctx : BitVec 16) (shr : Bool) (a n : Nat) :
    (s.markDirty core ctx shr a n).bytes = s.bytes := by
  unfold State.markDirty
  exact foldl_bytes _ (fun s l => State.bytes_tagLine s core ctx shr l) _ _

/-! ## Operations that keep the canonical form -/

theorem State.canonical_setHostMem (s : State) (p : Port) (m : Memory) (hs : s.MemoryCanonical) (hm : m.wf = true) :
    (s.setHostMem p m).MemoryCanonical := by
  cases p
  · exact ⟨hs.1, hm, hs.2.2⟩
  · exact ⟨hs.1, hs.2.1, hm⟩

theorem State.wf_hostMem (s : State) (p : Port) (hs : s.MemoryCanonical) : (s.hostMem p).wf = true := by
  cases p
  · exact hs.2.1
  · exact hs.2.2

theorem State.canonical_drainHost (s : State) (hs : s.MemoryCanonical) : s.drainHost.MemoryCanonical := by
  unfold State.drainHost
  refine foldl_keeps State.MemoryCanonical _ (fun a x ha => ?_) _ _ hs
  split
  · exact ⟨ha.1, Memory.wf_writeN _ _ _ ha.2.1, ha.2.2⟩
  · exact ⟨ha.1, ha.2.1, Memory.wf_writeN _ _ _ ha.2.2⟩

theorem State.canonical_writePhys (s : State) (core a : Nat) (bs : List Byte) (hs : s.MemoryCanonical) :
    (s.writePhys core a bs).MemoryCanonical := ⟨Memory.wf_writeN _ _ _ hs.1, hs.2.1, hs.2.2⟩

theorem State.canonical_writePiece (s : State) (w : Who) (p : Piece) (bs : List Byte) (hs : s.MemoryCanonical) :
    (s.writePiece w p bs).MemoryCanonical := by
  unfold State.writePiece
  split
  · exact State.canonical_of_bytes (State.bytes_markDirty _ _ _ _ _ _) (State.canonical_writePhys _ _ _ _ hs)
  · exact hs
  · exact State.canonical_of_bytes (State.bytes_modRank _ _ _ _) hs
  · exact State.canonical_of_bytes (State.bytes_modRank _ _ _ _) hs

theorem State.canonical_writePieces (w : Who) (ps : List Piece) : ∀ (s : State) (bs : List Byte), s.MemoryCanonical →
    (s.writePieces w ps bs).MemoryCanonical := by
  induction ps with
  | nil => exact fun s bs h => h
  | cons p ps ih => exact fun s bs h => ih _ _ (State.canonical_writePiece s w p _ h)

theorem State.canonical_store (s : State) (w : Who) (p : Word) (bs : List Byte) (k : Nat) (hs : s.MemoryCanonical) :
    (s.store w p bs k).MemoryCanonical := State.canonical_writePieces w _ s bs hs

theorem State.canonical_atomicAt (s : State) (w : Who) (hint : Fin 4) (ps : List Piece) (f : List Byte → Option (List Byte))
    (hs : s.MemoryCanonical) : (s.atomicAt w hint ps f).2.MemoryCanonical := by
  have h : State.MemoryCanonical ((linesOf ps).foldl (fun s l => s.meetLine w hint l) s) :=
    State.canonical_of_bytes (foldl_bytes _ (fun s l => State.bytes_meetLine s w hint l) _ _) hs
  unfold State.atomicAt
  dsimp only
  split
  · exact State.canonical_writePieces _ _ _ _ h
  · exact h

@[simp] theorem State.bytes_predictAt (s : State) (w : Who) (hint : Fin 4) (ps : List Piece) : (s.predictAt w hint ps).bytes = s.bytes := by
  unfold State.predictAt State.predict
  repeat' split
  all_goals rfl

@[simp] theorem State.bytes_setLaneOf (s : State) (a : Agent) (n lane v : Nat) : (s.setLaneOf a n lane v).bytes = s.bytes := by
  unfold State.setLaneOf; split
  · rfl
  · exact State.bytes_modRank _ _ _ _

@[simp] theorem State.bytes_opResult (s : State) (id : AgentId) (op : LateOp) (old : Nat) : (s.opResult id op old).bytes = s.bytes := by
  unfold State.opResult
  split
  · rfl
  · split
    all_goals try exact State.bytes_setAgent _ _
    all_goals try rfl
    all_goals
      dsimp only
      split
      · exact State.bytes_setAgent _ _
      · rw [foldl_bytes _ (fun s i => State.bytes_setLaneOf s _ _ _ _)]
        exact State.bytes_setAgent _ _

theorem State.canonical_landOp (s : State) (x : LateStore) (op : LateOp) (hs : s.MemoryCanonical) : (s.landOp x op).MemoryCanonical := by
  have h := State.canonical_atomicAt (s.predictAt { team := x.team, ctx := op.ctx, rank := op.rank, core := x.core } op.hint [op.piece])
    { team := x.team, ctx := op.ctx, rank := op.rank, core := x.core } op.hint [op.piece]
    (fun bs => (op.new (ofBytes bs)).map (toBytes op.piece.len)) (State.canonical_of_bytes (State.bytes_predictAt _ _ _ _) hs)
  unfold State.landOp
  dsimp only
  split
  · exact State.canonical_of_bytes (State.bytes_opResult _ _ _ _) h
  · exact h
  · exact h

theorem State.canonical_landStore (s : State) (x : LateStore) (hs : s.MemoryCanonical) : (s.landStore x).MemoryCanonical := by
  unfold State.landStore
  split
  · exact State.canonical_landOp _ _ _ hs
  · exact State.canonical_writePhys _ _ _ _ hs
  · exact State.canonical_setHostMem _ _ _ hs (Memory.wf_writeN _ _ _ (State.wf_hostMem _ _ hs))
  · exact State.canonical_of_bytes (State.bytes_modRank _ _ _ _) hs
  · exact State.canonical_of_bytes (State.bytes_modRank _ _ _ _) hs

theorem State.canonical_landWhere (s : State) (f : LateStore → Bool) (hs : s.MemoryCanonical) : (s.landWhere f).MemoryCanonical :=
  foldl_keeps State.MemoryCanonical _ (fun a x ha => State.canonical_landStore a x ha) _ _ hs

theorem State.canonical_landOne (s : State) (k : Nat) (hs : s.MemoryCanonical) : (s.landOne k).MemoryCanonical := by
  unfold State.landOne
  split
  · exact hs
  · split
    · exact hs
    · exact State.canonical_landWhere _ _ hs

theorem State.canonical_advanceCounter (s : State) (port : Port) (a : Nat) (hs : s.MemoryCanonical) :
    (s.advanceCounter port a).MemoryCanonical := by
  have h := State.canonical_drainHost s hs
  exact State.canonical_setHostMem _ _ _ h (Memory.wf_writeNat _ _ _ _ (State.wf_hostMem _ _ h))

theorem State.canonical_hostRecord (s : State) (ctx : BitVec 16) (hdone ptr : Word) (code : Byte) (ran : Bool) (hs : s.MemoryCanonical) :
    (s.hostRecord ctx hdone ptr code ran).MemoryCanonical := by
  unfold State.hostRecord
  split
  · have h := State.canonical_drainHost s hs
    exact State.canonical_advanceCounter _ _ _ (State.canonical_setHostMem _ _ _ h (Memory.wf_write _ _ _ (State.wf_hostMem _ _ h)))
  · exact State.canonical_of_bytes (State.bytes_notice _ _ _ _ _ _ _ _ _) hs

theorem State.canonical_postRetired (s : State) (g : Grid) (hs : s.MemoryCanonical) : (s.postRetired g).MemoryCanonical := by
  unfold State.postRetired
  split
  · split
    · exact hs
    · exact State.canonical_of_bytes (State.bytes_arrive _ _ _ _ _) hs
  · split
    · exact hs
    · exact State.canonical_hostRecord _ _ _ _ _ _ hs

theorem State.canonical_retire (fuel : Nat) : ∀ (s : State) (id : Nat), s.MemoryCanonical → (s.retire fuel id).MemoryCanonical := by
  induction fuel with
  | zero => exact fun s id h => h
  | succ n ih =>
    intro s id h
    unfold State.retire
    split
    · exact h
    · split
      · rename_i g _ _
        have h1 : State.MemoryCanonical { s with grids := s.grids.filter fun x => x.id != id } := h
        have h2 := State.canonical_of_bytes (State.bytes_retireGang _ g)
          (State.canonical_postRetired _ g (State.canonical_landWhere _ (fun x => x.grid == id && id != 0) h1))
        dsimp only
        split
        · exact ih _ _ h2
        · exact h2
      · exact h

theorem State.canonical_checkRetire (s : State) (id : Nat) (hs : s.MemoryCanonical) : (s.checkRetire id).MemoryCanonical :=
  State.canonical_retire _ _ _ hs

theorem State.canonical_checkTeamEnd (s : State) (id : Nat) (hs : s.MemoryCanonical) : (s.checkTeamEnd id).MemoryCanonical := by
  unfold State.checkTeamEnd
  split
  · exact hs
  · split
    · exact State.canonical_checkRetire _ _ (State.canonical_of_bytes (State.bytes_removeTeam _ _) hs)
    · exact hs

theorem State.canonical_endCmd (s : State) (c : Cmd) (hs : s.MemoryCanonical) : (s.endCmd c).MemoryCanonical :=
  State.canonical_checkTeamEnd _ _ hs

theorem State.canonical_terminateTeam (s : State) (id : Nat) (code : Byte) (hs : s.MemoryCanonical) :
    (s.terminateTeam id code).MemoryCanonical := by
  unfold State.terminateTeam
  split
  · exact hs
  · exact State.canonical_checkRetire _ _ (State.canonical_of_bytes (State.bytes_removeTeam _ _) hs)

theorem State.canonical_terminateContext (s : State) (ctx : BitVec 16) (code : Byte) (hs : s.MemoryCanonical) :
    (s.terminateContext ctx code).MemoryCanonical := by
  unfold State.terminateContext
  dsimp only
  refine foldl_keeps State.MemoryCanonical _ (fun a x ha => State.canonical_checkRetire a x ha) _ _ ?_
  refine State.canonical_of_bytes (s := s) ?_ hs
  refine Eq.trans (b := State.bytes (List.foldl State.removeTeam _ _)) rfl ?_
  rw [foldl_bytes State.removeTeam State.bytes_removeTeam, foldl_bytes _ (fun s b => State.bytes_setGridCode s b code)]

theorem State.canonical_endDrop (s : State) (a : Agent) (err : Byte) (hs : s.MemoryCanonical) : (s.endDrop a err).MemoryCanonical := by
  have key (t : State) (h : t.bytes = s.bytes) : t.MemoryCanonical := State.canonical_of_bytes h hs
  have ends (t : State) (id : Nat) (h : t.bytes = s.bytes) : (t.checkTeamEnd id).MemoryCanonical :=
    State.canonical_checkTeamEnd _ _ (key t h)
  unfold State.endDrop
  split
  · exact hs
  · dsimp only
    split
    · split
      · exact ends _ _ (by simp)
      · split
        · exact ends _ _ (by simp)
        · exact ends _ _ (by simp)
    · split
      · exact ends _ _ (by simp)
      · exact key _ (by simp)
    · split
      · exact ends _ _ (by simp)
      · exact key _ (by simp)
    · exact key _ (by simp)

theorem State.canonical_deliver (s : State) (p : Pending) (hs : s.MemoryCanonical) : (s.deliver p).MemoryCanonical := by
  have key (t : State) (h : t.bytes = s.bytes) : t.MemoryCanonical := State.canonical_of_bytes h hs
  unfold State.deliver
  have h0 : (if p.tell = true then s.addrNotice 2 p.code s.tm.ctx p.page else s).bytes = s.bytes := by
    split
    · exact State.bytes_addrNotice _ _ _ _ _
    · rfl
  generalize (if p.tell = true then s.addrNotice 2 p.code s.tm.ctx p.page else s) = v at h0
  dsimp only
  split
  · exact State.canonical_endDrop _ _ _ (key _ h0)
  · generalize v.ag.rollBack p.rid = a
    repeat' split
    all_goals first
      | exact State.canonical_terminateTeam _ _ _ (key _ h0)
      | exact key _ ((State.bytes_addrNotice _ _ _ _ _).trans h0)
      | exact key _ h0

theorem State.canonical_meetFault (s : State) (f : Fail) (lane tell : Bool) (hs : s.MemoryCanonical) :
    (s.meetFault f lane tell).MemoryCanonical := by
  unfold State.meetFault
  dsimp only
  repeat' split
  all_goals first
    | exact State.canonical_deliver _ _ hs
    | exact hs

theorem State.canonical_takeFault (s : State) (f : Fail) (lane : Bool) (hs : s.MemoryCanonical) : (s.takeFault f lane).MemoryCanonical :=
  State.canonical_meetFault _ _ _ _ hs

theorem State.canonical_memFault (s : State) (f : Fail) (lane : Bool) (hs : s.MemoryCanonical) : (s.memFault f lane).MemoryCanonical :=
  State.canonical_meetFault _ _ _ _ hs

theorem State.canonical_returnFromTrap (s : State) (hs : s.MemoryCanonical) : s.returnFromTrap.MemoryCanonical := by
  unfold State.returnFromTrap
  dsimp only
  split
  · exact State.canonical_terminateTeam _ _ _ hs
  · exact hs

theorem State.canonical_resetModule (s : State) (hs : s.MemoryCanonical) : s.resetModule.MemoryCanonical := ⟨rfl, hs.2.1, hs.2.2⟩

/-! ## Outcomes -/

/-- A next state of this outcome keeps the canonical form. -/
def Keeps (o : Out) : Prop := ∀ t, o = .next t → t.MemoryCanonical

theorem keeps_next {t : State} (h : t.MemoryCanonical) : Keeps (.next t) := by
  intro u hu
  cases hu
  exact h

theorem keeps_fault (s : State) (code : Byte) (addr : Word) (hs : s.MemoryCanonical) : Keeps (fault s code addr) :=
  keeps_next (State.canonical_takeFault _ _ _ hs)

theorem keeps_wait (s : State) (hs : s.MemoryCanonical) : Keeps (wait s) := keeps_next hs

theorem keeps_scoreboard (gr gw : BitVec 64) (qr qw : BitVec 8) (s : State) (f : State → Out) (hs : s.MemoryCanonical) (hf : Keeps (f s)) :
    Keeps (scoreboard gr gw qr qw s f) := by
  unfold scoreboard
  split
  · exact keeps_wait s hs
  · exact hf

theorem keeps_queued (i : Instr) (commits : Bool) (gr gw : BitVec 64) (qw : BitVec 8) (s : State) (f : State → Out)
    (hs : s.MemoryCanonical) (hf : Keeps (f s)) : Keeps (queued i commits gr gw qw s f) := by
  unfold queued
  split
  · exact hf
  · split
    · exact keeps_wait s hs
    · dsimp only
      split
      · exact keeps_next hs
      · exact keeps_next hs

theorem keeps_answer (q : Fin 8) (v : Bool) (s : State) (hs : s.MemoryCanonical) : Keeps (answer q v s) :=
  keeps_next (State.canonical_of_bytes (by simp) hs)

end Sys2Proof.Machine
end

