-- ==== Sys2Proof/Laws/State.lean ====
section
/-! SUPPORT. What each field of the state and of an agent reads as after a plain update: one lemma for one field of one update. -/

namespace Sys2Proof.Machine
section
set_option Elab.async false

/-! ## Updates of the state -/

@[simp] theorem State.modAg_inputs (s : State) (f : Agent → Agent) : (s.modAg f).inputs = s.inputs := rfl
@[simp] theorem State.modAg_ag (s : State) (f : Agent → Agent) : (s.modAg f).ag = f s.ag := rfl
@[simp] theorem State.modAg_agents (s : State) (f : Agent → Agent) : (s.modAg f).agents = s.agents := rfl
@[simp] theorem State.modAg_tm (s : State) (f : Agent → Agent) : (s.modAg f).tm = s.tm := rfl
@[simp] theorem State.modAg_teams (s : State) (f : Agent → Agent) : (s.modAg f).teams = s.teams := rfl
@[simp] theorem State.modAg_grids (s : State) (f : Agent → Agent) : (s.modAg f).grids = s.grids := rfl
@[simp] theorem State.modAg_saved (s : State) (f : Agent → Agent) : (s.modAg f).saved = s.saved := rfl
@[simp] theorem State.modAg_cmds (s : State) (f : Agent → Agent) : (s.modAg f).cmds = s.cmds := rfl
@[simp] theorem State.modAg_devq (s : State) (f : Agent → Agent) : (s.modAg f).devq = s.devq := rfl
@[simp] theorem State.modAg_heads (s : State) (f : Agent → Agent) : (s.modAg f).heads = s.heads := rfl
@[simp] theorem State.modAg_mem (s : State) (f : Agent → Agent) : (s.modAg f).mem = s.mem := rfl
@[simp] theorem State.modAg_poison (s : State) (f : Agent → Agent) : (s.modAg f).poison = s.poison := rfl
@[simp] theorem State.modAg_hostA (s : State) (f : Agent → Agent) : (s.modAg f).hostA = s.hostA := rfl
@[simp] theorem State.modAg_hostB (s : State) (f : Agent → Agent) : (s.modAg f).hostB = s.hostB := rfl
@[simp] theorem State.modAg_hostPoison (s : State) (f : Agent → Agent) : (s.modAg f).hostPoison = s.hostPoison := rfl
@[simp] theorem State.modAg_hostPath (s : State) (f : Agent → Agent) : (s.modAg f).hostPath = s.hostPath := rfl
@[simp] theorem State.modAg_tlb (s : State) (f : Agent → Agent) : (s.modAg f).tlb = s.tlb := rfl
@[simp] theorem State.modAg_l1 (s : State) (f : Agent → Agent) : (s.modAg f).l1 = s.l1 := rfl
@[simp] theorem State.modAg_l2 (s : State) (f : Agent → Agent) : (s.modAg f).l2 = s.l2 := rfl
@[simp] theorem State.modAg_late (s : State) (f : Agent → Agent) : (s.modAg f).late = s.late := rfl
@[simp] theorem State.modAg_predictor (s : State) (f : Agent → Agent) : (s.modAg f).predictor = s.predictor := rfl
@[simp] theorem State.modAg_ctxs (s : State) (f : Agent → Agent) : (s.modAg f).ctxs = s.ctxs := rfl
@[simp] theorem State.modAg_host (s : State) (f : Agent → Agent) : (s.modAg f).host = s.host := rfl
@[simp] theorem State.modAg_fab (s : State) (f : Agent → Agent) : (s.modAg f).fab = s.fab := rfl
@[simp] theorem State.modAg_pow (s : State) (f : Agent → Agent) : (s.modAg f).pow = s.pow := rfl
@[simp] theorem State.modAg_fenced (s : State) (f : Agent → Agent) : (s.modAg f).fenced = s.fenced := rfl
@[simp] theorem State.modAg_corrected (s : State) (f : Agent → Agent) : (s.modAg f).corrected = s.corrected := rfl
@[simp] theorem State.modAg_latent (s : State) (f : Agent → Agent) : (s.modAg f).latent = s.latent := rfl
@[simp] theorem State.modAg_now (s : State) (f : Agent → Agent) : (s.modAg f).now = s.now := rfl
@[simp] theorem State.modAg_fresh (s : State) (f : Agent → Agent) : (s.modAg f).fresh = s.fresh := rfl
@[simp] theorem State.modAg_nextId (s : State) (f : Agent → Agent) : (s.modAg f).nextId = s.nextId := rfl
@[simp] theorem State.modAg_stamp (s : State) (f : Agent → Agent) : (s.modAg f).stamp = s.stamp := rfl
@[simp] theorem State.modAg_atQueue (s : State) (f : Agent → Agent) : (s.modAg f).atQueue = s.atQueue := rfl

@[simp] theorem State.goNext_inputs (s : State)  : (s.goNext).inputs = s.inputs := rfl
@[simp] theorem State.goNext_ag (s : State)  : (s.goNext).ag = s.ag.goto (s.ag.spc + 4) := rfl
@[simp] theorem State.goNext_agents (s : State)  : (s.goNext).agents = s.agents := rfl
@[simp] theorem State.goNext_tm (s : State)  : (s.goNext).tm = s.tm := rfl
@[simp] theorem State.goNext_teams (s : State)  : (s.goNext).teams = s.teams := rfl
@[simp] theorem State.goNext_grids (s : State)  : (s.goNext).grids = s.grids := rfl
@[simp] theorem State.goNext_saved (s : State)  : (s.goNext).saved = s.saved := rfl
@[simp] theorem State.goNext_cmds (s : State)  : (s.goNext).cmds = s.cmds := rfl
@[simp] theorem State.goNext_devq (s : State)  : (s.goNext).devq = s.devq := rfl
@[simp] theorem State.goNext_heads (s : State)  : (s.goNext).heads = s.heads := rfl
@[simp] theorem State.goNext_mem (s : State)  : (s.goNext).mem = s.mem := rfl
@[simp] theorem State.goNext_poison (s : State)  : (s.goNext).poison = s.poison := rfl
@[simp] theorem State.goNext_hostA (s : State)  : (s.goNext).hostA = s.hostA := rfl
@[simp] theorem State.goNext_hostB (s : State)  : (s.goNext).hostB = s.hostB := rfl
@[simp] theorem State.goNext_hostPoison (s : State)  : (s.goNext).hostPoison = s.hostPoison := rfl
@[simp] theorem State.goNext_hostPath (s : State)  : (s.goNext).hostPath = s.hostPath := rfl
@[simp] theorem State.goNext_tlb (s : State)  : (s.goNext).tlb = s.tlb := rfl
@[simp] theorem State.goNext_l1 (s : State)  : (s.goNext).l1 = s.l1 := rfl
@[simp] theorem State.goNext_l2 (s : State)  : (s.goNext).l2 = s.l2 := rfl
@[simp] theorem State.goNext_late (s : State)  : (s.goNext).late = s.late := rfl
@[simp] theorem State.goNext_predictor (s : State)  : (s.goNext).predictor = s.predictor := rfl
@[simp] theorem State.goNext_ctxs (s : State)  : (s.goNext).ctxs = s.ctxs := rfl
@[simp] theorem State.goNext_host (s : State)  : (s.goNext).host = s.host := rfl
@[simp] theorem State.goNext_fab (s : State)  : (s.goNext).fab = s.fab := rfl
@[simp] theorem State.goNext_pow (s : State)  : (s.goNext).pow = s.pow := rfl
@[simp] theorem State.goNext_fenced (s : State)  : (s.goNext).fenced = s.fenced := rfl
@[simp] theorem State.goNext_corrected (s : State)  : (s.goNext).corrected = s.corrected := rfl
@[simp] theorem State.goNext_latent (s : State)  : (s.goNext).latent = s.latent := rfl
@[simp] theorem State.goNext_now (s : State)  : (s.goNext).now = s.now := rfl
@[simp] theorem State.goNext_fresh (s : State)  : (s.goNext).fresh = s.fresh := rfl
@[simp] theorem State.goNext_nextId (s : State)  : (s.goNext).nextId = s.nextId := rfl
@[simp] theorem State.goNext_stamp (s : State)  : (s.goNext).stamp = s.stamp := rfl
@[simp] theorem State.goNext_atQueue (s : State)  : (s.goNext).atQueue = s.atQueue := rfl

@[simp] theorem State.modMyRank_inputs (s : State) (f : Rank → Rank) : (s.modMyRank f).inputs = s.inputs := rfl
@[simp] theorem State.modMyRank_ag (s : State) (f : Rank → Rank) : (s.modMyRank f).ag = s.ag := rfl
@[simp] theorem State.modMyRank_agents (s : State) (f : Rank → Rank) : (s.modMyRank f).agents = s.agents := rfl
@[simp] theorem State.modMyRank_tm (s : State) (f : Rank → Rank) : (s.modMyRank f).tm = s.tm.setRank s.ag.rank (f s.myRank) := rfl
@[simp] theorem State.modMyRank_teams (s : State) (f : Rank → Rank) : (s.modMyRank f).teams = s.teams := rfl
@[simp] theorem State.modMyRank_grids (s : State) (f : Rank → Rank) : (s.modMyRank f).grids = s.grids := rfl
@[simp] theorem State.modMyRank_saved (s : State) (f : Rank → Rank) : (s.modMyRank f).saved = s.saved := rfl
@[simp] theorem State.modMyRank_cmds (s : State) (f : Rank → Rank) : (s.modMyRank f).cmds = s.cmds := rfl
@[simp] theorem State.modMyRank_devq (s : State) (f : Rank → Rank) : (s.modMyRank f).devq = s.devq := rfl
@[simp] theorem State.modMyRank_heads (s : State) (f : Rank → Rank) : (s.modMyRank f).heads = s.heads := rfl
@[simp] theorem State.modMyRank_mem (s : State) (f : Rank → Rank) : (s.modMyRank f).mem = s.mem := rfl
@[simp] theorem State.modMyRank_poison (s : State) (f : Rank → Rank) : (s.modMyRank f).poison = s.poison := rfl
@[simp] theorem State.modMyRank_hostA (s : State) (f : Rank → Rank) : (s.modMyRank f).hostA = s.hostA := rfl
@[simp] theorem State.modMyRank_hostB (s : State) (f : Rank → Rank) : (s.modMyRank f).hostB = s.hostB := rfl
@[simp] theorem State.modMyRank_hostPoison (s : State) (f : Rank → Rank) : (s.modMyRank f).hostPoison = s.hostPoison := rfl
@[simp] theorem State.modMyRank_hostPath (s : State) (f : Rank → Rank) : (s.modMyRank f).hostPath = s.hostPath := rfl
@[simp] theorem State.modMyRank_tlb (s : State) (f : Rank → Rank) : (s.modMyRank f).tlb = s.tlb := rfl
@[simp] theorem State.modMyRank_l1 (s : State) (f : Rank → Rank) : (s.modMyRank f).l1 = s.l1 := rfl
@[simp] theorem State.modMyRank_l2 (s : State) (f : Rank → Rank) : (s.modMyRank f).l2 = s.l2 := rfl
@[simp] theorem State.modMyRank_late (s : State) (f : Rank → Rank) : (s.modMyRank f).late = s.late := rfl
@[simp] theorem State.modMyRank_predictor (s : State) (f : Rank → Rank) : (s.modMyRank f).predictor = s.predictor := rfl
@[simp] theorem State.modMyRank_ctxs (s : State) (f : Rank → Rank) : (s.modMyRank f).ctxs = s.ctxs := rfl
@[simp] theorem State.modMyRank_host (s : State) (f : Rank → Rank) : (s.modMyRank f).host = s.host := rfl
@[simp] theorem State.modMyRank_fab (s : State) (f : Rank → Rank) : (s.modMyRank f).fab = s.fab := rfl
@[simp] theorem State.modMyRank_pow (s : State) (f : Rank → Rank) : (s.modMyRank f).pow = s.pow := rfl
@[simp] theorem State.modMyRank_fenced (s : State) (f : Rank → Rank) : (s.modMyRank f).fenced = s.fenced := rfl
@[simp] theorem State.modMyRank_corrected (s : State) (f : Rank → Rank) : (s.modMyRank f).corrected = s.corrected := rfl
@[simp] theorem State.modMyRank_latent (s : State) (f : Rank → Rank) : (s.modMyRank f).latent = s.latent := rfl
@[simp] theorem State.modMyRank_now (s : State) (f : Rank → Rank) : (s.modMyRank f).now = s.now := rfl
@[simp] theorem State.modMyRank_fresh (s : State) (f : Rank → Rank) : (s.modMyRank f).fresh = s.fresh := rfl
@[simp] theorem State.modMyRank_nextId (s : State) (f : Rank → Rank) : (s.modMyRank f).nextId = s.nextId := rfl
@[simp] theorem State.modMyRank_stamp (s : State) (f : Rank → Rank) : (s.modMyRank f).stamp = s.stamp := rfl
@[simp] theorem State.modMyRank_atQueue (s : State) (f : Rank → Rank) : (s.modMyRank f).atQueue = s.atQueue := rfl

@[simp] theorem State.addAgent_inputs (s : State) (a : Agent) : (s.addAgent a).inputs = s.inputs := rfl
@[simp] theorem State.addAgent_ag (s : State) (a : Agent) : (s.addAgent a).ag = s.ag := rfl
@[simp] theorem State.addAgent_agents (s : State) (a : Agent) : (s.addAgent a).agents = s.agents ++ [a] := rfl
@[simp] theorem State.addAgent_tm (s : State) (a : Agent) : (s.addAgent a).tm = s.tm := rfl
@[simp] theorem State.addAgent_teams (s : State) (a : Agent) : (s.addAgent a).teams = s.teams := rfl
@[simp] theorem State.addAgent_grids (s : State) (a : Agent) : (s.addAgent a).grids = s.grids := rfl
@[simp] theorem State.addAgent_saved (s : State) (a : Agent) : (s.addAgent a).saved = s.saved := rfl
@[simp] theorem State.addAgent_cmds (s : State) (a : Agent) : (s.addAgent a).cmds = s.cmds := rfl
@[simp] theorem State.addAgent_devq (s : State) (a : Agent) : (s.addAgent a).devq = s.devq := rfl
@[simp] theorem State.addAgent_heads (s : State) (a : Agent) : (s.addAgent a).heads = s.heads := rfl
@[simp] theorem State.addAgent_mem (s : State) (a : Agent) : (s.addAgent a).mem = s.mem := rfl
@[simp] theorem State.addAgent_poison (s : State) (a : Agent) : (s.addAgent a).poison = s.poison := rfl
@[simp] theorem State.addAgent_hostA (s : State) (a : Agent) : (s.addAgent a).hostA = s.hostA := rfl
@[simp] theorem State.addAgent_hostB (s : State) (a : Agent) : (s.addAgent a).hostB = s.hostB := rfl
@[simp] theorem State.addAgent_hostPoison (s : State) (a : Agent) : (s.addAgent a).hostPoison = s.hostPoison := rfl
@[simp] theorem State.addAgent_hostPath (s : State) (a : Agent) : (s.addAgent a).hostPath = s.hostPath := rfl
@[simp] theorem State.addAgent_tlb (s : State) (a : Agent) : (s.addAgent a).tlb = s.tlb := rfl
@[simp] theorem State.addAgent_l1 (s : State) (a : Agent) : (s.addAgent a).l1 = s.l1 := rfl
@[simp] theorem State.addAgent_l2 (s : State) (a : Agent) : (s.addAgent a).l2 = s.l2 := rfl
@[simp] theorem State.addAgent_late (s : State) (a : Agent) : (s.addAgent a).late = s.late := rfl
@[simp] theorem State.addAgent_predictor (s : State) (a : Agent) : (s.addAgent a).predictor = s.predictor := rfl
@[simp] theorem State.addAgent_ctxs (s : State) (a : Agent) : (s.addAgent a).ctxs = s.ctxs := rfl
@[simp] theorem State.addAgent_host (s : State) (a : Agent) : (s.addAgent a).host = s.host := rfl
@[simp] theorem State.addAgent_fab (s : State) (a : Agent) : (s.addAgent a).fab = s.fab := rfl
@[simp] theorem State.addAgent_pow (s : State) (a : Agent) : (s.addAgent a).pow = s.pow := rfl
@[simp] theorem State.addAgent_fenced (s : State) (a : Agent) : (s.addAgent a).fenced = s.fenced := rfl
@[simp] theorem State.addAgent_corrected (s : State) (a : Agent) : (s.addAgent a).corrected = s.corrected := rfl
@[simp] theorem State.addAgent_latent (s : State) (a : Agent) : (s.addAgent a).latent = s.latent := rfl
@[simp] theorem State.addAgent_now (s : State) (a : Agent) : (s.addAgent a).now = s.now := rfl
@[simp] theorem State.addAgent_fresh (s : State) (a : Agent) : (s.addAgent a).fresh = s.fresh := rfl
@[simp] theorem State.addAgent_nextId (s : State) (a : Agent) : (s.addAgent a).nextId = s.nextId := rfl
@[simp] theorem State.addAgent_stamp (s : State) (a : Agent) : (s.addAgent a).stamp = s.stamp := rfl
@[simp] theorem State.addAgent_atQueue (s : State) (a : Agent) : (s.addAgent a).atQueue = s.atQueue := rfl

@[simp] theorem State.addTeam_inputs (s : State) (t : Team) : (s.addTeam t).inputs = s.inputs := rfl
@[simp] theorem State.addTeam_ag (s : State) (t : Team) : (s.addTeam t).ag = s.ag := rfl
@[simp] theorem State.addTeam_agents (s : State) (t : Team) : (s.addTeam t).agents = s.agents := rfl
@[simp] theorem State.addTeam_tm (s : State) (t : Team) : (s.addTeam t).tm = s.tm := rfl
@[simp] theorem State.addTeam_teams (s : State) (t : Team) : (s.addTeam t).teams = s.teams ++ [t] := rfl
@[simp] theorem State.addTeam_grids (s : State) (t : Team) : (s.addTeam t).grids = s.grids := rfl
@[simp] theorem State.addTeam_saved (s : State) (t : Team) : (s.addTeam t).saved = s.saved := rfl
@[simp] theorem State.addTeam_cmds (s : State) (t : Team) : (s.addTeam t).cmds = s.cmds := rfl
@[simp] theorem State.addTeam_devq (s : State) (t : Team) : (s.addTeam t).devq = s.devq := rfl
@[simp] theorem State.addTeam_heads (s : State) (t : Team) : (s.addTeam t).heads = s.heads := rfl
@[simp] theorem State.addTeam_mem (s : State) (t : Team) : (s.addTeam t).mem = s.mem := rfl
@[simp] theorem State.addTeam_poison (s : State) (t : Team) : (s.addTeam t).poison = s.poison := rfl
@[simp] theorem State.addTeam_hostA (s : State) (t : Team) : (s.addTeam t).hostA = s.hostA := rfl
@[simp] theorem State.addTeam_hostB (s : State) (t : Team) : (s.addTeam t).hostB = s.hostB := rfl
@[simp] theorem State.addTeam_hostPoison (s : State) (t : Team) : (s.addTeam t).hostPoison = s.hostPoison := rfl
@[simp] theorem State.addTeam_hostPath (s : State) (t : Team) : (s.addTeam t).hostPath = s.hostPath := rfl
@[simp] theorem State.addTeam_tlb (s : State) (t : Team) : (s.addTeam t).tlb = s.tlb := rfl
@[simp] theorem State.addTeam_l1 (s : State) (t : Team) : (s.addTeam t).l1 = s.l1 := rfl
@[simp] theorem State.addTeam_l2 (s : State) (t : Team) : (s.addTeam t).l2 = s.l2 := rfl
@[simp] theorem State.addTeam_late (s : State) (t : Team) : (s.addTeam t).late = s.late := rfl
@[simp] theorem State.addTeam_predictor (s : State) (t : Team) : (s.addTeam t).predictor = s.predictor := rfl
@[simp] theorem State.addTeam_ctxs (s : State) (t : Team) : (s.addTeam t).ctxs = s.ctxs := rfl
@[simp] theorem State.addTeam_host (s : State) (t : Team) : (s.addTeam t).host = s.host := rfl
@[simp] theorem State.addTeam_fab (s : State) (t : Team) : (s.addTeam t).fab = s.fab := rfl
@[simp] theorem State.addTeam_pow (s : State) (t : Team) : (s.addTeam t).pow = s.pow := rfl
@[simp] theorem State.addTeam_fenced (s : State) (t : Team) : (s.addTeam t).fenced = s.fenced := rfl
@[simp] theorem State.addTeam_corrected (s : State) (t : Team) : (s.addTeam t).corrected = s.corrected := rfl
@[simp] theorem State.addTeam_latent (s : State) (t : Team) : (s.addTeam t).latent = s.latent := rfl
@[simp] theorem State.addTeam_now (s : State) (t : Team) : (s.addTeam t).now = s.now := rfl
@[simp] theorem State.addTeam_fresh (s : State) (t : Team) : (s.addTeam t).fresh = s.fresh := rfl
@[simp] theorem State.addTeam_nextId (s : State) (t : Team) : (s.addTeam t).nextId = s.nextId := rfl
@[simp] theorem State.addTeam_stamp (s : State) (t : Team) : (s.addTeam t).stamp = s.stamp := rfl
@[simp] theorem State.addTeam_atQueue (s : State) (t : Team) : (s.addTeam t).atQueue = s.atQueue := rfl

@[simp] theorem State.addCmd_inputs (s : State) (c : Cmd) : (s.addCmd c).inputs = s.inputs := rfl
@[simp] theorem State.addCmd_ag (s : State) (c : Cmd) : (s.addCmd c).ag = s.ag := rfl
@[simp] theorem State.addCmd_agents (s : State) (c : Cmd) : (s.addCmd c).agents = s.agents := rfl
@[simp] theorem State.addCmd_tm (s : State) (c : Cmd) : (s.addCmd c).tm = s.tm := rfl
@[simp] theorem State.addCmd_teams (s : State) (c : Cmd) : (s.addCmd c).teams = s.teams := rfl
@[simp] theorem State.addCmd_grids (s : State) (c : Cmd) : (s.addCmd c).grids = s.grids := rfl
@[simp] theorem State.addCmd_saved (s : State) (c : Cmd) : (s.addCmd c).saved = s.saved := rfl
@[simp] theorem State.addCmd_cmds (s : State) (c : Cmd) : (s.addCmd c).cmds = s.cmds ++ [c] := rfl
@[simp] theorem State.addCmd_devq (s : State) (c : Cmd) : (s.addCmd c).devq = s.devq := rfl
@[simp] theorem State.addCmd_heads (s : State) (c : Cmd) : (s.addCmd c).heads = s.heads := rfl
@[simp] theorem State.addCmd_mem (s : State) (c : Cmd) : (s.addCmd c).mem = s.mem := rfl
@[simp] theorem State.addCmd_poison (s : State) (c : Cmd) : (s.addCmd c).poison = s.poison := rfl
@[simp] theorem State.addCmd_hostA (s : State) (c : Cmd) : (s.addCmd c).hostA = s.hostA := rfl
@[simp] theorem State.addCmd_hostB (s : State) (c : Cmd) : (s.addCmd c).hostB = s.hostB := rfl
@[simp] theorem State.addCmd_hostPoison (s : State) (c : Cmd) : (s.addCmd c).hostPoison = s.hostPoison := rfl
@[simp] theorem State.addCmd_hostPath (s : State) (c : Cmd) : (s.addCmd c).hostPath = s.hostPath := rfl
@[simp] theorem State.addCmd_tlb (s : State) (c : Cmd) : (s.addCmd c).tlb = s.tlb := rfl
@[simp] theorem State.addCmd_l1 (s : State) (c : Cmd) : (s.addCmd c).l1 = s.l1 := rfl
@[simp] theorem State.addCmd_l2 (s : State) (c : Cmd) : (s.addCmd c).l2 = s.l2 := rfl
@[simp] theorem State.addCmd_late (s : State) (c : Cmd) : (s.addCmd c).late = s.late := rfl
@[simp] theorem State.addCmd_predictor (s : State) (c : Cmd) : (s.addCmd c).predictor = s.predictor := rfl
@[simp] theorem State.addCmd_ctxs (s : State) (c : Cmd) : (s.addCmd c).ctxs = s.ctxs := rfl
@[simp] theorem State.addCmd_host (s : State) (c : Cmd) : (s.addCmd c).host = s.host := rfl
@[simp] theorem State.addCmd_fab (s : State) (c : Cmd) : (s.addCmd c).fab = s.fab := rfl
@[simp] theorem State.addCmd_pow (s : State) (c : Cmd) : (s.addCmd c).pow = s.pow := rfl
@[simp] theorem State.addCmd_fenced (s : State) (c : Cmd) : (s.addCmd c).fenced = s.fenced := rfl
@[simp] theorem State.addCmd_corrected (s : State) (c : Cmd) : (s.addCmd c).corrected = s.corrected := rfl
@[simp] theorem State.addCmd_latent (s : State) (c : Cmd) : (s.addCmd c).latent = s.latent := rfl
@[simp] theorem State.addCmd_now (s : State) (c : Cmd) : (s.addCmd c).now = s.now := rfl
@[simp] theorem State.addCmd_fresh (s : State) (c : Cmd) : (s.addCmd c).fresh = s.fresh := rfl
@[simp] theorem State.addCmd_nextId (s : State) (c : Cmd) : (s.addCmd c).nextId = s.nextId + 1 := rfl
@[simp] theorem State.addCmd_stamp (s : State) (c : Cmd) : (s.addCmd c).stamp = s.stamp := rfl
@[simp] theorem State.addCmd_atQueue (s : State) (c : Cmd) : (s.addCmd c).atQueue = s.atQueue := rfl

@[simp] theorem State.setCmd_inputs (s : State) (c : Cmd) : (s.setCmd c).inputs = s.inputs := rfl
@[simp] theorem State.setCmd_ag (s : State) (c : Cmd) : (s.setCmd c).ag = s.ag := rfl
@[simp] theorem State.setCmd_agents (s : State) (c : Cmd) : (s.setCmd c).agents = s.agents := rfl
@[simp] theorem State.setCmd_tm (s : State) (c : Cmd) : (s.setCmd c).tm = s.tm := rfl
@[simp] theorem State.setCmd_teams (s : State) (c : Cmd) : (s.setCmd c).teams = s.teams := rfl
@[simp] theorem State.setCmd_grids (s : State) (c : Cmd) : (s.setCmd c).grids = s.grids := rfl
@[simp] theorem State.setCmd_saved (s : State) (c : Cmd) : (s.setCmd c).saved = s.saved := rfl
@[simp] theorem State.setCmd_cmds (s : State) (c : Cmd) : (s.setCmd c).cmds = s.cmds.map fun x => if x.id = c.id then c else x := rfl
@[simp] theorem State.setCmd_devq (s : State) (c : Cmd) : (s.setCmd c).devq = s.devq := rfl
@[simp] theorem State.setCmd_heads (s : State) (c : Cmd) : (s.setCmd c).heads = s.heads := rfl
@[simp] theorem State.setCmd_mem (s : State) (c : Cmd) : (s.setCmd c).mem = s.mem := rfl
@[simp] theorem State.setCmd_poison (s : State) (c : Cmd) : (s.setCmd c).poison = s.poison := rfl
@[simp] theorem State.setCmd_hostA (s : State) (c : Cmd) : (s.setCmd c).hostA = s.hostA := rfl
@[simp] theorem State.setCmd_hostB (s : State) (c : Cmd) : (s.setCmd c).hostB = s.hostB := rfl
@[simp] theorem State.setCmd_hostPoison (s : State) (c : Cmd) : (s.setCmd c).hostPoison = s.hostPoison := rfl
@[simp] theorem State.setCmd_hostPath (s : State) (c : Cmd) : (s.setCmd c).hostPath = s.hostPath := rfl
@[simp] theorem State.setCmd_tlb (s : State) (c : Cmd) : (s.setCmd c).tlb = s.tlb := rfl
@[simp] theorem State.setCmd_l1 (s : State) (c : Cmd) : (s.setCmd c).l1 = s.l1 := rfl
@[simp] theorem State.setCmd_l2 (s : State) (c : Cmd) : (s.setCmd c).l2 = s.l2 := rfl
@[simp] theorem State.setCmd_late (s : State) (c : Cmd) : (s.setCmd c).late = s.late := rfl
@[simp] theorem State.setCmd_predictor (s : State) (c : Cmd) : (s.setCmd c).predictor = s.predictor := rfl
@[simp] theorem State.setCmd_ctxs (s : State) (c : Cmd) : (s.setCmd c).ctxs = s.ctxs := rfl
@[simp] theorem State.setCmd_host (s : State) (c : Cmd) : (s.setCmd c).host = s.host := rfl
@[simp] theorem State.setCmd_fab (s : State) (c : Cmd) : (s.setCmd c).fab = s.fab := rfl
@[simp] theorem State.setCmd_pow (s : State) (c : Cmd) : (s.setCmd c).pow = s.pow := rfl
@[simp] theorem State.setCmd_fenced (s : State) (c : Cmd) : (s.setCmd c).fenced = s.fenced := rfl
@[simp] theorem State.setCmd_corrected (s : State) (c : Cmd) : (s.setCmd c).corrected = s.corrected := rfl
@[simp] theorem State.setCmd_latent (s : State) (c : Cmd) : (s.setCmd c).latent = s.latent := rfl
@[simp] theorem State.setCmd_now (s : State) (c : Cmd) : (s.setCmd c).now = s.now := rfl
@[simp] theorem State.setCmd_fresh (s : State) (c : Cmd) : (s.setCmd c).fresh = s.fresh := rfl
@[simp] theorem State.setCmd_nextId (s : State) (c : Cmd) : (s.setCmd c).nextId = s.nextId := rfl
@[simp] theorem State.setCmd_stamp (s : State) (c : Cmd) : (s.setCmd c).stamp = s.stamp := rfl
@[simp] theorem State.setCmd_atQueue (s : State) (c : Cmd) : (s.setCmd c).atQueue = s.atQueue := rfl

@[simp] theorem State.dropCmd_inputs (s : State) (i : Nat) : (s.dropCmd i).inputs = s.inputs := rfl
@[simp] theorem State.dropCmd_ag (s : State) (i : Nat) : (s.dropCmd i).ag = s.ag := rfl
@[simp] theorem State.dropCmd_agents (s : State) (i : Nat) : (s.dropCmd i).agents = s.agents := rfl
@[simp] theorem State.dropCmd_tm (s : State) (i : Nat) : (s.dropCmd i).tm = s.tm := rfl
@[simp] theorem State.dropCmd_teams (s : State) (i : Nat) : (s.dropCmd i).teams = s.teams := rfl
@[simp] theorem State.dropCmd_grids (s : State) (i : Nat) : (s.dropCmd i).grids = s.grids := rfl
@[simp] theorem State.dropCmd_saved (s : State) (i : Nat) : (s.dropCmd i).saved = s.saved := rfl
@[simp] theorem State.dropCmd_cmds (s : State) (i : Nat) : (s.dropCmd i).cmds = s.cmds.filter fun c => c.id != i := rfl
@[simp] theorem State.dropCmd_devq (s : State) (i : Nat) : (s.dropCmd i).devq = s.devq := rfl
@[simp] theorem State.dropCmd_heads (s : State) (i : Nat) : (s.dropCmd i).heads = s.heads := rfl
@[simp] theorem State.dropCmd_mem (s : State) (i : Nat) : (s.dropCmd i).mem = s.mem := rfl
@[simp] theorem State.dropCmd_poison (s : State) (i : Nat) : (s.dropCmd i).poison = s.poison := rfl
@[simp] theorem State.dropCmd_hostA (s : State) (i : Nat) : (s.dropCmd i).hostA = s.hostA := rfl
@[simp] theorem State.dropCmd_hostB (s : State) (i : Nat) : (s.dropCmd i).hostB = s.hostB := rfl
@[simp] theorem State.dropCmd_hostPoison (s : State) (i : Nat) : (s.dropCmd i).hostPoison = s.hostPoison := rfl
@[simp] theorem State.dropCmd_hostPath (s : State) (i : Nat) : (s.dropCmd i).hostPath = s.hostPath := rfl
@[simp] theorem State.dropCmd_tlb (s : State) (i : Nat) : (s.dropCmd i).tlb = s.tlb := rfl
@[simp] theorem State.dropCmd_l1 (s : State) (i : Nat) : (s.dropCmd i).l1 = s.l1 := rfl
@[simp] theorem State.dropCmd_l2 (s : State) (i : Nat) : (s.dropCmd i).l2 = s.l2 := rfl
@[simp] theorem State.dropCmd_late (s : State) (i : Nat) : (s.dropCmd i).late = s.late := rfl
@[simp] theorem State.dropCmd_predictor (s : State) (i : Nat) : (s.dropCmd i).predictor = s.predictor := rfl
@[simp] theorem State.dropCmd_ctxs (s : State) (i : Nat) : (s.dropCmd i).ctxs = s.ctxs := rfl
@[simp] theorem State.dropCmd_host (s : State) (i : Nat) : (s.dropCmd i).host = s.host := rfl
@[simp] theorem State.dropCmd_fab (s : State) (i : Nat) : (s.dropCmd i).fab = s.fab := rfl
@[simp] theorem State.dropCmd_pow (s : State) (i : Nat) : (s.dropCmd i).pow = s.pow := rfl
@[simp] theorem State.dropCmd_fenced (s : State) (i : Nat) : (s.dropCmd i).fenced = s.fenced := rfl
@[simp] theorem State.dropCmd_corrected (s : State) (i : Nat) : (s.dropCmd i).corrected = s.corrected := rfl
@[simp] theorem State.dropCmd_latent (s : State) (i : Nat) : (s.dropCmd i).latent = s.latent := rfl
@[simp] theorem State.dropCmd_now (s : State) (i : Nat) : (s.dropCmd i).now = s.now := rfl
@[simp] theorem State.dropCmd_fresh (s : State) (i : Nat) : (s.dropCmd i).fresh = s.fresh := rfl
@[simp] theorem State.dropCmd_nextId (s : State) (i : Nat) : (s.dropCmd i).nextId = s.nextId := rfl
@[simp] theorem State.dropCmd_stamp (s : State) (i : Nat) : (s.dropCmd i).stamp = s.stamp := rfl
@[simp] theorem State.dropCmd_atQueue (s : State) (i : Nat) : (s.dropCmd i).atQueue = s.atQueue := rfl

@[simp] theorem State.setGrid_inputs (s : State) (g : Grid) : (s.setGrid g).inputs = s.inputs := rfl
@[simp] theorem State.setGrid_ag (s : State) (g : Grid) : (s.setGrid g).ag = s.ag := rfl
@[simp] theorem State.setGrid_agents (s : State) (g : Grid) : (s.setGrid g).agents = s.agents := rfl
@[simp] theorem State.setGrid_tm (s : State) (g : Grid) : (s.setGrid g).tm = s.tm := rfl
@[simp] theorem State.setGrid_teams (s : State) (g : Grid) : (s.setGrid g).teams = s.teams := rfl
@[simp] theorem State.setGrid_grids (s : State) (g : Grid) : (s.setGrid g).grids = s.grids.map fun x => if x.id = g.id then g else x := rfl
@[simp] theorem State.setGrid_saved (s : State) (g : Grid) : (s.setGrid g).saved = s.saved := rfl
@[simp] theorem State.setGrid_cmds (s : State) (g : Grid) : (s.setGrid g).cmds = s.cmds := rfl
@[simp] theorem State.setGrid_devq (s : State) (g : Grid) : (s.setGrid g).devq = s.devq := rfl
@[simp] theorem State.setGrid_heads (s : State) (g : Grid) : (s.setGrid g).heads = s.heads := rfl
@[simp] theorem State.setGrid_mem (s : State) (g : Grid) : (s.setGrid g).mem = s.mem := rfl
@[simp] theorem State.setGrid_poison (s : State) (g : Grid) : (s.setGrid g).poison = s.poison := rfl
@[simp] theorem State.setGrid_hostA (s : State) (g : Grid) : (s.setGrid g).hostA = s.hostA := rfl
@[simp] theorem State.setGrid_hostB (s : State) (g : Grid) : (s.setGrid g).hostB = s.hostB := rfl
@[simp] theorem State.setGrid_hostPoison (s : State) (g : Grid) : (s.setGrid g).hostPoison = s.hostPoison := rfl
@[simp] theorem State.setGrid_hostPath (s : State) (g : Grid) : (s.setGrid g).hostPath = s.hostPath := rfl
@[simp] theorem State.setGrid_tlb (s : State) (g : Grid) : (s.setGrid g).tlb = s.tlb := rfl
@[simp] theorem State.setGrid_l1 (s : State) (g : Grid) : (s.setGrid g).l1 = s.l1 := rfl
@[simp] theorem State.setGrid_l2 (s : State) (g : Grid) : (s.setGrid g).l2 = s.l2 := rfl
@[simp] theorem State.setGrid_late (s : State) (g : Grid) : (s.setGrid g).late = s.late := rfl
@[simp] theorem State.setGrid_predictor (s : State) (g : Grid) : (s.setGrid g).predictor = s.predictor := rfl
@[simp] theorem State.setGrid_ctxs (s : State) (g : Grid) : (s.setGrid g).ctxs = s.ctxs := rfl
@[simp] theorem State.setGrid_host (s : State) (g : Grid) : (s.setGrid g).host = s.host := rfl
@[simp] theorem State.setGrid_fab (s : State) (g : Grid) : (s.setGrid g).fab = s.fab := rfl
@[simp] theorem State.setGrid_pow (s : State) (g : Grid) : (s.setGrid g).pow = s.pow := rfl
@[simp] theorem State.setGrid_fenced (s : State) (g : Grid) : (s.setGrid g).fenced = s.fenced := rfl
@[simp] theorem State.setGrid_corrected (s : State) (g : Grid) : (s.setGrid g).corrected = s.corrected := rfl
@[simp] theorem State.setGrid_latent (s : State) (g : Grid) : (s.setGrid g).latent = s.latent := rfl
@[simp] theorem State.setGrid_now (s : State) (g : Grid) : (s.setGrid g).now = s.now := rfl
@[simp] theorem State.setGrid_fresh (s : State) (g : Grid) : (s.setGrid g).fresh = s.fresh := rfl
@[simp] theorem State.setGrid_nextId (s : State) (g : Grid) : (s.setGrid g).nextId = s.nextId := rfl
@[simp] theorem State.setGrid_stamp (s : State) (g : Grid) : (s.setGrid g).stamp = s.stamp := rfl
@[simp] theorem State.setGrid_atQueue (s : State) (g : Grid) : (s.setGrid g).atQueue = s.atQueue := rfl

@[simp] theorem State.setCluster_inputs (s : State) (c : Nat) (x : Cluster) : (s.setCluster c x).inputs = s.inputs := rfl
@[simp] theorem State.setCluster_ag (s : State) (c : Nat) (x : Cluster) : (s.setCluster c x).ag = s.ag := rfl
@[simp] theorem State.setCluster_agents (s : State) (c : Nat) (x : Cluster) : (s.setCluster c x).agents = s.agents := rfl
@[simp] theorem State.setCluster_tm (s : State) (c : Nat) (x : Cluster) : (s.setCluster c x).tm = s.tm := rfl
@[simp] theorem State.setCluster_teams (s : State) (c : Nat) (x : Cluster) : (s.setCluster c x).teams = s.teams := rfl
@[simp] theorem State.setCluster_grids (s : State) (c : Nat) (x : Cluster) : (s.setCluster c x).grids = s.grids := rfl
@[simp] theorem State.setCluster_saved (s : State) (c : Nat) (x : Cluster) : (s.setCluster c x).saved = s.saved := rfl
@[simp] theorem State.setCluster_cmds (s : State) (c : Nat) (x : Cluster) : (s.setCluster c x).cmds = s.cmds := rfl
@[simp] theorem State.setCluster_devq (s : State) (c : Nat) (x : Cluster) : (s.setCluster c x).devq = s.devq := rfl
@[simp] theorem State.setCluster_heads (s : State) (c : Nat) (x : Cluster) : (s.setCluster c x).heads = s.heads := rfl
@[simp] theorem State.setCluster_mem (s : State) (c : Nat) (x : Cluster) : (s.setCluster c x).mem = s.mem := rfl
@[simp] theorem State.setCluster_poison (s : State) (c : Nat) (x : Cluster) : (s.setCluster c x).poison = s.poison := rfl
@[simp] theorem State.setCluster_hostA (s : State) (c : Nat) (x : Cluster) : (s.setCluster c x).hostA = s.hostA := rfl
@[simp] theorem State.setCluster_hostB (s : State) (c : Nat) (x : Cluster) : (s.setCluster c x).hostB = s.hostB := rfl
@[simp] theorem State.setCluster_hostPoison (s : State) (c : Nat) (x : Cluster) : (s.setCluster c x).hostPoison = s.hostPoison := rfl
@[simp] theorem State.setCluster_hostPath (s : State) (c : Nat) (x : Cluster) : (s.setCluster c x).hostPath = s.hostPath := rfl
@[simp] theorem State.setCluster_tlb (s : State) (c : Nat) (x : Cluster) : (s.setCluster c x).tlb = s.tlb := rfl
@[simp] theorem State.setCluster_l1 (s : State) (c : Nat) (x : Cluster) : (s.setCluster c x).l1 = s.l1 := rfl
@[simp] theorem State.setCluster_l2 (s : State) (c : Nat) (x : Cluster) : (s.setCluster c x).l2 = s.l2 := rfl
@[simp] theorem State.setCluster_late (s : State) (c : Nat) (x : Cluster) : (s.setCluster c x).late = s.late := rfl
@[simp] theorem State.setCluster_predictor (s : State) (c : Nat) (x : Cluster) : (s.setCluster c x).predictor = s.predictor := rfl
@[simp] theorem State.setCluster_ctxs (s : State) (c : Nat) (x : Cluster) : (s.setCluster c x).ctxs = s.ctxs := rfl
@[simp] theorem State.setCluster_host (s : State) (c : Nat) (x : Cluster) : (s.setCluster c x).host = s.host := rfl
@[simp] theorem State.setCluster_fab (s : State) (c : Nat) (x : Cluster) : (s.setCluster c x).fab = s.fab := rfl
@[simp] theorem State.setCluster_fenced (s : State) (c : Nat) (x : Cluster) : (s.setCluster c x).fenced = s.fenced := rfl
@[simp] theorem State.setCluster_corrected (s : State) (c : Nat) (x : Cluster) : (s.setCluster c x).corrected = s.corrected := rfl
@[simp] theorem State.setCluster_latent (s : State) (c : Nat) (x : Cluster) : (s.setCluster c x).latent = s.latent := rfl
@[simp] theorem State.setCluster_now (s : State) (c : Nat) (x : Cluster) : (s.setCluster c x).now = s.now := rfl
@[simp] theorem State.setCluster_fresh (s : State) (c : Nat) (x : Cluster) : (s.setCluster c x).fresh = s.fresh := rfl
@[simp] theorem State.setCluster_nextId (s : State) (c : Nat) (x : Cluster) : (s.setCluster c x).nextId = s.nextId := rfl
@[simp] theorem State.setCluster_stamp (s : State) (c : Nat) (x : Cluster) : (s.setCluster c x).stamp = s.stamp := rfl
@[simp] theorem State.setCluster_atQueue (s : State) (c : Nat) (x : Cluster) : (s.setCluster c x).atQueue = s.atQueue := rfl

@[simp] theorem State.setSem_inputs (s : State) (n : Fin 32) (x : Semaphore) : (s.setSem n x).inputs = s.inputs := rfl
@[simp] theorem State.setSem_ag (s : State) (n : Fin 32) (x : Semaphore) : (s.setSem n x).ag = s.ag := rfl
@[simp] theorem State.setSem_agents (s : State) (n : Fin 32) (x : Semaphore) : (s.setSem n x).agents = s.agents := rfl
@[simp] theorem State.setSem_tm (s : State) (n : Fin 32) (x : Semaphore) : (s.setSem n x).tm = s.tm := rfl
@[simp] theorem State.setSem_teams (s : State) (n : Fin 32) (x : Semaphore) : (s.setSem n x).teams = s.teams := rfl
@[simp] theorem State.setSem_grids (s : State) (n : Fin 32) (x : Semaphore) : (s.setSem n x).grids = s.grids := rfl
@[simp] theorem State.setSem_saved (s : State) (n : Fin 32) (x : Semaphore) : (s.setSem n x).saved = s.saved := rfl
@[simp] theorem State.setSem_cmds (s : State) (n : Fin 32) (x : Semaphore) : (s.setSem n x).cmds = s.cmds := rfl
@[simp] theorem State.setSem_devq (s : State) (n : Fin 32) (x : Semaphore) : (s.setSem n x).devq = s.devq := rfl
@[simp] theorem State.setSem_heads (s : State) (n : Fin 32) (x : Semaphore) : (s.setSem n x).heads = s.heads := rfl
@[simp] theorem State.setSem_mem (s : State) (n : Fin 32) (x : Semaphore) : (s.setSem n x).mem = s.mem := rfl
@[simp] theorem State.setSem_poison (s : State) (n : Fin 32) (x : Semaphore) : (s.setSem n x).poison = s.poison := rfl
@[simp] theorem State.setSem_hostA (s : State) (n : Fin 32) (x : Semaphore) : (s.setSem n x).hostA = s.hostA := rfl
@[simp] theorem State.setSem_hostB (s : State) (n : Fin 32) (x : Semaphore) : (s.setSem n x).hostB = s.hostB := rfl
@[simp] theorem State.setSem_hostPoison (s : State) (n : Fin 32) (x : Semaphore) : (s.setSem n x).hostPoison = s.hostPoison := rfl
@[simp] theorem State.setSem_hostPath (s : State) (n : Fin 32) (x : Semaphore) : (s.setSem n x).hostPath = s.hostPath := rfl
@[simp] theorem State.setSem_tlb (s : State) (n : Fin 32) (x : Semaphore) : (s.setSem n x).tlb = s.tlb := rfl
@[simp] theorem State.setSem_l1 (s : State) (n : Fin 32) (x : Semaphore) : (s.setSem n x).l1 = s.l1 := rfl
@[simp] theorem State.setSem_l2 (s : State) (n : Fin 32) (x : Semaphore) : (s.setSem n x).l2 = s.l2 := rfl
@[simp] theorem State.setSem_late (s : State) (n : Fin 32) (x : Semaphore) : (s.setSem n x).late = s.late := rfl
@[simp] theorem State.setSem_predictor (s : State) (n : Fin 32) (x : Semaphore) : (s.setSem n x).predictor = s.predictor := rfl
@[simp] theorem State.setSem_ctxs (s : State) (n : Fin 32) (x : Semaphore) : (s.setSem n x).ctxs = s.ctxs := rfl
@[simp] theorem State.setSem_fab (s : State) (n : Fin 32) (x : Semaphore) : (s.setSem n x).fab = s.fab := rfl
@[simp] theorem State.setSem_pow (s : State) (n : Fin 32) (x : Semaphore) : (s.setSem n x).pow = s.pow := rfl
@[simp] theorem State.setSem_fenced (s : State) (n : Fin 32) (x : Semaphore) : (s.setSem n x).fenced = s.fenced := rfl
@[simp] theorem State.setSem_corrected (s : State) (n : Fin 32) (x : Semaphore) : (s.setSem n x).corrected = s.corrected := rfl
@[simp] theorem State.setSem_latent (s : State) (n : Fin 32) (x : Semaphore) : (s.setSem n x).latent = s.latent := rfl
@[simp] theorem State.setSem_now (s : State) (n : Fin 32) (x : Semaphore) : (s.setSem n x).now = s.now := rfl
@[simp] theorem State.setSem_fresh (s : State) (n : Fin 32) (x : Semaphore) : (s.setSem n x).fresh = s.fresh := rfl
@[simp] theorem State.setSem_nextId (s : State) (n : Fin 32) (x : Semaphore) : (s.setSem n x).nextId = s.nextId := rfl
@[simp] theorem State.setSem_stamp (s : State) (n : Fin 32) (x : Semaphore) : (s.setSem n x).stamp = s.stamp := rfl
@[simp] theorem State.setSem_atQueue (s : State) (n : Fin 32) (x : Semaphore) : (s.setSem n x).atQueue = s.atQueue := rfl

@[simp] theorem State.writePhys_inputs (s : State) (core n : Nat) (bs : List Byte) : (s.writePhys core n bs).inputs = s.inputs := rfl
@[simp] theorem State.writePhys_ag (s : State) (core n : Nat) (bs : List Byte) : (s.writePhys core n bs).ag = s.ag := rfl
@[simp] theorem State.writePhys_agents (s : State) (core n : Nat) (bs : List Byte) : (s.writePhys core n bs).agents = s.agents := rfl
@[simp] theorem State.writePhys_tm (s : State) (core n : Nat) (bs : List Byte) : (s.writePhys core n bs).tm = s.tm := rfl
@[simp] theorem State.writePhys_teams (s : State) (core n : Nat) (bs : List Byte) : (s.writePhys core n bs).teams = s.teams := rfl
@[simp] theorem State.writePhys_grids (s : State) (core n : Nat) (bs : List Byte) : (s.writePhys core n bs).grids = s.grids := rfl
@[simp] theorem State.writePhys_saved (s : State) (core n : Nat) (bs : List Byte) : (s.writePhys core n bs).saved = s.saved := rfl
@[simp] theorem State.writePhys_cmds (s : State) (core n : Nat) (bs : List Byte) : (s.writePhys core n bs).cmds = s.cmds := rfl
@[simp] theorem State.writePhys_devq (s : State) (core n : Nat) (bs : List Byte) : (s.writePhys core n bs).devq = s.devq := rfl
@[simp] theorem State.writePhys_heads (s : State) (core n : Nat) (bs : List Byte) : (s.writePhys core n bs).heads = s.heads := rfl
@[simp] theorem State.writePhys_mem (s : State) (core n : Nat) (bs : List Byte) : (s.writePhys core n bs).mem = s.mem.writeN n bs := rfl
@[simp] theorem State.writePhys_poison (s : State) (core n : Nat) (bs : List Byte) : (s.writePhys core n bs).poison = clearPoison s.poison n bs.length := rfl
@[simp] theorem State.writePhys_hostA (s : State) (core n : Nat) (bs : List Byte) : (s.writePhys core n bs).hostA = s.hostA := rfl
@[simp] theorem State.writePhys_hostB (s : State) (core n : Nat) (bs : List Byte) : (s.writePhys core n bs).hostB = s.hostB := rfl
@[simp] theorem State.writePhys_hostPoison (s : State) (core n : Nat) (bs : List Byte) : (s.writePhys core n bs).hostPoison = s.hostPoison := rfl
@[simp] theorem State.writePhys_hostPath (s : State) (core n : Nat) (bs : List Byte) : (s.writePhys core n bs).hostPath = s.hostPath := rfl
@[simp] theorem State.writePhys_tlb (s : State) (core n : Nat) (bs : List Byte) : (s.writePhys core n bs).tlb = s.tlb := rfl
@[simp] theorem State.writePhys_l2 (s : State) (core n : Nat) (bs : List Byte) : (s.writePhys core n bs).l2 = s.l2 := rfl
@[simp] theorem State.writePhys_late (s : State) (core n : Nat) (bs : List Byte) : (s.writePhys core n bs).late = s.late := rfl
@[simp] theorem State.writePhys_predictor (s : State) (core n : Nat) (bs : List Byte) : (s.writePhys core n bs).predictor = s.predictor := rfl
@[simp] theorem State.writePhys_ctxs (s : State) (core n : Nat) (bs : List Byte) : (s.writePhys core n bs).ctxs = s.ctxs := rfl
@[simp] theorem State.writePhys_host (s : State) (core n : Nat) (bs : List Byte) : (s.writePhys core n bs).host = s.host := rfl
@[simp] theorem State.writePhys_fab (s : State) (core n : Nat) (bs : List Byte) : (s.writePhys core n bs).fab = s.fab := rfl
@[simp] theorem State.writePhys_pow (s : State) (core n : Nat) (bs : List Byte) : (s.writePhys core n bs).pow = s.pow := rfl
@[simp] theorem State.writePhys_fenced (s : State) (core n : Nat) (bs : List Byte) : (s.writePhys core n bs).fenced = s.fenced := rfl
@[simp] theorem State.writePhys_corrected (s : State) (core n : Nat) (bs : List Byte) : (s.writePhys core n bs).corrected = s.corrected := rfl
@[simp] theorem State.writePhys_latent (s : State) (core n : Nat) (bs : List Byte) : (s.writePhys core n bs).latent = s.latent := rfl
@[simp] theorem State.writePhys_now (s : State) (core n : Nat) (bs : List Byte) : (s.writePhys core n bs).now = s.now := rfl
@[simp] theorem State.writePhys_fresh (s : State) (core n : Nat) (bs : List Byte) : (s.writePhys core n bs).fresh = s.fresh := rfl
@[simp] theorem State.writePhys_nextId (s : State) (core n : Nat) (bs : List Byte) : (s.writePhys core n bs).nextId = s.nextId := rfl
@[simp] theorem State.writePhys_stamp (s : State) (core n : Nat) (bs : List Byte) : (s.writePhys core n bs).stamp = s.stamp := rfl
@[simp] theorem State.writePhys_atQueue (s : State) (core n : Nat) (bs : List Byte) : (s.writePhys core n bs).atQueue = s.atQueue := rfl

@[simp] theorem State.begin_inputs (s : State)  : (s.begin).inputs = s.inputs := rfl
@[simp] theorem State.begin_ag (s : State)  : (s.begin).ag = s.ag := rfl
@[simp] theorem State.begin_agents (s : State)  : (s.begin).agents = s.agents := rfl
@[simp] theorem State.begin_tm (s : State)  : (s.begin).tm = s.tm := rfl
@[simp] theorem State.begin_teams (s : State)  : (s.begin).teams = s.teams := rfl
@[simp] theorem State.begin_grids (s : State)  : (s.begin).grids = s.grids := rfl
@[simp] theorem State.begin_saved (s : State)  : (s.begin).saved = s.saved := rfl
@[simp] theorem State.begin_cmds (s : State)  : (s.begin).cmds = s.cmds := rfl
@[simp] theorem State.begin_devq (s : State)  : (s.begin).devq = s.devq := rfl
@[simp] theorem State.begin_heads (s : State)  : (s.begin).heads = s.heads := rfl
@[simp] theorem State.begin_mem (s : State)  : (s.begin).mem = s.mem := rfl
@[simp] theorem State.begin_poison (s : State)  : (s.begin).poison = s.poison := rfl
@[simp] theorem State.begin_hostA (s : State)  : (s.begin).hostA = s.hostA := rfl
@[simp] theorem State.begin_hostB (s : State)  : (s.begin).hostB = s.hostB := rfl
@[simp] theorem State.begin_hostPoison (s : State)  : (s.begin).hostPoison = s.hostPoison := rfl
@[simp] theorem State.begin_hostPath (s : State)  : (s.begin).hostPath = s.hostPath := rfl
@[simp] theorem State.begin_tlb (s : State)  : (s.begin).tlb = s.tlb := rfl
@[simp] theorem State.begin_l1 (s : State)  : (s.begin).l1 = s.l1 := rfl
@[simp] theorem State.begin_l2 (s : State)  : (s.begin).l2 = s.l2 := rfl
@[simp] theorem State.begin_late (s : State)  : (s.begin).late = s.late := rfl
@[simp] theorem State.begin_predictor (s : State)  : (s.begin).predictor = s.predictor := rfl
@[simp] theorem State.begin_ctxs (s : State)  : (s.begin).ctxs = s.ctxs := rfl
@[simp] theorem State.begin_host (s : State)  : (s.begin).host = s.host := rfl
@[simp] theorem State.begin_fab (s : State)  : (s.begin).fab = s.fab := rfl
@[simp] theorem State.begin_pow (s : State)  : (s.begin).pow = s.pow := rfl
@[simp] theorem State.begin_fenced (s : State)  : (s.begin).fenced = s.fenced := rfl
@[simp] theorem State.begin_corrected (s : State)  : (s.begin).corrected = s.corrected := rfl
@[simp] theorem State.begin_latent (s : State)  : (s.begin).latent = s.latent := rfl
@[simp] theorem State.begin_now (s : State)  : (s.begin).now = s.now := rfl
@[simp] theorem State.begin_fresh (s : State)  : (s.begin).fresh = s.fresh + 65536 := rfl
@[simp] theorem State.begin_nextId (s : State)  : (s.begin).nextId = s.nextId := rfl
@[simp] theorem State.begin_stamp (s : State)  : (s.begin).stamp = s.stamp + 1 := rfl
@[simp] theorem State.begin_atQueue (s : State)  : (s.begin).atQueue = false := rfl

/-! ## Updates of an agent -/

@[simp] theorem Agent.goto_id (a : Agent) (pc : Word) : (a.goto pc).id = a.id := rfl
@[simp] theorem Agent.goto_rank (a : Agent) (pc : Word) : (a.goto pc).rank = a.rank := rfl
@[simp] theorem Agent.goto_slot (a : Agent) (pc : Word) : (a.goto pc).slot = a.slot := rfl
@[simp] theorem Agent.goto_role (a : Agent) (pc : Word) : (a.goto pc).role = a.role := rfl
@[simp] theorem Agent.goto_origin (a : Agent) (pc : Word) : (a.goto pc).origin = a.origin := rfl
@[simp] theorem Agent.goto_spc (a : Agent) (pc : Word) : (a.goto pc).spc = pc := rfl
@[simp] theorem Agent.goto_g (a : Agent) (pc : Word) : (a.goto pc).g = a.g := rfl
@[simp] theorem Agent.goto_trapG (a : Agent) (pc : Word) : (a.goto pc).trapG = a.trapG := rfl
@[simp] theorem Agent.goto_q (a : Agent) (pc : Word) : (a.goto pc).q = a.q := rfl
@[simp] theorem Agent.goto_trapMode (a : Agent) (pc : Word) : (a.goto pc).trapMode = a.trapMode := rfl
@[simp] theorem Agent.goto_fpmode (a : Agent) (pc : Word) : (a.goto pc).fpmode = a.fpmode := rfl
@[simp] theorem Agent.goto_fpflags (a : Agent) (pc : Word) : (a.goto pc).fpflags = a.fpflags := rfl
@[simp] theorem Agent.goto_fault (a : Agent) (pc : Word) : (a.goto pc).fault = a.fault := rfl
@[simp] theorem Agent.goto_faultaddr (a : Agent) (pc : Word) : (a.goto pc).faultaddr = a.faultaddr := rfl
@[simp] theorem Agent.goto_nextRid (a : Agent) (pc : Word) : (a.goto pc).nextRid = a.nextRid := rfl
@[simp] theorem Agent.goto_reg (a : Agent) (pc : Word) : (a.goto pc).reg = a.reg := rfl
@[simp] theorem Agent.goto_olds (a : Agent) (pc : Word) : (a.goto pc).olds = a.olds := rfl
@[simp] theorem Agent.goto_queue (a : Agent) (pc : Word) : (a.goto pc).queue = a.queue := rfl
@[simp] theorem Agent.goto_lphase (a : Agent) (pc : Word) : (a.goto pc).lphase = a.lphase := rfl
@[simp] theorem Agent.goto_running (a : Agent) (pc : Word) : (a.goto pc).running = a.running := rfl
@[simp] theorem Agent.goto_blockG (a : Agent) (pc : Word) : (a.goto pc).blockG = a.blockG := rfl
@[simp] theorem Agent.goto_blockTrap (a : Agent) (pc : Word) : (a.goto pc).blockTrap = a.blockTrap := rfl
@[simp] theorem Agent.goto_cur (a : Agent) (pc : Word) : (a.goto pc).cur = a.cur := rfl
@[simp] theorem Agent.goto_others (a : Agent) (pc : Word) : (a.goto pc).others = a.others := rfl
@[simp] theorem Agent.goto_stack (a : Agent) (pc : Word) : (a.goto pc).stack = a.stack := rfl
@[simp] theorem Agent.goto_latches (a : Agent) (pc : Word) : (a.goto pc).latches = a.latches := rfl
@[simp] theorem Agent.goto_chain (a : Agent) (pc : Word) : (a.goto pc).chain = a.chain := rfl
@[simp] theorem Agent.goto_vmap (a : Agent) (pc : Word) : (a.goto pc).vmap = a.vmap := rfl
@[simp] theorem Agent.goto_p (a : Agent) (pc : Word) : (a.goto pc).p = a.p := rfl
@[simp] theorem Agent.goto_status (a : Agent) (pc : Word) : (a.goto pc).status = a.status := rfl
@[simp] theorem Agent.goto_pend (a : Agent) (pc : Word) : (a.goto pc).pend = a.pend := rfl
@[simp] theorem Agent.goto_issued (a : Agent) (pc : Word) : (a.goto pc).issued = a.issued + 1 := rfl
@[simp] theorem Agent.goto_lastIssue (a : Agent) (pc : Word) : (a.goto pc).lastIssue = a.lastIssue := rfl
@[simp] theorem Agent.goto_atEntry (a : Agent) (pc : Word) : (a.goto pc).atEntry = false := rfl
@[simp] theorem Agent.goto_placed (a : Agent) (pc : Word) : (a.goto pc).placed = a.placed := rfl
@[simp] theorem Agent.goto_loads (a : Agent) (pc : Word) : (a.goto pc).loads = a.loads := rfl
@[simp] theorem Agent.goto_ahead (a : Agent) (pc : Word) : (a.goto pc).ahead = a.ahead := rfl
@[simp] theorem Agent.goto_owes (a : Agent) (pc : Word) : (a.goto pc).owes = a.owes := rfl

@[simp] theorem Agent.pop_id (a : Agent)  : (a.pop).id = a.id := rfl
@[simp] theorem Agent.pop_rank (a : Agent)  : (a.pop).rank = a.rank := rfl
@[simp] theorem Agent.pop_slot (a : Agent)  : (a.pop).slot = a.slot := rfl
@[simp] theorem Agent.pop_role (a : Agent)  : (a.pop).role = a.role := rfl
@[simp] theorem Agent.pop_origin (a : Agent)  : (a.pop).origin = a.origin := rfl
@[simp] theorem Agent.pop_spc (a : Agent)  : (a.pop).spc = a.spc := rfl
@[simp] theorem Agent.pop_g (a : Agent)  : (a.pop).g = a.g := rfl
@[simp] theorem Agent.pop_trapG (a : Agent)  : (a.pop).trapG = a.trapG := rfl
@[simp] theorem Agent.pop_q (a : Agent)  : (a.pop).q = a.q := rfl
@[simp] theorem Agent.pop_trapMode (a : Agent)  : (a.pop).trapMode = a.trapMode := rfl
@[simp] theorem Agent.pop_fpmode (a : Agent)  : (a.pop).fpmode = a.fpmode := rfl
@[simp] theorem Agent.pop_fpflags (a : Agent)  : (a.pop).fpflags = a.fpflags := rfl
@[simp] theorem Agent.pop_fault (a : Agent)  : (a.pop).fault = a.fault := rfl
@[simp] theorem Agent.pop_faultaddr (a : Agent)  : (a.pop).faultaddr = a.faultaddr := rfl
@[simp] theorem Agent.pop_nextRid (a : Agent)  : (a.pop).nextRid = a.nextRid := rfl
@[simp] theorem Agent.pop_reg (a : Agent)  : (a.pop).reg = a.reg := rfl
@[simp] theorem Agent.pop_queue (a : Agent)  : (a.pop).queue = a.queue.drop 1 := rfl
@[simp] theorem Agent.pop_lphase (a : Agent)  : (a.pop).lphase = a.lphase := rfl
@[simp] theorem Agent.pop_running (a : Agent)  : (a.pop).running = a.running := rfl
@[simp] theorem Agent.pop_blockG (a : Agent)  : (a.pop).blockG = a.blockG := rfl
@[simp] theorem Agent.pop_blockTrap (a : Agent)  : (a.pop).blockTrap = a.blockTrap := rfl
@[simp] theorem Agent.pop_cur (a : Agent)  : (a.pop).cur = a.cur := rfl
@[simp] theorem Agent.pop_others (a : Agent)  : (a.pop).others = a.others := rfl
@[simp] theorem Agent.pop_stack (a : Agent)  : (a.pop).stack = a.stack := rfl
@[simp] theorem Agent.pop_latches (a : Agent)  : (a.pop).latches = a.latches := rfl
@[simp] theorem Agent.pop_chain (a : Agent)  : (a.pop).chain = a.chain := rfl
@[simp] theorem Agent.pop_vmap (a : Agent)  : (a.pop).vmap = a.vmap := rfl
@[simp] theorem Agent.pop_p (a : Agent)  : (a.pop).p = a.p := rfl
@[simp] theorem Agent.pop_status (a : Agent)  : (a.pop).status = a.status := rfl
@[simp] theorem Agent.pop_pend (a : Agent)  : (a.pop).pend = a.pend := rfl
@[simp] theorem Agent.pop_issued (a : Agent)  : (a.pop).issued = a.issued := rfl
@[simp] theorem Agent.pop_lastIssue (a : Agent)  : (a.pop).lastIssue = a.lastIssue := rfl
@[simp] theorem Agent.pop_atEntry (a : Agent)  : (a.pop).atEntry = a.atEntry := rfl
@[simp] theorem Agent.pop_placed (a : Agent)  : (a.pop).placed = a.placed := rfl
@[simp] theorem Agent.pop_loads (a : Agent)  : (a.pop).loads = a.loads := rfl
@[simp] theorem Agent.pop_ahead (a : Agent)  : (a.pop).ahead = a.ahead := rfl
@[simp] theorem Agent.pop_owes (a : Agent)  : (a.pop).owes = a.owes := rfl

/-- A write of one g register changes only the two register files. -/
theorem Agent.setG_files (a : Agent) (d : Fin 64) (v : Word) : ∃ g tg, a.setG d v = { a with g := g, trapG := tg } := by
  unfold Agent.setG
  split
  · exact ⟨a.g, a.trapG, rfl⟩
  · split
    · exact ⟨a.g, _, rfl⟩
    · exact ⟨_, a.trapG, rfl⟩

@[simp] theorem Agent.setG_id (a : Agent) (d : Fin 64) (v : Word) : (a.setG d v).id = a.id := by
  obtain ⟨_, _, e⟩ := a.setG_files d v; rw [e]
@[simp] theorem Agent.setG_rank (a : Agent) (d : Fin 64) (v : Word) : (a.setG d v).rank = a.rank := by
  obtain ⟨_, _, e⟩ := a.setG_files d v; rw [e]
@[simp] theorem Agent.setG_slot (a : Agent) (d : Fin 64) (v : Word) : (a.setG d v).slot = a.slot := by
  obtain ⟨_, _, e⟩ := a.setG_files d v; rw [e]
@[simp] theorem Agent.setG_role (a : Agent) (d : Fin 64) (v : Word) : (a.setG d v).role = a.role := by
  obtain ⟨_, _, e⟩ := a.setG_files d v; rw [e]
@[simp] theorem Agent.setG_origin (a : Agent) (d : Fin 64) (v : Word) : (a.setG d v).origin = a.origin := by
  obtain ⟨_, _, e⟩ := a.setG_files d v; rw [e]
@[simp] theorem Agent.setG_spc (a : Agent) (d : Fin 64) (v : Word) : (a.setG d v).spc = a.spc := by
  obtain ⟨_, _, e⟩ := a.setG_files d v; rw [e]
@[simp] theorem Agent.setG_q (a : Agent) (d : Fin 64) (v : Word) : (a.setG d v).q = a.q := by
  obtain ⟨_, _, e⟩ := a.setG_files d v; rw [e]
@[simp] theorem Agent.setG_trapMode (a : Agent) (d : Fin 64) (v : Word) : (a.setG d v).trapMode = a.trapMode := by
  obtain ⟨_, _, e⟩ := a.setG_files d v; rw [e]
@[simp] theorem Agent.setG_fpmode (a : Agent) (d : Fin 64) (v : Word) : (a.setG d v).fpmode = a.fpmode := by
  obtain ⟨_, _, e⟩ := a.setG_files d v; rw [e]
@[simp] theorem Agent.setG_fpflags (a : Agent) (d : Fin 64) (v : Word) : (a.setG d v).fpflags = a.fpflags := by
  obtain ⟨_, _, e⟩ := a.setG_files d v; rw [e]
@[simp] theorem Agent.setG_fault (a : Agent) (d : Fin 64) (v : Word) : (a.setG d v).fault = a.fault := by
  obtain ⟨_, _, e⟩ := a.setG_files d v; rw [e]
@[simp] theorem Agent.setG_faultaddr (a : Agent) (d : Fin 64) (v : Word) : (a.setG d v).faultaddr = a.faultaddr := by
  obtain ⟨_, _, e⟩ := a.setG_files d v; rw [e]
@[simp] theorem Agent.setG_nextRid (a : Agent) (d : Fin 64) (v : Word) : (a.setG d v).nextRid = a.nextRid := by
  obtain ⟨_, _, e⟩ := a.setG_files d v; rw [e]
@[simp] theorem Agent.setG_reg (a : Agent) (d : Fin 64) (v : Word) : (a.setG d v).reg = a.reg := by
  obtain ⟨_, _, e⟩ := a.setG_files d v; rw [e]
@[simp] theorem Agent.setG_olds (a : Agent) (d : Fin 64) (v : Word) : (a.setG d v).olds = a.olds := by
  obtain ⟨_, _, e⟩ := a.setG_files d v; rw [e]
@[simp] theorem Agent.setG_queue (a : Agent) (d : Fin 64) (v : Word) : (a.setG d v).queue = a.queue := by
  obtain ⟨_, _, e⟩ := a.setG_files d v; rw [e]
@[simp] theorem Agent.setG_lphase (a : Agent) (d : Fin 64) (v : Word) : (a.setG d v).lphase = a.lphase := by
  obtain ⟨_, _, e⟩ := a.setG_files d v; rw [e]
@[simp] theorem Agent.setG_running (a : Agent) (d : Fin 64) (v : Word) : (a.setG d v).running = a.running := by
  obtain ⟨_, _, e⟩ := a.setG_files d v; rw [e]
@[simp] theorem Agent.setG_blockG (a : Agent) (d : Fin 64) (v : Word) : (a.setG d v).blockG = a.blockG := by
  obtain ⟨_, _, e⟩ := a.setG_files d v; rw [e]
@[simp] theorem Agent.setG_blockTrap (a : Agent) (d : Fin 64) (v : Word) : (a.setG d v).blockTrap = a.blockTrap := by
  obtain ⟨_, _, e⟩ := a.setG_files d v; rw [e]
@[simp] theorem Agent.setG_cur (a : Agent) (d : Fin 64) (v : Word) : (a.setG d v).cur = a.cur := by
  obtain ⟨_, _, e⟩ := a.setG_files d v; rw [e]
@[simp] theorem Agent.setG_others (a : Agent) (d : Fin 64) (v : Word) : (a.setG d v).others = a.others := by
  obtain ⟨_, _, e⟩ := a.setG_files d v; rw [e]
@[simp] theorem Agent.setG_stack (a : Agent) (d : Fin 64) (v : Word) : (a.setG d v).stack = a.stack := by
  obtain ⟨_, _, e⟩ := a.setG_files d v; rw [e]
@[simp] theorem Agent.setG_latches (a : Agent) (d : Fin 64) (v : Word) : (a.setG d v).latches = a.latches := by
  obtain ⟨_, _, e⟩ := a.setG_files d v; rw [e]
@[simp] theorem Agent.setG_chain (a : Agent) (d : Fin 64) (v : Word) : (a.setG d v).chain = a.chain := by
  obtain ⟨_, _, e⟩ := a.setG_files d v; rw [e]
@[simp] theorem Agent.setG_vmap (a : Agent) (d : Fin 64) (v : Word) : (a.setG d v).vmap = a.vmap := by
  obtain ⟨_, _, e⟩ := a.setG_files d v; rw [e]
@[simp] theorem Agent.setG_p (a : Agent) (d : Fin 64) (v : Word) : (a.setG d v).p = a.p := by
  obtain ⟨_, _, e⟩ := a.setG_files d v; rw [e]
@[simp] theorem Agent.setG_status (a : Agent) (d : Fin 64) (v : Word) : (a.setG d v).status = a.status := by
  obtain ⟨_, _, e⟩ := a.setG_files d v; rw [e]
@[simp] theorem Agent.setG_pend (a : Agent) (d : Fin 64) (v : Word) : (a.setG d v).pend = a.pend := by
  obtain ⟨_, _, e⟩ := a.setG_files d v; rw [e]
@[simp] theorem Agent.setG_issued (a : Agent) (d : Fin 64) (v : Word) : (a.setG d v).issued = a.issued := by
  obtain ⟨_, _, e⟩ := a.setG_files d v; rw [e]
@[simp] theorem Agent.setG_lastIssue (a : Agent) (d : Fin 64) (v : Word) : (a.setG d v).lastIssue = a.lastIssue := by
  obtain ⟨_, _, e⟩ := a.setG_files d v; rw [e]
@[simp] theorem Agent.setG_atEntry (a : Agent) (d : Fin 64) (v : Word) : (a.setG d v).atEntry = a.atEntry := by
  obtain ⟨_, _, e⟩ := a.setG_files d v; rw [e]
@[simp] theorem Agent.setG_placed (a : Agent) (d : Fin 64) (v : Word) : (a.setG d v).placed = a.placed := by
  obtain ⟨_, _, e⟩ := a.setG_files d v; rw [e]
@[simp] theorem Agent.setG_loads (a : Agent) (d : Fin 64) (v : Word) : (a.setG d v).loads = a.loads := by
  obtain ⟨_, _, e⟩ := a.setG_files d v; rw [e]
@[simp] theorem Agent.setG_ahead (a : Agent) (d : Fin 64) (v : Word) : (a.setG d v).ahead = a.ahead := by
  obtain ⟨_, _, e⟩ := a.setG_files d v; rw [e]
@[simp] theorem Agent.setG_owes (a : Agent) (d : Fin 64) (v : Word) : (a.setG d v).owes = a.owes := by
  obtain ⟨_, _, e⟩ := a.setG_files d v; rw [e]

@[simp] theorem Agent.setQ_id (a : Agent) (n : Fin 8) (v : Bool) : (a.setQ n v).id = a.id := by unfold Agent.setQ; split <;> rfl
@[simp] theorem Agent.setQ_rank (a : Agent) (n : Fin 8) (v : Bool) : (a.setQ n v).rank = a.rank := by unfold Agent.setQ; split <;> rfl
@[simp] theorem Agent.setQ_slot (a : Agent) (n : Fin 8) (v : Bool) : (a.setQ n v).slot = a.slot := by unfold Agent.setQ; split <;> rfl
@[simp] theorem Agent.setQ_role (a : Agent) (n : Fin 8) (v : Bool) : (a.setQ n v).role = a.role := by unfold Agent.setQ; split <;> rfl
@[simp] theorem Agent.setQ_origin (a : Agent) (n : Fin 8) (v : Bool) : (a.setQ n v).origin = a.origin := by unfold Agent.setQ; split <;> rfl
@[simp] theorem Agent.setQ_spc (a : Agent) (n : Fin 8) (v : Bool) : (a.setQ n v).spc = a.spc := by unfold Agent.setQ; split <;> rfl
@[simp] theorem Agent.setQ_g (a : Agent) (n : Fin 8) (v : Bool) : (a.setQ n v).g = a.g := by unfold Agent.setQ; split <;> rfl
@[simp] theorem Agent.setQ_trapG (a : Agent) (n : Fin 8) (v : Bool) : (a.setQ n v).trapG = a.trapG := by unfold Agent.setQ; split <;> rfl
@[simp] theorem Agent.setQ_trapMode (a : Agent) (n : Fin 8) (v : Bool) : (a.setQ n v).trapMode = a.trapMode := by unfold Agent.setQ; split <;> rfl
@[simp] theorem Agent.setQ_fpmode (a : Agent) (n : Fin 8) (v : Bool) : (a.setQ n v).fpmode = a.fpmode := by unfold Agent.setQ; split <;> rfl
@[simp] theorem Agent.setQ_fpflags (a : Agent) (n : Fin 8) (v : Bool) : (a.setQ n v).fpflags = a.fpflags := by unfold Agent.setQ; split <;> rfl
@[simp] theorem Agent.setQ_fault (a : Agent) (n : Fin 8) (v : Bool) : (a.setQ n v).fault = a.fault := by unfold Agent.setQ; split <;> rfl
@[simp] theorem Agent.setQ_faultaddr (a : Agent) (n : Fin 8) (v : Bool) : (a.setQ n v).faultaddr = a.faultaddr := by unfold Agent.setQ; split <;> rfl
@[simp] theorem Agent.setQ_nextRid (a : Agent) (n : Fin 8) (v : Bool) : (a.setQ n v).nextRid = a.nextRid := by unfold Agent.setQ; split <;> rfl
@[simp] theorem Agent.setQ_reg (a : Agent) (n : Fin 8) (v : Bool) : (a.setQ n v).reg = a.reg := by unfold Agent.setQ; split <;> rfl
@[simp] theorem Agent.setQ_olds (a : Agent) (n : Fin 8) (v : Bool) : (a.setQ n v).olds = a.olds := by unfold Agent.setQ; split <;> rfl
@[simp] theorem Agent.setQ_queue (a : Agent) (n : Fin 8) (v : Bool) : (a.setQ n v).queue = a.queue := by unfold Agent.setQ; split <;> rfl
@[simp] theorem Agent.setQ_lphase (a : Agent) (n : Fin 8) (v : Bool) : (a.setQ n v).lphase = a.lphase := by unfold Agent.setQ; split <;> rfl
@[simp] theorem Agent.setQ_running (a : Agent) (n : Fin 8) (v : Bool) : (a.setQ n v).running = a.running := by unfold Agent.setQ; split <;> rfl
@[simp] theorem Agent.setQ_blockG (a : Agent) (n : Fin 8) (v : Bool) : (a.setQ n v).blockG = a.blockG := by unfold Agent.setQ; split <;> rfl
@[simp] theorem Agent.setQ_blockTrap (a : Agent) (n : Fin 8) (v : Bool) : (a.setQ n v).blockTrap = a.blockTrap := by unfold Agent.setQ; split <;> rfl
@[simp] theorem Agent.setQ_cur (a : Agent) (n : Fin 8) (v : Bool) : (a.setQ n v).cur = a.cur := by unfold Agent.setQ; split <;> rfl
@[simp] theorem Agent.setQ_others (a : Agent) (n : Fin 8) (v : Bool) : (a.setQ n v).others = a.others := by unfold Agent.setQ; split <;> rfl
@[simp] theorem Agent.setQ_stack (a : Agent) (n : Fin 8) (v : Bool) : (a.setQ n v).stack = a.stack := by unfold Agent.setQ; split <;> rfl
@[simp] theorem Agent.setQ_latches (a : Agent) (n : Fin 8) (v : Bool) : (a.setQ n v).latches = a.latches := by unfold Agent.setQ; split <;> rfl
@[simp] theorem Agent.setQ_chain (a : Agent) (n : Fin 8) (v : Bool) : (a.setQ n v).chain = a.chain := by unfold Agent.setQ; split <;> rfl
@[simp] theorem Agent.setQ_vmap (a : Agent) (n : Fin 8) (v : Bool) : (a.setQ n v).vmap = a.vmap := by unfold Agent.setQ; split <;> rfl
@[simp] theorem Agent.setQ_p (a : Agent) (n : Fin 8) (v : Bool) : (a.setQ n v).p = a.p := by unfold Agent.setQ; split <;> rfl
@[simp] theorem Agent.setQ_status (a : Agent) (n : Fin 8) (v : Bool) : (a.setQ n v).status = a.status := by unfold Agent.setQ; split <;> rfl
@[simp] theorem Agent.setQ_pend (a : Agent) (n : Fin 8) (v : Bool) : (a.setQ n v).pend = a.pend := by unfold Agent.setQ; split <;> rfl
@[simp] theorem Agent.setQ_issued (a : Agent) (n : Fin 8) (v : Bool) : (a.setQ n v).issued = a.issued := by unfold Agent.setQ; split <;> rfl
@[simp] theorem Agent.setQ_lastIssue (a : Agent) (n : Fin 8) (v : Bool) : (a.setQ n v).lastIssue = a.lastIssue := by unfold Agent.setQ; split <;> rfl
@[simp] theorem Agent.setQ_atEntry (a : Agent) (n : Fin 8) (v : Bool) : (a.setQ n v).atEntry = a.atEntry := by unfold Agent.setQ; split <;> rfl
@[simp] theorem Agent.setQ_placed (a : Agent) (n : Fin 8) (v : Bool) : (a.setQ n v).placed = a.placed := by unfold Agent.setQ; split <;> rfl
@[simp] theorem Agent.setQ_loads (a : Agent) (n : Fin 8) (v : Bool) : (a.setQ n v).loads = a.loads := by unfold Agent.setQ; split <;> rfl
@[simp] theorem Agent.setQ_ahead (a : Agent) (n : Fin 8) (v : Bool) : (a.setQ n v).ahead = a.ahead := by unfold Agent.setQ; split <;> rfl
@[simp] theorem Agent.setQ_owes (a : Agent) (n : Fin 8) (v : Bool) : (a.setQ n v).owes = a.owes := by unfold Agent.setQ; split <;> rfl

end
end Sys2Proof.Machine
end

