-- ==== Sys2Proof/Laws/Registers.lean ====
section
/-! SUPPORT. What g registers, q predicates and lane predicates read as after a write, and what the shared operations of the scalar stream
leave. -/

namespace Sys2Proof.Machine

/-! ## g registers -/

theorem Agent.getG_zero (a : Agent) (n : Fin 64) (h : n.val = 0) : a.getG n = 0 := by simp [Agent.getG, h]

theorem Agent.setG_zero (a : Agent) (d : Fin 64) (v : Word) (h : d.val = 0) : a.setG d v = a := by
  unfold Agent.setG; rw [if_pos h]

theorem Agent.setG_trap (a : Agent) (d : Fin 64) (v : Word) (h : d.val ≠ 0) (ht : (a.trapMode && decide (56 ≤ d.val)) = true) :
    a.setG d v = { a with trapG := a.trapG.set d.val v 0 } := by
  unfold Agent.setG; rw [if_neg h, if_pos ht]

theorem Agent.setG_plain (a : Agent) (d : Fin 64) (v : Word) (h : d.val ≠ 0) (ht : (a.trapMode && decide (56 ≤ d.val)) = false) :
    a.setG d v = { a with g := a.g.set d.val v 0 } := by
  unfold Agent.setG; rw [if_neg h, if_neg (by simp [ht])]

/-- The three ways in which a write of a g register lands. -/
theorem Agent.setG_cases (a : Agent) (d : Fin 64) (v : Word) :
    (d.val = 0 ∧ a.setG d v = a)
    ∨ (d.val ≠ 0 ∧ a.trapMode = true ∧ 56 ≤ d.val ∧ a.setG d v = { a with trapG := a.trapG.set d.val v 0 })
    ∨ (d.val ≠ 0 ∧ (a.trapMode = false ∨ d.val < 56) ∧ a.setG d v = { a with g := a.g.set d.val v 0 }) := by
  by_cases h : d.val = 0
  · exact .inl ⟨h, Agent.setG_zero a d v h⟩
  · by_cases ht : (a.trapMode && decide (56 ≤ d.val)) = true
    · have := Bool.and_eq_true_iff.1 ht
      exact .inr (.inl ⟨h, this.1, of_decide_eq_true this.2, Agent.setG_trap a d v h ht⟩)
    · refine .inr (.inr ⟨h, ?_, Agent.setG_plain a d v h (by simpa using ht)⟩)
      cases hm : a.trapMode
      · exact .inl rfl
      · exact .inr (by simpa [hm] using ht)

/-- How a g register is read. -/
theorem Agent.gIn_eq (a : Agent) (mode : Bool) (n : Fin 64) :
    a.gIn mode n = if n.val = 0 then 0 else if mode = true ∧ 56 ≤ n.val then a.trapG.getD n.val 0 else a.g.getD n.val 0 := by
  unfold Agent.gIn Agent.getG
  simp only [Bool.and_eq_true, decide_eq_true_eq]

/-- A register as the agent names it now. -/
theorem Agent.getG_eq_gIn (a : Agent) (n : Fin 64) : a.getG n = a.gIn a.trapMode n := rfl

/-- The register that was written, as the agent names it. -/
theorem Agent.getG_setG_same (a : Agent) (d : Fin 64) (v : Word) : (a.setG d v).getG d = if d.val = 0 then 0 else v := by
  rw [Agent.getG_eq_gIn, Agent.setG_trapMode, Agent.gIn_eq]
  rcases Agent.setG_cases a d v with ⟨h, e⟩ | ⟨h, hm, hd, e⟩ | ⟨h, hm, e⟩
  · rw [if_pos h, if_pos h]
  · rw [if_neg h, if_neg h, if_pos ⟨hm, hd⟩, e]
    simp
  · rw [if_neg h, if_neg h, if_neg (by rintro ⟨h1, h2⟩; rcases hm with hm | hm; · simp [h1] at hm
                                       · omega), e]
    simp

/-- Every other g register reads as before, and so does the one of the same number in the other mode. -/
theorem Agent.gIn_setG_other (a : Agent) (d : Fin 64) (v : Word) (mode : Bool) (n : Fin 64)
    (h : n ≠ d ∨ (56 ≤ n.val ∧ mode ≠ a.trapMode)) : (a.setG d v).gIn mode n = a.gIn mode n := by
  rw [Agent.gIn_eq, Agent.gIn_eq]
  by_cases hn : n.val = d.val
  · have hnd : n = d := Fin.ext hn
    rcases h with h | ⟨h1, h2⟩
    · exact absurd hnd h
    · subst hnd
      rcases Agent.setG_cases a n v with ⟨h0, e⟩ | ⟨h0, hm, hd, e⟩ | ⟨h0, hm, e⟩
      · rw [e]
      · have : mode = false := by cases mode <;> simp_all
        rw [e, this]
        simp
      · have hf : a.trapMode = false := by rcases hm with hm | hm; · exact hm
                                           · omega
        have : mode = true := by cases mode <;> simp_all
        rw [e, this]
        simp [h1]
  · rcases Agent.setG_cases a d v with ⟨h0, e⟩ | ⟨h0, hm, hd, e⟩ | ⟨h0, hm, e⟩
    · rw [e]
    · rw [e]; simp [hn]
    · rw [e]; simp [hn]

theorem Agent.keepsG_setG (a : Agent) (d : Fin 64) (v : Word) : a.keepsG (a.setG d v) [d] := by
  intro mode n h
  exact Agent.gIn_setG_other a d v mode n (by simpa using h)

theorem Agent.keepsG_refl (a : Agent) (ds : List (Fin 64)) : a.keepsG a ds := fun _ _ _ => rfl

/-! ## q predicates -/

theorem Agent.getQ_setQ_same (a : Agent) (q : Fin 8) (v : Bool) : (a.setQ q v).getQ q = (q.val == 7 || v) := by
  unfold Agent.setQ Agent.getQ
  by_cases h : q.val = 7
  · simp [h]
  · have hq : q.val < 8 := q.isLt
    cases v <;> simp [h, hq]

theorem Agent.getQ_setQ_other (a : Agent) (q n : Fin 8) (v : Bool) (h : n ≠ q) : (a.setQ q v).getQ n = a.getQ n := by
  have hne : n.val ≠ q.val := fun e => h (Fin.ext e)
  unfold Agent.setQ Agent.getQ
  by_cases h7 : q.val = 7
  · simp [h7]
  · have hn : n.val < 8 := n.isLt
    by_cases hlt : n.val < q.val
    · cases v <;> simp [h7, hn, hlt]
    · have hs : n.val - q.val ≠ 0 := by omega
      cases v <;> simp [h7, hn, hlt, hs]

/-- A write of one q predicate changes only the predicates. -/
theorem Agent.setQ_files (a : Agent) (q : Fin 8) (v : Bool) : ∃ x, a.setQ q v = { a with q := x } := by
  unfold Agent.setQ; split <;> exact ⟨_, rfl⟩

theorem Agent.keepsQ_setQ (a : Agent) (q : Fin 8) (v : Bool) : a.keepsQ (a.setQ q v) [q] := by
  intro n h
  exact Agent.getQ_setQ_other a q n v (by simpa using h)

theorem Agent.keepsQ_refl (a : Agent) (ds : List (Fin 8)) : a.keepsQ a ds := fun _ _ => rfl

/-! ## Going on -/


/-- A write of one g register, and on to an address. -/
theorem went_setG_to (s : State) (d : Fin 64) (v pc : Word) :
    Went pc [d] [] s (s.modAg fun x => (x.setG d v).goto pc) ∧ (s.modAg fun x => (x.setG d v).goto pc).gIs d v := by
  have hk := Agent.keepsG_setG s.ag d v
  have hv := Agent.getG_setG_same s.ag d v
  obtain ⟨g, tg, e⟩ := Agent.setG_files s.ag d v
  unfold Went State.modAg State.gIs
  simp only [e] at hk hv ⊢
  exact ⟨⟨rfl, hk, fun _ _ => rfl, fun _ => by trivial⟩, hv⟩

/-- A write of one g register, and on to the next word. -/
theorem went_setG (s : State) (d : Fin 64) (v : Word) :
    Went (s.ag.spc + 4) [d] [] s (s.modAg fun x => x.setG d v).goNext ∧ (s.modAg fun x => x.setG d v).goNext.gIs d v := by
  have h := went_setG_to s d v (s.ag.spc + 4)
  have e : (s.modAg fun x => x.setG d v).goNext = s.modAg fun x => (x.setG d v).goto (s.ag.spc + 4) := by
    obtain ⟨g, tg, e⟩ := Agent.setG_files s.ag d v
    simp only [State.goNext, State.modAg, e]
  rw [e]; exact h

/-- A write of one q predicate, and on to the next word. -/
theorem went_setQ (s : State) (q : Fin 8) (v : Bool) :
    Went (s.ag.spc + 4) [] [q] s (s.modAg fun x => x.setQ q v).goNext ∧ (s.modAg fun x => x.setQ q v).goNext.qIs q v := by
  have hk := Agent.keepsQ_setQ s.ag q v
  have hv := Agent.getQ_setQ_same s.ag q v
  obtain ⟨x, e⟩ := Agent.setQ_files s.ag q v
  unfold Went State.goNext State.modAg State.qIs
  simp only [e] at hk hv ⊢
  exact ⟨⟨rfl, fun _ _ _ => rfl, hk, fun _ => by trivial⟩, hv⟩

/-- On to an address, with nothing written. -/
theorem went_goto (s : State) (pc : Word) : Went pc [] [] s (s.modAg fun x => x.goto pc) :=
  ⟨rfl, fun _ _ _ => rfl, fun _ _ => rfl, fun _ => rfl⟩

/-- A register operation takes effect once no queued entry makes it wait (R32). -/
theorem scoreboard_free {gr gw : BitVec 64} {qr qw : BitVec 8} {s : State} (f : State → Out) (h : s.ag.hazard gr gw qr qw = false) :
    scoreboard gr gw qr qw s f = f s := by simp [scoreboard, h]

/-- An instruction that waits for an empty lane queue takes effect once the queue is empty (R348). -/
theorem whenDrained_empty {s : State} (f : State → Out) (h : s.drained = true) : whenDrained s f = f s := by simp [whenDrained, h]

/-- An instruction of Table 2.4 takes effect in the lane queue, or where the queue is empty (R30). -/
theorem queued_ready {s : State} (i : Instr) (c : Bool) (gr gw : BitVec 64) (qw : BitVec 8) (f : State → Out)
    (h : s.atQueue = true ∨ s.drained = true) : queued i c gr gw qw s f = f s := by
  rcases h with h | h <;> simp [queued, h]

end Sys2Proof.Machine
end

