-- ==== Sys2Proof/Laws/Ops.lean ====
section
/-! SUPPORT. What each shared operation of the meanings can do, one lemma each: if it answers a next state, which one. -/

namespace Sys2Proof.Machine

/-! ## Inversions -/

/-- The scoreboard lets a meaning run, or nothing changes (R32). -/
theorem scoreboard_next {gr gw : BitVec 64} {qr qw : BitVec 8} {s t : State} {f : State → Out}
    (h : scoreboard gr gw qr qw s f = .next t) :
    (s.ag.hazard gr gw qr qw = true ∧ t = s) ∨ (s.ag.hazard gr gw qr qw = false ∧ f s = .next t) := by
  unfold scoreboard wait at h
  split at h
  · rename_i hz
    exact .inl ⟨hz, by cases h; rfl⟩
  · rename_i hz
    exact .inr ⟨by simpa using hz, h⟩

/-- An instruction that needs an empty lane queue runs with one, or nothing changes (R348). -/
theorem whenDrained_next {s t : State} {f : State → Out} (h : whenDrained s f = .next t) :
    (s.drained = true ∧ f s = .next t) ∨ (s.drained = false ∧ t = s) := by
  unfold whenDrained wait at h
  split at h
  · rename_i hd
    exact .inl ⟨hd, h⟩
  · rename_i hd
    exact .inr ⟨by simpa using hd, by cases h; rfl⟩

/-- An instruction of Table 2.4 takes effect, waits for room, or is placed in the lane queue (R30, R350). -/
theorem queued_next {i : Instr} {c : Bool} {gr gw : BitVec 64} {qw : BitVec 8} {s t : State} {f : State → Out}
    (h : queued i c gr gw qw s f = .next t) :
    ((s.atQueue = true ∨ s.drained = true) ∧ f s = .next t)
    ∨ ((16 ≤ s.ag.queue.length ∨ s.ag.canEnter = false) ∧ t = s)
    ∨ (c = true ∧ t = (s.enqueue (.instr i) gr gw qw).goNext.modAg fun a => a.enterRegion a.spc true)
    ∨ (c = false ∧ t = (s.enqueue (.instr i) gr gw qw).goNext) := by
  unfold queued wait at h
  split at h
  · rename_i hq
    exact .inl ⟨by simpa using hq, h⟩
  · split at h
    · rename_i hw
      refine .inr (.inl ⟨?_, by cases h; rfl⟩)
      simp only [Bool.or_eq_true, decide_eq_true_eq, Bool.and_eq_true, Bool.not_eq_true'] at hw
      exact hw.imp id And.right
    · cases c <;> simp at h
      · exact .inr (.inr (.inr ⟨rfl, h.symm⟩))
      · exact .inr (.inr (.inl ⟨rfl, h.symm⟩))

/-- A command at gang scope waits until every rank of the gang has registered (R247). -/
theorem gangSync_next {b : Bool} {s t : State} {f : State → Out} (h : gangSync b s f = .next t) : t = s ∨ f s = .next t := by
  unfold gangSync wait at h
  split at h
  · exact .inl (by cases h; rfl)
  · exact .inr h

/-- An access whose checks pass and that needs no fenced domain goes on. -/
theorem State.judge_go {s : State} {t : Team} {w : Who} {sp : AccSpec} {as : List LaneAcc} (h : s.checkAccesses t w sp as = none)
    (hf : s.accessFenced w sp as = false) : s.judge t w sp as = .go := by simp [State.judge, h, hf]

/-- A failed check is taken at once, unless it had to wait for memory that is fenced. -/
theorem State.judge_fail {s : State} {t : Team} {w : Who} {sp : AccSpec} {as : List LaneAcc} {f : Fail} (h : s.checkAccesses t w sp as = some f)
    (hf : f.late = false ∨ s.accessFenced w sp as = false) : s.judge t w sp as = .fail f := by
  rcases hf with hf | hf <;> simp [State.judge, h, hf]

/-- A scalar access goes on, takes the fault of its checks, or waits for a fenced domain (R187, R371). -/
theorem scalarAccess_next {sp : AccSpec} {x : LaneAcc} {s t : State} {f : State → Out} (h : scalarAccess sp x s f = .next t) :
    (∃ e, s.checkAccesses s.tm s.who sp [x] = some e ∧ t = s.memFault e false)
    ∨ (s.accessFenced s.who sp [x] = true ∧ t = s)
    ∨ (s.checkAccesses s.tm s.who sp [x] = none ∧ s.accessFenced s.who sp [x] = false
        ∧ f (if sp.acc.reads then s.beforeAccess x.ptr else s) = .next t) := by
  unfold scalarAccess wait State.judge at h
  cases hc : s.checkAccesses s.tm s.who sp [x] <;> cases hf : s.accessFenced s.who sp [x] <;> simp only [hc, hf] at h
  · exact .inr (.inr ⟨rfl, rfl, by simpa using h⟩)
  · exact .inr (.inl ⟨rfl, by cases h; rfl⟩)
  · exact .inl ⟨_, rfl, by simp at h; exact h.symm⟩
  · rename_i e
    cases hl : e.late <;> simp [hl] at h
    · exact .inl ⟨_, rfl, h.symm⟩
    · exact .inr (.inl ⟨rfl, h.symm⟩)

/-- A commit in the scalar stream goes to the next word and enters a region there; in the lane queue it only leaves it (R347, R348). -/
theorem State.commit_cases (s : State) :
    (s.atQueue = true ∧ s.commit = s.modAg Agent.pop)
    ∨ (s.atQueue = false ∧ s.commit = s.modAg fun a => (a.goto (a.spc + 4)).enterRegion (a.spc + 4) true) := by
  unfold State.commit
  cases h : s.atQueue
  · exact .inr ⟨rfl, by simp only [Bool.false_eq_true, if_false]; rfl⟩
  · exact .inl ⟨rfl, by simp⟩

/-- A write over a destination name: nothing for the same row, a wait while a command holds the old row, else the name gives up its row
(R316, R320). -/
theorem overwrite_next {b : Nat} {e : MapEntry} {s t : State} {f : State → Out} (h : overwrite b e s f = .next t) :
    (s.entry b = none ∧ f s = .next t)
    ∨ ∃ old, s.entry b = some old ∧ ((old.row = e.row ∧ t = s.commit)
        ∨ (old.row ≠ e.row ∧ s.held old.row = true ∧ t = s) ∨ (old.row ≠ e.row ∧ f (s.unmap b) = .next t)) := by
  unfold overwrite wait at h
  split at h
  · rename_i hn
    exact .inl ⟨hn, h⟩
  · rename_i old ho
    refine .inr ⟨old, ho, ?_⟩
    split at h
    · rename_i hr
      exact .inl ⟨hr, by cases h; rfl⟩
    · rename_i hr
      split at h
      · rename_i hh
        exact .inr (.inl ⟨hr, hh, by cases h; rfl⟩)
      · exact .inr (.inr ⟨hr, h⟩)

/-- The frame of a lane word (R85, R318): a stale latch faults, no active lane does nothing but capture zeros, or faults on a destination with an
alias (R316), a name that may not be used faults, a name that is not ready waits. -/
theorem laneRun_next {h : LaneHead} {latch : Bool} {us : List SrcUse} {ds : List Nat} {s t : State} {act : Mask → State → Out}
    (e : laneRun h latch us ds s act = .next t) :
    t = s.takeFault { code := 0x06, addr := s.ag.cur.lpc } true
    ∨ (s.active h = 0 ∧ t = (if latch then s.capture h.latch 0 (List.replicate 64 0) else s).nextLane h)
    ∨ (s.active h = 0 ∧ ∃ n, s.aliasedOf ds = some n ∧ Config.aliasInactive = true
        ∧ t = s.takeFault { code := 0x04, addr := BitVec.ofNat 64 n } true)
    ∨ (∃ f, s.checkNames us ds = some f ∧ t = s.takeFault { code := f.code, addr := f.addr } true)
    ∨ t = s
    ∨ act (s.active h) s = .next t := by
  unfold laneRun laneFault wait at e
  split at e
  · exact .inl (by cases e; rfl)
  · dsimp only at e
    split at e
    · rename_i h0
      split at e
      · rename_i n hn
        rw [Option.filter_eq_some_iff] at hn
        exact .inr (.inr (.inl ⟨h0, n, hn.1, hn.2, by cases e; rfl⟩))
      · exact .inr (.inl ⟨h0, by cases e; rfl⟩)
    · split at e
      · rename_i f hf
        exact .inr (.inr (.inr (.inl ⟨f, hf, by cases e; rfl⟩)))
      · split at e
        · exact .inr (.inr (.inr (.inr (.inl (by cases e; rfl)))))
        · exact .inr (.inr (.inr (.inr (.inr e))))

/-! ## Every outcome keeps the canonical form of the memories -/

theorem State.canonical_commit (s : State) (h : s.MemoryCanonical) : s.commit.MemoryCanonical :=
  State.canonical_of_bytes (State.bytes_commit s) h

theorem keeps_whenDrained (s : State) (f : State → Out) (hs : s.MemoryCanonical) (hf : Keeps (f s)) : Keeps (whenDrained s f) := by
  unfold whenDrained
  split
  · exact hf
  · exact keeps_wait s hs

theorem keeps_gangSync (b : Bool) (s : State) (f : State → Out) (hs : s.MemoryCanonical) (hf : Keeps (f s)) : Keeps (gangSync b s f) := by
  unfold gangSync
  split
  · exact keeps_wait s hs
  · exact hf

theorem keeps_laneFault (s : State) (code : Byte) (addr : Word) (hs : s.MemoryCanonical) : Keeps (laneFault s code addr) :=
  keeps_next (State.canonical_takeFault _ _ _ hs)

theorem keeps_scalarAccess (sp : AccSpec) (x : LaneAcc) (s : State) (f : State → Out) (hs : s.MemoryCanonical)
    (hf : ∀ t : State, t.MemoryCanonical → Keeps (f t)) : Keeps (scalarAccess sp x s f) := by
  unfold scalarAccess
  split
  · exact keeps_next (State.canonical_memFault _ _ _ hs)
  · exact keeps_wait s hs
  · refine hf _ ?_
    unfold State.beforeAccess
    repeat' split
    all_goals first
      | exact State.canonical_drainHost s hs
      | exact hs

theorem keeps_laneAccess (sp : AccSpec) (as : List LaneAcc) (s : State) (f : State → Out) (hs : s.MemoryCanonical)
    (hf : ∀ t : State, t.MemoryCanonical → Keeps (f t)) : Keeps (laneAccess sp as s f) := by
  unfold laneAccess
  split
  · exact keeps_next (State.canonical_memFault _ _ _ hs)
  · exact keeps_wait s hs
  · refine hf _ ?_
    split
    · exact State.canonical_drainHost s hs
    · exact hs

theorem keeps_onBarrier (a : Fin 64) (init : Bool) (s : State) (f : BarLoc → Word → State → Out) (hs : s.MemoryCanonical)
    (hf : ∀ l p, Keeps (f l p s)) : Keeps (onBarrier a init s f) := by
  refine keeps_whenDrained s _ hs ?_
  dsimp only
  split
  · exact keeps_fault s _ _ hs
  · exact hf _ _

end Sys2Proof.Machine
end

