-- ==== Sys2Proof/Laws/PerInstr.lean ====
section
/-! SUPPORT. Facts about every instruction, constructor by constructor: its words fit their 32, 64 or 96 bits. -/

namespace Sys2Proof.Laws

set_option Elab.async false

theorem b2n_lt (b : Bool) : b2n b < 2 := by cases b <;> decide
theorem Cond.code_lt (c : Cond) : c.code < 8 := by cases c <;> decide
theorem Scope.code_lt (s : Scope) : s.code < 8 := by cases s <;> decide
theorem Order.code_lt (o : Order) : o.code < 4 := by cases o <;> decide
theorem QOp.code_lt (f : QOp) : f.code < 8 := by cases f <;> decide
theorem SatomOp.code_lt (f : SatomOp) : f.code < 8 := by cases f <;> decide
theorem FenceKind.code_lt (k : FenceKind) : k.code < 4 := by cases k <;> decide
theorem KeyType.code_lt (k : KeyType) : k.code < 4 := by cases k <;> decide
theorem Rnd.code_lt (r : Rnd) : r.code < 8 := by cases r <;> decide
theorem Width.code_lt (x : Width) : x.code < 8 := by cases x <;> decide
theorem Ty.code_lt (t : Ty) : t.code < 32 := by cases t <;> decide
theorem Src.code_lt (s : Src) : s.code < 1024 := by cases s <;> simp only [Src.code] <;> omega

theorem encSR_lt (op d a b fn : Nat) (h : op < 64) (hd : d < 64) (ha : a < 64) (hb : b < 64) (hf : fn < 256) :
    encSR op d a b fn < 2 ^ 32 := by unfold encSR; omega
theorem encSI_lt (op d a i : Nat) (h : op < 64) (hd : d < 64) (ha : a < 64) (hi : i < 16384) : encSI op d a i < 2 ^ 32 := by
  unfold encSI; omega
theorem encSM_lt (op sub va vb k : Nat) (h : op < 64) (hs : sub < 8) (ha : va < 512) (hb : vb < 512) (hk : k < 32) :
    encSM op sub va vb k < 2 ^ 32 := by unfold encSM; omega
theorem encSE_lt (op q a b s fn : Nat) (h : op < 64) (hq : q < 8) (ha : a < 64) (hb : b < 64) (hs : s < 8) (hf : fn < 256) :
    encSE op q a b s fn < 2 ^ 32 := by unfold encSE; omega
theorem encEng_lt (op : Nat) (e : EngOps) (fn : Nat) (h : op < 64) (hf : fn < 64) : encEng op e fn < 2 ^ 32 := by
  have := b2n_lt e.acq
  have := b2n_lt e.rel
  exact encSE_lt _ _ _ _ _ _ h e.q.isLt e.a.isLt e.b.isLt (Scope.code_lt _) (by omega)
theorem encSB_lt (op q : Nat) (n : Bool) (o : BitVec 22) (h : op < 64) (hq : q < 8) : encSB op q n o < 2 ^ 32 := by
  have := b2n_lt n
  have := o.isLt
  unfold encSB; omega
theorem encHead_lt (op : Nat) (h : LaneHead) (ho : op < 256) : encHead op h < 2 ^ 96 - 2 ^ 71 + 1 ∧ 2 ^ 71 ∣ encHead op h := by
  have := b2n_lt h.gneg
  have := b2n_lt h.chain
  have := b2n_lt h.nowb
  unfold encHead
  constructor <;> omega
theorem encSources_lt (a b c : Src) (t : Ty) : encSources a b c t + 2 ^ 36 ≤ 2 ^ 71 := by
  have := Src.code_lt a
  have := Src.code_lt b
  have := Src.code_lt c
  have := Ty.code_lt t
  unfold encSources; omega
theorem encArith_lt (op : Nat) (w : ArithOps) (ho : op < 256) : encArith op w < 2 ^ 96 := by
  have := (encHead_lt op w.h ho).1
  have := encSources_lt w.a w.b w.c w.ty
  have := Rnd.code_lt w.m.rnd
  have := b2n_lt w.m.negA
  have := b2n_lt w.m.negB
  have := b2n_lt w.m.negC
  have := b2n_lt w.m.absA
  have := b2n_lt w.m.absB
  have := b2n_lt w.m.sat
  have := w.imm.isLt
  unfold encArith; omega
theorem encMem_lt (op : Nat) (w : MemOps) (ho : op < 256) : encMem op w < 2 ^ 96 := by
  have := (encHead_lt op w.h ho).1
  have := encSources_lt w.a w.b w.c w.ty
  have := Scope.code_lt w.scope
  have := Order.code_lt w.order
  have := Width.code_lt w.width
  have := b2n_lt w.uni
  have := w.hint.isLt
  have := w.imm.isLt
  unfold encMem; omega
theorem encCtl_lt (op : Nat) (w : CtlOps) (ho : op < 256) : encCtl op w < 2 ^ 96 := by
  have := (encHead_lt op w.h ho).1
  have := b2n_lt w.pneg
  have := w.pred.isLt
  have := w.imm.isLt
  unfold encCtl; omega

/-- The words of a code fit their bits. -/
def CodeFits.fits : Option Code → Prop
  | none => True
  | some (.scalar w) => w < 2 ^ 32
  | some (.hint w bm) => w < 2 ^ 32 ∧ bm < 2 ^ 64
  | some (.lane w) => w < 2 ^ 96

/-- The words that an instruction encodes to fit their bits. -/
def CodeFits.Statement (i : Instr) : Prop := CodeFits.fits (encode i)

theorem CodeFits.sadd (d a b : Fin 64) : CodeFits.Statement (.sadd d a b) := by
  have := d.isLt
  have := a.isLt
  have := b.isLt
  simp only [CodeFits.Statement, encode, CodeFits.fits, encSR]
  omega
theorem CodeFits.ssub (d a b : Fin 64) : CodeFits.Statement (.ssub d a b) := by
  have := d.isLt
  have := a.isLt
  have := b.isLt
  simp only [CodeFits.Statement, encode, CodeFits.fits, encSR]
  omega
theorem CodeFits.smul (d a b : Fin 64) : CodeFits.Statement (.smul d a b) := by
  have := d.isLt
  have := a.isLt
  have := b.isLt
  simp only [CodeFits.Statement, encode, CodeFits.fits, encSR]
  omega
theorem CodeFits.smulh (d a b : Fin 64) : CodeFits.Statement (.smulh d a b) := by
  have := d.isLt
  have := a.isLt
  have := b.isLt
  simp only [CodeFits.Statement, encode, CodeFits.fits, encSR]
  omega
theorem CodeFits.smulhu (d a b : Fin 64) : CodeFits.Statement (.smulhu d a b) := by
  have := d.isLt
  have := a.isLt
  have := b.isLt
  simp only [CodeFits.Statement, encode, CodeFits.fits, encSR]
  omega
theorem CodeFits.sdiv (d a b : Fin 64) : CodeFits.Statement (.sdiv d a b) := by
  have := d.isLt
  have := a.isLt
  have := b.isLt
  simp only [CodeFits.Statement, encode, CodeFits.fits, encSR]
  omega
theorem CodeFits.sdivu (d a b : Fin 64) : CodeFits.Statement (.sdivu d a b) := by
  have := d.isLt
  have := a.isLt
  have := b.isLt
  simp only [CodeFits.Statement, encode, CodeFits.fits, encSR]
  omega
theorem CodeFits.srem (d a b : Fin 64) : CodeFits.Statement (.srem d a b) := by
  have := d.isLt
  have := a.isLt
  have := b.isLt
  simp only [CodeFits.Statement, encode, CodeFits.fits, encSR]
  omega
theorem CodeFits.sremu (d a b : Fin 64) : CodeFits.Statement (.sremu d a b) := by
  have := d.isLt
  have := a.isLt
  have := b.isLt
  simp only [CodeFits.Statement, encode, CodeFits.fits, encSR]
  omega
theorem CodeFits.sand (d a b : Fin 64) : CodeFits.Statement (.sand d a b) := by
  have := d.isLt
  have := a.isLt
  have := b.isLt
  simp only [CodeFits.Statement, encode, CodeFits.fits, encSR]
  omega
theorem CodeFits.sor (d a b : Fin 64) : CodeFits.Statement (.sor d a b) := by
  have := d.isLt
  have := a.isLt
  have := b.isLt
  simp only [CodeFits.Statement, encode, CodeFits.fits, encSR]
  omega
theorem CodeFits.sxor (d a b : Fin 64) : CodeFits.Statement (.sxor d a b) := by
  have := d.isLt
  have := a.isLt
  have := b.isLt
  simp only [CodeFits.Statement, encode, CodeFits.fits, encSR]
  omega
theorem CodeFits.sandn (d a b : Fin 64) : CodeFits.Statement (.sandn d a b) := by
  have := d.isLt
  have := a.isLt
  have := b.isLt
  simp only [CodeFits.Statement, encode, CodeFits.fits, encSR]
  omega
theorem CodeFits.sshl (d a b : Fin 64) : CodeFits.Statement (.sshl d a b) := by
  have := d.isLt
  have := a.isLt
  have := b.isLt
  simp only [CodeFits.Statement, encode, CodeFits.fits, encSR]
  omega
theorem CodeFits.sshr (d a b : Fin 64) : CodeFits.Statement (.sshr d a b) := by
  have := d.isLt
  have := a.isLt
  have := b.isLt
  simp only [CodeFits.Statement, encode, CodeFits.fits, encSR]
  omega
theorem CodeFits.ssar (d a b : Fin 64) : CodeFits.Statement (.ssar d a b) := by
  have := d.isLt
  have := a.isLt
  have := b.isLt
  simp only [CodeFits.Statement, encode, CodeFits.fits, encSR]
  omega
theorem CodeFits.smin (d a b : Fin 64) : CodeFits.Statement (.smin d a b) := by
  have := d.isLt
  have := a.isLt
  have := b.isLt
  simp only [CodeFits.Statement, encode, CodeFits.fits, encSR]
  omega
theorem CodeFits.smax (d a b : Fin 64) : CodeFits.Statement (.smax d a b) := by
  have := d.isLt
  have := a.isLt
  have := b.isLt
  simp only [CodeFits.Statement, encode, CodeFits.fits, encSR]
  omega
theorem CodeFits.sminu (d a b : Fin 64) : CodeFits.Statement (.sminu d a b) := by
  have := d.isLt
  have := a.isLt
  have := b.isLt
  simp only [CodeFits.Statement, encode, CodeFits.fits, encSR]
  omega
theorem CodeFits.smaxu (d a b : Fin 64) : CodeFits.Statement (.smaxu d a b) := by
  have := d.isLt
  have := a.isLt
  have := b.isLt
  simp only [CodeFits.Statement, encode, CodeFits.fits, encSR]
  omega
theorem CodeFits.spopc (d a : Fin 64) : CodeFits.Statement (.spopc d a) := by
  have := d.isLt
  have := a.isLt
  simp only [CodeFits.Statement, encode, CodeFits.fits, encSR]
  omega
theorem CodeFits.sclz (d a : Fin 64) : CodeFits.Statement (.sclz d a) := by
  have := d.isLt
  have := a.isLt
  simp only [CodeFits.Statement, encode, CodeFits.fits, encSR]
  omega
theorem CodeFits.sctz (d a : Fin 64) : CodeFits.Statement (.sctz d a) := by
  have := d.isLt
  have := a.isLt
  simp only [CodeFits.Statement, encode, CodeFits.fits, encSR]
  omega
theorem CodeFits.saddi (d a : Fin 64) (i : BitVec 14) : CodeFits.Statement (.saddi d a i) := by
  have := d.isLt
  have := a.isLt
  have := i.isLt
  simp only [CodeFits.Statement, encode, CodeFits.fits, encSI]
  omega
theorem CodeFits.sandi (d a : Fin 64) (i : BitVec 14) : CodeFits.Statement (.sandi d a i) := by
  have := d.isLt
  have := a.isLt
  have := i.isLt
  simp only [CodeFits.Statement, encode, CodeFits.fits, encSI]
  omega
theorem CodeFits.sori (d a : Fin 64) (i : BitVec 14) : CodeFits.Statement (.sori d a i) := by
  have := d.isLt
  have := a.isLt
  have := i.isLt
  simp only [CodeFits.Statement, encode, CodeFits.fits, encSI]
  omega
theorem CodeFits.sxori (d a : Fin 64) (i : BitVec 14) : CodeFits.Statement (.sxori d a i) := by
  have := d.isLt
  have := a.isLt
  have := i.isLt
  simp only [CodeFits.Statement, encode, CodeFits.fits, encSI]
  omega
theorem CodeFits.sshli (d a n : Fin 64) : CodeFits.Statement (.sshli d a n) := by
  have := d.isLt
  have := a.isLt
  have := n.isLt
  simp only [CodeFits.Statement, encode, CodeFits.fits, encSI]
  omega
theorem CodeFits.sshri (d a n : Fin 64) : CodeFits.Statement (.sshri d a n) := by
  have := d.isLt
  have := a.isLt
  have := n.isLt
  simp only [CodeFits.Statement, encode, CodeFits.fits, encSI]
  omega
theorem CodeFits.ssari (d a n : Fin 64) : CodeFits.Statement (.ssari d a n) := by
  have := d.isLt
  have := a.isLt
  have := n.isLt
  simp only [CodeFits.Statement, encode, CodeFits.fits, encSI]
  omega
theorem CodeFits.slui (d : Fin 64) (i : BitVec 20) : CodeFits.Statement (.slui d i) := by
  have := d.isLt
  have := i.isLt
  simp only [CodeFits.Statement, encode, CodeFits.fits]
  omega
theorem CodeFits.slpc (d : Fin 64) (i : BitVec 20) : CodeFits.Statement (.slpc d i) := by
  have := d.isLt
  have := i.isLt
  simp only [CodeFits.Statement, encode, CodeFits.fits]
  omega
theorem CodeFits.scmp (q : Fin 8) (c : Cond) (a b : Fin 64) : CodeFits.Statement (.scmp q c a b) := by
  have := q.isLt
  have := Cond.code_lt c
  have := a.isLt
  have := b.isLt
  simp only [CodeFits.Statement, encode, CodeFits.fits]
  omega
theorem CodeFits.scmpi (q : Fin 8) (c : Cond) (a : Fin 64) (i : BitVec 14) : CodeFits.Statement (.scmpi q c a i) := by
  have := q.isLt
  have := Cond.code_lt c
  have := a.isLt
  have := i.isLt
  simp only [CodeFits.Statement, encode, CodeFits.fits]
  omega
theorem CodeFits.ssel (d a b : Fin 64) (p : Fin 8) : CodeFits.Statement (.ssel d a b p) := by
  have := d.isLt
  have := a.isLt
  have := b.isLt
  have := p.isLt
  simp only [CodeFits.Statement, encode, CodeFits.fits, encSR]
  omega
theorem CodeFits.qlog (d a b : Fin 8) (f : QOp) : CodeFits.Statement (.qlog d a b f) := by
  have := d.isLt
  have := a.isLt
  have := b.isLt
  have := QOp.code_lt f
  simp only [CodeFits.Statement, encode, CodeFits.fits]
  omega
theorem CodeFits.br (q : Fin 8) (n : Bool) (o : BitVec 22) : CodeFits.Statement (.br q n o) := by
  have := q.isLt
  have := b2n_lt n
  have := o.isLt
  simp only [CodeFits.Statement, encode, CodeFits.fits, encSB]
  omega
theorem CodeFits.call (o : BitVec 22) : CodeFits.Statement (.call o) := by
  have := o.isLt
  have := b2n_lt false
  simp only [CodeFits.Statement, encode, CodeFits.fits, encSB]
  omega
theorem CodeFits.jr (d a : Fin 64) : CodeFits.Statement (.jr d a) := by
  have := d.isLt
  have := a.isLt
  simp only [CodeFits.Statement, encode, CodeFits.fits, encSR]
  omega
theorem CodeFits.lrun (q : Fin 8) (n : Bool) (o : BitVec 22) : CodeFits.Statement (.lrun q n o) := by
  have := q.isLt
  have := b2n_lt n
  have := o.isLt
  simp only [CodeFits.Statement, encode, CodeFits.fits, encSB]
  omega
theorem CodeFits.lsync : CodeFits.Statement (.lsync) := by
  simp only [CodeFits.Statement, encode, CodeFits.fits]
  omega
theorem CodeFits.sld64 (d a : Fin 64) (i : BitVec 14) : CodeFits.Statement (.sld64 d a i) := by
  have := d.isLt
  have := a.isLt
  have := i.isLt
  simp only [CodeFits.Statement, encode, CodeFits.fits, encSI]
  omega
theorem CodeFits.sld32 (d a : Fin 64) (i : BitVec 14) : CodeFits.Statement (.sld32 d a i) := by
  have := d.isLt
  have := a.isLt
  have := i.isLt
  simp only [CodeFits.Statement, encode, CodeFits.fits, encSI]
  omega
theorem CodeFits.sst64 (d a : Fin 64) (i : BitVec 14) : CodeFits.Statement (.sst64 d a i) := by
  have := d.isLt
  have := a.isLt
  have := i.isLt
  simp only [CodeFits.Statement, encode, CodeFits.fits, encSI]
  omega
theorem CodeFits.sst32 (d a : Fin 64) (i : BitVec 14) : CodeFits.Statement (.sst32 d a i) := by
  have := d.isLt
  have := a.isLt
  have := i.isLt
  simp only [CodeFits.Statement, encode, CodeFits.fits, encSI]
  omega
theorem CodeFits.satom (d a b : Fin 64) (s : Scope) (o : Order) (f : SatomOp) : CodeFits.Statement (.satom d a b s o f) := by
  have := d.isLt
  have := a.isLt
  have := b.isLt
  have := Scope.code_lt s
  have := Order.code_lt o
  have := SatomOp.code_lt f
  simp only [CodeFits.Statement, encode, CodeFits.fits, encSR]
  omega
theorem CodeFits.scas (d a b : Fin 64) (s : Scope) (o : Order) : CodeFits.Statement (.scas d a b s o) := by
  have := d.isLt
  have := a.isLt
  have := b.isLt
  have := Scope.code_lt s
  have := Order.code_lt o
  simp only [CodeFits.Statement, encode, CodeFits.fits, encSR]
  omega
theorem CodeFits.fence (s : Scope) (k : FenceKind) : CodeFits.Statement (.fence s k) := by
  have := Scope.code_lt s
  have := FenceKind.code_lt k
  simp only [CodeFits.Statement, encode, CodeFits.fits, encSR]
  omega
theorem CodeFits.mswap (a b : Fin 512) : CodeFits.Statement (.mswap a b) := by
  have := a.isLt
  have := b.isLt
  simp only [CodeFits.Statement, encode, CodeFits.fits, encSM]
  omega
theorem CodeFits.mrot (a : Fin 512) (k : Fin 32) : CodeFits.Statement (.mrot a k) := by
  have := a.isLt
  have := k.isLt
  simp only [CodeFits.Statement, encode, CodeFits.fits, encSM]
  omega
theorem CodeFits.mfree (a : Fin 512) (k : Fin 32) : CodeFits.Statement (.mfree a k) := by
  have := a.isLt
  have := k.isLt
  simp only [CodeFits.Statement, encode, CodeFits.fits, encSM]
  omega
theorem CodeFits.malias (a b : Fin 512) : CodeFits.Statement (.malias a b) := by
  have := a.isLt
  have := b.isLt
  simp only [CodeFits.Statement, encode, CodeFits.fits, encSM]
  omega
theorem CodeFits.mmove (a b : Fin 512) : CodeFits.Statement (.mmove a b) := by
  have := a.isLt
  have := b.isLt
  simp only [CodeFits.Statement, encode, CodeFits.fits, encSM]
  omega
theorem CodeFits.mtag (a : Fin 512) (t : BitVec 4) (k : Fin 32) : CodeFits.Statement (.mtag a t k) := by
  have := a.isLt
  have := t.isLt
  have := k.isLt
  simp only [CodeFits.Statement, encode, CodeFits.fits, encSM]
  omega
theorem CodeFits.mgive (a : Fin 512) (k : Fin 32) : CodeFits.Statement (.mgive a k) := by
  have := a.isLt
  have := k.isLt
  simp only [CodeFits.Statement, encode, CodeFits.fits, encSM]
  omega
theorem CodeFits.mtake (b : Fin 512) (k : Fin 32) : CodeFits.Statement (.mtake b k) := by
  have := b.isLt
  have := k.isLt
  simp only [CodeFits.Statement, encode, CodeFits.fits, encSM]
  omega
theorem CodeFits.mplace (a b : Fin 512) (k : Fin 32) : CodeFits.Statement (.mplace a b k) := by
  have := a.isLt
  have := b.isLt
  have := k.isLt
  simp only [CodeFits.Statement, encode, CodeFits.fits, encSM]
  omega
theorem CodeFits.mqry (d : Fin 64) (n : Fin 512) : CodeFits.Statement (.mqry d n) := by
  have := d.isLt
  have := n.isLt
  simp only [CodeFits.Statement, encode, CodeFits.fits]
  omega
theorem CodeFits.binit (a b : Fin 64) (s : Scope) : CodeFits.Statement (.binit a b s) := by
  have := a.isLt
  have := b.isLt
  have := Scope.code_lt s
  simp only [CodeFits.Statement, encode, CodeFits.fits, encSE]
  omega
theorem CodeFits.barr (a b : Fin 64) (s : Scope) : CodeFits.Statement (.barr a b s) := by
  have := a.isLt
  have := b.isLt
  have := Scope.code_lt s
  simp only [CodeFits.Statement, encode, CodeFits.fits, encSE]
  omega
theorem CodeFits.bexp (a b : Fin 64) (s : Scope) : CodeFits.Statement (.bexp a b s) := by
  have := a.isLt
  have := b.isLt
  have := Scope.code_lt s
  simp only [CodeFits.Statement, encode, CodeFits.fits, encSE]
  omega
theorem CodeFits.bwait (a b : Fin 64) (s : Scope) : CodeFits.Statement (.bwait a b s) := by
  have := a.isLt
  have := b.isLt
  have := Scope.code_lt s
  simp only [CodeFits.Statement, encode, CodeFits.fits, encSE]
  omega
theorem CodeFits.btest (q : Fin 8) (a b : Fin 64) (s : Scope) : CodeFits.Statement (.btest q a b s) := by
  have := q.isLt
  have := a.isLt
  have := b.isLt
  have := Scope.code_lt s
  simp only [CodeFits.Statement, encode, CodeFits.fits, encSE]
  omega
theorem CodeFits.bclr (a : Fin 64) (s : Scope) : CodeFits.Statement (.bclr a s) := by
  have := a.isLt
  have := Scope.code_lt s
  simp only [CodeFits.Statement, encode, CodeFits.fits, encSE]
  omega
theorem CodeFits.bphase (a b : Fin 64) (s : Scope) : CodeFits.Statement (.bphase a b s) := by
  have := a.isLt
  have := b.isLt
  have := Scope.code_lt s
  simp only [CodeFits.Statement, encode, CodeFits.fits, encSE]
  omega
theorem CodeFits.cpy (e : EngOps) (t : Fin 16) (n : Fin 4) : CodeFits.Statement (.cpy e t n) := by
  have := e.q.isLt
  have := e.a.isLt
  have := e.b.isLt
  have := Scope.code_lt e.s
  have := b2n_lt e.acq
  have := b2n_lt e.rel
  have := t.isLt
  have := n.isLt
  simp only [CodeFits.Statement, encode, CodeFits.fits, encSE, encEng]
  omega
theorem CodeFits.hread (e : EngOps) : CodeFits.Statement (.hread e) := by
  have := e.q.isLt
  have := e.a.isLt
  have := e.b.isLt
  have := Scope.code_lt e.s
  have := b2n_lt e.acq
  have := b2n_lt e.rel
  simp only [CodeFits.Statement, encode, CodeFits.fits, encSE, encEng]
  omega
theorem CodeFits.hland (e : EngOps) : CodeFits.Statement (.hland e) := by
  have := e.q.isLt
  have := e.a.isLt
  have := e.b.isLt
  have := Scope.code_lt e.s
  have := b2n_lt e.acq
  have := b2n_lt e.rel
  simp only [CodeFits.Statement, encode, CodeFits.fits, encSE, encEng]
  omega
theorem CodeFits.hend : CodeFits.Statement (.hend) := by
  simp only [CodeFits.Statement, encode, CodeFits.fits]
  omega
theorem CodeFits.mmac (e : EngOps) : CodeFits.Statement (.mmac e) := by
  have := e.q.isLt
  have := e.a.isLt
  have := e.b.isLt
  have := Scope.code_lt e.s
  have := b2n_lt e.acq
  have := b2n_lt e.rel
  simp only [CodeFits.Statement, encode, CodeFits.fits, encSE, encEng]
  omega
theorem CodeFits.azero (e : EngOps) : CodeFits.Statement (.azero e) := by
  have := e.q.isLt
  have := e.a.isLt
  have := e.b.isLt
  have := Scope.code_lt e.s
  have := b2n_lt e.acq
  have := b2n_lt e.rel
  simp only [CodeFits.Statement, encode, CodeFits.fits, encSE, encEng]
  omega
theorem CodeFits.ard (e : EngOps) : CodeFits.Statement (.ard e) := by
  have := e.q.isLt
  have := e.a.isLt
  have := e.b.isLt
  have := Scope.code_lt e.s
  have := b2n_lt e.acq
  have := b2n_lt e.rel
  simp only [CodeFits.Statement, encode, CodeFits.fits, encSE, encEng]
  omega
theorem CodeFits.awr (e : EngOps) : CodeFits.Statement (.awr e) := by
  have := e.q.isLt
  have := e.a.isLt
  have := e.b.isLt
  have := Scope.code_lt e.s
  have := b2n_lt e.acq
  have := b2n_lt e.rel
  simp only [CodeFits.Statement, encode, CodeFits.fits, encSE, encEng]
  omega
theorem CodeFits.topk (e : EngOps) (k : KeyType) (col bot : Bool) : CodeFits.Statement (.topk e k col bot) := by
  have := e.q.isLt
  have := e.a.isLt
  have := e.b.isLt
  have := Scope.code_lt e.s
  have := b2n_lt e.acq
  have := b2n_lt e.rel
  have := KeyType.code_lt k
  have := b2n_lt col
  have := b2n_lt bot
  simp only [CodeFits.Statement, encode, CodeFits.fits, encSE, encEng]
  omega
theorem CodeFits.fput (e : EngOps) : CodeFits.Statement (.fput e) := by
  have := e.q.isLt
  have := e.a.isLt
  have := e.b.isLt
  have := Scope.code_lt e.s
  have := b2n_lt e.acq
  have := b2n_lt e.rel
  simp only [CodeFits.Statement, encode, CodeFits.fits, encSE, encEng]
  omega
theorem CodeFits.fputh (e : EngOps) : CodeFits.Statement (.fputh e) := by
  have := e.q.isLt
  have := e.a.isLt
  have := e.b.isLt
  have := Scope.code_lt e.s
  have := b2n_lt e.acq
  have := b2n_lt e.rel
  simp only [CodeFits.Statement, encode, CodeFits.fits, encSE, encEng]
  omega
theorem CodeFits.fcoll (e : EngOps) : CodeFits.Statement (.fcoll e) := by
  have := e.q.isLt
  have := e.a.isLt
  have := e.b.isLt
  have := Scope.code_lt e.s
  have := b2n_lt e.acq
  have := b2n_lt e.rel
  simp only [CodeFits.Statement, encode, CodeFits.fits, encSE, encEng]
  omega
theorem CodeFits.fcont (e : EngOps) : CodeFits.Statement (.fcont e) := by
  have := e.q.isLt
  have := e.a.isLt
  have := e.b.isLt
  have := Scope.code_lt e.s
  have := b2n_lt e.acq
  have := b2n_lt e.rel
  simp only [CodeFits.Statement, encode, CodeFits.fits, encSE, encEng]
  omega
theorem CodeFits.launch (q : Fin 8) (a b : Fin 64) : CodeFits.Statement (.launch q a b) := by
  have := q.isLt
  have := a.isLt
  have := b.isLt
  simp only [CodeFits.Statement, encode, CodeFits.fits, encSE]
  omega
theorem CodeFits.tdef (a b : Fin 64) : CodeFits.Statement (.tdef a b) := by
  have := a.isLt
  have := b.isLt
  simp only [CodeFits.Statement, encode, CodeFits.fits, encSE]
  omega
theorem CodeFits.tsub (b : Fin 64) : CodeFits.Statement (.tsub b) := by
  have := b.isLt
  simp only [CodeFits.Statement, encode, CodeFits.fits, encSE]
  omega
theorem CodeFits.tget (q : Fin 8) (a : Fin 64) : CodeFits.Statement (.tget q a) := by
  have := q.isLt
  have := a.isLt
  simp only [CodeFits.Statement, encode, CodeFits.fits, encSE]
  omega
theorem CodeFits.publ (a : Fin 64) : CodeFits.Statement (.publ a) := by
  have := a.isLt
  simp only [CodeFits.Statement, encode, CodeFits.fits, encSE]
  omega
theorem CodeFits.plvl (d a : Fin 64) : CodeFits.Statement (.plvl d a) := by
  have := d.isLt
  have := a.isLt
  simp only [CodeFits.Statement, encode, CodeFits.fits, encSR]
  omega
theorem CodeFits.region : CodeFits.Statement (.region) := by
  simp only [CodeFits.Statement, encode, CodeFits.fits]
  omega
theorem CodeFits.phint (a : Fin 64) (bitmap : BitVec 64) : CodeFits.Statement (.phint a bitmap) := by
  have := a.isLt
  have := bitmap.isLt
  simp only [CodeFits.Statement, encode, CodeFits.fits, encSR]
  omega
theorem CodeFits.srd (d : Fin 64) (s : BitVec 12) : CodeFits.Statement (.srd d s) := by
  have := d.isLt
  have := s.isLt
  simp only [CodeFits.Statement, encode, CodeFits.fits]
  omega
theorem CodeFits.swr (d : Fin 64) (s : BitVec 12) : CodeFits.Statement (.swr d s) := by
  have := d.isLt
  have := s.isLt
  simp only [CodeFits.Statement, encode, CodeFits.fits]
  omega
theorem CodeFits.nop : CodeFits.Statement (.nop) := by
  simp only [CodeFits.Statement, encode, CodeFits.fits, encSR]
  omega
theorem CodeFits.trap (b : Fin 64) : CodeFits.Statement (.trap b) := by
  have := b.isLt
  simp only [CodeFits.Statement, encode, CodeFits.fits, encSR]
  omega
theorem CodeFits.halt : CodeFits.Statement (.halt) := by
  simp only [CodeFits.Statement, encode, CodeFits.fits, encSR]
  omega
theorem CodeFits.eret : CodeFits.Statement (.eret) := by
  simp only [CodeFits.Statement, encode, CodeFits.fits, encSR]
  omega
theorem CodeFits.brk : CodeFits.Statement (.brk) := by
  simp only [CodeFits.Statement, encode, CodeFits.fits, encSR]
  omega
theorem CodeFits.iadd (w : ArithOps) : CodeFits.Statement (.iadd w) := encArith_lt _ _ (by decide)
theorem CodeFits.isub (w : ArithOps) : CodeFits.Statement (.isub w) := encArith_lt _ _ (by decide)
theorem CodeFits.imul (w : ArithOps) : CodeFits.Statement (.imul w) := encArith_lt _ _ (by decide)
theorem CodeFits.imulh (w : ArithOps) : CodeFits.Statement (.imulh w) := encArith_lt _ _ (by decide)
theorem CodeFits.imad (w : ArithOps) : CodeFits.Statement (.imad w) := encArith_lt _ _ (by decide)
theorem CodeFits.imadw (w : ArithOps) : CodeFits.Statement (.imadw w) := encArith_lt _ _ (by decide)
theorem CodeFits.idp4 (w : ArithOps) : CodeFits.Statement (.idp4 w) := encArith_lt _ _ (by decide)
theorem CodeFits.iabs (w : ArithOps) : CodeFits.Statement (.iabs w) := encArith_lt _ _ (by decide)
theorem CodeFits.iand (w : ArithOps) : CodeFits.Statement (.iand w) := encArith_lt _ _ (by decide)
theorem CodeFits.ior (w : ArithOps) : CodeFits.Statement (.ior w) := encArith_lt _ _ (by decide)
theorem CodeFits.ixor (w : ArithOps) : CodeFits.Statement (.ixor w) := encArith_lt _ _ (by decide)
theorem CodeFits.iandn (w : ArithOps) : CodeFits.Statement (.iandn w) := encArith_lt _ _ (by decide)
theorem CodeFits.ishl (w : ArithOps) : CodeFits.Statement (.ishl w) := encArith_lt _ _ (by decide)
theorem CodeFits.ishr (w : ArithOps) : CodeFits.Statement (.ishr w) := encArith_lt _ _ (by decide)
theorem CodeFits.isar (w : ArithOps) : CodeFits.Statement (.isar w) := encArith_lt _ _ (by decide)
theorem CodeFits.ilop3 (w : ArithOps) : CodeFits.Statement (.ilop3 w) := encArith_lt _ _ (by decide)
theorem CodeFits.imin (w : ArithOps) : CodeFits.Statement (.imin w) := encArith_lt _ _ (by decide)
theorem CodeFits.imax (w : ArithOps) : CodeFits.Statement (.imax w) := encArith_lt _ _ (by decide)
theorem CodeFits.popc (w : ArithOps) : CodeFits.Statement (.popc w) := encArith_lt _ _ (by decide)
theorem CodeFits.clz (w : ArithOps) : CodeFits.Statement (.clz w) := encArith_lt _ _ (by decide)
theorem CodeFits.brev (w : ArithOps) : CodeFits.Statement (.brev w) := encArith_lt _ _ (by decide)
theorem CodeFits.bfe (w : ArithOps) : CodeFits.Statement (.bfe w) := encArith_lt _ _ (by decide)
theorem CodeFits.bfi (w : ArithOps) : CodeFits.Statement (.bfi w) := encArith_lt _ _ (by decide)
theorem CodeFits.isetp (w : ArithOps) : CodeFits.Statement (.isetp w) := encArith_lt _ _ (by decide)
theorem CodeFits.sel (w : ArithOps) : CodeFits.Statement (.sel w) := encArith_lt _ _ (by decide)
theorem CodeFits.mov (w : ArithOps) : CodeFits.Statement (.mov w) := encArith_lt _ _ (by decide)
theorem CodeFits.plane (w : ArithOps) : CodeFits.Statement (.plane w) := encArith_lt _ _ (by decide)
theorem CodeFits.fadd (w : ArithOps) : CodeFits.Statement (.fadd w) := encArith_lt _ _ (by decide)
theorem CodeFits.fsub (w : ArithOps) : CodeFits.Statement (.fsub w) := encArith_lt _ _ (by decide)
theorem CodeFits.fmul (w : ArithOps) : CodeFits.Statement (.fmul w) := encArith_lt _ _ (by decide)
theorem CodeFits.ffma (w : ArithOps) : CodeFits.Statement (.ffma w) := encArith_lt _ _ (by decide)
theorem CodeFits.fmin (w : ArithOps) : CodeFits.Statement (.fmin w) := encArith_lt _ _ (by decide)
theorem CodeFits.fmax (w : ArithOps) : CodeFits.Statement (.fmax w) := encArith_lt _ _ (by decide)
theorem CodeFits.fsetp (w : ArithOps) : CodeFits.Statement (.fsetp w) := encArith_lt _ _ (by decide)
theorem CodeFits.fclass (w : ArithOps) : CodeFits.Statement (.fclass w) := encArith_lt _ _ (by decide)
theorem CodeFits.fdiv (w : ArithOps) : CodeFits.Statement (.fdiv w) := encArith_lt _ _ (by decide)
theorem CodeFits.fsqrt (w : ArithOps) : CodeFits.Statement (.fsqrt w) := encArith_lt _ _ (by decide)
theorem CodeFits.frcp (w : ArithOps) : CodeFits.Statement (.frcp w) := encArith_lt _ _ (by decide)
theorem CodeFits.frsq (w : ArithOps) : CodeFits.Statement (.frsq w) := encArith_lt _ _ (by decide)
theorem CodeFits.fexp2 (w : ArithOps) : CodeFits.Statement (.fexp2 w) := encArith_lt _ _ (by decide)
theorem CodeFits.flog2 (w : ArithOps) : CodeFits.Statement (.flog2 w) := encArith_lt _ _ (by decide)
theorem CodeFits.fsin (w : ArithOps) : CodeFits.Statement (.fsin w) := encArith_lt _ _ (by decide)
theorem CodeFits.fcos (w : ArithOps) : CodeFits.Statement (.fcos w) := encArith_lt _ _ (by decide)
theorem CodeFits.ftanh (w : ArithOps) : CodeFits.Statement (.ftanh w) := encArith_lt _ _ (by decide)
theorem CodeFits.fscale (w : ArithOps) : CodeFits.Statement (.fscale w) := encArith_lt _ _ (by decide)
theorem CodeFits.cvt (w : ArithOps) : CodeFits.Statement (.cvt w) := encArith_lt _ _ (by decide)
theorem CodeFits.qnt (w : ArithOps) : CodeFits.Statement (.qnt w) := encArith_lt _ _ (by decide)
theorem CodeFits.dqnt (w : ArithOps) : CodeFits.Statement (.dqnt w) := encArith_lt _ _ (by decide)
theorem CodeFits.cvtq (w : ArithOps) : CodeFits.Statement (.cvtq w) := encArith_lt _ _ (by decide)
theorem CodeFits.cvtf (w : ArithOps) : CodeFits.Statement (.cvtf w) := encArith_lt _ _ (by decide)
theorem CodeFits.pack (w : ArithOps) : CodeFits.Statement (.pack w) := encArith_lt _ _ (by decide)
theorem CodeFits.unpk (w : ArithOps) : CodeFits.Statement (.unpk w) := encArith_lt _ _ (by decide)
theorem CodeFits.shfl (w : ArithOps) : CodeFits.Statement (.shfl w) := encArith_lt _ _ (by decide)
theorem CodeFits.ballot (w : ArithOps) : CodeFits.Statement (.ballot w) := encArith_lt _ _ (by decide)
theorem CodeFits.vote (w : ArithOps) : CodeFits.Statement (.vote w) := encArith_lt _ _ (by decide)
theorem CodeFits.lred (w : ArithOps) : CodeFits.Statement (.lred w) := encArith_lt _ _ (by decide)
theorem CodeFits.lscan (w : ArithOps) : CodeFits.Statement (.lscan w) := encArith_lt _ _ (by decide)
theorem CodeFits.vld (w : MemOps) : CodeFits.Statement (.vld w) := encMem_lt _ _ (by decide)
theorem CodeFits.vst (w : MemOps) : CodeFits.Statement (.vst w) := encMem_lt _ _ (by decide)
theorem CodeFits.vldn (w : MemOps) : CodeFits.Statement (.vldn w) := encMem_lt _ _ (by decide)
theorem CodeFits.vstn (w : MemOps) : CodeFits.Statement (.vstn w) := encMem_lt _ _ (by decide)
theorem CodeFits.atom (w : MemOps) : CodeFits.Statement (.atom w) := encMem_lt _ _ (by decide)
theorem CodeFits.acas (w : MemOps) : CodeFits.Statement (.acas w) := encMem_lt _ _ (by decide)
theorem CodeFits.red (w : MemOps) : CodeFits.Statement (.red w) := encMem_lt _ _ (by decide)
theorem CodeFits.vpref (w : MemOps) : CodeFits.Statement (.vpref w) := encMem_lt _ _ (by decide)
theorem CodeFits.brd (w : CtlOps) : CodeFits.Statement (.brd w) := encCtl_lt _ _ (by decide)
theorem CodeFits.jmark (w : CtlOps) : CodeFits.Statement (.jmark w) := encCtl_lt _ _ (by decide)
theorem CodeFits.join (w : CtlOps) : CodeFits.Statement (.join w) := encCtl_lt _ _ (by decide)
theorem CodeFits.lend (w : CtlOps) : CodeFits.Statement (.lend w) := encCtl_lt _ _ (by decide)
theorem CodeFits.ljmp (w : CtlOps) : CodeFits.Statement (.ljmp w) := encCtl_lt _ _ (by decide)
theorem CodeFits.lnop (w : CtlOps) : CodeFits.Statement (.lnop w) := encCtl_lt _ _ (by decide)
theorem CodeFits.ltrap (w : CtlOps) : CodeFits.Statement (.ltrap w) := encCtl_lt _ _ (by decide)
theorem CodeFits.qtailWrite (p : Port) (q : Fin 64) (v : Word) : CodeFits.Statement (.qtailWrite p q v) := trivial
theorem CodeFits.qbaseWrite (p : Port) (q : Fin 64) (v : Word) : CodeFits.Statement (.qbaseWrite p q v) := trivial
theorem CodeFits.porterrWrite (p : Port) (v : Word) : CodeFits.Statement (.porterrWrite p v) := trivial
theorem CodeFits.semtake (n : Fin 32) (by_ : Takers) : CodeFits.Statement (.semtake n by_) := trivial
theorem CodeFits.semrel (n : Fin 32) (p : Port) : CodeFits.Statement (.semrel n p) := trivial
theorem CodeFits.hostRegWrite (p : Port) (off : Nat) (v : Word) : CodeFits.Statement (.hostRegWrite p off v) := trivial
theorem CodeFits.ctxcreate (p : Port) : CodeFits.Statement (.ctxcreate p) := trivial
theorem CodeFits.ctxdestroy (p : Port) : CodeFits.Statement (.ctxdestroy p) := trivial
theorem CodeFits.ctxdestroyComplete (p : Port) : CodeFits.Statement (.ctxdestroyComplete p) := trivial
theorem CodeFits.inval (p : Port) : CodeFits.Statement (.inval p) := trivial
theorem CodeFits.invalComplete (p : Port) : CodeFits.Statement (.invalComplete p) := trivial
theorem CodeFits.faultreply (p : Port) : CodeFits.Statement (.faultreply p) := trivial
theorem CodeFits.domreset (p : Port) : CodeFits.Statement (.domreset p) := trivial
theorem CodeFits.lcchange (p : Port) : CodeFits.Statement (.lcchange p) := trivial
theorem CodeFits.fwupdate (p : Port) : CodeFits.Statement (.fwupdate p) := trivial
theorem CodeFits.attest (p : Port) : CodeFits.Statement (.attest p) := trivial
theorem CodeFits.hostCmdUnknown (p : Port) (code : Byte) : CodeFits.Statement (.hostCmdUnknown p code) := trivial
theorem CodeFits.portLinkDown (p : Port) : CodeFits.Statement (.portLinkDown p) := trivial
theorem CodeFits.smbusPowerLimit (v : BitVec 16) : CodeFits.Statement (.smbusPowerLimit v) := trivial
theorem CodeFits.moduleReset : CodeFits.Statement (.moduleReset) := trivial
theorem CodeFits.wipeDone : CodeFits.Statement (.wipeDone) := trivial
theorem CodeFits.launchEntryTake (q : QueueId) : CodeFits.Statement (.launchEntryTake q) := trivial
theorem CodeFits.launchHeadAge (q : QueueId) : CodeFits.Statement (.launchHeadAge q) := trivial
theorem CodeFits.gridPlace (rowBase : Nat) : CodeFits.Statement (.gridPlace rowBase) := trivial
theorem CodeFits.frameTeamStart (grid slot rowBase : Nat) : CodeFits.Statement (.frameTeamStart grid slot rowBase) := trivial
theorem CodeFits.rowZeroed (team rank row : Nat) : CodeFits.Statement (.rowZeroed team rank row) := trivial
theorem CodeFits.preemptRequest (q : QueueId) : CodeFits.Statement (.preemptRequest q) := trivial
theorem CodeFits.preemptForce (team : Nat) : CodeFits.Statement (.preemptForce team) := trivial
theorem CodeFits.teamSave (team : Nat) : CodeFits.Statement (.teamSave team) := trivial
theorem CodeFits.teamRestore (saved : Nat) (at_ : RestorePlace) : CodeFits.Statement (.teamRestore saved at_) := trivial
theorem CodeFits.faultDeliver (ag : AgentId) : CodeFits.Statement (.faultDeliver ag) := trivial
theorem CodeFits.matrixComplete (core : Nat) : CodeFits.Statement (.matrixComplete core) := trivial
theorem CodeFits.cpyBurst (cmd n : Nat) : CodeFits.Statement (.cpyBurst cmd n) := trivial
theorem CodeFits.cpyComplete (cmd : Nat) : CodeFits.Statement (.cpyComplete cmd) := trivial
theorem CodeFits.hreadBurstLand (cmd n : Nat) : CodeFits.Statement (.hreadBurstLand cmd n) := trivial
theorem CodeFits.dropStart (src : DropSource) : CodeFits.Statement (.dropStart src) := trivial
theorem CodeFits.lastBurst (cmd : Nat) : CodeFits.Statement (.lastBurst cmd) := trivial
theorem CodeFits.finalDropStart (cmd : Nat) : CodeFits.Statement (.finalDropStart cmd) := trivial
theorem CodeFits.topkComplete (cmd : Nat) : CodeFits.Statement (.topkComplete cmd) := trivial
theorem CodeFits.fabricPacketArrive (pk : Packet) (link : Option (Fin 18)) : CodeFits.Statement (.fabricPacketArrive pk link) := trivial
theorem CodeFits.fabricComplete (cmd : Nat) (ans : FabricAnswer) : CodeFits.Statement (.fabricComplete cmd ans) := trivial
theorem CodeFits.landing (team : Nat) (slot : Fin 8) : CodeFits.Statement (.landing team slot) := trivial
theorem CodeFits.flitRetry (link : Fin 18) : CodeFits.Statement (.flitRetry link) := trivial
theorem CodeFits.gangRegister (gang : BitVec 16) (rank : Nat) : CodeFits.Statement (.gangRegister gang rank) := trivial
theorem CodeFits.gangWatchdog (gang : BitVec 16) : CodeFits.Statement (.gangWatchdog gang) := trivial
theorem CodeFits.ueConsumed (at_ : ErrorPlace) : CodeFits.Statement (.ueConsumed at_) := trivial
theorem CodeFits.domainReadmit (domain : Nat) : CodeFits.Statement (.domainReadmit domain) := trivial
theorem CodeFits.patrolScrub (at_ : Option ErrorPlace) (domain : Nat) : CodeFits.Statement (.patrolScrub at_ domain) := trivial
theorem CodeFits.correctableThreshold (domain : Nat) : CodeFits.Statement (.correctableThreshold domain) := trivial
theorem CodeFits.timingRepeat (cluster : Fin 96) : CodeFits.Statement (.timingRepeat cluster) := trivial
theorem CodeFits.replayThreshold (cluster : Fin 96) : CodeFits.Statement (.replayThreshold cluster) := trivial
theorem CodeFits.predictorDecay : CodeFits.Statement (.predictorDecay) := trivial
theorem CodeFits.governorStep (g : GovInput) : CodeFits.Statement (.governorStep g) := trivial
theorem CodeFits.capLower (cluster : Fin 96) : CodeFits.Statement (.capLower cluster) := trivial
theorem CodeFits.capRaise (cluster : Fin 96) : CodeFits.Statement (.capRaise cluster) := trivial
theorem CodeFits.passHoldExpire (cluster : Fin 96) : CodeFits.Statement (.passHoldExpire cluster) := trivial
theorem CodeFits.passDouble (cluster : Fin 96) : CodeFits.Statement (.passDouble cluster) := trivial
theorem CodeFits.passHalve (cluster : Fin 96) : CodeFits.Statement (.passHalve cluster) := trivial
theorem CodeFits.levelChangeDone (cluster : Fin 96) : CodeFits.Statement (.levelChangeDone cluster) := trivial
theorem CodeFits.sensorSample (raw : List Int) : CodeFits.Statement (.sensorSample raw) := trivial
theorem CodeFits.damageUpdate : CodeFits.Statement (.damageUpdate) := trivial
theorem CodeFits.thermalCapLift (region : Fin 64) : CodeFits.Statement (.thermalCapLift region) := trivial
theorem CodeFits.tripRelease : CodeFits.Statement (.tripRelease) := trivial
theorem CodeFits.linkRetrainDone (link : Fin 18) : CodeFits.Statement (.linkRetrainDone link) := trivial
theorem CodeFits.portLinkUp (p : Port) (lanes rate : Nat) (atomicOp : Bool) : CodeFits.Statement (.portLinkUp p lanes rate atomicOp) :=
  trivial

end Sys2Proof.Laws
end

