-- ==== Sys2Proof/Laws/Weak.lean ====
section
/-! SUPPORT. What is left open of the order of accesses: where nothing is open an instruction just takes its effect, and what becomes visible, is
hidden or is settled keeps the canonical form of the memories. -/

namespace Sys2Proof.Machine

/-! ## Nothing left open -/

/-- Where no store waits, nothing becomes visible. -/
theorem State.landWhere_nil {s : State} (f : LateStore → Bool) (h : s.late = []) : s.landWhere f = s := by
  unfold State.landWhere
  cases s
  simp_all [splitLate]

/-- Where every store is picked, none waits on. -/
theorem splitLate_all (xs : List LateStore) : splitLate (fun _ => true) xs = (xs, []) := by
  induction xs with
  | nil => rfl
  | cons x xs ih => simp [splitLate, ih]

/-- Where no store waits, an acquire makes none visible. -/
theorem State.acquireStores_nil {s : State} (sc : Scope) (h : s.late = []) : s.acquireStores sc = s := State.landWhere_nil _ h

/-- Where no store waits and nothing has been read ahead, an instruction acquires nothing. -/
theorem State.acquireAfter_nil {s t : State} (i : Instr) (h : t.late = []) (ha : t.ag.ahead = []) : s.acquireAfter t i = t := by
  unfold State.acquireAfter
  split
  · rw [State.acquireStores_nil _ h]
    show { t with ag := { t.ag with ahead := [] } } = t
    rw [← ha]
  · rfl

/-- Where no wait has ended, there is no acquire to make up for. -/
theorem State.payOwed_nil {s : State} (h : s.ag.owes = none) : s.payOwed = s := by simp [State.payOwed, h]

/-- Where no store waits, no load is open and nothing has been read ahead, there is nothing to settle for the agent that acts. -/
theorem State.settleOwn_nil {s : State} (h : s.late = []) (hl : s.ag.loads = []) (ha : s.ag.ahead = []) : s.settleOwn = s := by
  rw [State.settleOwn, State.landWhere_nil _ h]
  show { s with ag := { s.ag with loads := [], ahead := [] } } = s
  rw [← hl, ← ha]

/-- Where no name has been placed, an instruction acquires nothing by touching one (R220). -/
theorem State.touch_nil {s : State} (i : Instr) (h : s.ag.placed = []) : s.touch i = s := by simp [State.touch, h]

/-- Where no error waits, an instruction just takes its effect. -/
theorem runEntries_nil {s : State} (i : Instr) (h : s.latent = []) : runEntries i s = exec i s := by simp [runEntries, h]

/-- Where nothing is left open before an instruction, performing it is its effect, and what comes after it. -/
theorem perform_nil {s : State} (i : Instr) (ho : s.ag.owes = none) (h : s.late = []) (hl : s.ag.loads = []) (ha : s.ag.ahead = [])
    (hp : s.ag.placed = []) (he : s.latent = []) : perform i s = onNext (exec i s) fun t => s.orderAfter t i := by
  rw [perform, State.payOwed_nil ho, State.settleOwn_nil h hl ha, State.touch_nil i hp, runEntries_nil i he]

/-- Where an instruction has left nothing open, nothing comes after it. -/
theorem State.orderAfter_nil {s t : State} (i : Instr) (h : t.late = []) (hl : t.ag.loads = []) (ha : t.ag.ahead = []) : s.orderAfter t i = t := by
  unfold State.orderAfter
  split
  · split
    · rw [State.settleLanes, State.landWhere_nil _ h]
      show { t with ag := { t.ag with loads := List.filter _ t.ag.loads, ahead := List.filter _ t.ag.ahead } } = t
      rw [hl, ha, List.filter_nil, List.filter_nil, ← hl]
      conv => lhs; rw [hl, ← ha, ← hl]
    · rfl
  · exact State.acquireAfter_nil _ h ha

/-- Where no error waits, an event just takes its effect. -/
theorem runEvent_nil {s : State} (e : Instr) (h : s.latent = []) : runEvent e s = exec e s := by simp [runEvent, h]

/-- An outcome that goes on is a next state of what came before. -/
theorem onNext_next {o : Out} {f : State → State} {t : State} (h : onNext o f = .next t) : ∃ u, o = .next u ∧ t = f u := by
  cases o with
  | next u => exact ⟨u, rfl, by cases h; rfl⟩
  | fault r => cases h
  | refused r => cases h

/-! ## Canonical form -/

theorem State.canonical_settle (s : State) (hs : s.MemoryCanonical) : s.settle.MemoryCanonical :=
  State.canonical_landWhere s _ hs

theorem State.canonical_settleOwn (s : State) (hs : s.MemoryCanonical) : s.settleOwn.MemoryCanonical :=
  State.canonical_landWhere s _ hs

theorem State.canonical_settleLanes (s : State) (m : Mask) (hs : s.MemoryCanonical) : (s.settleLanes m).MemoryCanonical :=
  State.canonical_landWhere s _ hs

theorem State.canonical_acquireStores (s : State) (sc : Scope) (hs : s.MemoryCanonical) : (s.acquireStores sc).MemoryCanonical :=
  State.canonical_landWhere s _ hs

theorem State.canonical_acquireAfter (s t : State) (i : Instr) (ht : t.MemoryCanonical) : (s.acquireAfter t i).MemoryCanonical := by
  unfold State.acquireAfter
  split
  · exact State.canonical_acquireStores _ _ ht
  · exact ht

theorem State.canonical_orderAfter (s t : State) (i : Instr) (ht : t.MemoryCanonical) : (s.orderAfter t i).MemoryCanonical := by
  unfold State.orderAfter
  repeat' split
  all_goals first
    | exact State.canonical_settleLanes _ _ ht
    | exact State.canonical_acquireAfter _ _ _ ht
    | exact ht

theorem State.canonical_payOwed (s : State) (hs : s.MemoryCanonical) : s.payOwed.MemoryCanonical := by
  unfold State.payOwed
  split
  · exact State.canonical_of_bytes (State.bytes_acquire _ _ _) (State.canonical_acquireStores _ _ hs)
  · exact hs

theorem State.canonical_fenceOpen (s : State) (k : FenceKind) (hs : s.MemoryCanonical) : (s.fenceOpen k).MemoryCanonical := by
  cases k
  · exact State.canonical_landWhere s _ hs
  · exact hs
  · exact State.canonical_landWhere s _ hs

theorem State.canonical_beforeRelease (s : State) (m : Mask) (hs : s.MemoryCanonical) : (s.beforeRelease m).MemoryCanonical :=
  State.canonical_landWhere s _ hs

theorem State.canonical_orderBefore (s : State) (i : Instr) (hs : s.MemoryCanonical) : (s.orderBefore i).MemoryCanonical := by
  have key (v : State) (hv : v.MemoryCanonical) (r : Option Scope) (m : Mask) :
      (match i, r with
        | .fence _ k, r => r.elim (v.fenceOpen k) ((v.fenceOpen k).releaseStores m)
        | _, some sc => (v.beforeRelease m).releaseStores m sc
        | _, none => v).MemoryCanonical := by
    split
    · cases r <;> exact State.canonical_fenceOpen v _ hv
    · exact State.canonical_beforeRelease v _ hv
    · exact hv
  unfold State.orderBefore
  refine key _ ?_ _ _
  split
  · exact State.canonical_landWhere s _ hs
  · exact State.canonical_landWhere s _ hs
  · exact State.canonical_landWhere s _ hs
  · exact State.canonical_landWhere s _ hs
  · split
    · exact hs
    · exact State.canonical_settleOwn _ hs

theorem State.canonical_touch (s : State) (i : Instr) (hs : s.MemoryCanonical) : (s.touch i).MemoryCanonical := by
  unfold State.touch
  dsimp only
  repeat' split
  all_goals first
    | exact State.canonical_of_bytes (State.bytes_acquire _ _ _) (State.canonical_acquireStores _ _ hs)
    | exact hs

theorem State.canonical_putBack (t : State) (team : Nat) (pl : Place) (a : Nat) (old : List Byte) (hs : t.MemoryCanonical) :
    (t.putBack team pl a old).MemoryCanonical := by
  unfold State.putBack
  split
  · exact ⟨Memory.wf_writeN _ _ _ hs.1, hs.2⟩
  · exact hs
  · exact State.canonical_of_bytes (State.bytes_modRank _ _ _ _) hs
  · exact State.canonical_of_bytes (State.bytes_modRank _ _ _ _) hs

theorem State.canonical_hideUnit (after before : State) (o : LateOwner) (w : Who) (t : State) (x : Place × Nat × Nat)
    (hs : t.MemoryCanonical) : (State.hideUnit after before o w t x).MemoryCanonical := by
  obtain ⟨pl, a, n⟩ := x
  unfold State.hideUnit
  dsimp only
  split
  · exact hs
  · exact State.canonical_putBack _ _ _ _ _ hs

theorem State.canonical_deferOps (s t : State) (i : Instr) (pick : Nat) (ht : t.MemoryCanonical) : (s.deferOps t i pick).MemoryCanonical := by
  unfold State.deferOps
  split
  · exact ht
  · exact State.canonical_landWhere _ _ (foldl_keeps State.MemoryCanonical _ (fun t x ht => State.canonical_putBack t _ _ _ _ ht) _ _ ht)

theorem State.canonical_hide (after before : State) (o : LateOwner) (w : Who) (gs : List (List (Place × Nat × Nat))) (pick : Nat)
    (hs : after.MemoryCanonical) : (State.hide after before o w gs pick).MemoryCanonical := by
  unfold State.hide
  split
  · exact hs
  · exact foldl_keeps State.MemoryCanonical _ (fun t x ht => State.canonical_hideUnit after before o w t x ht) _ _ hs

theorem keeps_onNext (o : Out) (f : State → State) (ho : Keeps o) (hf : ∀ t : State, t.MemoryCanonical → (f t).MemoryCanonical) :
    Keeps (onNext o f) := by
  intro t h
  obtain ⟨u, hu, rfl⟩ := onNext_next h
  exact hf u (ho u hu)

end Sys2Proof.Machine
end

