-- ==== Sys2Proof/Tests/Slice0.lean ====
section
/-! SUPPORT. Tests of the model: words of every instruction decoded from the spec's tables, ill-formed terms, single steps, and a state that
meets the hypotheses of every statement. -/

namespace Sys2Proof.Tests
open Sys2Proof Sys2Proof.Machine

set_option Elab.async false

/-! ## Words written out field by field from the tables of file 03, and what they decode to

Expected results: Tables 3.1 to 3.17 and the worked encodings of Table 3.9 and R65. -/

/-- A word from its fields, each a width and a value, most significant first. -/
def word (fs : List (Nat × Nat)) : Nat := fs.foldl (fun w f => w * 2 ^ f.1 + f.2) 0

/-- An S-R word (Table 3.1) with gd 3, ga 1, gb 2. -/
def wordR (op fn : Nat) : Nat := word [(6, op), (6, 3), (6, 1), (6, 2), (8, fn)]

theorem test_decode_alu : ∀ p ∈ [(0x00, Instr.sadd), (0x01, .ssub), (0x02, .smul), (0x03, .smulh), (0x04, .smulhu), (0x05, .sdiv),
    (0x06, .sdivu), (0x07, .srem), (0x08, .sremu), (0x10, .sand), (0x11, .sor), (0x12, .sxor), (0x13, .sandn), (0x18, .sshl),
    (0x19, .sshr), (0x1A, .ssar), (0x20, .smin), (0x21, .smax), (0x22, .sminu), (0x23, .smaxu)],
    decodeTableWord 32 (wordR 0x00 p.1) = some (p.2 3 1 2) := by decide +kernel

theorem test_decode_counts : ∀ p ∈ [(0x28, Instr.spopc), (0x29, .sclz), (0x2A, .sctz)],
    decodeTableWord 32 (word [(6, 0), (6, 3), (6, 1), (6, 0), (8, p.1)]) = some (p.2 3 1) := by decide +kernel

theorem test_decode_imm : ∀ p ∈ [(0x01, Instr.saddi), (0x02, .sandi), (0x03, .sori), (0x04, .sxori), (0x18, .sld64), (0x19, .sld32),
    (0x1A, .sst64), (0x1B, .sst32)],
    decodeTableWord 32 (word [(6, p.1), (6, 3), (6, 63), (14, 0x2001)]) = some (p.2 3 63 0x2001) := by decide +kernel

theorem test_decode_imm_shift : ∀ p ∈ [(0x05, Instr.sshli), (0x06, .sshri), (0x07, .ssari)],
    decodeTableWord 32 (word [(6, p.1), (6, 3), (6, 1), (8, 0), (6, 63)]) = some (p.2 3 1 63) := by decide +kernel

theorem test_decode_scalar_rest :
    decodeTableWord 32 (word [(6, 0x08), (6, 5), (20, 0x80001)]) = some (.slui 5 0x80001)
    ∧ decodeTableWord 32 (word [(6, 0x09), (6, 5), (20, 0x80001)]) = some (.slpc 5 0x80001)
    ∧ decodeTableWord 32 (word [(6, 0x0A), (3, 4), (3, 6), (6, 1), (6, 2), (8, 0)]) = some (.scmp 4 .tst 1 2)
    ∧ decodeTableWord 32 (word [(6, 0x0B), (3, 4), (3, 5), (6, 1), (14, 0x3FFF)]) = some (.scmpi 4 .geu 1 0x3FFF)
    ∧ decodeTableWord 32 (word [(6, 0x0C), (6, 3), (6, 1), (6, 2), (5, 0), (3, 6)]) = some (.ssel 3 1 2 6)
    ∧ decodeTableWord 32 (word [(6, 0x0D), (3, 1), (3, 2), (3, 3), (3, 3), (14, 0)]) = some (.qlog 1 2 3 .andn)
    ∧ decodeTableWord 32 (word [(6, 0x10), (3, 3), (1, 1), (22, 0x3FFFFB)]) = some (.br 3 true 0x3FFFFB)
    ∧ decodeTableWord 32 (word [(6, 0x11), (3, 7), (1, 0), (22, 9)]) = some (.call 9)
    ∧ decodeTableWord 32 (word [(6, 0x12), (6, 62), (6, 1), (6, 0), (8, 0)]) = some (.jr 62 1)
    ∧ decodeTableWord 32 (word [(6, 0x13), (3, 3), (1, 0), (22, 9)]) = some (.lrun 3 false 9)
    ∧ decodeTableWord 32 (word [(6, 0x14), (26, 0)]) = some .lsync
    ∧ decodeTableWord 32 (word [(6, 0x1C), (6, 5), (6, 6), (6, 7), (3, 2), (2, 3), (3, 4)]) = some (.satom 5 6 7 .device .acqRel .smin)
    ∧ decodeTableWord 32 (word [(6, 0x1D), (6, 5), (6, 6), (6, 7), (3, 4), (2, 1), (3, 0)]) = some (.scas 5 6 7 .system .acquire)
    ∧ decodeTableWord 32 (word [(6, 0x1E), (18, 0), (3, 3), (2, 2), (3, 0)]) = some (.fence .gang .release) := by decide +kernel

theorem test_decode_map :
    decodeTableWord 32 (word [(6, 0x20), (3, 0), (9, 300), (9, 511), (5, 0)]) = some (.mswap 300 511)
    ∧ decodeTableWord 32 (word [(6, 0x20), (3, 1), (9, 8), (9, 0), (5, 4)]) = some (.mrot 8 4)
    ∧ decodeTableWord 32 (word [(6, 0x20), (3, 2), (9, 8), (9, 0), (5, 1)]) = some (.mfree 8 1)
    ∧ decodeTableWord 32 (word [(6, 0x20), (3, 3), (9, 8), (9, 9), (5, 0)]) = some (.malias 8 9)
    ∧ decodeTableWord 32 (word [(6, 0x20), (3, 4), (9, 8), (9, 9), (5, 0)]) = some (.mmove 8 9)
    ∧ decodeTableWord 32 (word [(6, 0x20), (3, 5), (9, 8), (5, 0), (4, 11), (5, 31)]) = some (.mtag 8 11 31)
    ∧ decodeTableWord 32 (word [(6, 0x21), (3, 0), (9, 8), (9, 0), (5, 31)]) = some (.mgive 8 31)
    ∧ decodeTableWord 32 (word [(6, 0x21), (3, 1), (9, 0), (9, 8), (5, 31)]) = some (.mtake 8 31)
    ∧ decodeTableWord 32 (word [(6, 0x21), (3, 2), (9, 8), (9, 9), (5, 30)]) = some (.mplace 8 9 30)
    ∧ decodeTableWord 32 (word [(6, 0x22), (6, 5), (3, 0), (9, 511), (8, 0)]) = some (.mqry 5 511) := by decide +kernel

/-- An S-E word (Table 3.1) with qd 5, ga 6, gb 7 and team scope. -/
def wordE (op acq rel fn : Nat) : Nat := word [(6, op), (3, 5), (6, 6), (6, 7), (3, 1), (1, acq), (1, rel), (6, fn)]
/-- Its shared fields. -/
def engE (acq rel : Bool) : EngOps := { q := 5, a := 6, b := 7, s := .team, acq := acq, rel := rel }

theorem test_decode_barrier :
    (∀ p ∈ [(0, Instr.binit), (1, .barr), (2, .bexp), (3, .bwait), (6, .bphase)],
      decodeTableWord 32 (word [(6, 0x28), (3, 0), (6, 6), (6, 7), (3, 2), (2, 0), (6, p.1)]) = some (p.2 6 7 .device))
    ∧ decodeTableWord 32 (word [(6, 0x28), (3, 5), (6, 6), (6, 7), (3, 1), (2, 0), (6, 4)]) = some (.btest 5 6 7 .team)
    ∧ decodeTableWord 32 (word [(6, 0x28), (3, 0), (6, 6), (6, 0), (3, 1), (2, 0), (6, 5)]) = some (.bclr 6 .team) := by decide +kernel

theorem test_decode_engine :
    (∀ p ∈ [(0x31, 0, Instr.hread), (0x34, 0, .mmac), (0x35, 2, .awr), (0x37, 0, .fput), (0x37, 1, .fputh), (0x37, 2, .fcoll),
        (0x37, 3, .fcont)], decodeTableWord 32 (wordE p.1 1 1 p.2.1) = some (p.2.2 (engE true true)))
    ∧ decodeTableWord 32 (wordE 0x30 1 0 (12 * 4 + 1)) = none
    ∧ decodeTableWord 32 (wordE 0x30 1 0 (12 * 4 + 3)) = some (.cpy (engE true false) 12 3)
    ∧ decodeTableWord 32 (wordE 0x32 0 0 0) = some (.hland (engE false false))
    ∧ decodeTableWord 32 (word [(6, 0x33), (26, 0)]) = some .hend
    ∧ decodeTableWord 32 (wordE 0x35 0 1 0) = some (.azero (engE false true))
    ∧ decodeTableWord 32 (wordE 0x35 1 0 1) = some (.ard (engE true false))
    ∧ decodeTableWord 32 (wordE 0x36 0 0 (2 * 4 + 1)) = some (.topk (engE false false) .f32 false true)
    ∧ decodeTableWord 32 (wordE 0x36 0 0 (1 * 4 + 2)) = some (.topk (engE false false) .u32 true false) := by decide +kernel

theorem test_decode_work_and_system :
    decodeTableWord 32 (word [(6, 0x38), (3, 5), (6, 6), (6, 7), (3, 2), (2, 0), (6, 0)]) = some (.launch 5 6 7)
    ∧ decodeTableWord 32 (word [(6, 0x39), (3, 0), (6, 6), (6, 7), (3, 1), (2, 0), (6, 0)]) = some (.tdef 6 7)
    ∧ decodeTableWord 32 (word [(6, 0x39), (3, 0), (6, 0), (6, 7), (3, 1), (2, 0), (6, 1)]) = some (.tsub 7)
    ∧ decodeTableWord 32 (word [(6, 0x39), (3, 5), (6, 6), (6, 0), (3, 1), (2, 0), (6, 2)]) = some (.tget 5 6)
    ∧ decodeTableWord 32 (word [(6, 0x3A), (3, 0), (6, 6), (6, 0), (3, 4), (2, 0), (6, 0)]) = some (.publ 6)
    ∧ decodeTableWord 32 (word [(6, 0x3B), (6, 5), (6, 6), (6, 0), (8, 0)]) = some (.plvl 5 6)
    ∧ decodeTableWord 32 (word [(6, 0x3C), (26, 0)]) = some .region
    ∧ decodeTableWord 96 (word [(32, 0x89ABCDEF), (32, 0x01234567), (6, 0x3D), (6, 0), (6, 6), (14, 0)])
        = some (.phint 6 0x89ABCDEF01234567)
    ∧ decodeTableWord 32 (word [(6, 0x3E), (6, 5), (12, 0x042), (8, 0)]) = some (.srd 5 0x042)
    ∧ decodeTableWord 32 (word [(6, 0x3E), (6, 5), (12, 0x020), (8, 1)]) = some (.swr 5 0x020)
    ∧ decodeTableWord 32 (word [(6, 0x3F), (26, 0)]) = some .nop
    ∧ decodeTableWord 32 (word [(6, 0x3F), (12, 0), (6, 9), (8, 1)]) = some (.trap 9)
    ∧ decodeTableWord 32 (word [(6, 0x3F), (18, 0), (8, 2)]) = some .halt
    ∧ decodeTableWord 32 (word [(6, 0x3F), (18, 0), (8, 3)]) = some .eret
    ∧ decodeTableWord 32 (word [(6, 0x3F), (18, 0), (8, 4)]) = some .brk := by decide +kernel

/-- The worked words of Table 3.9. -/
theorem test_decode_table_3_9 :
    decodeTableWord 32 0x0430C040 = some (.saddi 3 3 64)
    ∧ decodeTableWord 32 0x41FFFFFB = some (.br 3 true (BitVec.ofInt 22 (-5)))
    ∧ decodeTableWord 32 0x80820004 = some (.mrot 8 4)
    ∧ decodeTableWord 32 0x70518758 = some (.satom 5 6 7 .device .acqRel .add) := by decide +kernel

/-- A lane word (Table 3.10) with guard !p2, no chain and latch b0. -/
def wordL (op name a b c ty aux imm : Nat) : Nat :=
  word [(8, op), (1, 1), (3, 2), (1, 0), (1, 0), (2, 0), (9, name), (10, a), (10, b), (10, c), (5, ty), (12, aux), (24, imm)]
/-- Its head. -/
def headL (name : Fin 512) : LaneHead := { gneg := true, guard := 2, chain := false, nowb := false, latch := 0, name := name }
/-- No modifiers. -/
def plain : Mods := { rnd := .rne, negA := false, negB := false, negC := false, absA := false, absB := false, sat := false }
/-- An arithmetic word to v6 with the sources that its row of Table 3.17 uses: v8, g12, and the immediate 2. -/
def opsL (srcs : Nat) (ty : Ty) (imm : BitVec 24) : ArithOps :=
  { h := headL 6, a := if srcs = 0 then .vec 0 else .vec 8, b := if srcs ≤ 1 then .vec 0 else .greg 12,
    c := if srcs ≤ 2 then .vec 0 else .imm 2, ty := ty, m := plain, imm := imm }
/-- The word of it. -/
def wordA (op srcs ty imm : Nat) : Nat :=
  wordL op 6 (if srcs = 0 then 0 else 0x008) (if srcs ≤ 1 then 0 else 0x28C) (if srcs ≤ 2 then 0 else 0x302) ty 0 imm

theorem test_decode_lane_int :
    (∀ p ∈ [(0x00, Instr.iadd), (0x01, .isub), (0x02, .imul), (0x03, .imulh), (0x08, .iand), (0x09, .ior), (0x0A, .ixor), (0x0B, .iandn),
        (0x0C, .ishl), (0x0D, .ishr), (0x0E, .isar), (0x10, .imin), (0x11, .imax)],
      decodeTableWord 96 (wordA p.1 2 1 0) = some (p.2 (opsL 2 .u32 0)))
    ∧ (∀ p ∈ [(0x04, Instr.imad), (0x05, .imadw)], decodeTableWord 96 (wordA p.1 3 0 0) = some (p.2 (opsL 3 .s32 0)))
    ∧ decodeTableWord 96 (wordA 0x06 3 16 0) = some (.idp4 (opsL 3 .s8x4 0))
    ∧ (∀ p ∈ [(0x07, Instr.iabs), (0x12, .popc), (0x13, .clz), (0x14, .brev), (0x1A, .mov)],
      decodeTableWord 96 (wordA p.1 1 2 0) = some (p.2 (opsL 1 .s64 0)))
    ∧ decodeTableWord 96 (wordA 0x0F 3 0 0x96) = some (.ilop3 (opsL 3 .s32 0x96))
    ∧ decodeTableWord 96 (wordA 0x15 1 0 (8 * 64 + 3)) = some (.bfe (opsL 1 .s32 0x203))
    ∧ decodeTableWord 96 (wordA 0x16 2 0 (8 * 64 + 3)) = some (.bfi (opsL 2 .s32 0x203))
    ∧ decodeTableWord 96 (wordA 0x18 2 3 5) = some (.isetp (opsL 2 .u64 5))
    ∧ decodeTableWord 96 (wordA 0x19 2 5 0xD) = some (.sel (opsL 2 .f64 0xD))
    ∧ decodeTableWord 96 (wordA 0x1B 0 1 5) = some (.plane (opsL 0 .u32 5)) := by decide +kernel

theorem test_decode_lane_float :
    (∀ p ∈ [(0x20, Instr.fadd), (0x21, .fsub), (0x22, .fmul), (0x24, .fmin), (0x25, .fmax), (0x2B, .fdiv), (0x31, .fscale)],
      decodeTableWord 96 (wordA p.1 2 4 0) = some (p.2 (opsL 2 .f32 0)))
    ∧ decodeTableWord 96 (wordA 0x23 3 7 0) = some (.ffma (opsL 3 .b2 0))
    ∧ decodeTableWord 96 (wordA 0x26 2 5 7) = some (.fsetp (opsL 2 .f64 7))
    ∧ (∀ p ∈ [(0x27, Instr.fclass), (0x28, .frcp), (0x29, .frsq), (0x2A, .fsqrt), (0x2C, .fexp2), (0x2D, .flog2), (0x2E, .fsin),
        (0x2F, .fcos), (0x30, .ftanh)], decodeTableWord 96 (wordA p.1 1 4 0) = some (p.2 (opsL 1 .f32 0))) := by decide +kernel

theorem test_decode_lane_convert_and_cross :
    decodeTableWord 96 (wordA 0x40 1 6 4) = some (.cvt (opsL 1 .h2 4))
    ∧ decodeTableWord 96 (wordA 0x41 1 12 300) = some (.qnt (opsL 1 .e4 300))
    ∧ decodeTableWord 96 (wordL 0x42 6 8 9 0 15 0 0) = some (.dqnt { opsL 1 .t6 0 with b := .vec 9 })
    ∧ decodeTableWord 96 (wordA 0x43 1 4 63) = some (.cvtq (opsL 1 .f32 63))
    ∧ decodeTableWord 96 (wordA 0x44 1 5 63) = some (.cvtf (opsL 1 .f64 63))
    ∧ decodeTableWord 96 (wordA 0x45 2 15 4) = some (.pack (opsL 2 .t6 4))
    ∧ decodeTableWord 96 (wordA 0x46 2 17 3) = some (.unpk (opsL 2 .u8x4 3))
    ∧ decodeTableWord 96 (wordA 0x50 2 14 3) = some (.shfl (opsL 2 .t8 3))
    ∧ decodeTableWord 96 (wordA 0x51 0 0 5) = some (.ballot (opsL 0 .s32 5))
    ∧ decodeTableWord 96 (wordA 0x52 0 0 (2 * 8 + 5)) = some (.vote (opsL 0 .s32 21))
    ∧ decodeTableWord 96 (wordA 0x53 1 4 2) = some (.lred (opsL 1 .f32 2))
    ∧ decodeTableWord 96 (wordA 0x54 1 1 (8 + 5)) = some (.lscan (opsL 1 .u32 13)) := by decide +kernel

/-- The aux field of a memory word (R62): device scope, an order, a width, hint 1, an address mode. -/
def auxM (order width uni : Nat) : Nat := word [(3, 2), (2, order), (3, width), (2, 1), (1, uni), (1, 0)]
/-- A memory word with the fields of `auxM`. -/
def memL (name : Fin 512) (a b c : Src) (ty : Ty) (o : Order) (w : Width) (uni : Bool) (imm : BitVec 24) : MemOps :=
  { h := headL name, a := a, b := b, c := c, ty := ty, scope := .device, order := o, width := w, hint := 1, uni := uni, imm := imm }

theorem test_decode_lane_memory :
    decodeTableWord 96 (wordL 0x60 6 8 0 0 3 (auxM 1 3 0) 0) = some (.vld (memL 6 (.vec 8) (.vec 0) (.vec 0) .u64 .acquire .w64 false 0))
    ∧ decodeTableWord 96 (wordL 0x61 0 0x28C 9 12 1 (auxM 2 4 1) 0)
        = some (.vst (memL 0 (.greg 12) (.vec 9) (.vec 12) .u32 .release .w128 true 0))
    ∧ decodeTableWord 96 (wordL 0x62 6 0x28C 0 0 15 (auxM 0 0 0) 63)
        = some (.vldn (memL 6 (.greg 12) (.vec 0) (.vec 0) .t6 .relaxed .w8 false 63))
    ∧ decodeTableWord 96 (wordL 0x63 0 0x28C 0 7 0 (auxM 0 0 0) 63)
        = some (.vstn (memL 0 (.greg 12) (.vec 0) (.vec 7) .s32 .relaxed .w8 false 63))
    ∧ decodeTableWord 96 (wordL 0x64 6 0x28C 9 0x302 0 (auxM 3 2 1) 6)
        = some (.atom (memL 6 (.greg 12) (.vec 9) (.imm 2) .s32 .acqRel .w32 true 6))
    ∧ decodeTableWord 96 (wordL 0x65 6 8 0 0x302 2 (auxM 3 3 0) 0)
        = some (.acas (memL 6 (.vec 8) (.vec 0) (.imm 2) .s64 .acqRel .w64 false 0))
    ∧ decodeTableWord 96 (wordL 0x66 0 8 0 7 7 (auxM 2 2 0) 0)
        = some (.red (memL 0 (.vec 8) (.vec 0) (.vec 7) .b2 .release .w32 false 0))
    ∧ decodeTableWord 96 (wordL 0x67 0 8 0 0 0 (word [(3, 0), (2, 0), (3, 0), (2, 2), (1, 0), (1, 0)]) 0)
        = some (.vpref { memL 0 (.vec 8) (.vec 0) (.vec 0) .s32 .relaxed .w8 false 0 with scope := .warp, hint := 2 }) := by decide +kernel

/-- The head of a control word other than LTRAP. -/
def headC : LaneHead := { gneg := false, guard := 7, chain := false, nowb := false, latch := 0, name := 0 }

theorem test_decode_lane_control :
    decodeTableWord 96 (word [(8, 0x80), (1, 0), (3, 7), (13, 0), (30, 0), (5, 0), (3, 5), (1, 1), (8, 0), (24, 0xFFFFFE)])
        = some (.brd { h := headC, pred := 5, pneg := true, imm := 0xFFFFFE })
    ∧ (∀ p ∈ [(0x81, Instr.jmark, 9), (0x82, .join, 0), (0x83, .lend, 0), (0x84, .ljmp, 9), (0x85, .lnop, 0)],
      decodeTableWord 96 (word [(8, p.1), (1, 0), (3, 7), (13, 0), (30, 0), (5, 0), (12, 0), (24, p.2.2)])
        = some (p.2.1 { h := headC, pred := 0, pneg := false, imm := BitVec.ofNat 24 p.2.2 }))
    ∧ decodeTableWord 96 (word [(8, 0x86), (1, 1), (3, 2), (13, 0), (30, 0), (5, 0), (12, 0), (24, 0xFE)])
        = some (.ltrap { h := headL 0, pred := 0, pneg := false, imm := 0xFE }) := by decide +kernel

/-- The worked lane word of file 03, with a guard, a chain bit, a latch and three kinds of source. -/
theorem test_decode_worked_lane : decodeTableWord 96 0x232903807466044000000000
    = some (.ffma { h := { gneg := false, guard := 2, chain := true, nowb := false, latch := 1, name := 7 }, a := .vec 3, b := .greg 12,
                    c := .imm 2, ty := .f32, m := plain, imm := 0 }) := by decide +kernel

/-- The modifiers of the arithmetic layout (R61), and every special source (Table 3.11). -/
theorem test_decode_modifiers :
    decodeTableWord 96 (wordL 0x23 6 8 9 10 4 (word [(3, 7), (1, 1), (1, 0), (1, 1), (1, 0), (1, 1), (1, 1), (3, 0)]) 0)
        = some (.ffma { h := headL 6, a := .vec 8, b := .vec 9, c := .vec 10, ty := .f32, imm := 0,
                        m := { rnd := .dyn, negA := true, negB := false, negC := true, absA := false, absB := true, sat := true } })
    ∧ (∀ p ∈ [(0x380, Src.zero), (0x381, .lane), (0x382, .warp), (0x383, .team), (0x384, .imm24), (0x385, .fimm), (0x386, .ones),
        (0x203, .latch 3), (0x2BF, .greg 63), (0x340, .imm 0x40), (0x1FF, .vec 511)],
      decodeTableWord 96 (wordL 0x1A 6 p.1 0 0 1 0 0) = some (.mov { opsL 1 .u32 0 with a := p.2 })) := by decide +kernel

/-- Unallocated and reserved encodings decode to no instruction (R42). -/
theorem test_decode_refuses : ∀ w ∈ [wordR 0x00 0xFF, wordR 0x0E 0, wordR 0x1F 0, wordR 0x00 0x28, wordR 0x12 0,
      word [(6, 0x0A), (3, 4), (3, 7), (6, 1), (6, 2), (8, 0)], word [(6, 0x0D), (3, 1), (3, 2), (3, 3), (3, 5), (14, 0)],
      word [(6, 0x05), (6, 3), (6, 1), (8, 1), (6, 63)], word [(6, 0x11), (3, 6), (1, 0), (22, 9)], word [(6, 0x20), (3, 6), (23, 0)],
      word [(6, 0x28), (3, 0), (6, 6), (6, 7), (3, 5), (2, 0), (6, 0)], word [(6, 0x3E), (6, 5), (12, 0x043), (8, 0)],
      word [(6, 0x3F), (18, 0), (8, 5)], wordE 0x32 1 0 0, wordE 0x35 1 0 0], decodeTableWord 32 w = none := by decide +kernel

theorem test_decode_refuses_lane : ∀ w ∈ [wordA 0x17 2 0 0, wordA 0x00 2 8 0, wordA 0x00 2 4 0, wordA 0x00 2 0 1, wordL 0x00 6 0x387 8 0 0 0 0,
      wordL 0x1A 6 0x204 0 0 0 0 0, wordL 0x1A 6 8 9 0 0 0 0, wordL 0x20 6 8 9 0 4 0x800 0, wordL 0x00 7 8 0x28C 0 2 0 0,
      wordL 0x87 0 0 0 0 0 0 0], decodeTableWord 96 w = none := by decide +kernel

/-! ## Well-formedness: an ill-formed term for each check is refused -/

theorem test_wf_scalar : ∀ i ∈ [Instr.qlog 0 1 2 .not, .mrot 0 1, .mrot 511 2, .mfree 0 0, .mfree 511 2, .mtag 0 0 0, .mtag 511 0 2,
    .mtag 0 12 1, .cpy (engE false false) 0 0, .cpy (engE false false) 13 2, .cpy (engE false false) 1 1,
    .cpy { engE false false with a := 60 } 0 1, .hread { engE false false with b := 0 }, .hread { engE false false with a := 61 },
    .hland { engE false false with b := 0 }, .hland { engE false false with s := .gang }, .hland (engE true false), .hland (engE false true),
    .hland { engE false false with a := 62 }, .mmac { engE false false with a := 62 }, .azero (engE true false), .ard (engE false true),
    .ard { engE false false with a := 63 }, .awr { engE false false with a := 63 }, .topk { engE false false with a := 62 } .s32 false false,
    .fput { engE false false with a := 61 }, .fputh { engE false false with b := 0 }, .fputh { engE false false with a := 61 },
    .fcoll { engE false false with b := 0 }, .fcoll { engE false false with a := 61 }, .fcont { engE false false with a := 62 },
    .tdef 63 0, .tget 0 63, .srd 0 0x043, .swr 0 0xFFF], i.wf = false := by decide +kernel

/-- Types, sources, pairs, destinations, modifiers and imm24 of the arithmetic words. -/
theorem test_wf_lane : ∀ i ∈ [Instr.iadd (opsL 2 .f32 0), .iadd { opsL 2 .s64 0 with a := .vec 7 }, .iadd { opsL 2 .s64 0 with b := .vec 7 },
    .imad { opsL 3 .s64 0 with c := .vec 7 }, .mov (opsL 2 .s32 0), .iadd (opsL 3 .s32 0), .plane (opsL 1 .s32 0), .iadd (opsL 2 .s32 1),
    .iadd { opsL 2 .s64 0 with h := headL 7 }, .iadd { opsL 2 .s32 0 with h := { headL 7 with nowb := true } },
    .iadd { opsL 2 .s64 0 with h := { headL 6 with nowb := true } },
    .iadd { opsL 2 .s32 0 with m := { plain with rnd := .rtz } }, .imulh { opsL 2 .s32 0 with m := { plain with sat := true } },
    .iadd { opsL 2 .s32 0 with m := { plain with negA := true } }, .iadd { opsL 2 .s32 0 with m := { plain with negB := true } },
    .fadd { opsL 2 .f32 0 with m := { plain with negC := true } }, .iadd { opsL 2 .s32 0 with m := { plain with absA := true } },
    .iadd { opsL 2 .s32 0 with m := { plain with absB := true } }, .ilop3 (opsL 3 .s32 0x100), .ilop3 { opsL 3 .s32 1 with a := .imm24 },
    .bfe (opsL 1 .s32 0), .bfe (opsL 1 .s32 (33 * 64)), .bfe (opsL 1 .s32 0x2043), .bfi (opsL 2 .s32 (31 * 64 + 2)), .isetp (opsL 2 .s32 6),
    .isetp { opsL 2 .s32 0 with h := headL 8 }, .isetp { opsL 2 .s32 0 with h := { headL 6 with latch := 1 } }, .sel (opsL 2 .s32 16),
    .plane (opsL 0 .s32 8), .fsetp (opsL 2 .f32 8), .fsetp (opsL 2 .h2 0), .frcp (opsL 1 .f64 0), .cvt (opsL 1 .f32 8), .cvt (opsL 1 .f32 0x20),
    .qnt (opsL 1 .e4 6), .qnt (opsL 1 .e4 0x200), .dqnt (opsL 2 .e4 0), .cvtq (opsL 1 .f32 64), .cvtf (opsL 1 .f32 64),
    .cvtf { opsL 1 .f32 0 with a := .vec 7 }, .pack (opsL 2 .h2 2), .unpk (opsL 2 .t6 5), .shfl (opsL 2 .s32 4), .ballot (opsL 0 .s32 8),
    .ballot { opsL 0 .s32 0 with h := headL 64 }, .vote (opsL 0 .s32 24), .vote (opsL 0 .s32 32), .lred (opsL 1 .s32 6), .lred (opsL 1 .f32 3),
    .lred { opsL 1 .f32 1 with m := { plain with rnd := .rtz } }, .lscan (opsL 1 .s32 16)], i.wf = false := by decide +kernel

/-- Widths, orders, address operands, sources and destinations of the memory words. -/
theorem test_wf_lane_memory : ∀ i ∈ [Instr.vld (memL 6 (.vec 8) (.vec 0) (.vec 0) .u64 .relaxed .w32 false 0),
    .vld (memL 6 (.vec 8) (.vec 0) (.vec 0) .u32 .release .w32 false 0), .vld (memL 6 (.vec 7) (.vec 0) (.vec 0) .u32 .relaxed .w32 false 0),
    .vld (memL 6 (.vec 8) (.vec 1) (.vec 0) .u32 .relaxed .w32 false 0), .vld (memL 6 (.vec 8) (.vec 0) (.vec 0) .u32 .relaxed .w32 true 0),
    .vld (memL 6 (.vec 8) (.vec 0) (.vec 1) .u32 .relaxed .w32 false 0), .vld (memL 6 (.vec 8) (.vec 0) (.vec 0) .u32 .relaxed .w128 false 0),
    .vld (memL 7 (.vec 8) (.vec 0) (.vec 0) .u64 .relaxed .w64 false 0), .vld (memL 6 (.vec 8) (.vec 0) (.vec 0) .u32 .relaxed .w32 false 1),
    .vst (memL 0 (.vec 8) (.vec 0) (.vec 7) .u64 .relaxed .w64 false 0), .vst (memL 0 (.vec 8) (.vec 0) (.latch 1) .u32 .relaxed .w128 false 0),
    .vst (memL 0 (.vec 8) (.vec 0) (.vec 4) .u32 .acquire .w32 false 0), .vst (memL 1 (.vec 8) (.vec 0) (.vec 4) .u32 .relaxed .w32 false 0),
    .vldn (memL 6 (.vec 8) (.vec 0) (.vec 0) .u32 .relaxed .w8 false 0), .vldn (memL 511 (.greg 1) (.vec 0) (.vec 0) .u32 .relaxed .w8 false 1),
    .vldn (memL 6 (.greg 1) (.vec 0) (.vec 0) .u64 .relaxed .w8 false 0), .vldn (memL 6 (.greg 1) (.vec 0) (.vec 0) .u32 .relaxed .w8 false 64),
    .vstn (memL 0 (.greg 1) (.vec 0) (.greg 1) .s32 .relaxed .w8 false 0), .vstn (memL 0 (.greg 1) (.vec 0) (.vec 1) .u32 .relaxed .w8 false 0),
    .vstn (memL 0 (.greg 1) (.vec 0) (.vec 511) .s32 .relaxed .w8 false 1), .atom (memL 6 (.vec 8) (.vec 0) (.vec 0) .s32 .relaxed .w64 false 0),
    .atom (memL 6 (.vec 8) (.vec 0) (.vec 0) .s32 .relaxed .w32 false 7), .acas (memL 6 (.vec 8) (.vec 0) (.vec 7) .s64 .relaxed .w64 false 0),
    .red (memL 0 (.vec 8) (.vec 0) (.vec 0) .s32 .acquire .w32 false 0), .red (memL 0 (.vec 8) (.vec 0) (.vec 0) .f32 .relaxed .w32 false 1),
    .red (memL 0 (.vec 8) (.vec 0) (.vec 0) .s32 .relaxed .w32 false 6), .vpref (memL 0 (.vec 8) (.vec 0) (.vec 0) .s32 .relaxed .w8 false 0)],
    i.wf = false := by decide +kernel

/-- Control words and events. -/
theorem test_wf_rest : ∀ i ∈ [Instr.lend { h := headL 0, pred := 0, pneg := false, imm := 0 }, .lend { h := headC, pred := 1, pneg := false, imm := 0 },
    .lnop { h := headC, pred := 0, pneg := true, imm := 0 }, .join { h := headC, pred := 0, pneg := false, imm := 1 },
    .jmark { h := headC, pred := 1, pneg := false, imm := 1 }, .ljmp { h := { headC with chain := true }, pred := 0, pneg := false, imm := 1 },
    .brd { h := { headC with name := 1 }, pred := 0, pneg := false, imm := 1 }, .ltrap { h := { headC with chain := true }, pred := 0, pneg := false, imm := 1 },
    .ltrap { h := headC, pred := 0, pneg := false, imm := 256 }, .hostRegWrite .a 4 0, .hostCmdUnknown .a 0x13, .sensorSample [],
    .governorStep { draw := 0, linkBusy := [], clusterBusy := [], linkThrottled := [], clusterThrottled := [] }], i.wf = false := by decide +kernel

/-! ## States for the tests

`w0` is the state in which one warp of context 1 is about to run its first word (log 11); the others differ from it as their names say. -/

/-- A warp at its first word. -/
def w0 : State := State.reset.placeWord 32 0
/-- The same with some g registers. -/
def gs (l : List (Nat × Nat)) : State := w0.modAg fun a => { a with g := l.map fun x => (x.1, BitVec.ofNat 64 x.2) }
/-- The entry of a lane block that reads g2, writes g1 and writes q1. -/
def blockEntry : QEntry := { kind := .block 0x8000, addr := 0, rid := 0, mode := 0, gRead := 4, gWrite := 2, qWrite := 2 }
/-- The same with a full lane queue. -/
def full (s : State) : State := s.modAg fun a => { a with queue := List.replicate 16 blockEntry }
/-- The same with one queued block. -/
def busy (s : State) : State := s.modAg fun a => { a with queue := [blockEntry] }
/-- A drop in the place of the warp. -/
def drop (s : State) : State := s.modAg fun a => { a with id := .drop 1 0 }
/-- A warp of a role. -/
def role (r : Role) (s : State) : State := s.modAg fun a => { a with role := r }
/-- A row with some references and holds. -/
def row (refs reads writes : Nat) : Row := { data := List.replicate 64 0, refs := refs, readHolds := reads, writeHolds := writes }
/-- Names 8 and 10 share row 0, 9 maps row 1 alone, 11 maps row 2, which a command holds; 13 rows are free. -/
def mapped (s : State) : State :=
  { s with
    ag := { s.ag with vmap := [(8, { row := 0, tag := 1 }), (9, { row := 1, tag := 2 }), (10, { row := 0, tag := 3 }), (11, { row := 2, tag := 4 })] }
    tm := s.tm.setRank 0 { s.tm.rank 0 with pool := upTo 3 16, live := [(0, row 2 0 0), (1, row 1 0 0), (2, row 1 1 0)] } }
/-- A pointer of a space. -/
def ptr (space off : Nat) : Nat := space * 2 ^ 61 + off

/-- An option that is known has one value. -/
theorem all_of_some {α : Type} {o : Option α} {v : α} {P : α → Prop} (h : o = some v) (hp : P v) : ∀ e, o = some e → P e := by
  intro e he; rw [h] at he; cases he; exact hp

/-! ## A state and operands that meet the hypotheses of each statement, clause by clause -/

theorem test_w_AluResults :
    (bits 0x128 31 26 = 0 ∧ bits 0x128 7 0 ∈ [0x28, 0x29, 0x2A] ∧ bits 0x128 13 8 ≠ 0)
    ∧ w0.ag.hazard (gBit 1 ||| gBit 63) (gBit 2) 0 0 = false ∧ w0.ag.hazard (gBit 0) (gBit 0) 0 0 = false := by decide +kernel

theorem test_w_DivisionEdges :
    (busy w0).ag.hazard (gBit 1 ||| gBit 3) (gBit 4) 0 0 = true ∧ (busy w0).ag.hazard (gBit 3 ||| gBit 4) (gBit 2) 0 0 = true
    ∧ (let s := gs [(1, 2 ^ 63), (2, 2 ^ 64 - 1)]
       s.ag.hazard (gBit 1 ||| gBit 2) (gBit 3) 0 0 = false ∧ s.ag.getG 1 = ofInt64 (-2 ^ 63) ∧ s.ag.getG 2 = ofInt64 (-1) ∧ s.ag.getG 0 = 0) := by
  decide +kernel

theorem test_w_ImmediateResults : (bits (6 * 2 ^ 26 + 64) 31 26 ∈ [5, 6, 7] ∧ bits (6 * 2 ^ 26 + 64) 13 6 ≠ 0)
    ∧ w0.ag.hazard (gBit 1) (gBit 2) 0 0 = false ∧ w0.ag.hazard 0 (gBit 63) 0 0 = false := by decide +kernel

theorem test_w_CompareAndSelect : w0.ag.hazard (gBit 1 ||| gBit 2) 0 0 (qBit 0) = false ∧ w0.ag.hazard (gBit 1) 0 0 (qBit 7) = false
    ∧ w0.ag.hazard (gBit 1 ||| gBit 2) (gBit 3) (qBit 6) 0 = false ∧ w0.ag.hazard 0 0 (qBit 1 ||| qBit 2) (qBit 3) = false := by decide +kernel

theorem test_w_ScalarControl : w0.ag.hazard 0 0 (qBit 6) 0 = false ∧ w0.ag.hazard 0 (gBit 62) 0 0 = false
    ∧ (gs [(1, 2 ^ 58 - 1)]).ag.hazard (gBit 1) (gBit 2) 0 0 = false ∧ ((gs [(1, 2 ^ 58 - 1)]).ag.getG 1).toNat < 2 ^ 58
    ∧ ¬ ((gs [(1, 2 ^ 58)]).ag.getG 1).toNat < 2 ^ 58 := by decide +kernel

/-- The scalar stream stands four regions beyond the oldest queued one at most. -/
theorem test_w_RegionEntries :
    (∀ e ∈ w0.ag.queue.head?, w0.ag.reg.rid < e.rid + 4)
    ∧ (∀ e ∈ (busy (w0.modAg fun a => { a with reg := { a.reg with rid := 3 } })).ag.queue.head?,
        (busy (w0.modAg fun a => { a with reg := { a.reg with rid := 3 } })).ag.reg.rid < e.rid + 4)
    ∧ w0.ag.isDrop = false ∧ w0.ag.queue = [] ∧ w0.atQueue = false ∧ ({ w0 with atQueue := true } : State).atQueue = true := by decide +kernel

theorem test_w_LrunEnqueues : w0.ag.hazard 0 0 (qBit 1) 0 = false ∧ (w0.ag.getQ 1).xor false = false ∧ (w0.ag.getQ 7).xor false = true
    ∧ w0.ag.queue.length < 16 ∧ (full w0).ag.hazard 0 0 (qBit 2) 0 = false ∧ 16 ≤ (full w0).ag.queue.length := by decide +kernel

theorem test_w_LsyncWaits : w0.atQueue = false ∧ (drop w0).ag.isDrop = true ∧ w0.ag.isDrop = false ∧ w0.ag.queue = []
    ∧ (busy w0).ag.queue ≠ [] ∧ (busy w0).ag.queue.length < 16 ∧ ({ w0 with atQueue := true } : State).atQueue = true := by decide +kernel

/-- The team has a trap handler. -/
def handler (s : State) : State := { s with tm := { s.tm with pkt := { s.tm.pkt with trapv := true } } }
/-- The warp is in trap mode, with a value of sr.fault. -/
def trapped (f : Word) : State := w0.modAg fun a => { a with trapMode := true, fault := f }

theorem test_w_TrapAndBreak : w0.atQueue = false ∧ w0.ag.queue = [] ∧ w0.ag.isDrop = false ∧ w0.ag.trapMode = false
    ∧ (handler w0).tm.pkt.trapv = true ∧ w0.tm.pkt.trapv = false := by decide +kernel

theorem test_w_ReturnFromTrap : w0.ag.trapMode = false ∧ (busy (trapped 0)).ag.trapMode = true ∧ (busy (trapped 0)).ag.queue ≠ []
    ∧ (trapped 0x231).ag.trapMode = true ∧ (trapped 0x231).ag.queue = [] ∧ bit (trapped 0x231).ag.fault.toNat 9 = true
    ∧ bit (trapped 0x40131).ag.fault.toNat 9 = false := by decide +kernel

/-- A fault of a region. -/
def pending (code : Byte) (rid : Nat) : Pending := { rid := rid, code := code, addr := 7, page := 7, lane := true, tell := false }

theorem test_w_FaultDelivery : (handler w0).ag.isDrop = false ∧ (handler w0).ag.trapMode = false ∧ (handler w0).tm.pkt.trapv = true
    ∧ (pending 0x14 0).tell = false ∧ (pending 0x14 0).code ≠ 0x11 ∧ (pending 0x14 0).rid = (handler w0).ag.reg.rid
    ∧ (pending 0x14 1).rid ≠ (handler w0).ag.reg.rid
    ∧ ((w0.modAg fun a => { a with reg := { a.reg with nr := true } }).ag.region (pending 0x11 0).rid).nr = true := by decide +kernel

theorem test_w_FaultParksOrEnds : (pending 0x11 0).tell = false ∧ (pending 0x11 0).rid = w0.ag.reg.rid ∧ (pending 0x11 0).code = 0x11
    ∧ w0.ag.reg.nr = false ∧ (trapped 0).ag.trapMode = true ∧ w0.ag.trapMode = false
    ∧ (pending 0x14 0).code ≠ 0x11 ∧ (drop w0).ag.isDrop = true ∧ w0.ag.isDrop = false ∧ w0.tm.pkt.trapv = false := by decide +kernel

theorem test_w_SystemRegisters : w0.ag.queue = [] ∧ w0.ag.hazard 0 (gBit 5) 0 0 = false
    ∧ (let s := gs [(1, 3), (2, 4), (3, 63), (4, 64)]
       s.ag.queue = [] ∧ (∀ d ∈ [1, 2, 3, 4], s.ag.hazard (gBit d) 0 0 0 = false) ∧ (s.ag.getG 1).toNat ≤ 3 ∧ 3 < (s.ag.getG 2).toNat
       ∧ (s.ag.getG 3).toNat ≤ 63 ∧ 63 < (s.ag.getG 4).toNat) := by decide +kernel

theorem test_w_LevelVote : w0.ag.hazard (gBit 1) (gBit 2) 0 0 = false ∧ w0.ag.hazard (gBit 0) (gBit 0) 0 0 = false := by decide +kernel

theorem test_w_ScalarAccessFaults :
    let s := gs [(1, ptr 6 0)]
    s.ag.queue = []
    ∧ (∀ x ∈ [(8, Acc.load), (4, .load), (8, .store), (4, .store)],
        (s.checkAccesses s.tm s.who { spaces := [0, 1, 2, 3, 4], size := x.1, align := 1, acc := x.2 } [scalarAt (s.ag.getG 1) 0]).isSome = true)
    ∧ ∀ x ∈ [([0, 1, 2], Acc.atomic), ([4], .publish)],
        (s.checkAccesses s.tm s.who { spaces := x.1, size := 8, align := 8, acc := x.2 } [{ lane := 0, ptr := s.ag.getG 1, ok := true }]).isSome = true := by
  decide +kernel

/-- An access of one lane. -/
def lane0 (p : Nat) : LaneAcc := { lane := 0, ptr := BitVec.ofNat 64 p, ok := true }
/-- Loads, stores and atomics of 8 bytes. -/
def spec8 (a : Acc) : AccSpec := { spaces := [0, 1, 2, 3, 4], size := 8, align := 8, acc := a }
/-- The same page, but readable only. -/
def readOnly : State := { w0 with mem := w0.mem.writeNat 0x41000 8 0x50013 }

theorem test_w_AccessPhases :
    (¬ ((lane0 (ptr 7 0)).ok = true ∧ spaceOk [0, 1, 2, 3, 4] (lane0 (ptr 7 0)).ptr 8 = true))
    ∧ (spaceOk [0, 1, 2, 3, 4] (lane0 (ptr 1 384)).ptr 8 = true ∧ ¬ windowOk w0.tm w0.who (lane0 (ptr 1 384)).ptr 8 = true)
    ∧ (windowOk w0.tm w0.who (lane0 (ptr 1 376)).ptr 8 = true ∧ bits (lane0 (ptr 1 376)).ptr.toNat 57 0 % 8 = 0)
    ∧ (spaceOk [0, 1, 2, 3, 4] (lane0 (ptr 1 4)).ptr 8 = true ∧ windowOk w0.tm w0.who (lane0 (ptr 1 4)).ptr 8 = true
        ∧ ¬ bits (lane0 (ptr 1 4)).ptr.toNat 57 0 % 8 = 0)
    ∧ ((badPieces (readOnly.pieces w0.who .store (lane0 64).ptr 8 0)).map (·.code) = [0x12] ∧ windowOk w0.tm w0.who (lane0 64).ptr 8 = true)
    ∧ ((badPieces (w0.pieces w0.who .load (lane0 0x100000000).ptr 8 0)).map (·.code) = [0x11]
        ∧ windowOk w0.tm w0.who (lane0 0x100000000).ptr 8 = true ∧ spaceOk [0, 1, 2, 3, 4] (lane0 0x100000000).ptr 8 = true)
    ∧ badPieces (w0.pieces w0.who .load (lane0 64).ptr 8 0) = []
    ∧ (∀ p ∈ goodPieces (w0.pieces w0.who .load (lane0 64).ptr 8 0), w0.piecePoison p = none)
    ∧ ((goodPieces (({ w0 with poison := [0x50040 / 32] } : State).pieces w0.who .load (lane0 64).ptr 8 0)).map
        fun p => (({ w0 with poison := [0x50040 / 32] } : State).piecePoison p).isSome) = [true] := by decide +kernel

theorem test_w_BytesOfAccess :
    (∀ r ∈ [1, 2, 3], ∀ o ∈ [0, 376], badPieces (w0.pieces w0.who .load (BitVec.ofNat 64 (ptr r o)) 8 0) = []
      ∧ bits (BitVec.ofNat 64 (ptr r o)).toNat 63 61 = r) ∧ 7 < 8
    ∧ badPieces (w0.pieces w0.who .load 0xFFF8 8 0) = [] ∧ bits (0xFFF8#64).toNat 63 61 = 0 ∧ w0.tlb = [] := by decide +kernel

theorem test_w_ScalarLoads :
    let s := gs [(1, ptr 1 376)]
    let p := scalarAt (s.ag.getG 1) 0
    s.ag.queue = [] ∧ ∀ x ∈ [(8, Acc.load), (4, .load), (8, .store), (4, .store)],
      s.checkAccesses s.tm s.who { spaces := [0, 1, 2, 3, 4], size := x.1, align := 1, acc := x.2 } [p] = none
      ∧ s.accessFenced s.who { spaces := [0, 1, 2, 3, 4], size := x.1, align := 1, acc := x.2 } [p] = false := by decide +kernel

theorem test_w_ScalarAtomics :
    let s := gs [(1, 0x40)]
    let sp : AccSpec := { spaces := [0, 1, 2], size := 8, align := 8, acc := .atomic }
    s.ag.queue = [] ∧ s.checkAccesses s.tm s.who sp [{ lane := 0, ptr := s.ag.getG 1, ok := true }] = none
    ∧ s.accessFenced s.who sp [{ lane := 0, ptr := s.ag.getG 1, ok := true }] = false ∧ s.gangPending s.tm = false := by decide +kernel

/-- Context 1 has a host page at host address 0 of port A, readable and writable. -/
def hosted (s : State) : State :=
  { s with
    ctxs := s.ctxs.insert 1 { perf := true, groot := 0x10000, hroot := 0x10000, expBase := 0, expSize := 2 ^ 16, slots := [], destroying := false } }

theorem test_w_FencesAndPublish :
    let s := hosted (gs [(1, ptr 4 0x40)])
    let sp : AccSpec := { spaces := [4], size := 8, align := 8, acc := .publish }
    s.ag.queue = [] ∧ s.gangPending s.tm = false ∧ s.checkAccesses s.tm s.who sp [{ lane := 0, ptr := s.ag.getG 1, ok := true }] = none
    ∧ s.accessFenced s.who sp [{ lane := 0, ptr := s.ag.getG 1, ok := true }] = false
    ∧ (goodPieces (s.pieces s.who .publish (s.ag.getG 1) 8 0)).map (·.place) = [.host .a] := by decide +kernel

theorem test_w_MapShuffles : w0.ag.queue = [] ∧ ({ w0 with atQueue := true } : State).atQueue = true := by decide +kernel

theorem test_w_TagEdits :
    let s := mapped w0
    s.ag.queue = [] ∧ (s.entry 8).isSome = true ∧ ¬ (s.entry 7).isSome = true
    ∧ (∃ e, s.entry 10 = some e ∧ ¬ (s.myRank.row e.row).refs ≤ 1)
    ∧ ∀ e, s.entry 9 = some e → (s.myRank.row e.row).refs ≤ 1 :=
  ⟨by decide +kernel, by decide +kernel, by decide +kernel, ⟨{ row := 0, tag := 3 }, by decide +kernel⟩,
    all_of_some (v := { row := 1, tag := 2 }) (by decide +kernel) (by decide +kernel)⟩

theorem test_w_MapQuery : w0.ag.queue = [] ∧ w0.entry 5 = none ∧ (mapped w0).entry 11 = some { row := 2, tag := 4 } := by decide +kernel

theorem test_w_AliasAndMove :
    let s := mapped w0
    s.ag.queue = [] ∧ s.entry 7 = none ∧ s.entry 8 = some { row := 0, tag := 1 } ∧ s.entry 10 = some { row := 0, tag := 3 }
    ∧ (s.entry 11 = some { row := 2, tag := 4 } ∧ s.held 2 = true) ∧ s.yields 7 0 ∧ s.yields 9 0 :=
  ⟨by decide +kernel, by decide +kernel, by decide +kernel, by decide +kernel, by decide +kernel,
    fun e h => absurd (h.symm.trans (by decide +kernel : (mapped w0).entry 7 = none)) (by simp),
    all_of_some (v := { row := 1, tag := 2 }) (by decide +kernel) (by decide +kernel)⟩

/-- A handoff slot holds a row of a rank. -/
def handed (rank : Nat) (s : State) : State := { s with tm := { s.tm with handoff := [(31, { row := 2, tag := 5, rank := rank })] } }

theorem test_w_Handoffs :
    let s := mapped w0
    s.ag.queue = [] ∧ s.entry 7 = none ∧ (s.entry 8 = some { row := 0, tag := 1 } ∧ 1 < (s.myRank.row 0).refs)
    ∧ (s.entry 9 = some { row := 1, tag := 2 } ∧ (s.myRank.row 1).refs ≤ 1) ∧ (List.find? (fun x => x.1 == 31) (handed 0 s).tm.handoff).isSome = true
    ∧ Sparse.find? s.tm.handoff 31 = none ∧ Sparse.find? (handed 1 s).tm.handoff 31 = some { row := 2, tag := 5, rank := 1 } ∧ 1 ≠ s.ag.rank
    ∧ (0 = s.ag.rank ∧ (handed 0 s).yields 7 2) :=
  ⟨by decide +kernel, by decide +kernel, by decide +kernel, by decide +kernel, by decide +kernel, by decide +kernel, by decide +kernel,
    by decide +kernel, by decide +kernel,
    fun e h => absurd (h.symm.trans (by decide +kernel : (handed 0 (mapped w0)).entry 7 = none)) (by simp)⟩

/-- A second warp of the team on the same core. -/
def second : Agent := { Agent.start (.warp 1 1) 0 0 .gen 0 with vmap := [(0, { row := 2, tag := 4 })] }

theorem test_w_PlaceInWarp :
    let s := { mapped (gs [(1, 1), (2, 9)]) with agents := [second] }
    s.ag.queue = [] ∧ s.entry 7 = none ∧ (s.entry 8 = some { row := 0, tag := 1 } ∧ 1 < (s.myRank.row 0).refs)
    ∧ (s.entry 9 = some { row := 1, tag := 2 } ∧ (s.myRank.row 1).refs ≤ 1) ∧ s.receiver (s.ag.getG 2).toNat = none
    ∧ s.receiver (s.ag.getG 1).toNat = some second ∧ (Sparse.find? second.vmap 0).isSome = true ∧ Sparse.find? second.vmap 1 = none := by
  decide +kernel

/-- A barrier at scratchpad address 16, in use: it expects 2, and LAND is clear. -/
def barS (l : List (Nat × Nat)) : State :=
  let s := gs l
  { s with tm := s.tm.setRank 0 { s.tm.rank 0 with scratch := [(0, 1), (15, 1), (16, 2), (31, 1)] } }

theorem test_w_BarrierChecks :
    let s := barS [(1, ptr 1 0), (2, ptr 6 0), (3, ptr 1 384), (4, ptr 1 8), (5, ptr 1 32)]
    let space (n : Fin 64) := spaceOk [1, 2] (s.ag.getG n) 16 = true
    let window (n : Fin 64) := windowOk s.tm s.who (s.ag.getG n) 16 = true
    s.ag.queue = [] ∧ s.ag.isDrop = false ∧ ¬ space 2 ∧ (space 3 ∧ ¬ window 3) ∧ (space 4 ∧ window 4 ∧ ¬ bits (s.ag.getG 4).toNat 57 0 % 16 = 0)
    ∧ (space 5 ∧ window 5 ∧ bits (s.ag.getG 5).toNat 57 0 % 16 = 0 ∧ (s.tm.bar (barLoc s.who (s.ag.getG 5))).init = false)
    ∧ (drop s).ag.isDrop = true := by decide +kernel

theorem test_w_BarrierUpdates :
    let s := barS [(1, ptr 1 16), (2, ptr 1 368), (3, 2 ^ 32 - 1)]
    s.ag.queue = [] ∧ s.tm.id ≠ 0 ∧ checkBarrier s.tm s.who (s.ag.getG 2) false = none ∧ checkBarrier s.tm s.who (s.ag.getG 1) true = none := by
  decide +kernel

/-- The object of `barS` after some phases. -/
def phased (n : Nat) : State :=
  let s := barS [(1, ptr 1 16)]
  { s with tm := s.tm.setRank 0 { s.tm.rank 0 with scratch := [(16, 2), (28, BitVec.ofNat 8 n), (31, 1)] } }

theorem test_w_BarrierWaits :
    let s := phased 1
    s.ag.queue = [] ∧ s.tm.id ≠ 0 ∧ s.gangPending s.tm = false ∧ checkBarrier s.tm s.who (s.ag.getG 1) true = none
    ∧ checkBarrier s.tm s.who (s.ag.getG 1) false = none ∧ s.ag.isDrop = false
    ∧ (∃ k, 1 ≤ k ∧ k ≤ 32767 ∧ (s.tm.bar (barLoc s.who (s.ag.getG 1))).phase = (0 + k) % 65536)
    ∧ ¬ ∃ k, 1 ≤ k ∧ k ≤ 32767 ∧ (s.tm.bar (barLoc s.who (s.ag.getG 1))).phase = (1 + k) % 65536 := by
  have h : ((phased 1).tm.bar (barLoc (phased 1).who ((phased 1).ag.getG 1))).phase = 1 := by decide +kernel
  refine ⟨by decide +kernel, by decide +kernel, by decide +kernel, by decide +kernel, by decide +kernel, by decide +kernel,
    ⟨1, by decide, by decide, h⟩, ?_⟩
  rintro ⟨k, h1, h2, h3⟩
  rw [h] at h3
  omega

/-- An object of two expected arrivals that awaits no byte. -/
def bar2 (arrived : Nat) : Bar := { expected := 2, arrived := arrived, target := 0, landed := 0, phase := 65535, err := 0, flags := 1 }

theorem test_w_ArrivalRule :
    (w0.tm.id ≠ 0 ∧ (barLoc w0.who 0).team = w0.tm.id) ∧ ({ bar2 0 with flags := 0 } : Bar).init = false ∧ (bar2 0).init = true
    ∧ (min (bar2 0).expected ((bar2 0).arrived + 1) < (bar2 0).expected)
    ∧ (min (bar2 1).expected ((bar2 1).arrived + 1) = (bar2 1).expected ∧ (bar2 1).target ≤ ((bar2 1).landed + 0) % 2 ^ 32) := by decide +kernel

/-- A task slot. -/
def slot (st : TaskState) (count : Nat) (w : Word) : TaskSlot := { state := st, counter := count, word := w, arg := 0, stamp := 0 }
/-- Slot 0 runs and names slot 1 once; slot 1 waits for one, slot 2 for none and is READY. -/
def tasked (count : Nat) (s : State) : State :=
  { s with tm := { s.tm with tasks := [(0, slot .running 0 (1 * 2 ^ 32 + 2 ^ 60)), (1, slot .waiting count 0), (2, slot .ready 0 0)] } }

theorem test_w_TaskDefinition :
    let s := gs [(1, 63), (2, 64), (3, 2 ^ 62), (4, 2 ^ 62 - 1)]
    s.ag.queue = [] ∧ 63 < (s.ag.getG 2).toNat ∧ (s.ag.getG 1).toNat ≤ 63 ∧ 2 ^ 62 ≤ (s.ag.getG 3).toNat ∧ (s.ag.getG 4).toNat < 2 ^ 62 := by
  decide +kernel

theorem test_w_TaskPop :
    let s := tasked 1 w0
    w0.ag.queue = [] ∧ (∀ x ∈ w0.tm.tasks, x.2.state ≠ .ready) ∧ s.ag.queue = [] ∧ ((2, slot .ready 0 0) ∈ s.tm.tasks)
    ∧ (slot .ready 0 0).state = .ready
    ∧ ∀ x ∈ s.tm.tasks, x.2.state = .ready → x ≠ (2, slot .ready 0 0) →
        x.2.prio < (slot .ready 0 0).prio ∨ (x.2.prio = (slot .ready 0 0).prio
          ∧ ((slot .ready 0 0).stamp < x.2.stamp ∨ ((slot .ready 0 0).stamp = x.2.stamp ∧ 2 < x.1))) := by decide +kernel

theorem test_w_TaskCompletion :
    let s (c : Nat) := tasked c (gs [(1, 63), (2, 64)])
    let named (m : Nat) : Nat := (slot .running 0 (1 * 2 ^ 32 + 2 ^ 38)).succs.countP (· == m)
    let t : State := { s 1 with tm := { (s 1).tm with tasks := (0, slot .running 0 (1 * 2 ^ 32 + 2 ^ 38)) :: (s 1).tm.tasks.drop 1 } }
    (s 1).ag.queue = [] ∧ 63 < ((s 1).ag.getG 2).toNat ∧ (((s 1).ag.getG 1).toNat ≤ 63 ∧ Sparse.find? (s 1).tm.tasks ((s 1).ag.getG 1).toNat = none)
    ∧ (((s 1).ag.getG 0).toNat ≤ 63 ∧ Sparse.find? t.tm.tasks ((s 1).ag.getG 0).toNat = some (slot .running 0 (1 * 2 ^ 32 + 2 ^ 38)))
    ∧ (0 < named 1 ∧ Sparse.find? (s 0).tm.tasks 1 = some (slot .waiting 0 0))
    ∧ ∀ m, named m ≤ if m = 1 then 1 else 0 := by
  refine ⟨by decide +kernel, by decide +kernel, by decide +kernel, by decide +kernel, by decide +kernel, fun m => ?_⟩
  have h : (slot .running 0 (1 * 2 ^ 32 + 2 ^ 38)).succs = [1] := by decide +kernel
  show List.countP (· == m) (slot .running 0 (1 * 2 ^ 32 + 2 ^ 38)).succs ≤ if m = 1 then 1 else 0
  rw [h]
  by_cases e : m = 1
  · simp [e]
  · have : ¬ 1 = m := fun x => e x.symm
    simp [e, this]

/-- The team has ended but for its grid's records. -/
def halted : State := w0.modAg fun a => { a with status := .halted }

theorem test_w_HaltAndTeamEnd : (drop w0).ag.isDrop = true ∧ w0.ag.isDrop = false ∧ w0.ag.queue = [] ∧ w0.getTeam placeTeam.id = some placeTeam
    ∧ (∃ a ∈ w0.allAgents, teamOf a.id = placeTeam.id ∧ (a.status ≠ .halted ∨ a.isDrop = true))
    ∧ (∀ a ∈ halted.allAgents, ¬ (teamOf a.id = placeTeam.id ∧ (a.status ≠ .halted ∨ a.isDrop = true))) ∧ halted.cmds = [] :=
  ⟨by decide +kernel, by decide +kernel, by decide +kernel, by decide +kernel, ⟨w0.ag, by decide +kernel, by decide +kernel⟩, by decide +kernel,
    by decide +kernel⟩

theorem test_w_EngineRoles : w0.atQueue = false ∧ w0.ag.queue = [] ∧ w0.ag.role = .gen ∧ (role .cpy w0).ag.role ≠ .gen
    ∧ w0.ag.role ≠ .mtx ∧ w0.ag.role ≠ .com ∧ w0.ag.role ≠ .cpy ∧ w0.ag.isDrop = false ∧ (drop w0).ag.isDrop = true := by decide +kernel

/-- A list of checks whose first failure is known. -/
theorem first_of {fs : List (Option Fail)} {f : Fail} (h : firstFail fs = some f) : FirstOf fs (some f) := by
  induction fs with
  | nil => cases h
  | cons x r ih =>
    cases x with
    | some y => cases h; exact ⟨[], r, rfl, by simp⟩
    | none =>
      obtain ⟨xs, ys, e, hx⟩ := ih h
      exact ⟨none :: xs, ys, by rw [e]; rfl, by
        intro y hy
        rcases List.mem_cons.1 hy with rfl | hy
        · rfl
        · exact hx y hy⟩

/-- A list of checks without a failure. -/
theorem first_none {fs : List (Option Fail)} (h : firstFail fs = none) : FirstOf fs none := by
  induction fs with
  | nil => intro f hf; cases hf
  | cons x r ih =>
    cases x with
    | some y => cases h
    | none =>
      intro f hf
      rcases List.mem_cons.1 hf with rfl | hf
      · rfl
      · exact ih h f hf

/-- An engine command's fields: predicate q1, descriptor from g8, barrier pointer in g20. -/
def eng : EngOps := { q := 1, a := 8, b := 20, s := .team, acq := false, rel := false }
/-- A queue of commands of a kind that a warp's core holds. -/
def loaded (k : CmdKind) (n : Nat) (s : State) : State := { s with cmds := List.replicate n (s.newCmd k .hend { eng with b := 0 } []) }

/-- A copy of 64 bytes, and copies whose checks fail: reserved registers, a window, an alignment. -/
theorem test_w_CopyAcceptance :
    let e : EngOps := { eng with b := 0 }
    let s := role .cpy (gs [(8, ptr 1 0), (9, 0x40), (10, 64)])
    let bad := role .cpy (gs [(8, ptr 1 384), (9, 0x40), (10, 64)])
    let odd := role .cpy (gs [(8, ptr 1 0), (9, 0x41), (10, 64), (11, 64 + 64 * 2 ^ 32)])
    let c (u : State) (t n : Nat) := Copy.ofDesc (u.descOf 8 5) t n
    let spaces := [0, 1, 2, 3, 4, 5]
    let ends (u : State) (t n : Nat) := extentFail u.tm u.who
      [{ spaces := spaces, ptr := (c u t n).src, size := (c u t n).srcSpan }, { spaces := spaces, ptr := (c u t n).dst, size := (c u t n).dstSpan }]
    s.ag.queue = [] ∧ s.ag.role = .cpy
    ∧ bits ((gs [(8, ptr 5 0)]).ag.getG 8).toNat 63 61 = 5
    ∧ ((role .com s).ag.role = .com ∧ bits (c s 0 1).src.toNat 63 61 ≠ 5 ∧ bits (c s 0 1).dst.toNat 63 61 ≠ 5)
    ∧ copyReserved ((role .cpy (gs [(8, ptr 1 0), (10, 64), (11, 1)])).descOf 8 5) 1 = true
    ∧ (copyReserved (s.descOf 8 5) 1 = false ∧ (c s 0 1).b % (c s 0 1).u = 0 ∧ ends s 0 1 = none ∧ s.barFail e.b = none
        ∧ s.loadOn s.who.core [.cpy, .hread] < 1024)
    ∧ (copyReserved (bad.descOf 8 5) 1 = false ∧ ends bad 0 1 = some { code := 0x14, addr := (c bad 0 1).src })
    ∧ (copyReserved (odd.descOf 8 5) 2 = false ∧ ends odd 2 2 = none ∧ (c odd 2 2).dst.toNat % (c odd 2 2).u ≠ 0)
    ∧ 1024 ≤ (loaded .cpy 1024 s).loadOn s.who.core [.cpy, .hread] ∧ (loaded .cpy 1024 s).ag.queue = [] := by decide +kernel

/-- The hypotheses of an engine command with the checks of a list. -/
theorem test_w_FirstOf :
    FirstOf [none, some { code := 0x13, addr := 0 }, some { code := 0x14, addr := 0 }] (some { code := 0x13, addr := 0 })
    ∧ FirstOf [none, none] none ∧ GangReady w0 True ∧ GangReady w0 False :=
  ⟨first_of rfl, first_none rfl, .inl (by decide +kernel), .inr (fun h => h)⟩

theorem test_w_ReadAcceptance :
    let s := role .cpy (barS [(8, 0x40), (9, 64 + 2 ^ 32 + 2 ^ 48), (20, ptr 1 16)])
    let d := s.descOf 8 4
    s.ag.queue = [] ∧ s.ag.isDrop = false ∧ s.ag.role = .cpy
    ∧ bits (descNat ((role .cpy (gs [(11, 2 ^ 45)])).descOf 8 4) 3) 63 45 ≠ 0
    ∧ (bits (descNat d 3) 63 45 = 0 ∧ bits (descNat d 3) 31 0 % 4 = 0
      ∧ firstFail [extentFail s.tm s.who [{ spaces := [0, 1, 2, 3, 4], ptr := d.getD 0 0, size := 64 }], s.barFail 20] = none
      ∧ s.loadOn s.who.core [.cpy, .hread] < 1024 ∧ s.handlersUsed s.tm s.ag.rank + 1 ≤ s.tm.pkt.handlers
      ∧ 1 ≤ s.myRank.pool.length + s.myRank.zeroing.length)
    ∧ ¬ (let u := role .cpy (gs [(11, 1 * 2 ^ 32)]); u.handlersUsed u.tm u.ag.rank + 2 ≤ u.tm.pkt.handlers)
    ∧ (firstFail [extentFail s.tm s.who [{ spaces := [0, 1, 2, 3, 4], ptr := BitVec.ofNat 64 (ptr 6 0), size := 64 }], s.barFail 20]).isSome = true := by
  decide +kernel

theorem test_w_LandingBinding :
    let s := role .cpy (barS [(8, 7), (9, 0), (10, 2 ^ 32 - 1), (20, ptr 1 16)])
    let d := s.descOf 8 3
    let landing : Landing := { bar := 0, barRank := 0, entry := 0, window := 1, perSet := 0, rank := 0, rows := [5], running := 0, waiting := [] }
    let bound (w : Nat) : State := { s with tm := { s.tm with landings := [(7, { landing with window := w })] } }
    s.ag.queue = [] ∧ s.ag.role = .cpy
    ∧ ¬ (descNat ((role .cpy (gs [(8, 8)])).descOf 8 3) 0 < 8)
    ∧ (descNat d 0 < 8 ∧ descNat d 1 < 2 ^ 36 ∧ descNat d 1 % 2 ^ 32 % 4 = 0 ∧ descNat d 2 < 2 ^ 32)
    ∧ ((role .cpy (gs [(20, ptr 6 0)])).barFail 20).isSome = true
    ∧ (s.barFail 20 = none ∧ s.tm.id ≠ 0 ∧ s.slotTaken 7 = false ∧ Sparse.find? s.tm.landings 7 = none
        ∧ s.handlersUsed s.tm s.ag.rank + 1 ≤ s.tm.pkt.handlers ∧ 1 ≤ s.myRank.pool.length + s.myRank.zeroing.length)
    ∧ (s.tm.pkt.handlers < s.handlersUsed s.tm s.ag.rank + 2)
    ∧ (Sparse.find? (bound 1).tm.landings 7 = some landing ∧ (bound 1).slotTaken 7 = false
        ∧ (bound 1).handlersUsed (bound 1).tm 0 + 1 - landing.window ≤ (bound 1).tm.pkt.handlers)
    ∧ (bound 1).tm.pkt.handlers < (bound 1).handlersUsed (bound 1).tm 0 + 3 - landing.window := by decide +kernel

/-- The team has 256 bytes of accumulator, and the warp drives the matrix engine. -/
def matrix (s : State) : State := role .mtx { s with tm := { s.tm with pkt := { s.tm.pkt with accum256 := 1 } } }

/-- A product of the row of v8 by the row of v9, both F32, in words 0 on. -/
def mmacRegs (m : Nat) : List (Nat × Nat) := [(8, 8 + 9 * 2 ^ 9), (9, m + 2 ^ 16 + 2 ^ 32), (10, 2 ^ 18)]

theorem test_w_MatrixMultiplyAcceptance :
    let s (m : Nat) := let u := mapped (matrix (gs (mmacRegs m))); u.modAg fun a => { a with vmap := a.vmap.insert 9 { row := 1, tag := 1 } }
    let x (m : Nat) := Mmac.ofDesc ((s m).descOf 8 3)
    (s 1).ag.queue = [] ∧ (s 1).ag.role = .mtx
    ∧ (Mmac.ofDesc ((matrix (gs [(8, 2 ^ 44)])).descOf 8 3)).reserved = true
    ∧ ((x 65).reserved = false ∧ (x 65).accType ≤ 1 ∧ 64 < (x 65).m) ∧ ((x 0).m = 0 ∧ (x 0).n ≤ 64 ∧ (x 0).k ≤ 320)
    ∧ ((x 1).m ≠ 0 ∧ (x 1).n ≠ 0 ∧ (x 1).k ≠ 0 ∧ (x 1).names = [8, 9] ∧ (s 1).unmappedFail (x 1).names = none
        ∧ (s 1).tagChecks (x 1) = none ∧ (s 1).windowFail (x 1).off (x 1).ld (x 1).m (x 1).n = none)
    ∧ ((x 64).names.length = 65 ∧ ((s 64).unmappedFail (x 64).names).isSome = true)
    ∧ ((s 1).loadOn (s 1).who.core [.mmac, .azero, .ard, .awr] < 16 ∧ (s 1).barFail 0 = none)
    ∧ 16 ≤ (loaded .mmac 16 (s 1)).loadOn (s 1).who.core [.mmac, .azero, .ard, .awr]
    ∧ ((matrix (gs [(20, ptr 6 0)])).barFail 20).isSome = true := by decide +kernel

theorem test_w_AccumulatorMoves :
    let s := mapped (matrix (gs [(8, 0), (9, 1 + 2 ^ 16)]))
    let d0 (n : Nat) := descNat ((matrix (gs [(8, n)])).descOf 8 1) 0
    let x (first rows : Nat) := AccMove.ofDesc ((matrix (gs [(8, first * 2 ^ 34 + 2 ^ 18), (9, rows + 2 ^ 16)])).descOf 8 2)
    s.ag.queue = [] ∧ s.ag.role = .mtx ∧ 2 ^ 36 ≤ d0 (2 ^ 36)
    ∧ (d0 1 < 2 ^ 36 ∧ bits (d0 1) 17 0 % 4 ≠ 0)
    ∧ (bits (d0 (260 * 2 ^ 18)) 17 0 % 4 = 0 ∧ s.tm.accumSize < bits (d0 (260 * 2 ^ 18)) 17 0 + bits (d0 (260 * 2 ^ 18)) 35 18)
    ∧ (bits (d0 (256 * 2 ^ 18)) 17 0 + bits (d0 (256 * 2 ^ 18)) 35 18 ≤ s.tm.accumSize)
    ∧ bits (2 ^ 43) 63 43 ≠ 0 ∧ 64 < (x 8 65).rows ∧ (x 8 0).rows = 0
    ∧ ((x 8 2).rows ≠ 0 ∧ (x 8 2).cols ≠ 0 ∧ s.unmappedFail (upTo 8 10) = none ∧ s.windowFail (x 8 2).off (x 8 2).ld 2 1 = none
        ∧ (s.unmappedFail (upTo 12 13)).isSome = true ∧ (s.windowFail 256 1 1 1).isSome = true)
    ∧ ((upTo 8 10).find? (fun n => (s.entry n).any fun e => decide (1 < (s.myRank.row e.row).refs))) = some 8
    ∧ ((upTo 9 10).find? (fun n => (s.entry n).any fun e => decide (1 < (s.myRank.row e.row).refs))) = none
    ∧ ((upTo 12 14).filter fun n => (s.entry n).isNone).length ≤ s.myRank.pool.length
    ∧ (let u : State := { s with tm := s.tm.setRank 0 { s.tm.rank 0 with pool := [], zeroing := [3, 4] } }
       u.myRank.pool.length < ((upTo 12 14).filter fun n => (u.entry n).isNone).length
       ∧ (((upTo 12 14).filter fun n => (u.entry n).isNone)[u.myRank.pool.length + u.myRank.zeroing.length]?) = none
       ∧ ((((upTo 12 15).filter fun n => (u.entry n).isNone)[u.myRank.pool.length + u.myRank.zeroing.length]?).isSome = true)) := by decide +kernel

theorem test_w_SelectAcceptance :
    let s := gs [(8, ptr 1 0), (9, 1 + 8 * 2 ^ 13 + 2 ^ 26 + 8 * 2 ^ 48), (10, ptr 1 64)]
    let y (u : State) := descNat (u.descOf 8 3) 1
    let zero := gs [(8, ptr 1 0), (9, 8 * 2 ^ 13 + 2 ^ 26 + 8 * 2 ^ 48), (10, ptr 1 64)]
    s.ag.queue = [] ∧ s.ag.role = .gen ∧ ¬ 1 ≤ bits (y zero) 12 0
    ∧ (bits (y s) 47 34 = 0 ∧ 1 ≤ bits (y s) 12 0 ∧ bits (y s) 12 0 ≤ 4096 ∧ 1 ≤ bits (y s) 25 13 ∧ bits (y s) 25 13 ≤ 4096 ∧ 1 ≤ bits (y s) 33 26
        ∧ bits (y s) 25 13 ≤ bits (y s) 63 48)
    ∧ extentFail s.tm s.who [{ spaces := [1, 2], ptr := BitVec.ofNat 64 (ptr 1 0), size := 32 }, { spaces := [1, 2], ptr := BitVec.ofNat 64 (ptr 1 64), size := 2 }] = none
    ∧ (extentFail s.tm s.who [{ spaces := [1, 2], ptr := 0, size := 32 }]).isSome = true
    ∧ s.barFail 0 = none ∧ s.loadOn s.who.core [.topk] < 8 ∧ 8 ≤ (loaded .topk 8 s).loadOn s.who.core [.topk] := by decide +kernel

/-- Rank 0 of gang 5, of which some ranks have registered. -/
def gangedBy (ranks : List Nat) (s : State) : State :=
  { role .com s with
    tm := { s.tm with pkt := { s.tm.pkt with gang := true, gangid := 5 } }
    fab := { s.fab with gangs := [{ gang := 5, ctx := 1, rank := 0, enc := false, deadline := 0, registered := ranks, retired := false }] } }
/-- All of them have. -/
def ganged (s : State) : State := gangedBy (List.range 2048) s

/-- A gang has a rank 0, and at most 2,048 ranks (R233). -/
theorem gang_size (g : BitVec 16) : 0 < Config.gangSize g ∧ Config.gangSize g ≤ 2048 := by unfold Config.gangSize; omega

theorem gangedBy_ready (l : List Nat) (s : State) (h : ∀ r, r < 2048 → r ∈ l) : (gangedBy l s).gangPending (gangedBy l s).tm = false := by
  show (true && (List.range (Config.gangSize 5)).any fun r => !l.contains r) = false
  rw [Bool.true_and, List.any_eq_false]
  intro r hr
  have := h r (Nat.lt_of_lt_of_le (List.mem_range.1 hr) (gang_size 5).2)
  simp [this]

theorem ganged_ready (s : State) : (ganged s).gangPending (ganged s).tm = false := gangedBy_ready _ s fun _ => List.mem_range.2

/-- Another team of the same gang's grid holds the landing number. -/
theorem test_w_LandingTaken :
    let s := ganged (barS [(20, ptr 1 16)])
    let landing : Landing := { bar := 0, barRank := 0, entry := 0, window := 1, perSet := 0, rank := 0, rows := [], running := 0, waiting := [] }
    let other : State := { s with teams := [{ placeTeam with id := 2, landings := [(0, landing)] }] }
    other.slotTaken 0 = true ∧ other.barFail 20 = none := by decide +kernel

/-- (That a route leaves the gang rests on the free coordinates of Config, and has no witness on one configuration.) FPUT to a peer pointer of rank 0,
FPUTH to rank 0, FCOLL with a record, FCONT with an identifier and a fan-in; of these the record is legal, or absent. -/
theorem test_w_FabricAcceptance :
    let s := ganged (gs [(8, ptr 1 0), (9, ptr 5 0), (10, 64)])
    let h := ganged (gs [(8, ptr 1 0), (9, 0), (10, 64)])
    let k := ganged (gs [(8, ptr 1 0), (9, 1 + 2 ^ 16), (10, 64)])
    let f := fabricForm (.fput eng) (s.descOf 8 4)
    let fh := fabricForm (.fputh eng) (h.descOf 8 4)
    let fk := fabricForm (.fcont eng) (k.descOf 8 3)
    (s.ag.queue = [] ∧ s.ag.role = .com ∧ s.tm.pkt.gang = true)
    ∧ (f.reserved = false ∧ f.rank = some 0 ∧ s.fabricPtrFail f (s.descOf 8 4) = none ∧ s.recordRoute f (s.descOf 8 4) = .ok none)
    ∧ (fh.reserved = false ∧ fh.rank = some 0 ∧ h.fabricPtrFail fh (h.descOf 8 4) = none ∧ h.recordRoute fh (h.descOf 8 4) = .ok none)
    ∧ (fk.reserved = false ∧ fk.rank = none ∧ k.fabricPtrFail fk (k.descOf 8 3) = none ∧ k.recordRoute fk (k.descOf 8 3) = .ok none)
    ∧ ((h.fabricPtrFail f (h.descOf 8 4)).isSome = true ∧ (fabricForm (.fput eng) ((gs [(10, 2 ^ 32)]).descOf 8 4)).reserved = true)
    ∧ (¬ (s.tm.pkt.gang = false ∨ Config.gangSize s.tm.pkt.gangid ≤ 0)) ∧ s.barFail 0 = none ∧ s.gangPending s.tm = false
    ∧ ¬ 4096 ≤ s.cmds.countP (fun c => decide (c.kind ∈ [.fput, .fputh, .fcoll, .fcont]))
    ∧ 4096 ≤ (loaded .fput 4096 s).cmds.countP (fun c => decide (c.kind ∈ [.fput, .fputh, .fcoll, .fcont])) := by
  refine ⟨by decide +kernel, by refine ⟨by decide +kernel, by decide +kernel, by decide +kernel, rfl⟩,
    by refine ⟨by decide +kernel, by decide +kernel, by decide +kernel, rfl⟩,
    by refine ⟨by decide +kernel, by decide +kernel, by decide +kernel, rfl⟩, by decide +kernel, ?_, by decide +kernel,
    ganged_ready _, by decide +kernel, by decide +kernel⟩
  rintro (h | h)
  · exact absurd h (by decide +kernel)
  · exact absurd h (Nat.not_le.2 (gang_size _).1)

theorem test_w_DeviceLaunch :
    let s := gs [(1, 0x40), (2, 0x41)]
    let access (n : Fin 64) := s.checkAccesses s.tm s.who { spaces := [0], size := 192, align := 64, acc := .load } [{ lane := 0, ptr := s.ag.getG n, ok := true }]
    let item : QueueItem := { ptr := 0, ctx := 1, depth := 0, parent := 0, bar := none }
    s.ag.queue = [] ∧ (s.modAg fun a => { a with id := .warp 1 1 }).ag.id ≠ .warp s.tm.id 0
    ∧ s.ag.id = .warp s.tm.id 0 ∧ ({ s with tm := { s.tm with depth := 10 } } : State).tm.depth = 10 ∧ s.tm.depth ≠ 10
    ∧ (access 2).map (·.code) = some 0x13 ∧ access 1 = none ∧ ((gs [(20, ptr 6 0)]).barFail 20).isSome = true ∧ s.barFail 0 = none
    ∧ (Sparse.getD s.devq 0 []).length < 4096
    ∧ 4096 ≤ (Sparse.getD ({ s with devq := [(0, List.replicate 4096 item)] } : State).devq 0 []).length := by decide +kernel

/-! ### Lane words -/

/-- A lane block runs at its first word, over the names of `mapped` and with p2 false. -/
def laneS : State :=
  (mapped (busy w0)).modAg fun a => { a with running := true, cur := Frag.whole 0x8000, g := [(1, 2 ^ 61), (2, 0x40), (12, 3)], blockG := [(1, 2 ^ 61), (2, 0x40), (12, 3)] }
/-- A word that reads v9 and writes v6. -/
def lw (ty : Ty) (imm : BitVec 24) : ArithOps := { h := headL 6, a := .vec 9, b := .greg 12, c := .imm 2, ty := ty, m := plain, imm := imm }
/-- The parts of `LaneReady`, as the kernel can decide them. -/
def ready (s : State) (h : LaneHead) (us : List SrcUse) (ds : List Nat) : Bool :=
  !s.staleLatch us && s.active h != 0 && s.checkNames us ds == none && !s.laneWaits us ds

theorem ready_iff {s : State} {h : LaneHead} {us : List SrcUse} {ds : List Nat} (e : ready s h us ds = true) : LaneReady s h us ds := by
  simp only [ready, Bool.and_eq_true, Bool.not_eq_true', bne_iff_ne, beq_iff_eq, ne_eq] at e
  exact ⟨e.1.1.1, e.1.1.2, e.1.2, e.2⟩

theorem test_w_LaneGating :
    let none7 : LaneHead := { headL 6 with guard := 7 }
    (laneS.staleLatch [(.latch 1, 1)] = true)
    ∧ (laneS.staleLatch [(.vec 9, 1)] = false ∧ laneS.active none7 = 0 ∧ laneS.active (headL 6) ≠ 0)
    ∧ (srcNames [(.vec 9, 2), (.vec 7, 1)] = [9, 10, 7] ∧ (laneS.entry 9).isSome = true ∧ (laneS.entry 10).isSome = true
        ∧ ¬ (laneS.entry 7).isSome = true)
    ∧ (laneS.entry 8 = some { row := 0, tag := 1 } ∧ ¬ (laneS.myRank.row 0).refs ≤ 1)
    ∧ (let u : State := { laneS with tm := laneS.tm.setRank 0 { laneS.tm.rank 0 with pool := [], zeroing := [] } }
       ([6].filter fun n => (u.entry n).isNone)[u.myRank.pool.length + u.myRank.zeroing.length]? = some 6 ∧ u.active (headL 6) ≠ 0)
    ∧ (([11].filter fun n => (laneS.entry n).isNone).length ≤ laneS.myRank.pool.length ∧ laneS.laneWaits [(.vec 9, 1)] [11] = true) := by
  decide +kernel

/-- Every form of the tables is ready with the sources of `lw`. -/
theorem test_w_LaneComputes :
    (∀ t ∈ [Ty.s32, .u32, .s8x4], ∀ x ∈ intForms (lw t 0) ++ widenForms (lw t 0) ++ bitForms (lw t 0x200),
      ready laneS (headL 6) (arithUses (lw t 0) (x.ta.map fun _ => t) (x.tb.map fun _ => .s32) (x.tc.map fun _ => .s32)) (destNames (headL 6) x.rt) = true)
    ∧ ∀ x ∈ floatForms (lw .f32 0) ++ functionForms (lw .f32 0) ++ convertForms (lw .f32 0),
      ready laneS (headL 6) (arithUses (lw .f32 0) x.ta x.tb x.tc) (destNames (headL 6) x.rt) = true := by decide +kernel

theorem test_w_LanePredicates_LaneMoves_LaneReductions :
    ready laneS (headL 6) [((lw .s32 0).a, 1), ((lw .s32 0).b, 1)] [] = true ∧ ready laneS (headL 6) [(.vec 9, 1), (.greg 12, 1)] (destNames (headL 6) .s32) = true
    ∧ ready laneS (headL 6) [] (destNames (headL 6) .u32) = true ∧ ready laneS (headL 6) [(.vec 9, 1)] [] = true
    ∧ (laneS.staleLatch [(.vec 9, 1)] = false ∧ laneS.active { headL 6 with guard := 7 } = 0)
    ∧ LaneReady laneS (headL 6) [(.vec 9, 1)] (destNames (headL 6) .u32) :=
  ⟨by decide +kernel, by decide +kernel, by decide +kernel, by decide +kernel, by decide +kernel, ready_iff (by decide +kernel)⟩

theorem test_w_IntegerReductions :
    Ty.s32 ∈ [Ty.s32, .u32, .s64, .u64] ∧ (5#64 : Mask) ≠ 0 ∧ (∀ x ∈ [2 ^ 32 - 1, 7, 3], x < 2 ^ elemBits .s32)
    ∧ (redTree 1 .s32 .rne 5 [2 ^ 32 - 1, 7, 3]).1 = some (2 ^ 32 - 1) ∧ (redTree 2 .s32 .rne 5 [2 ^ 32 - 1, 7, 3]).1 = some 3
    ∧ (redTree 3 .s32 .rne 5 [6, 7, 3]).1 = some 2 ∧ (redTree 4 .s32 .rne 5 [6, 7, 3]).1 = some 7 ∧ (redTree 5 .s32 .rne 5 [6, 7, 3]).1 = some 5 := by
  decide +kernel

theorem test_w_Quantization :
    Ty.wide .e4 = false ∧ ready laneS (headL 6) [(.vec 9, 1)] (destNames (headL 6) .e4 ++ [7]) = true
    ∧ ready laneS (headL 6) [(.vec 9, tyNames .e4), (.vec 10, 1)] (destNames (headL 6) .f32) = true
    ∧ ({ m := 1, e := 0, sticky := false } : Mag).m ≠ 0 ∧ (fmtOf .e4).largestMag.m ≠ 0 := by decide +kernel

/-- A memory word over a uniform base in g1 and lane offsets %lane, from or to local address 0 on. -/
def mw (w : Width) (o : Order) (ty : Ty) : MemOps := memL 6 (.greg 1) .lane (.imm 2) ty o w true 0

theorem test_w_LaneLoads :
    let w := mw .w8 .relaxed .u32
    let v := mw .w128 .acquire .u32
    let n : MemOps := memL 6 (.greg 1) (.vec 0) (.vec 0) .u32 .relaxed .w8 false 0
    let spec (k : Nat) : AccSpec := { spaces := [0, 1, 2, 3, 4], size := k, align := 1, acc := .load }
    ready laneS w.h (addrUses w) (loadNames w) = true ∧ ready laneS v.h (addrUses v) (loadNames { v with h := headL 4 }) = true
    ∧ (∀ x ∈ [(w, 1), (v, 16)], laneS.checkAccesses laneS.tm laneS.who (spec x.2) (laneS.accsOf x.1) = none
        ∧ laneS.accessFenced laneS.who (spec x.2) (laneS.accsOf x.1) = false)
    ∧ laneS.gangPending laneS.tm = false ∧ w.width ≠ .w128 ∧ v.width = .w128
    ∧ ready laneS n.h [(n.a, 1)] (upTo 6 7) = true ∧ laneS.tm.id ≠ 0
    ∧ laneS.checkAccesses laneS.tm laneS.who { spaces := [1, 2], size := 256, align := 4, acc := .load }
        [{ lane := 0, ptr := ofNat64 (laneS.laneVal .u64 n.imm n.a 0), ok := true }] = none
    ∧ laneS.accessFenced laneS.who { spaces := [1, 2], size := 256, align := 4, acc := .load }
        [{ lane := 0, ptr := ofNat64 (laneS.laneVal .u64 n.imm n.a 0), ok := true }] = false
    ∧ laneS.staleLatch (addrUses w) = false := by decide +kernel

/-- A load of 8 bytes at the pointer 0x40. -/
theorem test_w_LoadedBytes :
    badPieces (w0.pieces w0.who .load 0x40 8 0) = [] ∧ 8 ≤ 16 ∧ w0.tm.id ≠ 0
    ∧ locOf (goodPieces (w0.pieces w0.who .load 0x40 8 0)) 7 = some (.phys, 0x50047) := by decide +kernel

theorem test_w_LaneStores :
    let w := { mw .w16 .release .u32 with h := headL 0 }
    let n : MemOps := memL 0 (.greg 1) (.vec 0) (.vec 9) .s32 .relaxed .w8 false 0
    ready laneS w.h (addrUses w ++ [(w.c, 1)]) [] = true
    ∧ laneS.checkAccesses laneS.tm laneS.who { spaces := [0, 1, 2, 3, 4], size := 2, align := 1, acc := .store } (laneS.accsOf w) = none
    ∧ laneS.accessFenced laneS.who { spaces := [0, 1, 2, 3, 4], size := 2, align := 1, acc := .store } (laneS.accsOf w) = false
    ∧ ready laneS n.h [(n.a, 1), (n.c, 1)] [] = true ∧ laneS.tm.id ≠ 0
    ∧ laneS.checkAccesses laneS.tm laneS.who { spaces := [1, 2], size := 256, align := 4, acc := .store }
        [{ lane := 0, ptr := ofNat64 (laneS.laneVal .u64 n.imm n.a 0), ok := true }] = none
    ∧ laneS.accessFenced laneS.who { spaces := [1, 2], size := 256, align := 4, acc := .store }
        [{ lane := 0, ptr := ofNat64 (laneS.laneVal .u64 n.imm n.a 0), ok := true }] = false := by decide +kernel

/-- Every lane meets the others at one word. -/
theorem test_w_LaneAtomics :
    let w := { mw .w32 .acqRel .s32 with b := .zero }
    let spec : AccSpec := { spaces := [0, 1, 2], size := 4, align := 4, acc := .atomic }
    laneS.checkAccesses laneS.tm laneS.who spec (laneS.accsOf w) = none ∧ laneS.accessFenced laneS.who spec (laneS.accsOf w) = false
    ∧ laneS.gangPending laneS.tm = false ∧ ready laneS w.h (addrUses w ++ [(w.c, 1)]) (destNames w.h .s32) = true
    ∧ ready laneS { w.h with name := 9 } (addrUses w ++ [(w.c, 1), (.vec 9, 1)]) (destNames { w.h with name := 9 } .s32) = true
    ∧ ready laneS w.h (addrUses w ++ [(w.c, 1)]) [] = true := by decide +kernel

theorem test_w_AtomicSteps :
    (∃ r, ({ place := .scratch 0, addr := 4, len := 4, ptr := 0, shr := false } : Piece).place = .scratch r) ∧ laneS.tm.id ≠ 0
    ∧ ({ place := .phys, addr := 4, len := 4, ptr := 0, shr := false } : Piece).len = 4
    ∧ (some 1 : Option Nat) = some 1 ∧ (none : Option Nat) = none := ⟨⟨0, rfl⟩, by decide +kernel, rfl, rfl, rfl⟩

/-- Lanes 0 to 3 run; seven others and sixteen rejoin entries stand by. -/
def fragS (others : Nat) (stack : List Rejoin) (p : Mask) : State :=
  laneS.modAg fun a => { a with
    cur := { mask := 0xF, lpc := 0x8000, wait := .no }, p := [(3, p)], stack := stack
    others := List.replicate others { mask := 0xF0, lpc := 0x8000, wait := .atJoin } }

theorem test_w_LaneBranches :
    let taken (p : Mask) : Mask := (fragS 0 [] p).ag.cur.mask &&& (fragS 0 [] p).ag.getP 3
    taken 0 = 0 ∧ (taken 0xFF ≠ 0 ∧ taken 0xFF = (fragS 0 [] 0xFF).ag.cur.mask) ∧ (taken 3 ≠ 0 ∧ taken 3 ≠ (fragS 7 [] 3).ag.cur.mask)
    ∧ 7 ≤ (fragS 7 [] 3).ag.others.length ∧ (fragS 6 [] 3).ag.others.length < 7
    ∧ 16 ≤ (fragS 0 (List.replicate 16 { addr := 0, mask := 0 }) 0).ag.stack.length
    ∧ (fragS 0 (List.replicate 15 { addr := 0, mask := 0 }) 0).ag.stack.length < 16 := by decide +kernel

theorem test_w_LaneJoins :
    let e (m : Mask) (a : Word) : Rejoin := { addr := a, mask := m }
    let s := fragS 1 [e 0xFF 0x8000] 0
    let c := s.ag.cur
    (s.ag.stack = [] ++ e 0xFF 0x8000 :: [] ∧ c.mask &&& ~~~(e 0xFF 0x8000).mask = 0 ∧ (e 0xFF 0x8000).addr = c.lpc ∧ (e 0xFF 0x800C).addr ≠ c.lpc)
    ∧ (∀ l, l < 64 → (e 0xFF 0).mask.getLsbD l = true → c.mask.getLsbD l = true
        ∨ ∃ f ∈ s.ag.others, (f.wait = .atJoin ∧ f.lpc = c.lpc ∧ f.mask &&& ~~~(e 0xFF 0).mask = 0) ∧ f.mask.getLsbD l = true)
    ∧ ((e 0x1FF 0).mask.getLsbD 8 = true ∧ c.mask.getLsbD 8 = false ∧ ∀ f ∈ s.ag.others, f.mask.getLsbD 8 = false)
    ∧ (∀ x ∈ [e 0x7 0], ¬ c.mask &&& ~~~x.mask = 0) ∧ (∃ x ∈ s.ag.stack, x.mask &&& c.mask ≠ 0) ∧ (∀ x ∈ (fragS 1 [e 0xF0 0] 0).ag.stack, x.mask &&& c.mask = 0)
    ∧ (∃ f ∈ (fragS 1 [] 0).ag.others, f.wait ≠ .atLend) ∧ (∀ f ∈ (fragS 0 [] 0).ag.others, f.wait = .atLend)
    ∧ laneS.active { headL 0 with guard := 7 } = 0 ∧ laneS.active (headL 0) ≠ 0 := by decide +kernel

/-! ### Commands under way -/

/-- A command of the warp, with its descriptor. -/
def cmdOf (k : CmdKind) (i : Instr) (d : List Nat) : Cmd := w0.newCmd k i { eng with b := 0 } (d.map (BitVec.ofNat 64))
/-- The state in which it is the only one. -/
def under (c : Cmd) : State := { w0 with cmds := [c] }

theorem test_w_MatrixCompletion :
    let c := cmdOf .azero (.azero eng) [0]
    (under c).cmds = [] ++ c :: [] ∧ c.core = 0 ∧ c.kind ∈ [CmdKind.mmac, .azero, .ard, .awr] ∧ (under c).getTeam c.team = some placeTeam := by
  decide +kernel

theorem test_w_MatrixEffects :
    let d : List Word := [0, 1 + 2 ^ 16 + 2 ^ 32, 2 ^ 18]
    let m : List Word := [2 ^ 18, 2 + 2 ^ 16]
    let r : Rank := { placeTeam.rank 0 with live := [(0, row 1 0 1), (1, row 1 0 1)] }
    (cmdOf .azero .hend [0]).kind = .azero
    ∧ ((cmdOf .mmac .hend []).kind = .mmac ∧ (Mmac.ofDesc d).m ≠ 0 ∧ (Mmac.ofDesc d).n ≠ 0 ∧ (Mmac.ofDesc d).k ≠ 0 ∧ (Mmac.ofDesc d).n ≤ (Mmac.ofDesc d).ld)
    ∧ ((AccMove.ofDesc m).rows = 2 ∧ (AccMove.ofDesc m).cols ≠ 0 ∧ (AccMove.ofDesc m).cols ≤ (AccMove.ofDesc m).ld)
    ∧ ([0, 1].Nodup ∧ [0, 1].length = (AccMove.ofDesc m).rows ∧ Sparse.find? r.live 1 = some (row 1 0 1) ∧ (row 1 0 1).refs ≠ 0
        ∧ (row 1 0 1).data.length = 64) := by decide +kernel

theorem test_w_MatrixIntegers : (Mmac.ofDesc [2 ^ 40, 0, 0]).accType ≠ 0 := by decide +kernel

/-- A copy of 64 bytes of global memory to the scratchpad, and one to host memory. -/
def copyCmd (dst : Nat) : Cmd := cmdOf .cpy (.cpy eng 0 1) [dst, 0x40, 64]

theorem test_w_CopyProgress :
    let ok (d : Nat) : Prop :=
      let c := copyCmd d
      let s : State := { hosted w0 with cmds := [c] }
      let cp := c.copy
      let w := s.whoCmd c
      let x := cp.burst 0
      let out := (joinSegs (x.map fun g => (g.z * cp.dps + g.y * cp.drs + g.off, g.len))).zipIdx.flatMap fun r =>
        s.pieces w .store (cp.dst + ofNat64 r.1.1) r.1.2 (255 + r.2)
      let got := s.gatherRuns w (c.scope == .warp) (c.ahead 0) cp.src (joinRuns (cp.sources x)) 0
      let touched := (joinRuns (cp.sources x)).zipIdx.flatMap fun r => s.runPieces w cp.src r.1 r.2
      s.getCmd c.id = some c ∧ c.kind = .cpy ∧ c.cursor ≤ 0 ∧ 0 < cp.total ∧ c.stopped = false ∧ s.frozen c.team = false
      ∧ bits cp.src.toNat 63 61 ≠ 5 ∧ bits cp.dst.toNat 63 61 ≠ 5 ∧ cp.overlap w = none ∧ c.team = s.tm.id
      ∧ got.stop = none ∧ got.bytes.length = x.len ∧ badPieces out = [] ∧ s.transferWaits c (touched ++ out) = false
    let e := { copyCmd (ptr 1 0) with cursor := 1 }
    ok (ptr 1 0) ∧ ok (ptr 4 0) ∧ ((under e).getCmd e.id = some e ∧ e.copy.total ≤ e.cursor ∧ e.pending = [] ∧ e.arrived = false ∧ (under e).underWay e = false) := by
  decide +kernel

/-- 8 bytes of global memory; they are poisoned; a page that is absent comes after them. -/
theorem test_w_TransferredBytes :
    let ps := w0.pieces w0.who .load 0x40 8 0
    let bad : State := { w0 with poison := [0x50040 / 32] }
    let runs := joinRuns [some 0, none, some 1]
    let touched := runs.zipIdx.flatMap fun r => w0.runPieces w0.who 0x40 r.1 r.2
    (badPieces ps = [] ∧ (∀ p ∈ goodPieces ps, w0.piecePoison p = none ∧ p.place = .phys) ∧ locOf (goodPieces ps) 7 = some (.phys, 0x50047))
    ∧ (∃ p ∈ goodPieces ps, bad.piecePoison p = some 0x40)
    ∧ (w0.tlb = [] ∧ badPieces touched = [] ∧ ∀ p ∈ goodPieces touched, w0.piecePoison p = none ∧ p.place = .phys) := by decide +kernel

theorem test_w_CopyGeometry :
    let c (t : Nat) := Copy.ofDesc [0, 0, 64 + 4 * 2 ^ 32, 64, 0] t 2
    (c 2).u ≠ 0 ∧ (c 0).shape = .plain ∧ (c 8).shape = .transpose ∧ (c 11).shape = .pad ∧ (c 2).shape = .block ∧ (c 5).shape = .unblock
    ∧ 63 < ((c 2).r + 63) / 64 * 64 ∧ 63 < ((c 2).b / (c 2).u + 63) / 64 * 64
    ∧ 4 / (c 2).u * (c 2).u = (c 2).blockOff 0 2 := by decide +kernel

/-- A read of one burst of 64 bytes into row 5, with one row reserved for it. -/
def readCmd : Cmd := { cmdOf .hread (.hread eng) [0x40, 64 + 2 ^ 32 + 2 ^ 48, 0, 0] with window := 1, reserved := 1, rows := [5] }

theorem test_w_ReadCommands :
    let c := readCmd
    let s := under c
    let ps := s.pieces (s.whoCmd c) .load (c.desc.getD 0 0 + ofNat64 0) 64 0
    s.getCmd c.id = some c ∧ c.kind = .hread ∧ s.getTeam c.team = some placeTeam ∧ c.cursor ≤ 0 ∧ 0 < (64 + 255) / 256 * 1 * 1 ∧ c.stopped = false
    ∧ s.frozen c.team = false ∧ c.landed.length + c.running < c.window ∧ c.rows = 5 :: []
    ∧ (s.gather (s.whoCmd c) (c.scope == .warp) (c.ahead 0) ps).stop = none ∧ s.transferWaits c ps = false
    ∧ (let e := { c with cursor := 1 }
       1 ≤ e.cursor ∧ e.pending = [] ∧ e.landed = [] ∧ e.running = 0 ∧ e.final = .none ∧ (under e).getCmd e.id = some e) := by decide +kernel

theorem test_w_Drops :
    let c := { readCmd with rows := [], cursor := 1, landed := [{ burst := 0, row := 5 }] }
    let k := { readCmd with cursor := 1, final := .due }
    let x : LandBurst := { offset := 0, srcRank := 0, overflow := false, encrypted := false, coll := 0, data := [1], counted := true }
    let l : Landing := { bar := 0, barRank := 0, entry := 0, window := 1, perSet := 0, rank := 0, rows := [6], running := 0, waiting := [{ x with counted := false }, x] }
    let t : Team := { placeTeam with landings := [(7, l)] }
    ((under c).getCmd c.id = some c ∧ (under c).getTeam c.team = some placeTeam ∧ c.kind = .hread ∧ c.landed = [] ++ { burst := 0, row := 5 } :: []
      ∧ c.running < c.window ∧ bits (descNat c.desc 3) 39 36 ≤ c.rows.length)
    ∧ ((under k).getCmd k.id = some k ∧ k.readOver = true ∧ k.final = .due ∧ 1 + bits (descNat k.desc 3) 39 36 ≤ k.rows.length)
    ∧ (({ w0 with tm := t } : State).getTeam t.id = some t ∧ Sparse.find? t.landings 7 = some l ∧ l.waiting = [{ x with counted := false }] ++ x :: []
        ∧ x.counted = true ∧ l.rows = 6 :: [] ∧ l.running < l.window ∧ ({ w0 with tm := t } : State).frozen t.id = false)
    ∧ ((drop w0).ag.isDrop = true ∧ (drop w0).ag.queue = [])
    ∧ (let d := { (drop w0).ag with origin := some (.burst c.id) }
       d.isDrop = true ∧ (under c).getTeam (teamOf d.id) = some placeTeam ∧ d.origin = some (.burst c.id)) := by decide +kernel

theorem test_w_SelectCommands :
    let c := cmdOf .topk (.topk eng .s32 false false) [ptr 1 0, 1 + 8 * 2 ^ 13 + 2 ^ 26 + 8 * 2 ^ 48, ptr 1 64]
    let x := Search.ofDesc c.desc
    (under c).getCmd c.id = some c ∧ c.instr = .topk eng .s32 false false ∧ c.team = (under c).tm.id ∧ (under c).tm.id ≠ 0
    ∧ bits x.out.toNat 63 61 ∈ [1, 2] ∧ x.overlaps ((under c).whoCmd c) false = false ∧ 0 < x.sets false ∧ 0 < x.k := by decide +kernel

/-- A packet for this module's gang, context 1's exported window and slot 7. -/
def packet (k : PacketKind) (ops : List HopOp) (route : List (Option (Fin 18))) (enc : Bool) : Packet :=
  { kind := k, route := route, ops := ops, overflow := false, encrypted := enc, gang := 5, srcRank := 3, coll := 9, slot := 7, offset := 0,
    payload := [1, 2, 3, 4, 5, 6, 7, 8], cmd := 0 }

/-- Gang 5 is here, its context exports 64 KiB, and slot 7 is bound. -/
def gangS : State :=
  let l : Landing := { bar := 0, barRank := 0, entry := 0, window := 1, perSet := 0, rank := 0, rows := [6], running := 0, waiting := [] }
  let s := gangedBy [] (hosted w0)
  { s with tm := { s.tm with landings := [(7, l)] }, grids := s.grids.map fun g => { g with pkt := s.tm.pkt } }

theorem test_w_PacketHops :
    let g : Gang := { gang := 5, ctx := 1, rank := 0, enc := false, deadline := 0, registered := [], retired := false }
    let w : Who := { team := 0, ctx := 1, rank := 0, core := 768 }
    let e : CollEntry := { coll := 9, gang := 5, cmd := some 2, team := 1, fanin := 1, slot := 0, parts := [], links := [], offsets := 1, combined := 0, seen := [], down := 0 }
    let c := { cmdOf .fcont (.fcont eng) [ptr 1 0, 9 + 2 ^ 16, 8] with id := 2 }
    let s : State := { gangS with cmds := [c], fab := { gangS.fab with table := [e] } }
    let ps := s.pieces (s.whoCmd c) .load (c.desc.getD 0 0 + ofNat64 0) 8 0
    (packet .put [.fwd, .dlv] [some 0, some 5] false).payload.length ≤ 1024 ∧ gangS.fab.combine = []
    ∧ gangS.pow.tripped = false ∧ ({ w0 with pow := { w0.pow with tripped := true } } : State).pow.tripped = true
    ∧ (∀ p ∈ [packet .put [.fwd, .dlv] [some 0, some 5] false, packet .put [.dlv] [none] false, packet .notice [.dlv] [none] false],
        gangS.packetWaits p = false) ∧ w0.packetWaits (packet .put [.dlv] [none] true) = false
    ∧ s.packetWaits (packet .collective [.addS64, .dlv] [some 0, none] false) = false ∧ s.gang 5 ≠ none ∧ w0.fab.gangs = []
    ∧ ((packet .put [.fwd, .dlv] [some 0, some 5] false).ops = .fwd :: [.dlv] ∧ (packet .put [.fwd, .dlv] [some 0, some 5] false).kind ≠ .collective
        ∧ (packet .put [.fwd, .dlv] [some 0, some 5] false).route.drop 1 = some 5 :: [] ∧ gangS.linkDown 5 = false)
    ∧ ((packet .put [.dlv] [none] true).ops = .dlv :: [] ∧ HopOp.dlv ≠ .fwd ∧ (packet .put [.dlv] [none] true).encrypted = true ∧ w0.gang 5 = none)
    ∧ (gangS.gang 5 = some g ∧ (Sparse.find? gangS.ctxs g.ctx.toNat).map (·.expSize) = some (2 ^ 16)
        ∧ badPieces (gangS.pieces w .store (mkPtr 0 0 (0 % 2 ^ 57)) 8 0) = [])
    ∧ ((gangS.holder 5 7).map (·.1) = some 1 ∧ gangS.getTeam 1 ≠ none)
    ∧ ((combineTy .addS64).isSome = true ∧ s.entryOf (packet .collective [.addS64, .dlv] [some 0, none] false) = some e ∧ e.cmd = some 2
        ∧ s.fab.table = [e] ∧ (e.at 0).length + 1 < ({ e with fanin := 2 } : CollEntry).fanin ∧ e.fanin ≤ (e.at 0).length + 1 ∧ s.getCmd 2 = some c
        ∧ min 1024 (bits (descNat c.desc 2) 31 0 - 0) = 8 ∧ badPieces ps = [] ∧ ∀ x ∈ goodPieces ps, s.piecePoison x = none) := by decide +kernel

theorem test_w_FabricProgress :
    let c := cmdOf .fputh (.fputh eng) [ptr 1 0, 7, 8, 0]
    let s := under c
    let ps := s.pieces (s.whoCmd c) .load (c.desc.getD 0 0) 8 0
    s.getCmd c.id = some c ∧ s.getTeam c.team = some placeTeam ∧ (0x22 : Byte) ∈ [0x00#8, 0x14, 0x22, 0x23, 0x24] ∧ c.kind ∈ [CmdKind.fput, .fputh, .fcoll]
    ∧ c.cursor < max 1 ((8 + 1023) / 1024) ∧ c.stopped = false ∧ s.transferWaits c ps = false ∧ (s.gather (s.whoCmd c) (c.scope == .warp) (c.ahead 0) ps).stop = none
    ∧ s.transferWaits { c with suspended := [BitVec.ofNat 64 (ptr 1 0)] } ps = true
    ∧ (∀ x ∈ s.fab.out ++ s.fab.combine, x.2 = none → x.1.cmd ≠ c.id) ∧ s.fab.table = []
    ∧ ((cmdOf .fcoll (.fcoll eng) []).comesBack = false ∨ max 1 ((8 + 1023) / 1024) ≤ ({ cmdOf .fcoll (.fcoll eng) [] with leaves := 1 } : Cmd).leaves)
    ∧ (cmdOf .fcont (.fcont eng) []).kind = .fcont ∧ max 1 ((8 + 1023) / 1024) ≤ ({ c with cursor := 1 } : Cmd).cursor := by decide +kernel

theorem test_w_LinksAndGangs :
    let g : Gang := { gang := 5, ctx := 1, rank := 0, enc := false, deadline := 0, registered := [], retired := false }
    let x : LandBurst := { offset := 0, srcRank := 0, overflow := false, encrypted := false, coll := 0, data := [1], counted := false }
    let l : Landing := { bar := 0, barRank := 0, entry := 0, window := 1, perSet := 0, rank := 0, rows := [6], running := 0, waiting := [x] }
    let t : Team := { placeTeam with landings := [(7, l)] }
    gangS.gang 5 = some g ∧ g.deadline ≤ gangS.now ∧ (∃ k, k < Config.gangSize g.gang ∧ k ∉ g.registered)
    ∧ ({ w0 with tm := t } : State).getTeam t.id = some t ∧ Sparse.find? t.landings 7 = some l ∧ l.waiting = [] ++ x :: [] ∧ x.counted = false
    ∧ ({ w0 with tm := t } : State).frozen t.id = false
    ∧ ((w0.link 17).down = false ∧ (w0.link 17).flit = none
      ∧ ∀ k, (({ w0 with fab := { w0.fab with links := [(17, { down := false, flit := some (packet .put [] [] false, 3), failures := k })] } } : State).link 17)
          = { down := false, flit := some (packet .put [] [] false, 3), failures := k }) :=
  ⟨by decide +kernel, by decide +kernel, ⟨0, (gang_size _).1, by simp⟩, by decide +kernel, by decide +kernel, rfl, rfl, by decide +kernel,
    by decide +kernel, by decide +kernel, fun _ => rfl⟩

/-! ### Ports, errors, power -/

/-- Port A holds a command's operands, and owns semaphore 0; the wipe is over. -/
def portS (ops : List Nat) (s : State) : State :=
  (s.setSem 0 { owner := some .a, lost := .b }).modPort .a fun r => { r with cmd := ops.map (BitVec.ofNat 64) }
/-- A command of a port is under way. -/
def busyPort (code : Byte) (held : List Nat) (p : Port) (s : State) : State :=
  s.modPort p fun r => { r with busy := true, code := code, held := held.map (BitVec.ofNat 64) }

/-- Port A's INVAL waits for a command of port B. -/
def waitingPort : State := (busyPort 2 [1] .b (portS [1] w0)).modPort .a fun r => { r with waits := some (.inval .a), held := [1] }

theorem test_w_HostGate :
    ((busyPort 2 [1] .b (portS [1] w0)).waitsFor .a false true ∧ ¬ (busyPort 2 [1] .b (portS [2] w0)).waitsFor .a false true)
    ∧ ((busyPort 0x10 [5] .b (portS [1] w0)).waitsFor .a true false ∧ waitingPort.waitsFor .a false true ∧ waitingPort.opsOf .a = [1])
    ∧ ¬ w0.waitsFor .a true true := by
  unfold State.waitsFor
  decide +kernel

theorem test_w_HostPorts :
    (w0.sem 5).owner = none ∧ (portS [] w0).sem 0 = { owner := some .a, lost := .b } ∧ ((portS [] w0).sem 0).owner ≠ some .b
    ∧ (portS [] w0).host.sems.rising = true ∧ Sparse.find? (portS [] w0).host.sems 0 = some { owner := some .a, lost := .b }
    ∧ ((busyPort 2 [1] .a w0).port .a).busy = true ∧ (w0.port .a).busy = false
    ∧ State.reset.host.wiping = true ∧ (State.reset.port .a).busy = false
    ∧ (w0.host.wiping = false ∧ w0.pow.tripped = false ∧ w0.host.life = .deployed ∧ (w0.sem 0).owner ≠ some .a) := by decide +kernel

theorem test_w_ContextCommands :
    let s (ops : List Nat) := portS ops w0
    let way : State := { busyPort 3 [0x10001] .a w0 with hostPath := [{ ctx := 1, port := .b, addr := 0, data := [] }] }
    PortReady .a true false true (s [1])
    ∧ (s [0xFFFE]).opOf .a 0 % 65536 ∈ [0, 0xFFFE, 0xFFFF]
    ∧ ((s [1]).opOf .a 0 % 65536 ∉ [0, 0xFFFE, 0xFFFF] ∧ (∀ i ∈ [1, 2, 3, 4], (s [1]).opOf .a i % 65536 = 0) ∧ ¬ 2 ^ 46 < (s [1]).opOf .a 4
        ∧ (Sparse.find? (s [1]).ctxs 1).isSome = true ∧ Sparse.find? (s [2]).ctxs ((s [2]).opOf .a 0 % 65536) = none)
    ∧ (((busyPort 2 [1] .a w0).port .a).busy = true ∧ ((busyPort 2 [1] .a w0).port .a).waits = none ∧ ((busyPort 2 [1] .a w0).port .a).code = 2
        ∧ ((busyPort 3 [1] .a w0).port .a).code = 3)
    ∧ ((way.port .a).code = 3 ∧ bit ((way.port .a).held.getD 0 0).toNat 16 = true ∧ ∃ x ∈ way.hostPath, x.ctx.toNat = ((way.port .a).held.getD 0 0).toNat % 65536) := by
  unfold PortReady State.waitsFor
  decide +kernel

/-- The warp is parked on a page that port A's FAULTREPLY declares invalid. -/
def parkedS : State := (portS [0x10001, 0x100000000] w0).modAg fun a => { a with status := .parked 0x100000000 0x100000000 false }

theorem test_w_FaultReplies :
    let s (ops : List Nat) := portS ops w0
    PortReady .a false false true (s [1, 0x100000000]) ∧ PortReady .a false false true parkedS
    ∧ (Sparse.find? (s [2]).ctxs 2 = none ∧ (Sparse.find? (s [1]).ctxs 1).isSome = true)
    ∧ bit ((s [1]).opOf .a 0) 16 = false ∧ bit (parkedS.opOf .a 0) 16 = true
    ∧ (∀ a ∈ (s [1]).allAgents, (s [1]).parkedOn 1 0x100000000 65536 a = false)
    ∧ parkedS.allAgents.filter (parkedS.parkedOn 1 0x100000000 65536) = [parkedS.ag] := by
  unfold PortReady State.waitsFor
  decide +kernel

/-- (A signature that verifies rests on the fused key of Config, and has no witness.) -/
theorem test_w_DeviceCommands :
    let s (ops : List Nat) := portS ops w0
    let life (l : LifeState) : State := { w0 with host := { w0.host with life := l } }
    PortReady .a false true false (s [1138]) ∧ 1138 ≤ (s [1138]).opOf .a 0 ∧ (s [1137]).opOf .a 0 < 1138
    ∧ ((life .provisioned).host.life = .provisioned ∧ (s [2]).opOf .a 0 % 4 = 2) ∧ ((s [0]).host.life = .deployed ∧ (s [0]).opOf .a 0 % 4 = 0)
    ∧ PortReady .a false false false (s []) ∧ (life .manufacture).host.life = .manufacture := by
  unfold PortReady State.waitsFor
  decide +kernel

/-- (A staged image whose signature verifies rests on the fused key of Config, and has no witness.) -/
theorem test_w_ErrorsAndResets :
    let line (t : BitVec 16) : L2Line := { filler := 1, dirty := some t, keep := .normal }
    let free : State := { w0 with l2 := [(3, line 0xFFFE), (5, line 1)], fenced := [1137], corrected := [(5, List.replicate 257 0)] }
    let live : State := { w0 with tm := { placeTeam with ranks := [{ placeTeam.rank 0 with live := [(0, row 1 0 1)] }] } }
    let item := { ptr := 0, ctx := 1, depth := 0, parent := 0, bar := none : QueueItem }
    let way : HostWrite := { ctx := 1, port := .a, addr := 0, data := [1] }
    w0.host.staged = none ∧ ({ w0 with inputs := [.strike (.sector 3)] } : State).inputs = .strike (.sector 3) :: []
    ∧ ((Sparse.find? free.l2 3).bind fun l => l.dirty) = some 0xFFFE ∧ ((Sparse.find? free.l2 5).bind fun l => l.dirty) = some 1
    ∧ Sparse.find? free.l2 4 = none ∧ (1136 < 1138 ∧ 1138 ≤ 1138)
    ∧ (∀ x, w0.getTeam 1 = some x → Sparse.find? (x.rank 0).live 0 = none ∧ x.landings = []) ∧ w0.cmds = []
    ∧ (live.getTeam 1 = some live.tm ∧ (Sparse.find? w0.ctxs placeTeam.ctx.toNat).map (·.destroying) = some false
        ∧ Sparse.find? (live.tm.rank 0).live 0 ≠ none ∧ live.tm.ctx ≠ 0)
    ∧ (Sparse.getD ({ w0 with devq := [(15, [item])] } : State).devq 15 [])[0]? = some item
    ∧ ({ w0 with hostPath := [way] } : State).hostPath[0]? = some way := by
  refine ⟨by decide +kernel, rfl, by decide +kernel, by decide +kernel, by decide +kernel, by decide +kernel, ?_, rfl, by decide +kernel,
    by decide +kernel, rfl⟩
  rintro x h
  cases h
  exact ⟨rfl, rfl⟩

/-- Domain 1137 is fenced; domain 1056, a memory controller, holds nothing of a context; link 17 is retrying a packet of gang 5. -/
theorem test_w_DomainEvents :
    let s : State := { w0 with fenced := [1137], corrected := [(5, List.replicate 257 0)] }
    let pk : Packet :=
      { kind := .put, route := [], ops := [], overflow := false, encrypted := false, gang := 5, srcRank := 0, coll := 0, slot := 0, offset := 0,
        payload := [], cmd := 0 }
    let r : State := { gangedBy [] w0 with fab := { (gangedBy [] w0).fab with links := [(17, { down := false, flit := some (pk, 0), failures := 1 })] } }
    1137 ∈ s.fenced ∧ 1056 ∉ s.fenced ∧ s.tagsIn 1056 = [] ∧ s.tagsIn 767 = [] ∧ s.tagsIn 863 = [] ∧ s.tagsIn 1055 = []
    ∧ r.tagsIn 1137 = [1] ∧ (Sparse.find? r.ctxs 1).map (·.destroying) = some false
    ∧ (Sparse.getD s.corrected 4 []).length ≤ 256 ∧ 256 < (Sparse.getD s.corrected 5 []).length := by decide +kernel

theorem test_w_ClusterEvents :
    let x (n : Nat) : Cluster :=
      { Cluster.reset with
        repeats := List.replicate n 0, lowSince := some 0, highSince := some 0, cap := 1, target := some 1, passHold := 10, overSince := some 0
        underSince := some 0 }
    let s (n : Nat) : State := { w0.setCluster 95 (x n) with now := 1000000, inputs := [.current 95 36001] }
    ((s 4096).cluster 95).repeats.length ≤ 4096 ∧ 4096 < ((s 4097).cluster 95).repeats.length ∧ (w0.predictor.rising = true)
    ∧ ((s 0).cluster 95).lowSince = some 0 ∧ 0 + 1000000 ≤ (s 0).now ∧ (w0.cluster 3).lowSince = none
    ∧ ((s 0).cluster 95).highSince = some 0 ∧ ((s 0).cluster 95).cap < 2 ∧ ((s 0).cluster 95).passHold ≤ (s 0).now
    ∧ (w0.setCluster 95 (x 0)).now < ((w0.setCluster 95 (x 0)).cluster 95).passHold ∧ (w0.cluster 3).target = none
    ∧ ((s 0).cluster 95).target = some 1 ∧ ((s 0).cluster 95).overSince = some 0 ∧ ((s 0).cluster 95).underSince = some 0
    ∧ (w0.cluster 3).overSince = none ∧ (w0.cluster 3).underSince = none ∧ (s 0).inputs = .current 95 36001 :: [] := by decide +kernel

/-- One sensor of every region reads 20 °C; or two of region 63 read 126 °C, beside 115 °C elsewhere. -/
theorem test_w_PowerAndHeat :
    let good (raw : List Int) : Prop :=
      ∀ i, i < 256 → (w0.sensor i).suspect = false ∧ (w0.sensor i).readings.length < 10 ∧ -400 ≤ raw.getD i 0 ∧ raw.getD i 0 ≤ 1300
        ∧ raw.getD i 0 - median ((neighbours i).map fun j => raw.getD j 0) ≤ 150
        ∧ median ((neighbours i).map fun j => raw.getD j 0) - raw.getD i 0 ≤ 150
    let warm : List Int := List.replicate 254 1150 ++ [1260, 1260]
    let s : State := { w0.setHeat 63 { HeatRegion.reset with hot := { on := true, clear := some 0 }, tempMax := 950 + 100 * 2 } with now := 10000000 }
    let t : State := { w0 with pow := { w0.pow with tripped := true } }
    good (List.replicate 256 200) ∧ good warm ∧ (1250 < warm.getD (4 * 63 + 2) 0 ∧ 1250 < warm.getD (4 * 63 + 3) 0)
    ∧ (s.heat 63).tempMax = 950 + 100 * 2 ∧ (s.heat 63).hot.clear = some 0 ∧ 0 + 10000000 ≤ s.now
    ∧ t.pow.tripped = true ∧ ∀ i, i < 256 → (t.sensor i).accepted < 1000 := by decide +kernel

/-! ### Launches and pre-emption -/

/-- Global memory holds the packet of `placePacket` at 0x1000, with its map at 0x10C0. -/
def packed (s : State) : State :=
  let at_ (m : Memory) (o v : Nat) : Memory := m.writeNat (0x51000 + o) 8 v
  { s with mem := at_ (at_ (at_ (at_ (at_ (at_ s.mem 0 (1 + 2 ^ 32)) 8 1) 16 (0x101 + 16 * 2 ^ 17)) 24 24) 40 0x8000) 192 0x100 }
/-- An entry of a queue that names it. -/
def itemAt (p : Nat) : QueueItem := { ptr := BitVec.ofNat 64 p, ctx := 1, depth := 1, parent := 1, bar := none }
/-- The packet is there and legal. -/
def legalAt (s : State) (host : Bool) (i : QueueItem) : Bool :=
  match s.readPacket i with
  | .ok p => p.legal host && !s.gangRefused p
  | .error _ => false

theorem legal_at {s : State} {host : Bool} {i : QueueItem} (h : legalAt s host i = true) :
    ∃ p, s.readPacket i = .ok p ∧ p.legal host = true ∧ s.gangRefused p = false := by
  unfold legalAt at h
  split at h
  · rename_i p e
    simp only [Bool.and_eq_true, Bool.not_eq_true'] at h
    exact ⟨p, e, h.1, h.2⟩
  · cases h

/-- Queue 63 of port A has one entry. -/
def queued (s : State) : State :=
  { s with hostA := s.hostA.writeNat 0 8 0x1000 |>.writeNat 8 2 1 }.modPort .a fun r => { r with qtail := [(63, 1)] }

/-- A head of the device queue of die 3 and priority 2. -/
def headOf (p : LaunchPacket) : Head := { queue := .dev 3 2, item := itemAt 0x1000, pkt := p, since := 0, aged := false }

theorem test_w_QueueHeads :
    let q : QueueId := .dev 3 2
    let s := { packed w0 with devq := [(14, [itemAt 0x1000])] }
    (∃ h ∈ ({ w0 with heads := [headOf placePacket] } : State).heads, h.queue = q)
    ∧ (s.heads = [] ∧ Sparse.getD s.devq (4 * 3 + 2) [] = itemAt 0x1000 :: [] ∧ s.launchable 1 = true
        ∧ (isGlobal (itemAt 0x1000).ptr = true ∧ (itemAt 0x1000).ptr.toNat % 64 = 0)
        ∧ ∃ p, s.readPacket (itemAt 0x1000) = .ok p ∧ p.legal false = true ∧ s.gangRefused p = false)
    ∧ Sparse.getD w0.devq (4 * 3 + 2) [] = []
    ∧ (Sparse.getD (w0.port .a).qhead 63 0 = Sparse.getD (w0.port .a).qtail 63 0)
    ∧ (let t := queued (packed w0)
       Sparse.getD (t.port .a).qhead 63 0 ≠ Sparse.getD (t.port .a).qtail 63 0
       ∧ (t.hostMem .a).readNat (Sparse.getD (t.port .a).qbase 63 0).toNat 8 = 0x1000
       ∧ (t.hostMem .a).readNat ((Sparse.getD (t.port .a).qbase 63 0).toNat + 8) 2 = 1
       ∧ ∃ p, t.readPacket { itemAt 0x1000 with depth := 0, parent := 0 } = .ok p ∧ p.legal true = true ∧ t.gangRefused p = false)
    ∧ Sparse.find? (queued w0).ctxs 0 = none :=
  ⟨⟨_, List.mem_singleton_self _, rfl⟩,
    ⟨by decide +kernel, by decide +kernel, by decide +kernel, by decide +kernel, legal_at (by decide +kernel)⟩, by decide +kernel, by decide +kernel,
    ⟨by decide +kernel, by decide +kernel, by decide +kernel, legal_at (by decide +kernel)⟩, by decide +kernel⟩

/-- A grid of two teams, of which the first has ended. -/
def pair : Grid := { placeGrid with pkt := { placePacket with teams := 2 } }

theorem test_w_GridsAndTeams :
    let h := headOf placePacket
    let s : State := { w0 with heads := [h] }
    let t : State := { w0 with grids := [pair], tm := Team.nobody, ag := Agent.nobody }
    let z : State := { w0 with tm := { placeTeam with ranks := [{ placeTeam.rank 0 with zeroing := [5] }] } }
    w0.nextPlacement = none ∧ s.nextPlacement = some (h, 0, 0)
    ∧ (t.getGrid pair.id = some pair ∧ pair.pkt.slots[0]? = some { dx := 0, dy := 0, mask := 1 } ∧ t.slotDue pair 0 = true
        ∧ t.slotFits pair { dx := 0, dy := 0, mask := 1 } = true)
    ∧ z.getTeam z.tm.id = some z.tm ∧ 5 ∈ (z.tm.rank 0).zeroing := by decide +kernel

/-- A warp whose fault of region 1 waits. -/
def waits (q : List QEntry) : State := w0.modAg fun a => { a with pend := some (pending 0x14 1), queue := q }

theorem test_w_PreemptionStarts :
    let big := headOf { placePacket with rows := 4096, fixed := true }
    let s : State := { w0 with heads := [big] }
    let r : Team := { placeTeam with saveReq := some 0 }
    let t : State := { w0 with tm := r, now := 50000 }
    (let u : State := { w0 with heads := [headOf placePacket] }
     (u.heads.find? fun x => x.queue == .dev 3 2) = some (headOf placePacket) ∧ (u.findOrigin (headOf placePacket).pkt).isSome = true)
    ∧ ((s.heads.find? fun x => x.queue == .dev 3 2) = some big ∧ s.findOrigin big.pkt = none ∧ s.chooseSave big = some [1])
    ∧ (w0.getTeam placeTeam.id = some placeTeam ∧ placeTeam.saveReq = none)
    ∧ (t.getTeam r.id = some r ∧ r.saveReq = some 0 ∧ 0 + 50000 ≤ t.now ∧ t.frozen r.id = false)
    ∧ ((waits []).focus (.warp 1 0) = some (waits []) ∧ (waits []).ag.pend = some (pending 0x14 1) ∧ (∀ e ∈ (waits []).ag.queue, 1 ≤ e.rid))
    ∧ ((waits [blockEntry]).focus (.warp 1 0) = some (waits [blockEntry]) ∧ (∃ e ∈ (waits [blockEntry]).ag.queue, e.rid < 1)) := by
  decide +kernel

/-- The page tables of context 1 with its save area: slot 0 begins on the page of the program. -/
def saveTables : Memory := w0.mem.writeNat 0x1FF80 8 0x20001
/-- Team 1 is frozen: its warp stopped at a region entry after a request. -/
def frozenS : State :=
  { w0 with mem := saveTables, ag := { w0.ag with status := .stopped .forced }, tm := { placeTeam with saveReq := some 0 } }

/-! #### The lengths of an image -/

theorem pad_length (bs : List Byte) : (padPages bs).length = (bs.length + 4095) / 4096 * 4096 := by
  simp only [padPages, List.length_append, List.length_replicate]; omega

theorem test_image_pages : ((frozenS.teamRecords frozenS.tm).map fun r => r.data.length) = [2688, 0, 392, 0, 2112, 0] := by decide +kernel
theorem entries_length : ∀ (rs : List ImageRecord) (p : Nat), (recordEntries rs p).length = 16 * rs.length
  | [], _ => rfl
  | r :: rs, p => by simp [recordEntries, entries_length rs]; omega

theorem cut_length : ∀ (n : Nat) (bs : List Byte), (cutIntoPages n bs).length = n
  | 0, _ => rfl
  | n + 1, bs => by simp [cutIntoPages, cut_length n]

theorem flat_length : ∀ (ps : List (List Byte)), (ps.flatMap fun p => toBytes 4 (crc32c p)).length = 4 * ps.length
  | [] => rfl
  | p :: ps => by simp [flat_length ps]; omega

theorem content_length : ∀ (rs : List ImageRecord),
    (rs.flatMap fun r => padPages r.data).length = ((rs.map fun r => r.data.length).map fun n => (n + 4095) / 4096 * 4096).sum
  | [] => rfl
  | r :: rs => by simp only [List.flatMap_cons, List.length_append, pad_length, content_length rs, List.map_cons, List.sum_cons]

/-- Page 0, one page of CRCs, and a page for each of three records. -/
theorem test_image_length (gen : Nat) (ctx : BitVec 16) (index : Nat) (ptr : Word) :
    (buildImage gen ctx index ptr (frozenS.teamRecords frozenS.tm)).length = 20480 := by
  have h := test_image_pages
  generalize frozenS.teamRecords frozenS.tm = rs at h ⊢
  have hc : (rs.flatMap fun r => padPages r.data).length = 12288 := by rw [content_length, h]; rfl
  have hn : rs.length = 6 := by simpa using congrArg List.length h
  simp only [buildImage, headPage, hc, List.length_append, pad_length, flat_length, cut_length, length_toBytes, entries_length, hn]

/-- A walk has answered a leaf, or a code. -/
def walkIs (e v : Except Byte Leaf) : Bool :=
  match e, v with
  | .ok x, .ok y => decide (x = y)
  | .error x, .error y => decide (x = y)
  | _, _ => false

theorem walk_is {e v : Except Byte Leaf} (h : walkIs e v = true) : e = v := by
  cases e <;> cases v <;> simp_all [walkIs]

/-- The first 64 KiB of save slot 0 lie on one page of context 1. -/
theorem save_piece (n : Nat) (h0 : 0 < n) (h : n ≤ 65536) (acc : Acc) (ha : acc = .load ∨ acc = .store) (s : State)
    (hc : ∀ va, s.cachedWalk 768 1 false va = none)
    (hw : s.walkCtx 1 false 0x1FF000000000000 = .ok { base := 0x50000, size := 65536, x := true, w := true, r := true, shr := false, port := .a }) :
    s.pieces { team := 0, ctx := 1, rank := 0, core := 768 } acc (ofNat64 (0x01FF000000000000 + 2 ^ 32 * 0)) n 0
      = [.ok { place := .phys, addr := 0x50000, len := n, ptr := 0x1FF000000000000, shr := false }] := by
  have e1 : ptrSpace (ofNat64 (0x01FF000000000000 + 2 ^ 32 * 0)) = 0 := by decide
  have e2 : ptrOffset (ofNat64 (0x01FF000000000000 + 2 ^ 32 * 0)) = 0x1FF000000000000 := by decide
  have e4 : mkPtr 0 0 0x1FF000000000000 = 0x1FF000000000000 := by decide
  have e5 : ((0 : Nat) == 4) = false := rfl
  have e6 : min n (pageRest 65536 0x1FF000000000000) = n := by
    have : pageRest 65536 0x1FF000000000000 = 65536 := by decide
    omega
  have e7 : (0x1FF000000000000 : Nat) % 2 ^ 57 = 0x1FF000000000000 := by decide
  simp only [State.pieces, e1, e2, State.pagePieces, if_neg (Nat.pos_iff_ne_zero.1 h0), e4, e5, e6, e7,
    State.translate, hc, hw, Nat.sub_self, if_true]
  rcases ha with rfl | rfl <;> rfl

theorem free_save_slot (c : Ctx) (h : (Sparse.getD c.slots 0 { busy := false, generation := 0 }).busy = false) : freeSaveSlots c 1 = [0] := by
  unfold freeSaveSlots
  rw [show List.range 65536 = 0 :: (List.range 65535).map Nat.succ from List.range_succ_eq_map, List.filter_cons_of_pos (by simp [h])]
  rfl

theorem test_w_SavesAndRestores_save :
    let c : Ctx := { perf := false, groot := 0x10000, hroot := 0, expBase := 0, expSize := 0, slots := [], destroying := false }
    let s := frozenS
    let x := s.tm
    let image := buildImage 1 x.ctx x.index x.ptr (s.teamRecords x)
    s.getTeam x.id = some x ∧ s.getGrid x.grid = some placeGrid ∧ Sparse.find? s.ctxs x.ctx.toNat = some c ∧ placeGrid.pkt.coop = false
    ∧ placeGrid.tickets = [] ∧ s.savedWith x placeGrid = [x] ∧ s.latent = [] ∧ s.saveReady x = true ∧ w0.saveReady w0.tm = false ∧ Sparse.find? c.slots 0 = none
    ∧ s.saveTickets x placeGrid c = [{ team := 1, slot := 0, generation := 1 }]
    ∧ badPieces (s.pieces { team := 0, ctx := x.ctx, rank := 0, core := 768 } .store (ofNat64 (0x01FF000000000000 + 2 ^ 32 * 0)) image.length 0) = [] := by
  refine ⟨by decide +kernel, by decide +kernel, by decide +kernel, by decide +kernel, by decide +kernel, by decide +kernel, rfl, by decide +kernel,
    by decide +kernel, by decide +kernel, ?_, ?_⟩
  · have h : frozenS.savedWith frozenS.tm placeGrid = [frozenS.tm] := by decide +kernel
    have hs (c : Ctx) (hc : c.slots = []) : freeSaveSlots c 1 = [0] := free_save_slot c (by simp [hc, Sparse.getD])
    show frozenS.saveTickets frozenS.tm placeGrid _ = _
    unfold State.saveTickets
    rw [show placeGrid.ticket frozenS.tm.id = none from rfl, h]
    dsimp only [List.length_cons, List.length_nil, Nat.zero_add]
    rw [hs _ rfl]
    rfl
  show badPieces (frozenS.pieces { team := 0, ctx := 1, rank := 0, core := 768 } .store (ofNat64 (0x01FF000000000000 + 2 ^ 32 * 0)) _ 0) = []
  rw [test_image_length, save_piece 20480 (by decide) (by decide) .store (.inr rfl) frozenS (fun _ => rfl) (walk_is (by decide +kernel))]
  rfl

/-- A page of the save area that is absent, for the pages of an image of any length. -/
theorem test_w_SavesAndRestores_absent : ∀ n, 0 < n →
    ∃ f, (badPieces (({ frozenS with mem := [] } : State).pieces { team := 0, ctx := 1, rank := 0, core := 768 } .store
      (ofNat64 (0x01FF000000000000 + 2 ^ 32 * 0)) n 0))[0]? = some f := by
  intro n h0
  have e1 : ptrSpace (ofNat64 (0x01FF000000000000 + 2 ^ 32 * 0)) = 0 := by decide
  have e2 : ptrOffset (ofNat64 (0x01FF000000000000 + 2 ^ 32 * 0)) = 0x1FF000000000000 := by decide
  have h1 : ({ frozenS with mem := [] } : State).walkCtx 1 false 0x1FF000000000000 = .error 0x11 := walk_is (by decide +kernel)
  have h2 : ∀ va, ({ frozenS with mem := [] } : State).cachedWalk 768 1 false va = none := fun _ => rfl
  have e4 : mkPtr 0 0 0x1FF000000000000 = 0x1FF000000000000 := by decide
  have e5 : ((0 : Nat) == 4) = false := rfl
  have e7 : (0x1FF000000000000 : Nat) % 2 ^ 57 = 0x1FF000000000000 := by decide
  simp only [State.pieces, e1, e2, State.pagePieces, if_neg (Nat.pos_iff_ne_zero.1 h0), e4, e5, e7,
    State.translate, h1, h2]
  exact ⟨_, rfl⟩

/-! #### An image that passes its checks: one page, without records -/

theorem crc_lt (bs : List Byte) : crc32c bs < 2 ^ 32 := (~~~bs.foldl crcByte 0xFFFFFFFF).isLt

/-- The number that stands behind some bytes. -/
theorem num_at (xs ys : List Byte) (n v off : Nat) (h : xs.length = off) : numAt (xs ++ (toBytes n v ++ ys)) off n = v % 256 ^ n := by
  subst h
  have e : (toBytes n v ++ ys).take n = toBytes n v := by
    have := List.take_left (l₁ := toBytes n v) (l₂ := ys)
    rwa [length_toBytes] at this
  rw [numAt, List.drop_left, e, ofBytes_toBytes]

/-- Page 0 of an image of one page. -/
def onePage (crc : Nat) : List Byte := headPage { generation := 1, ctx := 1, index := 0, ptr := 0, pages := 1, tables := 0, crc := crc } []
/-- Its bytes before the CRC. -/
def pageHead : List Byte :=
  toBytes 4 0x09565358 ++ toBytes 4 1 ++ toBytes 8 1 ++ toBytes 4 1 ++ toBytes 4 0 ++ toBytes 8 0 ++ toBytes 4 1 ++ toBytes 4 0 ++ toBytes 4 0

theorem one_page (crc : Nat) : onePage crc = pageHead ++ (toBytes 4 crc ++ List.replicate 4048 0) := by
  have hz : toBytes 16 0 ++ [] ++ List.replicate 4032 (0 : Byte) = List.replicate 4048 0 := by decide +kernel
  have hl : (pageHead ++ toBytes 4 crc ++ toBytes 16 0 ++ []).length = 64 := by simp [pageHead]
  show padPages (pageHead ++ toBytes 4 crc ++ toBytes 16 0 ++ []) = _
  rw [padPages, hl, ← hz]
  simp only [List.append_assoc]

/-- The whole image. -/
def tinyImage : List Byte := onePage (crc32c (onePage 0))

theorem tiny_image : tinyImage = buildImage 1 1 0 0 [] := by
  have h (c : Nat) : onePage c ++ padPages [] ++ [] = onePage c := by simp [padPages]
  unfold tinyImage
  rw [← h, ← h 0]
  rfl

theorem page_length (c : Nat) : (onePage c).length = 4096 := by
  rw [one_page, List.length_append, List.length_append, length_toBytes, List.length_replicate]
  simp [pageHead]

/-- A number that page 0 holds before the CRC. -/
theorem page_num (c off n v : Nat) (h : (pageHead.drop off).take n = toBytes n v) (hl : off ≤ 44) : numAt (onePage c) off n = v % 256 ^ n := by
  have t : pageHead = pageHead.take off ++ (toBytes n v ++ (pageHead.drop off).drop n) := by
    rw [← h, List.take_append_drop, List.take_append_drop]
  have hp : pageHead.length = 44 := by decide +kernel
  rw [one_page, t, List.append_assoc, List.append_assoc]
  exact num_at _ _ _ _ _ (by rw [List.length_take, hp]; omega)

theorem tiny_head (c : Nat) : headOk (onePage c) 1 1 = true := by
  have h0 := page_num c 0 4 0x09565358 rfl (by decide)
  have h1 := page_num c 4 4 1 rfl (by decide)
  have h2 := page_num c 8 8 1 rfl (by decide)
  have h3 := page_num c 16 2 1 rfl (by decide)
  have h4 := page_num c 32 4 1 rfl (by decide)
  have h5 := page_num c 36 4 0 rfl (by decide)
  simp [headOk, h0, h1, h2, h3, h4, h5]

theorem tiny_crcs : crcsOk tinyImage = true := by
  have h1 : numAt tinyImage 32 4 = 1 := page_num _ 32 4 1 rfl (by decide)
  have h2 : numAt tinyImage 36 4 = 0 := page_num _ 36 4 0 rfl (by decide)
  have h3 : numAt tinyImage 44 4 = crc32c (onePage 0) := by
    unfold tinyImage
    rw [one_page, num_at _ _ _ _ _ (by decide +kernel)]
    exact Nat.mod_eq_of_lt (crc_lt _)
  have h4 : tinyImage.take 44 ++ [0, 0, 0, 0] ++ tinyImage.drop 48 = onePage 0 := by
    unfold tinyImage
    rw [one_page, one_page]
    have hp : pageHead.length = 44 := by decide +kernel
    have e1 (c : Nat) (z : List Byte) : (pageHead ++ (toBytes 4 c ++ z)).take 44 = pageHead := by
      rw [← hp]; exact List.take_left ..
    have e2 (c : Nat) (z : List Byte) : (pageHead ++ (toBytes 4 c ++ z)).drop 48 = z := by
      have := List.drop_left (l₁ := pageHead ++ toBytes 4 c) (l₂ := z)
      rwa [List.length_append, hp, length_toBytes, List.append_assoc] at this
    rw [e1, e2, List.append_assoc]
    rfl
  unfold crcsOk
  rw [h4, h1, h2, h3]
  simp [cutIntoPages]

/-- Team 1 as it was saved with that image, which stands in save slot 0 with the generation 1. -/
def savedOne : SavedTeam :=
  { id := 1, grid := 1, index := 0, frameSlot := 0, ctx := 1, slot := 0, generation := 1, started := 0, nextDrop := 0, cmds := [], entries := [],
    landings := [], held := [], told := none }
/-- No team is resident; the first page of the save area holds some bytes. -/
def stored (m : Memory) (bs : List Byte) : State :=
  { w0 with mem := m.writeN 0x50000 bs, ag := Agent.nobody, tm := Team.nobody, saved := [savedOne] }

theorem stored_num (bs : List Byte) (a : Nat) (h : a + 8 ≤ 0x50000) : (saveTables.writeN 0x50000 bs).readNat a 8 = saveTables.readNat a 8 := by
  unfold Memory.readNat
  rw [Memory.readN_congr _ saveTables a 8 fun j _ h2 => Memory.read_writeN_outside _ _ _ _ (.inl (by omega))]

theorem stored_walk (bs : List Byte) : (stored saveTables bs).walkCtx 1 false 0x1FF000000000000
    = .ok { base := 0x50000, size := 65536, x := true, w := true, r := true, shr := false, port := .a } := by
  have m (a v : Nat) (h : a + 8 ≤ 0x50000) (hv : saveTables.readNat a 8 = v) : (saveTables.writeN 0x50000 bs).readNat a 8 = v :=
    (stored_num bs a h).trans hv
  have m0 := m 130944 0x20001 (by decide) (by decide +kernel)
  have m1 := m 131072 0x40001 (by decide) (by decide +kernel)
  have m2 := m 262144 0x41001 (by decide) (by decide +kernel)
  have m3 := m 266240 0x5001F (by decide) (by decide +kernel)
  have w0 : walkEntry 0x20001 false { shift := 44, width := 13, page := 0, below := 0x20000 } = .table 131072 := by decide +kernel
  have w1 : walkEntry 0x40001 false { shift := 30, width := 14, page := 2 ^ 30, below := 0x1000 } = .table 262144 := by decide +kernel
  have w2 : walkEntry 0x41001 false { shift := 21, width := 9, page := 2 ^ 21, below := 0x100 } = .table 266240 := by decide +kernel
  have w3 : walkEntry 0x5001F false { shift := 16, width := 5, page := 2 ^ 16, below := 1 }
      = .leaf { base := 0x50000, size := 65536, x := true, w := true, r := true, shr := false, port := .a } := by decide +kernel
  show walk (saveTables.writeN 0x50000 bs) false 0x1FF000000000000 levels 65536 = _
  simp only [walk, levels]
  rw [show 65536 + 8 * (0x1FF000000000000 / 2 ^ 44 % 2 ^ 13) = 130944 from rfl, m0, w0]
  dsimp only
  rw [show 131072 + 8 * (0x1FF000000000000 / 2 ^ 30 % 2 ^ 14) = 131072 from rfl, m1, w1]
  dsimp only
  rw [show 262144 + 8 * (0x1FF000000000000 / 2 ^ 21 % 2 ^ 9) = 262144 from rfl, m2, w2]
  dsimp only
  rw [show 266240 + 8 * (0x1FF000000000000 / 2 ^ 16 % 2 ^ 5) = 266240 from rfl, m3, w3]

/-- What the device reads back of one page in the slot. -/
theorem stored_read (bs : List Byte) (h : bs.length = 4096) (hn : headOk bs 1 1 = true → numAt bs 32 4 = 1) :
    (stored saveTables bs).readImage savedOne = .ok (bs, false) := by
  have hp (n : Nat) (h0 : 0 < n) (h : n ≤ 65536) := save_piece n h0 h .load (.inl rfl) (stored saveTables bs) (fun _ => rfl) (stored_walk bs)
  have hr : (saveTables.writeN 0x50000 bs).readN 0x50000 4096 = bs := by rw [← h]; exact Memory.readN_writeN ..
  have hq := hp 4096 (by decide) (by decide)
  have hs : (stored saveTables bs).saveFail savedOne.ctx .load savedOne.slot 4096 = none := by
    show (badPieces ((stored saveTables bs).pieces { team := 0, ctx := 1, rank := 0, core := 768 } .load (ofNat64 (0x01FF000000000000 + 2 ^ 32 * 0)) 4096 0))[0]? = none
    rw [hq]; rfl
  have hl : (stored saveTables bs).load (saveWho savedOne.ctx) false (saveAddress savedOne.slot) 4096 0 = bs := by
    show (goodPieces ((stored saveTables bs).pieces { team := 0, ctx := 1, rank := 0, core := 768 } .load (ofNat64 (0x01FF000000000000 + 2 ^ 32 * 0)) 4096 0)).flatMap _ = bs
    rw [hq]
    show (saveTables.writeN 0x50000 bs).readN 0x50000 4096 ++ [] = bs
    rw [hr, List.append_nil]
  have hg : (stored saveTables bs).gather (saveWho savedOne.ctx) false [] ((stored saveTables bs).pieces (saveWho savedOne.ctx) .load (saveAddress savedOne.slot) 4096 0)
      = { bytes := bs, stop := none } := by
    show (stored saveTables bs).gather _ false [] ((stored saveTables bs).pieces { team := 0, ctx := 1, rank := 0, core := 768 } .load (ofNat64 (0x01FF000000000000 + 2 ^ 32 * 0)) 4096 0) = _
    rw [hq]
    show ({ bytes := (saveTables.writeN 0x50000 bs).readN 0x50000 4096 ++ [], stop := none } : Gather) = _
    rw [hr, List.append_nil]
  have hn4 : (if headOk bs savedOne.generation savedOne.ctx then 4096 * numAt bs 32 4 else 4096) = 4096 := by
    split
    · rename_i h; rw [hn h]
    · rfl
  unfold State.readImage
  simp only [hs, hl, hn4, hg]
  rfl

/-- A saved team can be restored; a page of zeros is refused; an absent page suspends the restore. -/
theorem test_w_SavesAndRestores_restore :
    let s := stored saveTables tinyImage
    let z := stored saveTables (List.replicate 4096 0)
    let f : FrameSlot := { dx := 0, dy := 0, mask := 1 }
    (s.saved.find? fun y => y.id == 1) = some savedOne ∧ s.getGrid savedOne.grid = some placeGrid ∧ placeGrid.pkt.coop = false
    ∧ placeGrid.pkt.slots[savedOne.frameSlot]? = some f ∧ s.roomAt placeGrid.pkt [(7, f)] = true ∧ s.engineRoom placeGrid [(savedOne, 7)] = true
    ∧ (s.readImage savedOne = .ok (tinyImage, false) ∧ imageOk tinyImage savedOne = true ∧ savedOne.held = [])
    ∧ (z.readImage savedOne = .ok (List.replicate 4096 0, false) ∧ imageOk (List.replicate 4096 0) savedOne = false)
    ∧ (stored [] []).readImage savedOne = .error { code := 0x11, addr := 0x1FF000000000000 } := by
  refine ⟨by decide +kernel, by decide +kernel, by decide +kernel, by decide +kernel, by decide +kernel, by decide +kernel,
    ⟨stored_read _ (page_length _) fun _ => page_num _ 32 4 1 rfl (by decide), ?_, rfl⟩, ⟨stored_read _ (List.length_replicate ..) ?_, ?_⟩, ?_⟩
  · show (headOk (tinyImage.take 4096) 1 1 && crcsOk tinyImage) = true
    rw [List.take_of_length_le (show tinyImage.length ≤ 4096 from Nat.le_of_eq (page_length _)), tiny_crcs]
    unfold tinyImage
    rw [tiny_head]; rfl
  · intro h; exact absurd h (by decide +kernel)
  · decide +kernel
  · have h1 : (stored [] []).walkCtx 1 false 0x1FF000000000000 = .error 0x11 := walk_is (by decide +kernel)
    have h2 : ∀ va, (stored [] []).cachedWalk 768 1 false va = none := fun _ => rfl
    have e1 : ptrSpace (ofNat64 (0x01FF000000000000 + 2 ^ 32 * 0)) = 0 := by decide
    have e2 : ptrOffset (ofNat64 (0x01FF000000000000 + 2 ^ 32 * 0)) = 0x1FF000000000000 := by decide
    have e7 : (0x1FF000000000000 : Nat) % 2 ^ 57 = 0x1FF000000000000 := by decide
    have e4 : mkPtr 0 0 0x1FF000000000000 = 0x1FF000000000000 := by decide
    have e5 : ((0 : Nat) == 4) = false := rfl
    have h3 : (stored [] []).saveFail savedOne.ctx .load savedOne.slot 4096 = some { code := 0x11, addr := 0x1FF000000000000 } := by
      show (badPieces ((stored [] []).pieces { team := 0, ctx := 1, rank := 0, core := 768 } .load (ofNat64 (0x01FF000000000000 + 2 ^ 32 * 0)) 4096 0))[0]? = _
      simp only [State.pieces, e1, e2, show 4096 / 65536 + 2 = 1 + 1 from rfl, State.pagePieces, if_neg (show (4096 : Nat) ≠ 0 by decide), e4, e5, e7, State.translate, h1, h2]
      rfl
    unfold State.readImage
    simp only [h3]
/-! ### The machine as a whole -/

/-- A step has answered a next state of which something holds. -/
def after (s : State) (f : State → Bool) : Bool :=
  match step s with
  | .next t => f t
  | .fault _ | .refused _ => false

theorem test_w_StepKeepsMemoryCanonical : (w0.MemoryCanonical ∧ Memory.wf w0.mem = true) ∧ after w0 (fun _ => true) = true :=
  ⟨⟨⟨by decide +kernel, by decide +kernel, by decide +kernel⟩, by decide +kernel⟩, by decide +kernel⟩

theorem test_w_DecodeEncode :
    ((Instr.sadd 3 1 2).wf = true ∧ encode (.sadd 3 1 2) = some (.scalar 0x304200))
    ∧ ((Instr.phint 6 5).wf = true ∧ (encode (.phint 6 5)).isSome = true)
    ∧ ((Instr.iadd (opsL 2 .u32 0)).wf = true ∧ (encode (.iadd (opsL 2 .u32 0))).isSome = true) := by decide +kernel

theorem test_w_DecodeWords : wordR 0 0 < 2 ^ 32 ∧ decodeScalar (wordR 0 0) 0 = .ok (.sadd 3 1 2)
    ∧ decodeLane (wordA 0x00 2 1 0) = .ok (.iadd (opsL 2 .u32 0)) := ⟨by decide +kernel, rfl, rfl⟩

/-- What the fetch of a state gives. -/
def fetches (s : State) (a : Word) (n : Nat) (bs : List Byte) : Bool :=
  !s.fetchFenced s.who a n && (match s.fetch s.who a n with | .ok x => x == bs | .error _ => false)

theorem fetch_is {s : State} {a : Word} {n : Nat} {bs : List Byte} (h : fetches s a n bs = true) : s.fetchFenced s.who a n = false ∧ s.fetch s.who a n = .ok bs := by
  simp only [fetches, Bool.and_eq_true, Bool.not_eq_true'] at h
  refine ⟨h.1, ?_⟩
  have h2 := h.2
  split at h2
  · next x e => rw [e, eq_of_beq h2]
  · cases h2

/-- An agent that an input names. -/
theorem test_w_StepRunsDecoded :
    let s : State := { w0 with inputs := [.scalar (.warp 1 0), .tick 5] }
    let u : State := { (s.taking [.tick 5]) with ag := { w0.ag with lastIssue := (s.taking [.tick 5]).stamp } }
    let d : State := { drop w0 with inputs := [.scalar (.drop 1 0)] }
    let l : State := { laneS with inputs := [.lane (.warp 1 0) 3] }
    let e : State := { State.reset with inputs := [.event .wipeDone] }
    let z : State := { w0 with tm := { placeTeam with ranks := [{ placeTeam.rank 0 with zeroing := [5] }] } }
    ((s.taking [.tick 5]).chosen (.warp 1 0) u ∧ u.ag.status = .running ∧ u.ag.pend = none ∧ u.tm.forced = false ∧ u.ag.isDrop = false
      ∧ (u.fetchFenced u.who u.ag.spc 4 = false ∧ u.fetch u.who u.ag.spc 4 = .ok [0, 0, 0, 0]) ∧ decodeScalar 0 0 = .ok (.sadd 0 0 0))
    ∧ (d.taking []).chosen (.drop 1 0) { (d.taking []) with ag := { d.ag with lastIssue := (d.taking []).stamp } }
    ∧ ((l.taking []).chosen (.warp 1 0) { (l.taking []) with ag := { l.ag with lastIssue := (l.taking []).stamp } }
      ∧ l.ag.queue = blockEntry :: [] ∧ l.ag.running = true ∧ l.ag.others = [] ∧ l.ag.cur.wait = .no
      ∧ ((l.taking []).fetchFenced l.who l.ag.cur.lpc 12 = false ∧ (l.taking []).fetch l.who l.ag.cur.lpc 12 = .ok (List.replicate 12 0)))
    ∧ (e.inputs = .event .wipeDone :: [] ∧ Instr.wipeDone.isEvent = true)
    ∧ (z.inputs = [] ∧ (z.taking []).autoEvent = some (.rowZeroed 1 0 5)) := by
  refine ⟨⟨⟨_, rfl, rfl⟩, rfl, rfl, rfl, rfl, fetch_is (by decide +kernel), rfl⟩, ⟨_, rfl, rfl⟩,
    ⟨⟨_, rfl, rfl⟩, rfl, rfl, rfl, rfl, fetch_is (by decide +kernel)⟩, ⟨rfl, rfl⟩, rfl, ?_⟩
  decide +kernel

/-! ### Further hypotheses -/

/-- Every domain is fenced. -/
def allFenced (s : State) : State := { s with fenced := List.range 1138 }

theorem line_fenced (s : State) (line : Nat) : (allFenced s).lineFenced line = true := by
  have : sliceDomain line ∈ List.range 1138 := by
    simp only [sliceDomain, List.mem_range]; omega
  simp [State.lineFenced, allFenced, this]

theorem allFenced_fenced (s : State) : (allFenced s).fenced.isEmpty = false := by simp [allFenced]

/-- A load of 8 bytes at 0x40 needs its home slice, which is fenced. -/
theorem test_w_AccessWaits :
    let sp : AccSpec := { spaces := [0, 1, 2, 3, 4], size := 8, align := 1, acc := .load }
    let a : LaneAcc := { lane := 0, ptr := 0x40, ok := true }
    (allFenced w0).accessFenced (allFenced w0).who sp [a] = true ∧ (allFenced w0).checkAccesses w0.tm w0.who sp [a] = none := by
  refine ⟨?_, by decide +kernel⟩
  have h : goodPieces ((allFenced w0).pieces (allFenced w0).who .load 0x40 8 0) = [{ place := .phys, addr := 0x50040, len := 8, ptr := 0x40, shr := false }] := by
    decide +kernel
  have hl : upTo (0x50040 / 128) ((0x50040 + 8 + 127) / 128) = [0xA00] := by decide +kernel
  simp only [State.accessFenced, List.any_cons, List.any_nil, h, State.homeFenced, hl, line_fenced, Bool.or_false, allFenced_fenced]
  simp

/-- The last bytes of each space and window, and one byte more. -/
theorem test_w_AccessLimits :
    spaceOk [0] (2 ^ 57 - 8) 8 = true ∧ spaceOk [0] (2 ^ 57 - 7) 8 = false ∧ spaceOk [5] (5 * 2 ^ 61 + 2 ^ 46 - 8) 8 = true
    ∧ spaceOk [5] (5 * 2 ^ 61 + 2 ^ 46 - 7) 8 = false ∧ spaceOk [6] (6 * 2 ^ 61) 1 = false ∧ spaceOk [1] (2 ^ 61 + 2 ^ 58) 1 = false
    ∧ spaceOk [2] (2 * 2 ^ 61 + 7 * 2 ^ 58) 1 = true ∧ w0.tm.pkt.local16 = 24
    ∧ windowOk w0.tm w0.who (2 ^ 61 + 384 - 8) 8 = true ∧ windowOk w0.tm w0.who (2 ^ 61 + 384 - 7) 8 = false
    ∧ windowOk w0.tm w0.who (2 * 2 ^ 61 + 2 ^ 58) 1 = false ∧ windowOk w0.tm w0.who (3 * 2 ^ 61) 1 = false := by decide +kernel

/-- Name 9 has been placed in the warp; IADD v6, v9 touches it, and NOP does not. -/
theorem test_w_PlacedNames :
    let s := laneS.modAg fun a => { a with placed := [9] }
    (∃ n ∈ s.ag.placed, ∀ ns, touchedNames (.iadd (lw .s32 0)) = some ns → n ∈ ns)
    ∧ ∀ n ∈ s.ag.placed, ¬ ∀ ns, touchedNames .nop = some ns → n ∈ ns := by
  refine ⟨⟨9, List.mem_singleton_self _, ?_⟩, ?_⟩
  · rintro ns h
    rw [← Option.some.inj h]
    decide +kernel
  · intro n hn h
    have := h [] rfl
    cases this

/-- Two stores of one warp to a byte wait, the second behind the first; a store to another place does not. -/
theorem test_w_LateStores :
    let x (a : Nat) : LateStore :=
      { owner := .agent (.warp 1 0) allLanes, core := 0, grid := 1, team := 1, place := .phys, addr := a, data := [1], released := none }
    let s (k : Nat) : State := { w0 with late := [x 8, x 8, x 9], inputs := [.land k] }
    (s 1).inputs = .land 1 :: [] ∧ (s 1).late[1]? = some (x 8) ∧ (∃ y ∈ (s 1).late.take 1, y.owner.same (x 8).owner = true ∧ y.addr = 8)
    ∧ (s 2).late[2]? = some (x 9)
    ∧ ∀ y ∈ (s 2).late.take 2, ¬ (y.owner.same (x 9).owner = true ∧ y.place = (x 9).place
        ∧ (y.place = .phys ∨ y.team = (x 9).team) ∧ y.addr < (x 9).addr + (x 9).data.length ∧ (x 9).addr < y.addr + y.data.length) := by
  decide +kernel

/-- Warp 0 of team 1 acquires at device scope, where a warp of team 2 has released a store at device scope and another at team scope: only the first
becomes visible, as Example 9.5 has it. Team scope of team 1 reaches a drop of team 2 on team 1's core. -/
theorem test_w_ReleasesAndAcquires :
    let x (t a : Nat) (r : Option Scope) : LateStore :=
      { owner := .agent (.warp t 0) allLanes, core := 0, team := t, place := .phys, addr := a, data := [1], released := r, grid := 1 }
    let s (l : List LateStore) : State := { w0 with late := l }
    ((s [x 2 8 (some .device), x 2 9 (some .team)]).acquireStores .device).late = [x 2 9 (some .team)]
    ∧ ((s [x 2 8 (some .device)]).acquireStores .team).late = [x 2 8 (some .device)]
    ∧ ((s [x 1 8 (some .team), x 1 9 none]).acquireStores .team).late = [x 1 9 none]
    ∧ w0.ag.id = .warp 1 0 ∧ w0.latent = [] ∧ w0.ag.owes = none ∧ w0.reaches .team 1 (.drop 2 0) 0 = true ∧ w0.reaches .team 1 (.drop 2 0) 1 = false := by
  decide +kernel

/-- A VST of two bytes a lane into host space: its pieces are aligned, and lie behind port A. -/
theorem test_w_LaneStores_host :
    let s : State := laneS.modAg fun a => { a with g := [(1, BitVec.ofNat 64 (ptr 4 0)), (2, 0x40), (12, 3)], blockG := [(1, BitVec.ofNat 64 (ptr 4 0)), (2, 0x40), (12, 3)] }
    let h : State := hosted s
    let w := { mw .w16 .release .u32 with h := headL 0, b := .imm 0 }
    let a : LaneAcc := { lane := 0, ptr := BitVec.ofNat 64 (ptr 4 2), ok := true }
    (h.piecesOf .store 2 a).map (fun p => (p.place, p.addr % 2, p.len)) = [(.host .a, 0, 2)]
    ∧ (laneS.piecesOf .store 2 { a with ptr := 2 ^ 61 + 2 }).map (fun p => (p.place, p.addr % 2)) = [(.scratch 0, 0)] ∧ w.width = .w16 := by
  decide +kernel

/-- The next entry of queue 63 of port A is one that a destruction of context 1 has discarded; the one of queue 0 is not. -/
theorem test_w_QueueHeads_discarded :
    let s : State := { queued (packed w0) with host := { (queued (packed w0)).host with purges := [{ port := .a, queue := 63, ctx := 1, left := 1 }] } }
    (∃ x ∈ s.host.purges, (x.port = .a ∧ x.queue = 63) ∧ x.ctx = 1)
    ∧ (¬ ∃ x ∈ s.host.purges, (x.port = .a ∧ x.queue = 0) ∧ x.ctx = 1)
    ∧ (¬ ∃ x ∈ (queued (packed w0)).host.purges, (x.port = .a ∧ x.queue = 63) ∧ x.ctx = 1) := by decide +kernel

/-- A PHINT stands at the pc of a warp, with its bitmap after it. -/
theorem test_w_StepRunsDecoded_hint :
    let s := (State.reset.withFetchWord 96 0xF4000000)
    let t : State := { State.reset with inputs := [] }
    bits 0xF4000000 31 26 = 0x3D ∧ fetches s s.ag.spc 4 [0, 0, 0, 0xF4] = true ∧ fetches s (s.ag.spc + 4) 4 [0, 0, 0, 0] = true
    ∧ fetches s (s.ag.spc + 8) 4 [0, 0, 0, 0] = true ∧ (match decodeScalar 0xF4000000 0 with | .ok _ => true | .error _ => false) = true
    ∧ (t.taking []).settle.goEvents = [] ∧ (t.taking []).settle.autoEvent = some .wipeDone
    ∧ s.latent = [] ∧ s.late = [] ∧ s.ag.loads = [] ∧ s.ag.placed = [] := by decide +kernel
/-! ## Single steps

Expected results: the worked cases that each comment names, or hand calculation from the rule that it names. -/

/-- The placed word is about to run, with some g registers. -/
def placedAt (w : Nat) (l : List (Nat × Nat)) : State :=
  (State.reset.withFetchWord 32 w).modAg fun a => { a with g := l.map fun x => (x.1, BitVec.ofNat 64 x.2) }
/-- Some bytes of memory. -/
def withBytes (a : Nat) (bs : List Byte) (s : State) : State := { s with mem := s.mem.writeN a bs }
/-- The value of a g register after one step. -/
def gAfter (s : State) (n : Fin 64) (v : Nat) : Bool := after s fun t => decide ((t.ag.getG n).toNat = v) && decide (t.ag.spc = 4)

/-- R113: sums wrap. -/
theorem test_run_sadd : gAfter (placedAt (wordR 0 0x00) [(1, 2 ^ 64 - 1), (2, 3)]) 3 2 = true := by decide +kernel
/-- R114: a division by 0 gives all ones. -/
theorem test_run_sdiv : gAfter (placedAt (wordR 0 0x05) [(1, 7)]) 3 (2 ^ 64 - 1) = true := by decide +kernel
/-- R114: the least integer by -1. -/
theorem test_run_srem : gAfter (placedAt (wordR 0 0x07) [(1, 2 ^ 63), (2, 2 ^ 64 - 1)]) 3 0 = true := by decide +kernel
/-- R113: the high half of a signed product. -/
theorem test_run_smulh : gAfter (placedAt (wordR 0 0x03) [(1, 2 ^ 64 - 1), (2, 2)]) 3 (2 ^ 64 - 1) = true := by decide +kernel
/-- Table 6.1: an arithmetic shift by the width or more fills with the sign. -/
theorem test_run_ssar : gAfter (placedAt (wordR 0 0x1A) [(1, 2 ^ 63), (2, 64)]) 3 (2 ^ 64 - 1) = true := by decide +kernel

/-- Table 6.3: SCMPI.LT q2, g9, #-1 is signed. -/
theorem test_run_scmpi : after (placedAt 0x2D227FFF [(9, 2 ^ 64 - 2)]) (fun t => t.ag.getQ 2) = true
    ∧ after (placedAt 0x2D227FFF [(9, 0)]) (fun t => t.ag.getQ 2) = false := by decide +kernel
/-- The words of Table 6.3 and Table 8.5. -/
theorem test_decode_worked_scalar : decodeTableWord 32 0x00414605 = some (.sdiv 4 5 6) ∧ decodeTableWord 32 0x30720904 = some (.ssel 7 8 9 4)
    ∧ decodeTableWord 32 0x34A6C000 = some (.qlog 1 2 3 .andn) ∧ decodeTableWord 32 0x60518010 = some (.sld64 5 6 0x10)
    ∧ decodeTableWord 32 0x6C71BFFC = some (.sst32 7 6 0x3FFC) ∧ decodeTableWord 32 0x74518758 = some (.scas 5 6 7 .device .acqRel)
    ∧ decodeTableWord 32 0x78000030 = some (.fence .team .release) ∧ decodeTableWord 32 0x78000058 = some (.fence .device .full) := by decide +kernel
/-- The words of Table 8.7. -/
theorem test_decode_worked_memory :
    (let w : MemOps :=
       { h := { headC with name := 8 }, a := .greg 4, b := .vec 2, c := .vec 0, ty := .f32, scope := .device, order := .acquire, width := .w32,
         hint := 0, uni := true, imm := 0 }
     decodeTableWord 96 0x6070045080100044A2000000 = some (.vld w))
    ∧ (let w : MemOps :=
         { h := headC, a := .greg 4, b := .vec 2, c := .vec 10, ty := .s64, scope := .device, order := .relaxed, width := .w64, hint := 0, uni := true,
           imm := 0 }
       decodeTableWord 96 0x667000508010142432000000 = some (.red w)) := by decide +kernel

/-- R2: bytes lie in memory least significant first. -/
theorem test_run_sst32 : after (placedAt 0x6C71BFFC [(6, 2 ^ 61 + 0x44), (7, 0xAABBCCDD)])
    (fun t => (t.tm.rank 0).scratch.readN 0x40 4 == [0xDD, 0xCC, 0xBB, 0xAA]) = true := by decide +kernel
/-- SLD64 reads global memory: the program stands on virtual page 0. -/
theorem test_run_sld64 : gAfter (withBytes 0x52000 [1, 2, 3, 4, 5, 6, 7, 0x88] (placedAt 0x60518010 [(6, 0x1FF0)])) 5 0x8807060504030201 = true := by decide +kernel
/-- R197: an atomic at no multiple of 8 takes 0x13; without a handler the team ends with it. -/
theorem test_run_misaligned : after (placedAt (word [(6, 0x1C), (6, 5), (6, 6), (6, 7), (3, 1), (2, 0), (3, 0)]) [(6, 2 ^ 61 + 4)])
    (fun t => t.grids.all (·.code == 0x13) && t.allTeams.isEmpty) = true := by decide +kernel
/-- R197: SATOM.SMIN keeps the lesser signed value and answers the old one. -/
theorem test_run_satom : after (placedAt (word [(6, 0x1C), (6, 5), (6, 6), (6, 7), (3, 1), (2, 0), (3, 4)]) [(6, 2 ^ 61 + 0x40), (7, 2 ^ 64 - 1)])
    (fun t => t.ag.getG 5 == 0 && (t.tm.rank 0).scratch.readNat 0x40 8 == 2 ^ 64 - 1) = true := by decide +kernel

/-- Table 15.3: TRAP makes a region entry at the next word, then takes 0x30 with faultaddr from gb. -/
theorem test_run_trap : after ({ placedAt 0xFC000901 [(9, 77)] with
      tm := { placeTeam with pkt := { placePacket with trapv := true, etrap := 0x100 } } })
    (fun t => t.ag.trapMode && t.ag.spc == 0x100 && t.ag.faultaddr == 77 && decide (bits t.ag.fault.toNat 7 0 = 0x30)
      && decide (bits t.ag.fault.toNat 63 16 = 4) && t.ag.reg.ctr == 1) = true := by decide +kernel
/-- R42: a word that decodes to nothing takes 0x01. -/
theorem test_run_illegal : after (placedAt (wordR 0x00 0xFF) []) (fun t => t.grids.all (·.code == 0x01) && t.allTeams.isEmpty) = true := by decide +kernel
/-- Table 3.9: BR !q3 to the fifth word before it. -/
theorem test_run_br : after (withBytes 0x50040 (toBytes 4 0x41FFFFFB) ((placedAt 0 []).modAg fun a => { a with spc := 0x40 }))
    (fun t => t.ag.spc == 0x40 - 20) = true := by decide +kernel
/-- BARR: the second of two arrivals completes the phase. -/
theorem test_run_barr : after ({ placedAt (word [(6, 0x28), (3, 0), (6, 6), (6, 0), (3, 1), (2, 0), (6, 1)]) [(6, 2 ^ 61 + 16)] with
      tm := placeTeam.setRank 0 { placeTeam.rank 0 with scratch := [(16, 2), (18, 1), (31, 1)] } })
    (fun t => let b := t.tm.bar { team := 1, rank := 0, off := 16 }; b.phase == 1 && b.arrived == 0 && b.expected == 2) = true := by decide +kernel
/-- HALT of the last warp ends the team and its grid. -/
theorem test_run_halt : after (placedAt 0xFC000002 []) (fun t => t.allTeams.isEmpty && t.grids.isEmpty) = true := by decide +kernel
/-- The module's wipe ends. -/
theorem test_run_wipe : after { State.reset with inputs := [.event .wipeDone] } (fun t => !t.host.wiping) = true := by decide +kernel

/-- A lane word is about to run; rows of the pool hold the first lanes of some names. -/
def laneAt (w : Nat) (rows : List (Nat × BitVec 4 × List Lane)) : State :=
  let s := State.reset.withFetchWord 96 w
  let k := rows.length
  { s with
    ag := { s.ag with vmap := rows.zipIdx.map fun x => (x.1.1, { row := x.2, tag := x.1.2.1 }) }
    tm := s.tm.setRank 0 { s.tm.rank 0 with
      pool := upTo k 16
      live := rows.zipIdx.map fun x => (x.2, Row.fresh (x.1.2.2 ++ List.replicate (64 - x.1.2.2.length) 0)) } }
/-- The first lanes of a name after a step. -/
def lanesAre (n : Nat) (vs : List Lane) (t : State) : Bool :=
  match t.entry n with
  | some e => ((t.myRank.row e.row).data.take vs.length) == vs
  | none => false

/-- The worked case of R137: QNT.E4 v20, v12 with v21 as the scale name. -/
theorem test_run_qnt_e4 : after (laneAt 0x41700A01800000C000000015 [(12, 0, [0x40400000, 0x3F800000, 0xBF000000])])
    (fun t => lanesAre 20 [0x00E8707C, 0, 0] t && lanesAre 21 [0x78, 0] t && decide (t.ag.fpflags = 0)) = true := by decide +kernel
/-- The same values as QNT.T6. -/
theorem test_run_qnt_t6 : after (laneAt 0x41700A01800000F000000015 [(12, 0, [0x40400000, 0x3F800000, 0xBF000000])])
    (fun t => lanesAre 20 [0x0003871E, 0] t && lanesAre 21 [0x7D, 0] t && decide (t.ag.fpflags ≠ 0)) = true := by decide +kernel
/-- R139: CVTQ.F32 of 1.5 at s = 32. -/
theorem test_run_cvtq : after (laneAt (word [(8, 0x43), (1, 0), (3, 7), (4, 0), (9, 6), (10, 8), (20, 0), (5, 4), (12, 0), (24, 32)]) [(8, 0, [0x3FC00000])])
    (fun t => lanesAre 6 [0x80000000] t && lanesAre 7 [1] t) = true := by decide +kernel
/-- R140: the worked total of Table 5.9. -/
theorem test_run_cvtf : after (laneAt (word [(8, 0x44), (1, 0), (3, 7), (4, 0), (9, 6), (10, 8), (20, 0), (5, 4), (12, 0), (24, 8)])
    [(8, 0, [0x00000200]), (9, 0, [1])]) (lanesAre 6 [0x4B800001]) = true := by decide +kernel
/-- Table 5.9: 2^24 + 1 ties to 2^24. -/
theorem test_run_fadd : after (laneAt (word [(8, 0x20), (1, 0), (3, 7), (4, 0), (9, 6), (10, 8), (10, 9), (10, 0), (5, 4), (12, 0), (24, 0)])
    [(8, 0, [0x4B800000, 0x7F800000]), (9, 0, [0x3F800000, 0xFF800000])]) (lanesAre 6 [0x4B800000, 0x7FC00000]) = true := by decide +kernel
/-- The next word of a lane block stands 12 bytes on, and a guard leaves other lanes alone. -/
theorem test_run_iadd : after ((laneAt (wordA 0x00 2 1 0) [(8, 0, [5, 6])]).modAg fun a => { a with p := [(2, 2)], g := [(12, 2 ^ 32 - 1)] })
    (fun t => lanesAre 6 [4, 0] t && t.ag.cur.lpc == 0x800C) = true := by decide +kernel

/-- The values of Table 5.3 as four- or eight-bit patterns: 1.0, -2.5 and 0.75 in E4, E5, T8 and T6. -/
theorem test_formats : ∀ x ∈ [(Ty.e4, 0x38, 0xC2, 0x34), (.e5, 0x3C, 0xC1, 0x3A), (.t8, 0x40, 0xD4, 0x38), (.t6, 0x10, 0x39, 0x0C), (.h2, 0x3C00, 0xC100, 0x3A00),
      (.b2, 0x3F80, 0xC020, 0x3F40), (.f32, 0x3F800000, 0xC0200000, 0x3F400000)],
    let f (v : Nat) := ((fmtOf x.1).deliverF .rne false ((fmtOf .f32).decode v, 0)).1
    (f 0x3F800000, f 0xC0200000, f 0x3F400000) = x.2 := by decide +kernel

/-- The worked multiply of file 07: B2 in row mode, with K = 65 and K = 66. -/
theorem test_run_mmac :
    let r (n : Nat) (v : Lane) : List Lane := List.replicate n 0 ++ [v]
    let data : List Lane := r 0 0x4580 ++ r 15 0x3F80 ++ r 15 0x3F803F80 ++ List.replicate 31 0
    let s (k : Nat) : State :=
      { w0 with
        ag := { w0.ag with role := .mtx, g := [(20, 0x5228), (21, BitVec.ofNat 64 (2 ^ 32 * k + 2 ^ 16 + 1))], vmap := [(40, { row := 0, tag := 3 }), (41, { row := 1, tag := 3 })] }
        tm := { placeTeam with
          pkt := { placePacket with accum256 := 1 }
          ranks := [{ placeTeam.rank 0 with pool := upTo 2 16, live := [(0, Row.fresh data), (1, Row.fresh data)] }] } }
    let done (k : Nat) : Nat :=
      match exec (.mmac { q := 1, a := 20, b := 0, s := .warp, acq := false, rel := false }) (s k) with
      | .next t =>
        (match exec (.matrixComplete 0) t with
         | .next u => (u.tm.rank 0).accum.readNat 0 4
         | .fault _ | .refused _ => 0)
      | .fault _ | .refused _ => 0
    done 65 = 0x4B800000 ∧ done 66 = 0x4B800001 := by decide +kernel

/-- With no input the module that has been reset ends its wipe by itself (R338). -/
theorem test_reset_ends_wipe : (match step State.reset with | .next t => t.host.wiping | _ => true) = false := by decide

/-! ## Further witnesses -/

/-- A load of one byte from the misspelt space of g1: it faults; from 0x40 with every domain fenced it waits, as in `test_w_AccessWaits`; one lane has
gone ahead. -/
theorem test_w_AccessStops :
    let s : State := laneS.modAg fun a => { a with blockG := [(1, BitVec.ofNat 64 (ptr 6 0))] }
    let w := mw .w8 .relaxed .u32
    let spec : AccSpec := { spaces := [0, 1, 2, 3, 4], size := 1, align := 1, acc := .load }
    let ahead : State := laneS.modAg fun a =>
      { a with cur := { a.cur with early := some { instr := .vld w, plan := laneS.planOf .load 1 (laneS.accsOf w), done := [(0, 7)] } } }
    ready s w.h (addrUses w) (loadNames w) = true ∧ s.ag.cur.early = none ∧ (s.checkAccesses s.tm s.who spec (s.accsOf w)).map (·.code) = some 0x10
    ∧ ready ahead w.h (addrUses w) (loadNames w) = true ∧ ahead.ag.cur.early.isSome = true ∧ ahead.aheadOf 0 = some 7 ∧ ahead.aheadOf 1 = none
    ∧ { w with hint := 3 }.hint = (3 : Fin 4) := by decide +kernel

theorem any_fenced (s : State) (ls : List Nat) : ls.any (allFenced s).lineFenced = !ls.isEmpty := by
  cases ls <;> simp [line_fenced]

/-- A pointer of a context is walked in memory. -/
def walksMem (s : State) (w : Who) (p : Word) : Bool :=
  ptrSpace p == 0 && (s.cachedWalk w.core w.ctx false (ptrOffset p % 2 ^ 57)).isNone
  && (match s.ctxs.find? w.ctx.toNat with
      | some c => !(walkLines s.mem false (ptrOffset p % 2 ^ 57) levels c.groot).isEmpty
      | none => false)

theorem device_fenced {s : State} {w : Who} {acc : Acc} {p q : Word} {n : Nat} {ps : List Word} (hp : pagePtrs p n = q :: ps)
    (hw : walksMem (allFenced s) w q = true) : (allFenced s).deviceFenced w acc p n = true := by
  simp only [walksMem, Bool.and_eq_true, beq_iff_eq] at hw
  obtain ⟨⟨h0, h1⟩, h2⟩ := hw
  have h : (allFenced s).walkFenced w q = true := by
    cases hc : Sparse.find? (allFenced s).ctxs w.ctx.toNat with
    | none => rw [hc] at h2; cases h2
    | some c =>
      rw [hc] at h2
      simp only [State.walkFenced, h0, hc, any_fenced, allFenced_fenced] at h2 ⊢
      exact Bool.and_eq_true_iff.2 ⟨h1, h2⟩
  simp only [State.deviceFenced, hp, List.any_cons, h, allFenced_fenced, Bool.true_or]
  rfl

/-- Every domain is fenced: the next packet, the save of a team and the restore of another wait. -/
theorem test_w_QueueHeads_fenced : (allFenced (packed w0)).packetFenced (itemAt 0x1000) = true := by
  have h (n : Nat) (h0 : 192 ≤ n) (h1 : n ≤ 20000) :
      (allFenced (packed w0)).deviceFenced { team := 0, ctx := (itemAt 0x1000).ctx, rank := 0, core := 768 } .load (itemAt 0x1000).ptr n = true := by
    have e2 : ptrOffset (itemAt 0x1000).ptr = 0x1000 := by decide
    have e : pagePtrs (itemAt 0x1000).ptr n = [0] := by
      have a : (0x1000 + n + 65535) / 65536 = 1 := by omega
      simp only [pagePtrs, e2, a]
      decide
    exact device_fenced e (by decide +kernel)
  simp only [State.packetFenced, Bool.and_eq_true]
  refine ⟨by decide, h _ ?_ ?_⟩ <;> split <;> omega

theorem test_w_SavesAndRestores_fenced : ∀ n, 0 < n → n ≤ 65536 →
    (allFenced frozenS).deviceFenced { team := 0, ctx := 1, rank := 0, core := 768 } .store (ofNat64 (0x01FF000000000000 + 2 ^ 32 * 0)) n = true := by
  intro n h0 h1
  have e2 : ptrOffset (ofNat64 (0x01FF000000000000 + 2 ^ 32 * 0)) = 0x1FF000000000000 := by decide
  have e : pagePtrs (ofNat64 (0x01FF000000000000 + 2 ^ 32 * 0)) n = [0x1FF000000000000] := by
    have a : (0x1FF000000000000 + n + 65535) / 65536 = 0x1FF000000000000 / 65536 + 1 := by omega
    simp only [pagePtrs, e2, a]
    decide
  exact device_fenced e (by decide +kernel)

/-- The image of `savedOne` is not fenced; a save has reserved a slot for team 1, and its context has none free; a tagged byte of team 1's core has an
error that its save meets. -/
theorem test_w_SavesAndRestores_generation :
    let k : SaveTicket := { team := 1, slot := 5, generation := 7 }
    let g : Grid := { placeGrid with tickets := [k] }
    let c : Ctx := { perf := false, groot := 0x10000, hroot := 0, expBase := 0, expSize := 0, slots := [(5, { busy := true, generation := 7 })], destroying := false }
    let s : State := { frozenS with latent := [.tagged 1 0] }
    (stored saveTables tinyImage).imageFenced savedOne = false
    ∧ ((g.tickets.find? fun z => z.team == placeTeam.id) = some k ∧ frozenS.saveTickets frozenS.tm g c = k :: [])
    ∧ (s.saveReady s.tm = true ∧ s.getTeam s.tm.id = some s.tm ∧ ∃ e ∈ s.latent, s.errorSaved s.tm e = true) :=
  ⟨rfl, ⟨rfl, rfl⟩, by decide +kernel⟩

/-- Full demand of every consumer: 6,400 W give all floors and some more; nothing is left beside a great draw; with no work there is enough. -/
theorem test_w_GovernorSteps :
    let all : GovInput := { draw := 0, linkBusy := List.replicate 18 1000000, clusterBusy := List.replicate 96 1000000, linkThrottled := [], clusterThrottled := [] }
    let s : State := { w0 with pow := { w0.pow with limit := 1000 } }
    let tokens (s : State) (g : GovInput) : Int := (490 * (s.pow.limit : Int) - g.draw) / 500
    let demands (g : GovInput) : Nat := ((s.consumers g).map Consumer.demand).sum
    let floors : Nat := ((s.consumers all).map Consumer.floor).sum
    (tokens s { all with draw := 240000 } < demands all ∧ (floors : Int) < tokens s { all with draw := 240000 })
    ∧ (tokens s { all with draw := 490000 } < demands all ∧ tokens s { all with draw := 490000 } ≤ floors)
    ∧ (demands { all with linkBusy := [], clusterBusy := [] } : Int) ≤ tokens s all := by decide +kernel

/-- A head, a cached walk and a row that is being zeroed, each of a live context. -/
theorem test_w_ErrorsConsumed :
    let h := headOf placePacket
    let line : L2Line := { filler := 1, dirty := some 1, keep := .normal }
    let walk : TlbEntry := { level := .core 5, ctx := 1, host := false, va := 0x8000,
                             leaf := { base := 0x50000, size := 65536, x := true, w := true, r := true, shr := false, port := .a } }
    let z : Team := { placeTeam with ranks := [{ placeTeam.rank 0 with zeroing := [5] }] }
    let s : State := { w0 with heads := [h], l2 := [(5, line)], tlb := [walk], tm := z }
    (s.heads.find? fun x => x.queue == h.queue) = some h ∧ (Sparse.find? s.ctxs h.item.ctx.toNat).map (·.destroying) = some false
    ∧ (∃ x ∈ s.tlb, x.level = .core 5 ∧ x.ctx = 1 ∧ x.host = false ∧ x.va = 0x8000) ∧ w0.tlb = []
    ∧ ((Sparse.find? s.l2 5).bind fun l => l.dirty) = some 1 ∧ (1 : BitVec 16) ≠ 0xFFFE
    ∧ s.getTeam z.id = some z ∧ 5 ∈ (z.rank 0).zeroing ∧ z.ctx ≠ 0 := by decide +kernel

/-- A trip holds the module; a port command waits, is refused or is not; entries of a ring stand unread. -/
theorem test_w_HostPorts_tripped :
    let t : State := { portS [1] w0 with pow := { w0.pow with tripped := true } }
    let ring : State := (portS [1] w0).modPort .b fun r => { r with qtail := [(63, 2)] }
    t.pow.tripped = true ∧ (t.port .a).busy = false ∧ ¬ t.waitsFor .a false true ∧ t.host.wiping = false
    ∧ (t.pow.tripped = true ∧ ({ t with host := { t.host with wiping := true } } : State).host.wiping = true)
    ∧ ((1 : Nat) ≠ 13 ∧ ([16, 8, 4, 2, 1] : List Nat).find? (fun x => decide (x ≤ 13)) = some 8)
    ∧ Sparse.getD (ring.port .b).qhead 63 0 ≠ Sparse.getD (ring.port .b).qtail 63 0 ∧ ring.latent = [] := by
  unfold State.waitsFor
  decide +kernel

/-- Two parts of one word of one command wait, and a part of the next word. -/
theorem test_w_LateStores_tied :
    let x (a : Nat) : LateStore :=
      { owner := .cmd 2, core := 0, grid := 1, team := 1, place := .phys, addr := a, data := [1], released := none }
    let tied (x y : LateStore) : Prop := (x.owner = .cmd 2 ∧ y.owner = .cmd 2) ∧ y.place = x.place ∧ y.addr / 4 = x.addr / 4
    tied (x 8) (x 11) ∧ ¬ tied (x 8) (x 12) := by decide

/-- A lane of the running fragment has gone ahead of its word, which is known. -/
theorem test_w_StepRunsDecoded_early :
    let w := mw .w8 .relaxed .u32
    let x : EarlyWord := { instr := .vld w, plan := [], done := [] }
    let s : State := laneS.modAg fun a => { a with cur := { a.cur with early := some x } }
    let v : State := { s with ag := s.ag.pick 0 }
    s.ag.running = true ∧ v.ag.cur.early = some x ∧ laneS.latent = [] := by decide +kernel

/-- A collective of one packet that ends in DLV is through with its offset; one that ends in DLVF comes back. -/
theorem test_w_PacketHops_last :
    let pk (op : HopOp) := packet .collective [.addS64, op] [some 0, none] false
    ((pk .dlv).ops.getLast? = some .dlv ∧ (pk .dlv).total ≤ 0 + 1) ∧ ¬ ((pk .dlvf).ops.getLast? = some .dlv ∧ (pk .dlvf).total ≤ 0 + 1) := by
  decide

/-- Numbers that are delivered: 3, one between 2^60 and 2^60 + 1, and the sum and the sign of a block. -/
theorem test_w_FloatDelivery :
    let x : Mag := { m := 3, e := 0, sticky := false }
    let y : Mag := { m := 2 ^ 60, e := 0, sticky := true }
    x.m ≠ 0 ∧ x.Holds x.value ∧ y.m ≠ 0 ∧ 60 ≤ y.m.log2 ∧ y.Holds (2 ^ 60 + 1 / 2) ∧ Rnd.rne ≠ .dyn
    ∧ (binaryFormats.map (·.sign)).length = 6 := by
  refine ⟨by decide, rfl, by decide, by decide, ?_, by decide, rfl⟩
  unfold Mag.Holds
  decide +kernel

/-- A block whose largest value is 3 has the scale exponent -7 in E4M3; a block of zeros has none. -/
theorem test_w_QuantizationScale :
    let xs := FVal.ofInt 3 :: List.replicate 63 (FVal.ofInt 0)
    let three : Mag := { m := 3, e := 0, sticky := false }
    xs.length = 64 ∧ (∀ x ∈ xs, ∀ neg m, x = .num neg m → m.sticky = false)
    ∧ xs.getD 0 (.nan false) = .num false three ∧ three.value ≤ (448 : Rat) * pow2 (-7) ∧ (448 : Rat) * pow2 (-7 - 1) < three.value
    ∧ ∀ i < 32, xs.getD (32 + i) (.nan false) = FVal.ofInt 0 := by
  refine ⟨by decide, ?_, rfl, by decide +kernel, by decide +kernel, by decide⟩
  intro x hx neg m h
  simp only [List.mem_cons, List.mem_replicate] at hx
  rcases hx with rfl | ⟨-, rfl⟩ <;> cases h <;> rfl

theorem test_w_MatrixFloats :
    let x := Mmac.ofDesc [0, 1 + 2 ^ 16 + 2 ^ 32, 1]
    x.accType = 0 ∧ x.k ≠ 0 ∧ tyFmt .e4 = some .e4m3 ∧ tyFmt .f32 = some Fmt.f32 := by decide +kernel
/-! ### Witnesses of single clauses -/

/-- The tables of the worked example of R331, with some entries of levels 2 and 3. -/
def walkS (e2 e3 : Nat) : State :=
  let m : Memory := []
  { w0 with
    mem := (((m.writeNat 0x100000 8 0x120001).writeNat 0x120FE0 8 0x140001).writeNat 0x140000 8 e2).writeNat 0x141088 8 e3
    ctxs := [(1, { perf := false, groot := 0x100000, hroot := 0, expBase := 0, expSize := 0, slots := [], destroying := false })] }

/-- R331: the worked walk gives 0x2345_0040; an entry that is not valid, a large page, and malformed entries. -/
theorem test_w_PageWalks :
    let l (base size : Nat) : Leaf := { base := base, size := size, x := false, w := true, r := true, shr := false, port := .a }
    let at_ (e2 e3 : Nat) := (walkS e2 e3).walkCtx 1 false 0x7F00110040
    walkIs (at_ 0x141001 0x2345000F) (.ok (l 0x23450000 65536)) = true ∧ walkIs (at_ 0x141001 0x2345000E) (.error 0x11) = true
    ∧ walkIs (at_ 0x4000000F 0) (.ok (l 0x40000000 (2 ^ 21))) = true ∧ walkIs (at_ 0x4001000F 0) (.error 0x12) = true
    ∧ walkIs (at_ 0x141001 0x2345002F) (.error 0x12) = true ∧ walkIs (at_ 0x141001 0x23450001) (.error 0x12) = true
    ∧ 0x23450000 + 0x7F00110040 % 65536 = 0x23450040 ∧ (Sparse.find? (walkS 0 0).ctxs 1).isSome = true := by decide +kernel

theorem test_w_PagePermissions :
    w0.tlb = [] ∧ bits (0x40#64).toNat 63 57 = 0 ∧ bits (BitVec.ofNat 64 (ptr 4 0x40)).toNat 63 57 = 64
    ∧ walkIs (w0.walkCtx w0.who.ctx false 0x100000000) (.error 0x11) = true
    ∧ (match readOnly.walkCtx readOnly.who.ctx false 0x40 with | .ok l => Acc.allowed .fetch l && !Acc.allowed .load l | .error _ => false) = true
    ∧ 0x40 % 65536 + 8 ≤ 65536 := by decide +kernel

/-- A queue with room, a full one, and one whose oldest entry is four regions back; each role. -/
theorem test_w_LaneQueuePlaces :
    let s := busy w0
    let far := s.modAg fun a => { a with reg := { a.reg with rid := 4 } }
    s.atQueue = false ∧ s.ag.queue ≠ [] ∧ ¬ 16 ≤ s.ag.queue.length ∧ (∀ x ∈ s.ag.queue.head?, ¬ x.rid + 4 ≤ s.ag.reg.rid)
    ∧ 16 ≤ (full w0).ag.queue.length ∧ (∃ x ∈ far.ag.queue.head?, x.rid + 4 ≤ far.ag.reg.rid)
    ∧ (role .mtx s).ag.role = .mtx ∧ (role .cpy s).ag.role = .cpy ∧ s.ag.role = .gen ∧ (drop s).ag.isDrop = true ∧ s.ag.isDrop = false := by
  decide +kernel

/-- With no active lane: one destination name shares its row with another, and one does not. -/
theorem test_w_LaneGating_idle :
    let single (n : Nat) : Prop := ∀ e, laneS.entry n = some e → (laneS.myRank.row e.row).refs ≤ 1
    laneS.active { headL 8 with guard := 7 } = 0 ∧ ¬ single 8 ∧ single 6 := by
  refine ⟨by decide +kernel, fun h => absurd (h _ (show laneS.entry 8 = some { row := 0, tag := 1 } by decide +kernel)) (by decide +kernel), ?_⟩
  intro e h
  rw [show laneS.entry 6 = none by decide +kernel] at h
  cases h

/-- The packet of a LAUNCH has a poisoned byte, or lies in a fenced domain. -/
theorem test_w_DeviceLaunch_late :
    let s : State := { gs [(1, 0x40)] with poison := [0x50040 / 32] }
    let sp : AccSpec := { spaces := [0], size := 192, align := 64, acc := .load }
    ((s.checkAccesses s.tm s.who sp [{ lane := 0, ptr := s.ag.getG 1, ok := true }]).map (·.code) = some 0x21)
    ∧ s.accessFenced s.who sp [{ lane := 0, ptr := s.ag.getG 1, ok := true }] = false
    ∧ (allFenced w0).accessFenced (allFenced w0).who sp [lane0 0x40] = true := by
  refine ⟨by decide +kernel, by decide +kernel, ?_⟩
  have h : goodPieces ((allFenced w0).pieces (allFenced w0).who .load (lane0 0x40).ptr 192 0)
      = [{ place := .phys, addr := 0x50040, len := 192, ptr := 0x40, shr := false }] := by decide +kernel
  have hl : upTo (0x50040 / 128) ((0x50040 + 192 + 127) / 128) = [0xA00, 0xA01] := by decide +kernel
  simp only [State.accessFenced, List.any_cons, List.any_nil, show (lane0 0x40).lane = 0 from rfl, h, State.homeFenced, hl, line_fenced, allFenced_fenced]
  simp

/-- An entry whose pointer is not global, or not aligned; whose packet is absent, or illegal; or whose gang has retired. -/
theorem test_w_LaunchRejections :
    let i (p : Nat) : QueueItem := itemAt p
    let g : State := { packed w0 with fab := { w0.fab with gangs := [{ gang := 5, ctx := 1, rank := 0, enc := false, deadline := 0, registered := [], retired := true }] } }
    let p : LaunchPacket := { placePacket with gang := true, gangid := 5 }
    isGlobal (i (ptr 1 0)).ptr = false ∧ (isGlobal (i 0x1008).ptr = true ∧ (i 0x1008).ptr.toNat % 64 ≠ 0)
    ∧ (match w0.readPacket (i 0x100000000) with | .error c => c == 0x11 | .ok _ => false) = true
    ∧ (match w0.readPacket (i 0x1000) with | .ok p => !p.legal true | .error _ => false) = true
    ∧ p.legal false = true ∧ g.gangRefused p = true ∧ w0.gangRefused p = false
    ∧ ptrSpace (BitVec.ofNat 64 (ptr 4 0x40)) = 4 ∧ ptrRank (BitVec.ofNat 64 (ptr 4 0x40)) = 0 ∧ (packed w0).launchable 1 = true := by decide +kernel

/-- A packet that is legal, and two that are not. -/
theorem test_w_PacketLegality :
    placePacket.legal true = true ∧ ({ placePacket with warps := 49, roles := List.replicate 49 .gen } : LaunchPacket).legal true = false
    ∧ ({ placePacket with hdone := BitVec.ofNat 64 (ptr 4 0x40) } : LaunchPacket).legal false = false
    ∧ ({ placePacket with hdone := BitVec.ofNat 64 (ptr 4 0x40) } : LaunchPacket).legal true = true := by decide +kernel

/-- The only team of a grid has ended, or has not; it was launched by the host with a record or without, or by the device, with a barrier or without.
-/
theorem test_w_GridRetirement :
    let g : Grid := { placeGrid with ended := 1 }
    let s (g : Grid) : State := { w0 with grids := [g], tm := Team.nobody, ag := Agent.nobody }
    let kept (g : Grid) : Grid := { g with pkt := { placePacket with hdone := BitVec.ofNat 64 (ptr 4 0x40) } }
    (s g).getGrid g.id = some g ∧ placeGrid.ended < placeGrid.pkt.teams ∧ ¬ g.ended < g.pkt.teams ∧ (∀ c ∈ (s g).grids, c.parent ≠ some g.id)
    ∧ (s g).heads = [] ∧ (s g).devq = [] ∧ g.parent = none ∧ g.pkt.hdone = 0 ∧ g.port ≠ none ∧ (kept g).pkt.hdone ≠ 0
    ∧ (s (kept g)).hostFenced (kept g).ctx (kept g).pkt.hdone = false ∧ ({ g with port := none } : Grid).port = none := by decide +kernel

theorem test_w_GridRetirement_waits : (allFenced (hosted w0)).hostFenced 1 (BitVec.ofNat 64 (ptr 4 0x40)) = true := by
  simp only [State.hostFenced, any_fenced, allFenced_fenced]
  decide +kernel

/-- A store of two bytes in a fenced line, and an atomic that waits alone. -/
theorem test_w_LateStores_held :
    let x : LateStore :=
      { owner := .agent (.warp 1 0) allLanes, core := 0, grid := 1, team := 1, place := .phys, addr := 8, data := [1, 2], released := none }
    let op : LateOp :=
      { instr := .satom 3 1 2 .device .relaxed .add, lane := 0, rid := 0, piece := { place := .phys, addr := 0x50040, len := 8, ptr := 0x40, shr := false },
        ctx := 1, rank := 0, trap := false, value := 5, compare := 0 }
    let y : LateStore := { x with addr := 0x50040, data := List.replicate 8 0, op := some op }
    let s : State := { w0 with late := [y], inputs := [.land 0] }
    (∃ l ∈ x.lines, (allFenced w0).lineFenced l = true)
    ∧ (s.late[0]? = some y ∧ y.op = some op ∧ op.piece.place = .phys ∧ op.new 7 = some 12 ∧ op.trap = s.ag.trapMode ∧ teamOf s.ag.id ≠ 0)
    ∧ (∀ l, s.lineFenced l = false) ∧ ∀ (j : Nat) z, s.late[j]? = some z → j ≠ 0 → False := by
  refine ⟨?_, by decide +kernel, fun l => ?_, ?_⟩
  · simp only [line_fenced, and_true]
    exact ⟨0, by decide⟩
  · show ([].contains _ || (Config.lineMemory l).any [].contains) = false
    cases Config.lineMemory l <;> rfl
  · intro j z h h0
    cases j with
    | zero => exact h0 rfl
    | succ j => cases h

/-- A fence of a warp that has a store, an atomic and a load open, and with nothing open. -/
theorem test_w_ReleasesAndAcquires_own :
    let x : LateStore :=
      { owner := .agent (.warp 1 0) allLanes, core := 0, grid := 1, team := 1, place := .phys, addr := 8, data := [1], released := none }
    let s : State := { w0 with late := [x], ag := { w0.ag with loads := [], ahead := [] } }
    (∃ m, x.owner = .agent s.ag.id m ∧ m ≠ 0) ∧ x.op = none ∧ s.latent = [] ∧ s.ag.owes = none
    ∧ (match exec (.fence .device .acquire) s with | .next t => decide (t.ag.id = s.ag.id) && t.ag.issued == s.ag.issued + 1 | _ => false) = true
    ∧ (match exec (.fence .device .release) s with | .next _ => true | _ => false) = true :=
  ⟨⟨_, rfl, by decide⟩, rfl, rfl, rfl, by decide +kernel, by decide +kernel⟩

/-- A trip holds the module: a strike, and a current reading, stand in the tape. -/
theorem test_w_tripped :
    let t (i : Input) : State := { w0 with pow := { w0.pow with tripped := true }, inputs := [i] }
    (t (.strike .noDomain)).pow.tripped = true ∧ (t (.strike .noDomain)).inputs = .strike .noDomain :: []
    ∧ (t (.current 3 7)).inputs = .current 3 7 :: [] ∧ w0.pow.tripped = false ∧ w0.late = [] := by decide +kernel

/-- A store that waits in a line of slice 864 + 8 keeps that domain from being quiet, and no other slice; the atomic above is no store. -/
theorem test_w_DomainEvents_quiet :
    let x : LateStore :=
      { owner := .agent (.warp 1 0) allLanes, core := 0, grid := 1, team := 1, place := .phys, addr := 0, data := [1], released := none }
    x.lines = [0] ∧ (∀ d, d ≠ sliceDomain 0 → Config.lineMemory 0 ≠ some d → ∀ l ∈ x.lines, sliceDomain l ≠ d ∧ Config.lineMemory l ≠ some d) := by
  refine ⟨by decide +kernel, fun d h1 h2 l hl => ?_⟩
  rw [show (LateStore.lines _ : List Nat) = [0] by decide +kernel] at hl
  rw [List.mem_singleton.1 hl]
  exact ⟨fun h => h1 h.symm, h2⟩

/-- A cooperative restore: a team of its grid is resident, its rectangle would leave the device, or there is room at the origin 0. -/
theorem test_w_WholeRestores :
    let s := stored saveTables tinyImage
    let near : Grid := { placeGrid with pkt := { placePacket with coop := true, slots := [{ dx := 1, dy := 0, mask := 1 }], wm1 := 1 } }
    let pl : RestorePlace := { cluster := 0, rowBase := 0, whole := true }
    let f : FrameSlot := { dx := 0, dy := 0, mask := 1 }
    (s.saved.find? fun y => y.id == savedOne.id) = some savedOne ∧ s.getGrid savedOne.grid = some placeGrid ∧ pl.whole = true
    ∧ (∃ t ∈ w0.allTeams, t.grid = placeGrid.id) ∧ near.pkt.coop = true ∧ pl.cluster % 12 < (near.pkt.slots.getD 0 f).dx
    ∧ pl.cluster = 12 * (0 + f.dy) + (0 + f.dx) ∧ (∀ t ∈ s.allTeams, t.grid ≠ placeGrid.id) ∧ (∀ y ∈ s.saved, y.id = savedOne.id → y = savedOne)
    ∧ (s.saved.filter fun y => y.grid == placeGrid.id) = [savedOne] ∧ s.roomAt placeGrid.pkt [(0, f)] = true
    ∧ s.engineRoom placeGrid [(savedOne, 0)] = true ∧ s.imageFenced savedOne = false ∧ ∃ r, s.readImage savedOne = .ok r := by
  refine ⟨by decide +kernel, by decide +kernel, rfl, by decide +kernel, rfl, by decide +kernel, by decide +kernel, by decide +kernel, by decide +kernel,
    by decide +kernel, by decide +kernel, by decide +kernel, rfl, _, stored_read _ (page_length _) fun _ => page_num _ 32 4 1 rfl (by decide)⟩

/-- Exact numbers, infinities and NaNs of each format, a scale, and a combining operation. -/
theorem test_w_FloatFunctions :
    (FVal.num false { m := 3, e := 0, sticky := false }).Exact ∧ (Fmt.f32.decode 0x7FC00000).isNan = true ∧ Fmt.f32.decode 0xFF800000 = .inf true
    ∧ (Fmt.f32.decode 0x40000000).ext = .fin 2 ∧ (2 : Rat) = pow2 1 ∧ (Fmt.f32.decode 0x41200000).ext = .fin 10 ∧ (9 : Rat) ≤ 10
    ∧ (Fmt.f32.decode 0x43000000).ext = .fin 128 ∧ (Fmt.f32.decode 0x80000000).ext = .fin 0 ∧ (Fmt.f32.decode 0xC0000000).ext = .fin (-2)
    ∧ combineTy .addS64 = some (8, false) ∧ (binaryFormats.filter fun f => f.fb ∈ [52, 23, 10, 7]).length = 4 := by
  refine ⟨?_, by decide +kernel, by decide +kernel, by decide +kernel, by decide +kernel, by decide +kernel, by decide +kernel, by decide +kernel,
    by decide +kernel, by decide +kernel, by decide +kernel, by decide +kernel⟩
  intro neg x h
  cases h
  rfl

/-- Table 6.6 and R129: a product, a quotient by zero, and a minimum of zeros; R138: 3.0 in E4 with the scale 2^2; R238: bytes that one lacks. -/
theorem test_float_values :
    (Fmt.f32.deliverF .rne false (FVal.mul (Fmt.f32.decode 0x40400000) (Fmt.f32.decode 0xBF000000))).1 = 0xBFC00000
    ∧ Fmt.f32.deliverF .rne false (FVal.div (Fmt.f32.decode 0xBF800000) (Fmt.f32.decode 0)) = (0xFF800000, Flags.dz)
    ∧ (Fmt.f32.minMax false 0x80000000 0).1 = 0x80000000 ∧ (Fmt.f32.minMax true 0x80000000 0).1 = 0 ∧ (Fmt.f32.minMax true 0x7FC00000 7).1 = 7
    ∧ (dequant .e4m3 .rne 129 0x44).1 = 0x41400000
    ∧ (combineBytes .maxS32 [0xFF, 0xFF, 0xFF, 0xFF] [5]).1 = [0xFF, 0xFF, 0xFF, 0xFF] ∧ (combineBytes .addS32 [1, 2, 3, 4] [5]).1 = [6, 2, 3, 4] := by
  decide +kernel
end Sys2Proof.Tests
end

/-! SUPPORT. Scalar arithmetic (R113 to R116): the operations on words read as numbers, what each shared form of scalar instruction does, and the
statements about Tables 6.1 and 6.2. -/

namespace Sys2Proof.Machine

/-! ## Operations on words, as operations on numbers -/

theorem ofInt64_toInt (x : Word) : ofInt64 x.toInt = x := BitVec.ofInt_toInt

theorem ofNat64_toNat (x : Word) : ofNat64 x.toNat = x := (BitVec.ofNat_toNat 64 x).trans (BitVec.setWidth_eq x)

theorem toInt_ofInt64 (k : Int) : (ofInt64 k).toInt = k.bmod (2 ^ 64) := BitVec.toInt_ofInt k

theorem toNat_ofNat64 (k : Nat) : (ofNat64 k).toNat = k % 2 ^ 64 := BitVec.toNat_ofNat k 64

/-- A word whose signed value is a number modulo 2^64 is that number as a word. -/
theorem eq_ofInt64 {x : Word} {k : Int} (h : x.toInt = k.bmod (2 ^ 64)) : x = ofInt64 k :=
  BitVec.eq_of_toInt_eq (h.trans (toInt_ofInt64 k).symm)

/-- A word whose unsigned value is a number modulo 2^64 is that number as a word. -/
theorem eq_ofNat64 {x : Word} {k : Nat} (h : x.toNat = k % 2 ^ 64) : x = ofNat64 k :=
  BitVec.eq_of_toNat_eq (h.trans (toNat_ofNat64 k).symm)

theorem eq_zero_iff_toNat (y : Word) : y = 0 ↔ y.toNat = 0 := BitVec.toNat_inj.symm

theorem add_eq_ofNat64 (x y : Word) : x + y = ofNat64 (x.toNat + y.toNat) := eq_ofNat64 (BitVec.toNat_add x y)

theorem sub_eq_ofInt64 (x y : Word) : x - y = ofInt64 (x.toInt - y.toInt) := eq_ofInt64 BitVec.toInt_sub

theorem mul_eq_ofNat64 (x y : Word) : x * y = ofNat64 (x.toNat * y.toNat) := eq_ofNat64 (BitVec.toNat_mul x y)

theorem sdiv64_eq (x y : Word) : sdiv64 x y = if y.toNat = 0 then ofInt64 (-1) else ofInt64 (x.toInt.tdiv y.toInt) :=
  ite_congr (propext (eq_zero_iff_toNat y)) (fun _ => rfl) fun _ => (eq_ofInt64 (BitVec.toInt_sdiv x y))

theorem udiv64_eq (x y : Word) : udiv64 x y = if y.toNat = 0 then ofInt64 (-1) else ofNat64 (x.toNat / y.toNat) :=
  ite_congr (propext (eq_zero_iff_toNat y)) (fun _ => rfl) fun _ => (BitVec.toNat_udiv (x := x) (y := y) ▸ (ofNat64_toNat (x / y)).symm)

theorem srem64_eq (x y : Word) : srem64 x y = if y.toNat = 0 then x else ofInt64 (x.toInt.tmod y.toInt) :=
  ite_congr (propext (eq_zero_iff_toNat y)) (fun _ => rfl) fun _ => (BitVec.toInt_srem x y ▸ (ofInt64_toInt (x.srem y)).symm)

theorem urem64_eq (x y : Word) : urem64 x y = if y.toNat = 0 then x else ofNat64 (x.toNat % y.toNat) :=
  ite_congr (propext (eq_zero_iff_toNat y)) (fun _ => rfl) fun _ => (BitVec.toNat_umod (x := x) (y := y) ▸ (ofNat64_toNat (x % y)).symm)

theorem shiftLeft_eq_ofNat64 (x : Word) (n : Nat) : x <<< n = ofNat64 (x.toNat * 2 ^ n) :=
  eq_ofNat64 (by rw [BitVec.toNat_shiftLeft, Nat.shiftLeft_eq])

theorem shiftRight_eq_ofNat64 (x : Word) (n : Nat) : x >>> n = ofNat64 (x.toNat / 2 ^ n) := by
  rw [← Nat.shiftRight_eq_div_pow, ← BitVec.toNat_ushiftRight, ofNat64_toNat]

theorem sshiftRight_eq_ofInt64 (x : Word) (n : Nat) : x.sshiftRight n = ofInt64 (x.toInt / 2 ^ n) := by
  have h : (x.sshiftRight n).toInt = x.toInt / 2 ^ n := by
    rw [BitVec.toInt_sshiftRight, Int.shiftRight_eq_div_pow, Int.natCast_pow]; rfl
  rw [← h, ofInt64_toInt]

theorem shl64_eq (x y : Word) : shl64 x y = if 64 ≤ y.toNat then 0 else ofNat64 (x.toNat * 2 ^ y.toNat) :=
  ite_congr rfl (fun _ => rfl) fun _ => shiftLeft_eq_ofNat64 x y.toNat

theorem shr64_eq (x y : Word) : shr64 x y = if 64 ≤ y.toNat then 0 else ofNat64 (x.toNat / 2 ^ y.toNat) :=
  ite_congr rfl (fun _ => rfl) fun _ => shiftRight_eq_ofNat64 x y.toNat

/-- Shifted right by 63 places, a word holds copies of its sign. -/
theorem toInt_div_two_pow_63 (x : Word) : x.toInt / 2 ^ 63 = if x.toInt < 0 then -1 else 0 := by
  have hl : -2 ^ 63 ≤ x.toInt := BitVec.le_toInt x
  have hu : x.toInt < 2 ^ 63 := BitVec.toInt_lt
  split <;> omega

theorem sar64_eq (x y : Word) : sar64 x y
    = if 64 ≤ y.toNat then (if x.toInt < 0 then ofInt64 (-1) else 0) else ofInt64 (x.toInt / 2 ^ y.toNat) := by
  rw [sar64, sshiftRight_eq_ofInt64]
  split
  · next h =>
    rw [Nat.min_eq_right (by omega), toInt_div_two_pow_63, apply_ite ofInt64]
    rfl
  · next h => rw [Nat.min_eq_left (by omega)]

/-- The lesser by the signed order. -/
theorem smin_eq (x y : Word) : (if y.slt x then y else x) = ofInt64 (min x.toInt y.toInt) := by
  simp only [BitVec.slt_iff_toInt_lt]
  split
  · next h => rw [Int.min_eq_right (Int.le_of_lt h), ofInt64_toInt]
  · next h => rw [Int.min_eq_left (Int.not_lt.1 h), ofInt64_toInt]

/-- The greater by the signed order. -/
theorem smax_eq (x y : Word) : (if x.slt y then y else x) = ofInt64 (max x.toInt y.toInt) := by
  simp only [BitVec.slt_iff_toInt_lt]
  split
  · next h => rw [Int.max_eq_right (Int.le_of_lt h), ofInt64_toInt]
  · next h => rw [Int.max_eq_left (Int.not_lt.1 h), ofInt64_toInt]

/-- The lesser by the unsigned order. -/
theorem umin_eq (x y : Word) : (if y.ult x then y else x) = ofNat64 (min x.toNat y.toNat) := by
  simp only [BitVec.ult_iff_toNat_lt]
  split
  · next h => rw [Nat.min_eq_right (Nat.le_of_lt h), ofNat64_toNat]
  · next h => rw [Nat.min_eq_left (Nat.not_lt.1 h), ofNat64_toNat]

/-- The greater by the unsigned order. -/
theorem umax_eq (x y : Word) : (if x.ult y then y else x) = ofNat64 (max x.toNat y.toNat) := by
  simp only [BitVec.ult_iff_toNat_lt]
  split
  · next h => rw [Nat.max_eq_right (Nat.le_of_lt h), ofNat64_toNat]
  · next h => rw [Nat.max_eq_left (Nat.not_lt.1 h), ofNat64_toNat]

/-! ## Bit counts -/

theorem bit_eq_testBit (x i : Nat) : bit x i = x.testBit i := by
  rw [bit, Nat.testBit_eq_decide_div_mod_eq]; rfl

/-- Of the first `n` numbers, a condition that holds below `k` and nowhere else holds of `k`. -/
theorem countP_range_of_iff_lt {p : Nat → Bool} {n k : Nat} (hk : k ≤ n) (h : ∀ i < n, p i = true ↔ i < k) :
    (List.range n).countP p = k := by
  obtain ⟨m, rfl⟩ := Nat.exists_eq_add_of_le hk
  have hlow : (List.range k).countP p = k := by
    rw [List.countP_eq_length.2 fun i hi => (h i (by have := List.mem_range.1 hi; omega)).2 (List.mem_range.1 hi), List.length_range]
  have hhigh : ((List.range m).map (k + ·)).countP p = 0 := by
    refine List.countP_eq_zero.2 fun i hi hp => ?_
    obtain ⟨j, hj, rfl⟩ := List.mem_map.1 hi
    have := (h (k + j) (by have := List.mem_range.1 hj; omega)).1 hp
    omega
  rw [List.range_add, List.countP_append, hlow, hhigh, Nat.add_zero]

theorem popcount_eq (x : Word) : popcount 64 x.toNat = (List.range 64).countP fun i => x.getLsbD i := by
  rw [popcount, List.countP_eq_length_filter]
  simp only [bit_eq_testBit, BitVec.getLsbD]

theorem leadingZeros_eq (x : Word) : leadingZeros 64 x.toNat = (List.range 64).countP fun i => decide (x.toNat < 2 ^ (63 - i)) := by
  symm
  rw [leadingZeros]
  split
  · next h =>
    refine countP_range_of_iff_lt (Nat.le_refl 64) fun i hi => ?_
    rw [h, decide_eq_true_iff]
    exact iff_of_true (Nat.two_pow_pos _) hi
  · next h =>
    refine countP_range_of_iff_lt (by omega) fun i hi => ?_
    rw [decide_eq_true_iff, ← Nat.log2_lt h]
    omega

/-- A power of two divides a number exactly if the bits below it are zero. -/
theorem mod_two_pow_eq_zero_iff (x n : Nat) : x % 2 ^ n = 0 ↔ ∀ j < n, x.testBit j = false := by
  constructor
  · intro h j hj
    have hb := Nat.testBit_mod_two_pow x n j
    rw [h, Nat.zero_testBit, decide_eq_true hj, Bool.true_and] at hb
    exact hb.symm
  · intro h
    refine Nat.eq_of_testBit_eq fun j => ?_
    rw [Nat.testBit_mod_two_pow, Nat.zero_testBit]
    by_cases hj : j < n
    · rw [h j hj, Bool.and_false]
    · rw [decide_eq_false hj, Bool.false_and]

theorem trailingZeros_eq (x : Word) :
    trailingZeros 64 x.toNat = (List.range 64).countP fun i => decide (x.toNat % 2 ^ (i + 1) = 0) := by
  symm
  rw [trailingZeros]
  simp only [bit_eq_testBit]
  cases hf : (List.range 64).find? fun i => x.toNat.testBit i with
  | none =>
    have hz := List.find?_range_eq_none.1 hf
    refine countP_range_of_iff_lt (Nat.le_refl 64) fun i hi => ?_
    rw [decide_eq_true_iff, mod_two_pow_eq_zero_iff]
    exact ⟨fun _ => hi, fun _ j hj => (Bool.not_eq_true' _).mp (hz j (by omega))⟩
  | some k =>
    obtain ⟨hk, hmem, hlow⟩ := List.find?_range_eq_some.1 hf
    have hlt := List.mem_range.1 hmem
    rw [Option.getD_some]
    refine countP_range_of_iff_lt (Nat.le_of_lt hlt) fun i _ => ?_
    rw [decide_eq_true_iff, mod_two_pow_eq_zero_iff]
    refine ⟨fun h => ?_, fun h j hj => (Bool.not_eq_true' _).mp (hlow j (by omega))⟩
    refine Nat.lt_of_not_le fun hki => ?_
    rw [h k (by omega)] at hk
    exact Bool.false_ne_true hk

/-! ## Immediates (R46, R116) -/

theorem add_sext14_eq (x : Word) (i : BitVec 14) : x + sext14 i = ofInt64 (x.toInt + i.toInt) := by
  rw [ofInt64, BitVec.ofInt_add, BitVec.ofInt_toInt]; rfl

theorem zext14_eq (i : BitVec 14) : zext14 i = ofNat64 i.toNat := (BitVec.ofNat_toNat 64 i).symm

/-- Bits 31 to 12 from an immediate and sign extension are a product by 4096. -/
theorem signExtend_shiftLeft_12_eq (j : BitVec 20) : (j.setWidth 32 <<< 12).signExtend 64 = ofInt64 (j.toInt * 4096) := by
  have h : (j.setWidth 32 <<< 12).toInt = j.toInt * 4096 := by
    rw [BitVec.toInt_shiftLeft, BitVec.toNat_setWidth, Nat.shiftLeft_eq, BitVec.toInt_eq_toNat_bmod]
    have := j.isLt
    simp only [Int.bmod_def]
    omega
  rw [← h]; rfl

theorem signExtend_mul_4_eq (j : BitVec 20) : j.signExtend 64 * 4 = ofInt64 (4 * j.toInt) := by
  rw [Int.mul_comm, ofInt64, BitVec.ofInt_mul]; rfl

/-! ## What the scalar register forms do -/

/-- A word takes effect, and the scalar stream goes on: one g register holds a value, and nothing else has changed. -/
def WritesG (i : Instr) (d : Fin 64) (v : Word) (s : State) : Prop :=
  ∃ t, exec i s = .next t ∧ Went (s.ag.spc + 4) [d] [] s t ∧ t.gIs d v

section Forms
variable {s : State} {d a b : Fin 64} {i : Instr} {v : Word}

/-- An instruction that writes one register writes it once no queued entry makes it wait (R32). -/
theorem writes_of_scoreboard {gr : BitVec 64} (f : Agent → Word) (h : s.ag.hazard gr (gBit d) 0 0 = false)
    (hi : exec i s = scoreboard gr (gBit d) 0 0 s fun s => .next (s.modAg fun x => x.setG d (f x)).goNext) (hv : f s.ag = v) :
    WritesG i d v s :=
  ⟨_, hi.trans (scoreboard_free _ h), hv ▸ went_setG s d (f s.ag)⟩

/-- An instruction of two operands writes its function of them. -/
theorem writes_of_alu (f : Word → Word → Word) (h : s.ag.hazard (gBit a ||| gBit b) (gBit d) 0 0 = false)
    (hi : exec i s = alu d a b f s) (hv : f (s.ag.getG a) (s.ag.getG b) = v) : WritesG i d v s :=
  writes_of_scoreboard (fun x => f (x.getG a) (x.getG b)) h hi hv

/-- An instruction of one operand writes its function of it. -/
theorem writes_of_alu1 (f : Word → Word) (h : s.ag.hazard (gBit a) (gBit d) 0 0 = false) (hi : exec i s = alu1 d a f s)
    (hv : f (s.ag.getG a) = v) : WritesG i d v s :=
  writes_of_scoreboard (fun x => f (x.getG a)) h hi hv

/-- An instruction of two operands waits, with nothing changed, while a queued entry uses its registers (R32). -/
theorem held_of_alu (f : Word → Word → Word) (h : s.ag.hazard (gBit a ||| gBit b) (gBit d) 0 0 = true)
    (hi : exec i s = alu d a b f s) : exec i s = .next s := by
  rw [hi, alu, scoreboard, if_pos h, wait]

theorem WritesG.value (h : WritesG i d v s) : ∃ t, exec i s = .next t ∧ t.gIs d v := by
  obtain ⟨t, ht, -, hv⟩ := h
  exact ⟨t, ht, hv⟩

/-- A scalar instruction that only goes on leaves the float flags as they were. -/
theorem Went.fpflags_eq {pc : Word} {gs : List (Fin 64)} {qs : List (Fin 8)} {s t : State} (h : Went pc gs qs s t) :
    t.ag.fpflags = s.ag.fpflags := by
  rw [h.1]

theorem WritesG.flags (h : WritesG i d v s) :
    ∃ t, exec i s = .next t ∧ Went (s.ag.spc + 4) [d] [] s t ∧ t.ag.fpflags = s.ag.fpflags := by
  obtain ⟨t, ht, hw, -⟩ := h
  exact ⟨t, ht, hw, hw.fpflags_eq⟩

end Forms

/-! ## Table 6.1 -/

section Table61
variable {s : State} {d a b : Fin 64}

section TwoOperands
variable (h : s.ag.hazard (gBit a ||| gBit b) (gBit d) 0 0 = false)
include h

theorem sdiv_writes : WritesG (.sdiv d a b) d
    (if (s.ag.getG b).toNat = 0 then ofInt64 (-1) else ofInt64 ((s.ag.getG a).toInt.tdiv (s.ag.getG b).toInt)) s :=
  writes_of_alu sdiv64 h rfl (sdiv64_eq _ _)

theorem sdivu_writes : WritesG (.sdivu d a b) d
    (if (s.ag.getG b).toNat = 0 then ofInt64 (-1) else ofNat64 ((s.ag.getG a).toNat / (s.ag.getG b).toNat)) s :=
  writes_of_alu udiv64 h rfl (udiv64_eq _ _)

theorem srem_writes : WritesG (.srem d a b) d
    (if (s.ag.getG b).toNat = 0 then s.ag.getG a else ofInt64 ((s.ag.getG a).toInt.tmod (s.ag.getG b).toInt)) s :=
  writes_of_alu srem64 h rfl (srem64_eq _ _)

theorem sremu_writes : WritesG (.sremu d a b) d
    (if (s.ag.getG b).toNat = 0 then s.ag.getG a else ofNat64 ((s.ag.getG a).toNat % (s.ag.getG b).toNat)) s :=
  writes_of_alu urem64 h rfl (urem64_eq _ _)

/-- Every row of two operands writes its result. -/
theorem aluTable_writes : ∀ p ∈ aluTable, WritesG (p.1 d a b) d (p.2 (s.ag.getG a) (s.ag.getG b)) s := by
  simp only [aluTable, List.forall_mem_cons]
  refine ⟨?sadd, ?ssub, ?smul, ?smulh, ?smulhu, sdiv_writes h, sdivu_writes h, srem_writes h, sremu_writes h,
    ?sand, ?sor, ?sxor, ?sandn, ?sshl, ?sshr, ?ssar, ?smin, ?smax, ?sminu, ?smaxu, fun _ hx => absurd hx List.not_mem_nil⟩
  case sadd => exact writes_of_alu (· + ·) h rfl (add_eq_ofNat64 _ _)
  case ssub => exact writes_of_alu (· - ·) h rfl (sub_eq_ofInt64 _ _)
  case smul => exact writes_of_alu (· * ·) h rfl (mul_eq_ofNat64 _ _)
  case smulh => exact writes_of_alu mulh64 h rfl rfl
  case smulhu => exact writes_of_alu mulhu64 h rfl rfl
  case sand => exact writes_of_alu (· &&& ·) h rfl rfl
  case sor => exact writes_of_alu (· ||| ·) h rfl rfl
  case sxor => exact writes_of_alu (· ^^^ ·) h rfl rfl
  case sandn => exact writes_of_alu (fun x y => x &&& ~~~y) h rfl rfl
  case sshl => exact writes_of_alu shl64 h rfl (shl64_eq _ _)
  case sshr => exact writes_of_alu shr64 h rfl (shr64_eq _ _)
  case ssar => exact writes_of_alu sar64 h rfl (sar64_eq _ _)
  case smin => exact writes_of_alu (fun x y => if y.slt x then y else x) h rfl (smin_eq _ _)
  case smax => exact writes_of_alu (fun x y => if x.slt y then y else x) h rfl (smax_eq _ _)
  case sminu => exact writes_of_alu (fun x y => if y.ult x then y else x) h rfl (umin_eq _ _)
  case smaxu => exact writes_of_alu (fun x y => if x.ult y then y else x) h rfl (umax_eq _ _)

end TwoOperands

/-- Every bit count writes its result. -/
theorem countTable_writes (h : s.ag.hazard (gBit a) (gBit d) 0 0 = false) :
    ∀ p ∈ countTable, WritesG (p.1 d a) d (ofNat64 (p.2 (s.ag.getG a))) s := by
  simp only [countTable, List.forall_mem_cons]
  refine ⟨?spopc, ?sclz, ?sctz, fun _ hx => absurd hx List.not_mem_nil⟩
  case spopc => exact writes_of_alu1 (fun x => ofNat64 (popcount 64 x.toNat)) h rfl (congrArg ofNat64 (popcount_eq _))
  case sclz => exact writes_of_alu1 (fun x => ofNat64 (leadingZeros 64 x.toNat)) h rfl (congrArg ofNat64 (leadingZeros_eq _))
  case sctz => exact writes_of_alu1 (fun x => ofNat64 (trailingZeros 64 x.toNat)) h rfl (congrArg ofNat64 (trailingZeros_eq _))

end Table61

/-! ## Division (R114) -/

/-- The four divisions of two registers into a third. -/
def divisions (d a b : Fin 64) : List Instr := [.sdiv d a b, .sdivu d a b, .srem d a b, .sremu d a b]

section Division
variable {s : State} {d a b : Fin 64}

/-- A division waits while a queued entry uses its registers. -/
theorem divisions_held (h : s.ag.hazard (gBit a ||| gBit b) (gBit d) 0 0 = true) : ∀ i ∈ divisions d a b, exec i s = .next s := by
  simp only [divisions, List.forall_mem_cons]
  exact ⟨held_of_alu sdiv64 h rfl, held_of_alu udiv64 h rfl, held_of_alu srem64 h rfl, held_of_alu urem64 h rfl,
    fun _ hx => absurd hx List.not_mem_nil⟩

section Free
variable (h : s.ag.hazard (gBit a ||| gBit b) (gBit d) 0 0 = false)
include h

/-- A division that need not wait writes one register, whatever its operands, and raises no flag. -/
theorem divisions_flags : ∀ i ∈ divisions d a b,
    ∃ t, exec i s = .next t ∧ Went (s.ag.spc + 4) [d] [] s t ∧ t.ag.fpflags = s.ag.fpflags := by
  simp only [divisions, List.forall_mem_cons]
  exact ⟨(sdiv_writes h).flags, (sdivu_writes h).flags, (srem_writes h).flags, (sremu_writes h).flags, fun _ hx => absurd hx List.not_mem_nil⟩

/-- By zero the quotient is all ones. -/
theorem quotients_by_zero (hb : s.ag.getG b = 0) :
    ∀ i ∈ [Instr.sdiv d a b, .sdivu d a b], ∃ t, exec i s = .next t ∧ t.gIs d (ofInt64 (-1)) := by
  have hz := (eq_zero_iff_toNat _).1 hb
  have hs := sdiv_writes h
  have hu := sdivu_writes h
  rw [if_pos hz] at hs hu
  simp only [List.forall_mem_cons]
  exact ⟨hs.value, hu.value, fun _ hx => absurd hx List.not_mem_nil⟩

/-- By zero the remainder is the dividend. -/
theorem remainders_by_zero (hb : s.ag.getG b = 0) :
    ∀ i ∈ [Instr.srem d a b, .sremu d a b], ∃ t, exec i s = .next t ∧ t.gIs d (s.ag.getG a) := by
  have hz := (eq_zero_iff_toNat _).1 hb
  have hs := srem_writes h
  have hu := sremu_writes h
  rw [if_pos hz] at hs hu
  simp only [List.forall_mem_cons]
  exact ⟨hs.value, hu.value, fun _ hx => absurd hx List.not_mem_nil⟩

/-- The quotient of the most negative number by -1 does not fit and wraps round to the dividend; the remainder is 0. -/
theorem division_overflow (ha : s.ag.getG a = ofInt64 (-2 ^ 63)) (hb : s.ag.getG b = ofInt64 (-1)) :
    (∃ t, exec (.sdiv d a b) s = .next t ∧ t.gIs d (ofInt64 (-2 ^ 63))) ∧ ∃ t, exec (.srem d a b) s = .next t ∧ t.gIs d 0 :=
  ⟨(writes_of_alu sdiv64 h rfl (by rw [ha, hb]; decide)).value, (writes_of_alu srem64 h rfl (by rw [ha, hb]; decide)).value⟩

end Free
end Division

/-! ## Reserved bits -/

theorem decodeScalarRaw_alu {w bm : Nat} (h : bits w 31 26 = 0) : decodeScalarRaw w bm = decodeAlu w := by
  simp only [decodeScalarRaw, h]

/-- A field of reserved bits that is not zero makes the word no instruction (R42). -/
theorem reserved_error {f : Nat} (h : f ≠ 0) (i : Except DecodeError Instr) : reserved f i = .error .reserved := if_neg h

theorem decodeScalar_of_reserved {w bm : Nat} (h : decodeScalarRaw w bm = .error .reserved) : ∃ e, decodeScalar w bm = .error e :=
  ⟨.reserved, by rw [decodeScalar, h]; rfl⟩

/-- A bit count has no second operand, so its gb field is reserved. -/
theorem decodeAlu_count_reserved {w : Nat} (h : bits w 7 0 ∈ [0x28, 0x29, 0x2A]) (hb : bits w 13 8 ≠ 0) :
    decodeAlu w = .error .reserved := by
  simp only [List.mem_cons, List.not_mem_nil, or_false] at h
  rcases h with h | h | h <;> simp only [decodeAlu, h, reserved_error hb]

/-- A shift by an immediate has a count of six bits, so the other eight are reserved (R115). -/
theorem decodeScalarRaw_shift_reserved {w bm : Nat} (h : bits w 31 26 ∈ [5, 6, 7]) (hb : bits w 13 6 ≠ 0) :
    decodeScalarRaw w bm = .error .reserved := by
  simp only [List.mem_cons, List.not_mem_nil, or_false] at h
  rcases h with h | h | h <;> simp only [decodeScalarRaw, h, reserved_error hb]

/-! ## Table 6.2, SLUI and SLPC -/

section Table62
variable {s : State} {d a : Fin 64}

/-- Every row with a 14-bit immediate writes its result. -/
theorem immTable_writes (i : BitVec 14) (h : s.ag.hazard (gBit a) (gBit d) 0 0 = false) :
    ∀ p ∈ immTable, WritesG (p.1 d a i) d (p.2 (s.ag.getG a) i) s := by
  simp only [immTable, List.forall_mem_cons]
  refine ⟨?saddi, ?sandi, ?sori, ?sxori, fun _ hx => absurd hx List.not_mem_nil⟩
  case saddi => exact writes_of_alu1 (· + sext14 i) h rfl (add_sext14_eq _ i)
  case sandi => exact writes_of_alu1 (· &&& zext14 i) h rfl (congrArg (_ &&& ·) (zext14_eq i))
  case sori => exact writes_of_alu1 (· ||| zext14 i) h rfl (congrArg (_ ||| ·) (zext14_eq i))
  case sxori => exact writes_of_alu1 (· ^^^ zext14 i) h rfl (congrArg (_ ^^^ ·) (zext14_eq i))

/-- Every shift by an immediate writes its result. -/
theorem immShiftTable_writes (n : Fin 64) (h : s.ag.hazard (gBit a) (gBit d) 0 0 = false) :
    ∀ p ∈ immShiftTable, WritesG (p.1 d a n) d (p.2 (s.ag.getG a) n.val) s := by
  simp only [immShiftTable, List.forall_mem_cons]
  refine ⟨?sshli, ?sshri, ?ssari, fun _ hx => absurd hx List.not_mem_nil⟩
  case sshli => exact writes_of_alu1 (· <<< n.val) h rfl (shiftLeft_eq_ofNat64 _ n.val)
  case sshri => exact writes_of_alu1 (· >>> n.val) h rfl (shiftRight_eq_ofNat64 _ n.val)
  case ssari => exact writes_of_alu1 (·.sshiftRight n.val) h rfl (sshiftRight_eq_ofInt64 _ n.val)

theorem slui_writes (j : BitVec 20) (h : s.ag.hazard 0 (gBit d) 0 0 = false) : WritesG (.slui d j) d (ofInt64 (j.toInt * 4096)) s :=
  writes_of_scoreboard (fun _ => (j.setWidth 32 <<< 12).signExtend 64) h rfl (signExtend_shiftLeft_12_eq j)

theorem slpc_writes (j : BitVec 20) (h : s.ag.hazard 0 (gBit d) 0 0 = false) :
    WritesG (.slpc d j) d (s.ag.spc + ofInt64 (4 * j.toInt)) s :=
  writes_of_scoreboard (fun x => x.spc + j.signExtend 64 * 4) h rfl (congrArg (s.ag.spc + ·) (signExtend_mul_4_eq j))

end Table62

/-! ## The obligations -/

theorem aluResults_claim : Claims.AluResults :=
  ⟨fun _ _ hop hfn hb => decodeScalar_of_reserved ((decodeScalarRaw_alu hop).trans (decodeAlu_count_reserved hfn hb)),
   fun _ _ _ _ => ⟨aluTable_writes, countTable_writes⟩⟩

theorem divisionEdges_claim : Claims.DivisionEdges :=
  fun _ _ _ _ => ⟨divisions_held, fun h =>
    ⟨divisions_flags h, fun hb => ⟨quotients_by_zero h hb, remainders_by_zero h hb⟩, division_overflow h⟩⟩

/-- Settles O1: each row of Table 6.1 runs through one of the two register forms, and its function of words is the table's function of numbers. -/
theorem aluResults : Obligations.AluResults := ⟨aluResults_claim, divisionEdges_claim⟩

/-- Settles O2: likewise for Table 6.2, with SLUI and SLPC, which read no register. -/
theorem immediateResults : Obligations.ImmediateResults :=
  ⟨fun _ _ hop hb => decodeScalar_of_reserved (decodeScalarRaw_shift_reserved hop hb),
   fun _ _ _ n i j => ⟨fun h => ⟨immTable_writes i h, immShiftTable_writes n h⟩, fun h => ⟨slui_writes j h, slpc_writes j h⟩⟩⟩

end Sys2Proof.Machine

/-! SUPPORT. The return from a trap handler (R356): when ERET waits, what it does in each case once the lane queue is empty, and the statement about
it. -/

namespace Sys2Proof.Machine

section WaitingForTheQueue
variable {s : State}

theorem State.drained_iff : s.drained = true ↔ s.ag.queue = [] := List.isEmpty_iff

/-- An instruction that needs an empty lane queue waits, with nothing changed, while an entry has yet to take effect (R348). -/
theorem whenDrained_busy (f : State → Out) (h : s.ag.queue ≠ []) : whenDrained s f = .next s :=
  if_neg (mt State.drained_iff.1 h)

end WaitingForTheQueue

/-! ## The cases of the return -/

section Return
variable {s : State}

/-- The entry of the region that sr.fault names: its RPC field counts from SBASE (Table 15.2). -/
def State.faultEntry (s : State) : Word := s.tm.pkt.sbase + ofNat64 (bits s.ag.fault.toNat 63 16)

/-- With sr.fault.NR set the region cannot be re-executed, and the return ends the team. -/
theorem State.returnFromTrap_of_nr (h : bit s.ag.fault.toNat 9 = true) :
    s.returnFromTrap = s.terminateTeam s.tm.id (BitVec.ofNat 8 (bits s.ag.fault.toNat 7 0)) :=
  if_pos h

/-- With sr.fault.NR clear the region is entered again; its counter and every other part of the state stay. -/
theorem State.returnFromTrap_of_not_nr (h : bit s.ag.fault.toNat 9 = false) :
    s.returnFromTrap = { s with ag := { s.ag with
      trapMode := false, spc := s.faultEntry, reg := { s.ag.reg with entry := s.faultEntry, nr := false },
      issued := s.ag.issued + 1, atEntry := false } } :=
  if_neg (ne_true_of_eq_false h)

/-- Outside trap mode ERET takes 0x12, whatever the lane queue holds. -/
theorem exec_eret_outside (h : s.ag.trapMode = false) : exec .eret s = fault s 0x12 s.ag.spc :=
  if_neg (ne_true_of_eq_false h)

/-- In trap mode ERET is a return that waits for the handler's own blocks. -/
theorem exec_eret_inside (h : s.ag.trapMode = true) : exec .eret s = whenDrained s fun s => .next s.returnFromTrap :=
  if_pos h

theorem exec_eret_busy (h : s.ag.trapMode = true) (hq : s.ag.queue ≠ []) : exec .eret s = .next s :=
  (exec_eret_inside h).trans (whenDrained_busy _ hq)

theorem exec_eret_returns (h : s.ag.trapMode = true) (hq : s.ag.queue = []) : exec .eret s = .next s.returnFromTrap :=
  (exec_eret_inside h).trans (whenDrained_empty _ (State.drained_iff.2 hq))

end Return

/-- Settles O6: outside trap mode ERET faults, in trap mode it waits for an empty lane queue, and then sr.fault.NR tells the end of the team from
the return to the region. -/
theorem returnFromTrap : Obligations.ReturnFromTrap := by
  intro s
  refine ⟨exec_eret_outside, exec_eret_busy, fun h hq hnr => ?ends, fun h hq hnr => ?returns⟩
  case ends => rw [exec_eret_returns h hq, State.returnFromTrap_of_nr hnr]
  case returns =>
    rw [exec_eret_returns h hq, State.returnFromTrap_of_not_nr hnr]
    exact ⟨_, rfl, rfl, rfl, rfl, rfl, rfl, rfl⟩

end Sys2Proof.Machine
